-- ==== Sys2Proof/Word.lean ====
section
/-! DEFINITION. The bit-vector widths the manual's layouts name (introduction, "Byte order"; 11, types U8, U16, U32). -/

namespace Sys2Proof

/-- A U8 of chapter 11. -/
abbrev Byte := BitVec 8

/-- A U16 of chapter 11: one word of the 16-bit bus (R158). -/
abbrev Word := BitVec 16

/-- A U32 of chapter 11: two words, low word first. -/
abbrev Long := BitVec 32

end Sys2Proof
end

