-- ==== Sys2Proof/Config.lean ====
section
/-! DEFINITION. What this implementation fixes (crystal, periods, identity) and the free values the manual leaves open.
The unit of the model's clock is one 4 MHz tick, 0.25 µs (R117), the finest tick any rule counts. -/

namespace Sys2Proof.Config

/-- Clock ticks of 0.25 µs in one microsecond of the capture time base (R2, R117). -/
def ticksPerMicro : Nat := 4

/-- Clock ticks in one millisecond of the stamp (R171). -/
def ticksPerMs : Nat := 4000

/-- The regulation period of 5 ms (R26). -/
def regulationPeriodMs : Nat := 5

/-- The scan timer's period of 2 ms (R97). -/
def scanPeriodMs : Nat := 2

/-- The sample timer's period of 1 ms (R133). -/
def samplePeriodMs : Nat := 1

/-- The age refresh of 100 ms (R130). -/
def ageRefreshMs : Nat := 100

/-- The lever settle time of 10 ms (R145). -/
def leverSettleMs : Nat := 10

/-- The ramp time of 100 ms between two rises of the output stage (R148). -/
def rampMs : Nat := 100

/-- The output monitor's window of 3 ms (R63). -/
def outputWatchMs : Nat := 3

/-- A conversion takes 16 clocks of 2 MHz, 8 µs (R95). -/
def conversionTicks : Nat := 32

/-- The identity the identity register and IDENTIFY give (R159, R180). -/
def identity : Word := 0x4610

/-- The revision IDENTIFY gives (R180). -/
def revision : Byte := 1

/-- The default standstill window in ms (R4). -/
def defaultWindow : Nat := 300

/-- FREE VALUE (log 3). The code of the conversion that ends at the tick numbered `n`: an input from outside. -/
opaque conversionCode : Nat → BitVec 12

/-- FREE VALUE (log 3). The cycles that the oscillator on the measurement counter runs in the tick numbered `n`: an input
from outside (R117, R118). -/
opaque oscillatorCycles : Nat → Nat

/-- FREE VALUE (log 4). Of the events that fall due at the tick numbered `n`, whether the `i`-th found is taken before
the `j`-th: the manual lets either order occur (R21, R27, R74, R83, R93, R107, R111, R129, R155, R173, R185). -/
opaque takenBefore : Nat → Nat → Nat → Bool

/-- FREE VALUE (log 13). What a host read returns at an address that names no word, an odd one or one above 0x4007: the manual
states nothing (R158). -/
opaque unnamedRead : Nat → Word

end Sys2Proof.Config
end

