-- ==== Sys2Proof/Syntax.lean ====
section
/-! DEFINITION. The commands: one constructor of `Instr` for each row of spec/opcode_table.json, in the table's order.
Events of timers, pins and inputs carry what the event brings; host writes carry the word written; requests carry the
tag and the raw fields of the frame that is taken (11.4), out-of-range values included. -/

namespace Sys2Proof

/-- The two solenoids of a modulator (11.1: 0 inlet, 1 vent). -/
inductive Solenoid
  | inlet
  | vent
  deriving DecidableEq, Repr

/-- A lever contact as it stands at its pin (R145). -/
inductive Contact
  | opened
  | closed
  deriving DecidableEq, Repr

/-- The four lanes, numbered 0 to 3 in this order (R157). -/
inductive LaneId
  | request
  | response
  | event
  | episode
  deriving DecidableEq, Repr

/-- The three report lanes (R157). -/
inductive ReportLane
  | response
  | event
  | episode
  deriving DecidableEq, Repr

/-- The lane a report lane is. -/
def ReportLane.lane : ReportLane → LaneId
  | .response => .response
  | .event => .event
  | .episode => .episode

/-- The raw fields of an INSTALL-CHANNEL body (11.4), as the frame carries them. -/
structure ProfileFields where
  channel : Byte
  enabled : Byte
  combine : Byte
  continuous : Byte
  driveAxle : Byte
  repeatCount : Byte
  slipEntry : Word
  slipExit : Word
  holdDecel : Word
  reaccel : Word
  ventLimit : Word
  holdLimit : Word
  applyPulse : Word
  holdInterval : Word
  deriving DecidableEq, Repr

/-- One raw curve point of a SET-CURVE body (11.4). -/
structure PointFields where
  resistance : Long
  temperature : Word
  deriving DecidableEq, Repr

/-- The commands. Indices of events are those the part itself raises, so they are bounded by their type; indices of
requests are raw bytes, because the manual answers an index out of range. -/
inductive Instr
  | toothEdge (wheel : Fin 6)
  | standstillExpiry (wheel : Fin 6)
  | regulationPeriod
  | holdLimitExpiry (channel : Fin 6)
  | ventLimitExpiry (channel : Fin 6)
  | outputProved (channel : Fin 6) (solenoid : Solenoid)
  | outputOpen (channel : Fin 6) (solenoid : Solenoid)
  | outputShort (channel : Fin 6) (solenoid : Solenoid)
  | applyExpiry (channel : Fin 6)
  | holdIntervalExpiry (channel : Fin 6)
  | onExpiry (channel : Fin 6)
  | offExpiry (channel : Fin 6)
  | scanTimerExpiry
  | entryConversionCompletion (code : BitVec 12)
  | sampleTimerExpiry
  | sampleCompletion (code : BitVec 12)
  | referenceOverflow
  | referenceTimeout
  | sensorPhaseEnd (count : BitVec 20)
  | sensorOverflow
  | drumScanExpiry
  | ageRefresh
  | leverInputChange (input1 input2 : Contact)
  | leverSettleExpiry
  | holdOffExpiry
  | rampExpiry
  | postEvent (posted : Word)
  | giveBack (lane : ReportLane) (taken : Word)
  | thresholdWrite (lane : LaneId) (threshold : Word)
  | laneRestart (lanes : BitVec 4)
  | softReset
  | collisionClear
  | attentionEnableWrite (enables : Word)
  | hostWordWrite (address value : Word)
  | powerOnReset
  | resetPin
  | resetRelease
  | identify (tag : Byte)
  | unknownKind (kind length tag : Byte)
  | arm (tag : Byte)
  | disarm (tag : Byte)
  | setReference (tag : Byte) (mode floor down up demand reservoir : Word)
  | installWheel (tag wheel channel eligible : Byte) (teeth circumference window : Word)
  | removeWheel (tag wheel : Byte)
  | clearWheel (tag wheel : Byte)
  | installChannel (tag : Byte) (fields : ProfileFields)
  | clearChannel (tag channel : Byte)
  | valveTest (tag channel solenoids repeatCount continuous : Byte) (onTime offTime : Word)
  | stopTest (tag channel : Byte)
  | setScan (tag length : Byte) (entries : Vector Byte 8)
  | setCalibration (tag input role : Byte) (zero full : Word)
  | setDrumConfig (tag : Byte) (rRef : Long) (nRef interval hot : Word) (enable : Byte)
  | setCurve (tag presence : Byte) (points : Vector PointFields 9)
  | measureDrum (tag drum : Byte)
  | setSupplyCriteria (tag : Byte) (low critical : Word)
  | setBlend (tag : Byte) (holdOff : Word) (enabled stage : Byte) (temperature demand : Word)
  deriving DecidableEq, Repr

end Sys2Proof
end

