-- ==== Sys2Proof/Decode.lean ====
section
/-! DEFINITION. Byte order, the request catalogue, and request frames read from and written as the bytes of 11.3 and 11.4.
The opcode table gives no row any bits, so `decodeTableWord` reads no command. -/

namespace Sys2Proof

/-- The low and then the high byte of a word (introduction, "Byte order"). -/
def le16 (w : Word) : List Byte := [w.extractLsb' 0 8, w.extractLsb' 8 8]

/-- The four bytes of a 32-bit field, lowest first. -/
def le32 (w : Long) : List Byte :=
  [w.extractLsb' 0 8, w.extractLsb' 8 8, w.extractLsb' 16 8, w.extractLsb' 24 8]

/-- The word whose low byte stands at offset `o`. -/
def rd16 (b : Nat → Byte) (o : Nat) : Word := b (o + 1) ++ b o

/-- The 32-bit field whose low byte stands at offset `o`. -/
def rd32 (b : Nat → Byte) (o : Nat) : Long := rd16 b (o + 2) ++ rd16 b o

/-- The eighteen kinds of the catalogue (10.5) with the length in 4-byte units each requires (11.4). -/
def requestCatalogue : List (Byte × Nat) :=
  [(0x01, 1), (0x02, 1), (0x03, 1), (0x04, 4), (0x10, 4), (0x11, 2), (0x12, 2), (0x20, 7), (0x21, 2),
   (0x28, 3), (0x29, 2), (0x30, 4), (0x31, 3), (0x40, 4), (0x41, 20), (0x42, 2), (0x50, 2), (0x60, 3)]

/-- The length a kind requires, absent for a kind not in the catalogue (R177). -/
def requiredLength (kind : Byte) : Option Nat := requestCatalogue.lookup kind

/-- The point `i` of a SET-CURVE frame. -/
def rdPoint (b : Nat → Byte) (i : Nat) : PointFields := ⟨rd32 b (8 + 8 * i), rd16 b (12 + 8 * i)⟩

/-- The request of a known kind and of the length that kind requires (11.4). -/
def decodeBody (kind tag : Byte) (b : Nat → Byte) : Instr :=
  if kind = 0x01 then .identify tag
  else if kind = 0x02 then .arm tag
  else if kind = 0x03 then .disarm tag
  else if kind = 0x04 then .setReference tag (rd16 b 4) (rd16 b 6) (rd16 b 8) (rd16 b 10) (rd16 b 12) (rd16 b 14)
  else if kind = 0x10 then .installWheel tag (b 4) (b 5) (b 6) (rd16 b 8) (rd16 b 10) (rd16 b 12)
  else if kind = 0x11 then .removeWheel tag (b 4)
  else if kind = 0x12 then .clearWheel tag (b 4)
  else if kind = 0x20 then
    .installChannel tag
      { channel := b 4, enabled := b 5, combine := b 6, continuous := b 7, driveAxle := b 8, repeatCount := b 9
        slipEntry := rd16 b 10, slipExit := rd16 b 12, holdDecel := rd16 b 14, reaccel := rd16 b 16
        ventLimit := rd16 b 18, holdLimit := rd16 b 20, applyPulse := rd16 b 22, holdInterval := rd16 b 24 }
  else if kind = 0x21 then .clearChannel tag (b 4)
  else if kind = 0x28 then .valveTest tag (b 4) (b 5) (b 6) (b 7) (rd16 b 8) (rd16 b 10)
  else if kind = 0x29 then .stopTest tag (b 4)
  else if kind = 0x30 then .setScan tag (b 4) #v[b 8, b 9, b 10, b 11, b 12, b 13, b 14, b 15]
  else if kind = 0x31 then .setCalibration tag (b 4) (b 5) (rd16 b 6) (rd16 b 8)
  else if kind = 0x40 then .setDrumConfig tag (rd32 b 4) (rd16 b 8) (rd16 b 10) (rd16 b 12) (b 14)
  else if kind = 0x41 then
    .setCurve tag (b 4)
      #v[rdPoint b 0, rdPoint b 1, rdPoint b 2, rdPoint b 3, rdPoint b 4, rdPoint b 5, rdPoint b 6, rdPoint b 7, rdPoint b 8]
  else if kind = 0x42 then .measureDrum tag (b 4)
  else if kind = 0x50 then .setSupplyCriteria tag (rd16 b 4) (rd16 b 6)
  else .setBlend tag (rd16 b 4) (b 6) (b 7) (rd16 b 8) (rd16 b 10)

/-- The judgement of a taken frame by its head (R177): the request of its kind where kind and length agree, else the
command that answers UNKNOWN_KIND or BAD_LENGTH. Byte 3 of the head is not read. -/
def decodeFrame (b : Nat → Byte) : Instr :=
  if requiredLength (b 1) = some (b 0).toNat then decodeBody (b 1) (b 2) b
  else .unknownKind (b 1) (b 0) (b 2)

/-- A request frame's head (11.3), byte 3 written 0. -/
def frameHead (length kind tag : Byte) : List Byte := [length, kind, tag, 0]

/-- The bytes of one curve point, its last word 0. -/
def encodePoint (p : PointFields) : List Byte := le32 p.resistance ++ le16 p.temperature ++ [0, 0]

/-- The bytes of a request's frame as 11.4 lays them out, unused bytes 0. A command that is no request has no frame. -/
def encodeFrame : Instr → List Byte
  | .identify tag => frameHead 1 0x01 tag
  | .unknownKind kind length tag => frameHead length kind tag
  | .arm tag => frameHead 1 0x02 tag
  | .disarm tag => frameHead 1 0x03 tag
  | .setReference tag mode floor down up demand reservoir =>
      frameHead 4 0x04 tag ++ le16 mode ++ le16 floor ++ le16 down ++ le16 up ++ le16 demand ++ le16 reservoir
  | .installWheel tag wheel channel eligible teeth circumference window =>
      frameHead 4 0x10 tag ++ [wheel, channel, eligible, 0] ++ le16 teeth ++ le16 circumference ++ le16 window ++ [0, 0]
  | .removeWheel tag wheel => frameHead 2 0x11 tag ++ [wheel, 0, 0, 0]
  | .clearWheel tag wheel => frameHead 2 0x12 tag ++ [wheel, 0, 0, 0]
  | .installChannel tag f =>
      frameHead 7 0x20 tag ++ [f.channel, f.enabled, f.combine, f.continuous, f.driveAxle, f.repeatCount]
        ++ le16 f.slipEntry ++ le16 f.slipExit ++ le16 f.holdDecel ++ le16 f.reaccel ++ le16 f.ventLimit
        ++ le16 f.holdLimit ++ le16 f.applyPulse ++ le16 f.holdInterval ++ [0, 0]
  | .clearChannel tag channel => frameHead 2 0x21 tag ++ [channel, 0, 0, 0]
  | .valveTest tag channel solenoids n continuous onTime offTime =>
      frameHead 3 0x28 tag ++ [channel, solenoids, n, continuous] ++ le16 onTime ++ le16 offTime
  | .stopTest tag channel => frameHead 2 0x29 tag ++ [channel, 0, 0, 0]
  | .setScan tag length entries => frameHead 4 0x30 tag ++ [length, 0, 0, 0] ++ entries.toList
  | .setCalibration tag input role zero full =>
      frameHead 3 0x31 tag ++ [input, role] ++ le16 zero ++ le16 full ++ [0, 0]
  | .setDrumConfig tag rRef nRef interval hot enable =>
      frameHead 4 0x40 tag ++ le32 rRef ++ le16 nRef ++ le16 interval ++ le16 hot ++ [enable, 0]
  | .setCurve tag presence points =>
      frameHead 20 0x41 tag ++ [presence, 0, 0, 0] ++ points.toList.flatMap encodePoint
  | .measureDrum tag drum => frameHead 2 0x42 tag ++ [drum, 0, 0, 0]
  | .setSupplyCriteria tag low critical => frameHead 2 0x50 tag ++ le16 low ++ le16 critical
  | .setBlend tag holdOff enabled stage temperature demand =>
      frameHead 3 0x60 tag ++ le16 holdOff ++ [enabled, stage] ++ le16 temperature ++ le16 demand
  | .toothEdge _ | .standstillExpiry _ | .regulationPeriod | .holdLimitExpiry _ | .ventLimitExpiry _
  | .outputProved _ _ | .outputOpen _ _ | .outputShort _ _ | .applyExpiry _ | .holdIntervalExpiry _ | .onExpiry _
  | .offExpiry _ | .scanTimerExpiry | .entryConversionCompletion _ | .sampleTimerExpiry | .sampleCompletion _
  | .referenceOverflow | .referenceTimeout | .sensorPhaseEnd _ | .sensorOverflow | .drumScanExpiry | .ageRefresh
  | .leverInputChange _ _ | .leverSettleExpiry | .holdOffExpiry | .rampExpiry | .postEvent _ | .giveBack _ _
  | .thresholdWrite _ _ | .laneRestart _ | .softReset | .collisionClear | .attentionEnableWrite _
  | .hostWordWrite _ _ | .powerOnReset | .resetPin | .resetRelease => []

/-- Whether a command is the take of a request frame (the table's last nineteen rows). -/
def Instr.isRequest (i : Instr) : Bool := !(encodeFrame i).isEmpty

/-- The byte at offset `o` of a frame held as a list, 0 past its end. -/
def frameByte (bytes : List Byte) (o : Nat) : Byte := bytes.getD o 0

/-- Whether an address names a word of the map (R157): an even byte address, 0x0000 to 0x4006. -/
def namesWord (a : Nat) : Bool := a % 2 == 0 && decide (a ≤ 0x4006)

/-- A word of the map as a bus cycle addresses it (R157). -/
def isBusWord (a : Word) : Bool := namesWord a.toNat

/-- The words whose host write is a row of its own: posted count, taken counts, thresholds, run control, attention
status and attention enable. -/
def hasOwnRow (a : Word) : Bool :=
  decide (a ∈ ([0x0002, 0x0016, 0x0026, 0x0036, 0x000E, 0x001E, 0x002E, 0x003E, 0x4002, 0x4004, 0x4006] : List Word))

/-- The command a word spells by the table's bits: the table gives no row any bits. -/
def decodeTableWord (_nbits _w : Nat) : Option Instr := none

end Sys2Proof
end

