-- ==== Sys2Proof/Machine/State.lean ====
section
/-! DEFINITION. Every piece of state the manual gives the part, as plain data, with its value after a reset.
Times are read from one clock of 0.25 µs ticks since the reset (log 1). A timer is `none` while stopped, else the clock
reading at which it expires. -/

namespace Sys2Proof.Machine

/-- Why the part stops. -/
inductive Fault
  /-- Raised by HOST_WORD_WRITE for an odd address or one above 0x4007, which name no word of the map (R157). Safe: the
  manual gives such a bus cycle no effect, and the model stops there. -/
  | noSuchWord
  deriving DecidableEq, Repr

/-- Why a command has no meaning. -/
inductive Refusal
  /-- Raised by an arm of `exec` whose command has no meaning yet; no arm does. Safe: the model stops. -/
  | notModelled (mnemonic : String)
  deriving DecidableEq, Repr

/-! ### Wheel Capture Unit (R1) -/

/-- The wheel record (R1), with K (R5). -/
structure WheelRecord where
  teeth : Nat
  circumference : Nat
  channel : Fin 6
  eligible : Bool
  window : Nat
  k : Nat
  deriving DecidableEq, Repr

/-- The wheel states of R1. -/
inductive WheelState
  | off
  | stopped
  | starting
  | rolling
  | suspect
  deriving DecidableEq, Repr

/-- The divisor D: 1, 4 or 16 (R1). -/
inductive Divisor
  | one
  | four
  | sixteen
  deriving DecidableEq, Repr

/-- The capture state of R1; `standstill` is the standstill timer. Its defaults are the cleared values. -/
structure Capture where
  divisor : Divisor := .one
  teeth : Nat := 0
  lastTooth : Option Long := none
  lastCapture : Option Long := none
  pAcc : Nat := 0
  candidate : Option Nat := none
  strikes : Nat := 0
  vCap : Nat := 0
  standstill : Option Nat := none
  deriving DecidableEq, Repr

/-- A wheel's entry (R1). -/
structure Wheel where
  record : Option WheelRecord := none
  state : WheelState := .off
  capture : Capture := {}
  deriving DecidableEq, Repr

/-! ### Regulator (R25) -/

/-- The assignment mode (R25). -/
inductive Mode
  | direct
  | grouped
  deriving DecidableEq, Repr

/-- The five reference settings, at the defaults of R43. -/
structure Settings where
  floor : Nat := 500
  downLimit : Nat := 14
  upLimit : Nat := 9
  demandThreshold : Nat := 30
  reservoirLow : Nat := 550
  deriving DecidableEq, Repr

/-- A wheel's period results (R25); `previous` is the previous effective speed, or none. -/
structure WheelFigures where
  slip : Nat := 0
  accel : Int := 0
  previous : Option Nat := none
  deriving DecidableEq, Repr

/-- The assignment outcome (R34). -/
inductive Assignment
  | unassigned
  | governed
  | sensorless
  deriving DecidableEq, Repr

/-- A channel's period results (R25). -/
structure ChannelFigures where
  outcome : Assignment := .unassigned
  governing : Option (Fin 6) := none
  slip : Nat := 0
  accel : Int := 0
  deriving DecidableEq, Repr

/-- Why braking is absent (R37). -/
inductive AbsenceCause
  | disarmed
  | supply
  | lowSpeed
  | released
  deriving DecidableEq, Repr

/-- The Regulator's state (R25). `absence` is none exactly while braking is present. -/
structure Regulator where
  armed : Bool := false
  mode : Mode := .direct
  settings : Settings := {}
  pendingSettings : Option Settings := none
  vref : Nat := 0
  wheels : Vector WheelFigures 6 := Vector.replicate 6 {}
  channels : Vector ChannelFigures 6 := Vector.replicate 6 {}
  absence : Option AbsenceCause := some .disarmed
  periodDue : Nat := Config.regulationPeriodMs * Config.ticksPerMs
  deriving DecidableEq, Repr

/-! ### Modulation Channels and Pulse Generator (R47, R77) -/

/-- The combine rule (R35). -/
inductive Combine
  | selectLow
  | selectHigh
  deriving DecidableEq, Repr

/-- An installed channel profile: the fields of R49 but the channel index, defaults substituted. -/
structure Profile where
  enabled : Bool
  combine : Combine
  slipEntry : Nat
  slipExit : Nat
  holdDecel : Int
  reaccel : Int
  ventLimit : Nat
  holdLimit : Nat
  applyPulse : Nat
  holdInterval : Nat
  repeatCount : Nat
  continuous : Bool
  driveAxle : Bool
  deriving DecidableEq, Repr

/-- The channel states (R47). -/
inductive ChannelState
  | idle
  | pass
  | hold
  | vent
  | reapply
  | test
  | lockout
  deriving DecidableEq, Repr

/-- Why a channel is locked out (R47). -/
inductive LockoutCause
  | sensors
  | ventLimit
  | outputOpen
  | outputShort
  deriving DecidableEq, Repr

/-- Why an episode closes (R73). -/
inductive CloseReason
  | released
  | lowSpeed
  | disarmed
  | lockout
  | supply
  deriving DecidableEq, Repr

/-- An open episode's fields (R71); the channel is the one that holds it. -/
structure Episode where
  openStamp : Long
  vrefAtOpen : Nat
  governing : Option (Fin 6)
  peakSlip : Nat
  reservoir : Option Nat
  hottest : Option Int
  ventPhases : Nat := 0
  holdPhases : Nat := 0
  ventTime : Nat := 0
  trains : Nat := 0
  pulses : Nat := 0
  strikes : Nat := 0
  deriving DecidableEq, Repr

/-- A solenoid output with its output monitor: `watch` is none while the monitor is idle, else the end of the 3 ms
window (R47, R63). -/
structure Output where
  energised : Bool := false
  watch : Option Nat := none
  deriving DecidableEq, Repr

/-- The phase of a train (R77). -/
inductive TrainPhase
  | apply
  | hold
  deriving DecidableEq, Repr

/-- The parameters a train copies from the profile (R79). -/
structure TrainParams where
  applyPulse : Nat
  holdInterval : Nat
  repeatCount : Nat
  continuous : Bool
  deriving DecidableEq, Repr

/-- The phase of a valve test (R77). -/
inductive TestPhase
  | on
  | off
  deriving DecidableEq, Repr

/-- The solenoids a valve test drives (R84). -/
inductive TestSolenoids
  | inlet
  | inletAndVent
  deriving DecidableEq, Repr

/-- The parameters a valve test copies from its request (R86). -/
structure TestParams where
  solenoids : TestSolenoids
  onTime : Nat
  offTime : Nat
  repeatCount : Nat
  continuous : Bool
  deriving DecidableEq, Repr

/-- What a channel's timing does (R77): the activity with its phase, compare stamp, parameters, pulses delivered and, for
a test, the tag of the request that is owed its response. -/
inductive Activity
  | none
  | train (phase : TrainPhase) (due : Nat) (params : TrainParams) (pulses : Nat)
  | test (phase : TestPhase) (due : Nat) (params : TestParams) (pulses : Nat) (tag : Byte)
  deriving DecidableEq, Repr

/-- A channel's state (R47, R77). -/
structure Channel where
  profile : Option Profile := none
  staged : Option Profile := none
  state : ChannelState := .idle
  cause : Option LockoutCause := none
  holdTimer : Option Nat := none
  ventTimer : Option Nat := none
  ventEntry : Option Long := none
  episode : Option Episode := none
  inlet : Output := {}
  vent : Output := {}
  activity : Activity := .none
  deriving DecidableEq, Repr

/-! ### Pressure Unit (R95 to R106) -/

/-- The roles of an input (R100). -/
inductive Role
  | demandFront
  | demandRear
  | reservoirFront
  | reservoirRear
  | aux
  deriving DecidableEq, Repr

/-- The validity states of an input (R103, R104). -/
inductive Validity
  | valid
  | holding
  | faulty
  | unused
  deriving DecidableEq, Repr

/-- A transducer input's calibration (R100), validity, held value and counts (R103). -/
structure Input where
  role : Role
  zero : Nat := 410
  full : Nat := 3686
  validity : Validity := .valid
  held : Nat := 0
  bad : Nat := 0
  good : Nat := 0
  deriving DecidableEq, Repr

/-- What a conversion is for (R95). -/
inductive Claim
  | supply
  | entry
  deriving DecidableEq, Repr

/-- The converter: IDLE, or CONVERTING for one claim until `due` (R95). -/
inductive Converter
  | idle
  | converting (claim : Claim) (due : Nat)
  deriving DecidableEq, Repr

/-- The Pressure Unit. `pass` holds the codes recorded so far by the pass in progress; `demand` is none while BLIND. -/
structure PressureUnit where
  converter : Converter := .idle
  supplyClaim : Bool := false
  scanClaim : Bool := false
  scanList : List (Fin 4) := [0, 1, 2, 3]
  pendingList : Option (List (Fin 4)) := none
  pass : Option (List (BitVec 12)) := none
  scanDue : Nat := Config.scanPeriodMs * Config.ticksPerMs
  inputs : Vector Input 4 :=
    #v[{ role := .demandFront }, { role := .demandRear }, { role := .reservoirFront }, { role := .reservoirRear }]
  demand : Option Nat := some 0
  reservoir : Option Nat := some 0
  lowMark : Bool := false
  deriving DecidableEq, Repr

/-! ### Drum Temperature Unit (R112) -/

/-- The configuration of R113, at its defaults; the enable set holds one flag for each drum. -/
structure DrumConfig where
  rRef : Nat := 10000
  nRef : Nat := 4096
  interval : Nat := 0
  hot : Int := 350
  enabled : BitVec 6 := 0
  deriving DecidableEq, Repr

/-- A curve point (R115). -/
structure CurvePoint where
  resistance : Nat
  temperature : Int
  deriving DecidableEq, Repr

/-- The origin of a measurement (R112). -/
inductive Origin
  | scan
  | request
  deriving DecidableEq, Repr

/-- An entry of the measurement queue (R112). -/
structure QueueEntry where
  drum : Fin 6
  origin : Origin
  tags : List Byte
  deriving DecidableEq, Repr

/-- The phases of a measurement (R112). -/
inductive MeasurePhase
  | reference
  | sensor
  deriving DecidableEq, Repr

/-- The in-flight measurement (R112). `since` is the model's own: the clock at its start, which tells the time base's
start at 0 from its return to 0 (R117). -/
structure Measurement where
  drum : Fin 6
  origin : Origin
  tags : List Byte
  phase : MeasurePhase
  rRef : Nat
  nRef : Nat
  since : Nat
  deriving DecidableEq, Repr

/-- The result states of a drum (R112). -/
inductive DrumResult
  | unknown
  | valid
  | clamped
  | noCurve
  | opened
  | short
  | refFault
  deriving DecidableEq, Repr

/-- A drum's state (R112). `ageFrom` is the clock from which its age counts; none holds the age at 65,535 (R130). -/
structure Drum where
  result : DrumResult := .unknown
  resistance : Nat := 0
  temperature : Option Int := none
  nSens : Nat := 0
  origin : Origin := .scan
  hot : Bool := false
  ageFrom : Option Nat := none
  deriving DecidableEq, Repr

/-- The Drum Temperature Unit (R112). R131 leaves the counter and the time base stopped and gives neither a value: the 0 of
both is the model's choice (log 24), and so is what they hold while no measurement is in flight. -/
structure DrumUnit where
  config : DrumConfig := {}
  curve : Option (Vector CurvePoint 9) := none
  queue : List QueueEntry := []
  inFlight : Option Measurement := none
  counter : BitVec 20 := 0
  timeBase : BitVec 20 := 0
  scanTimer : Option Nat := none
  rotation : Fin 6 := 0
  drums : Vector Drum 6 := Vector.replicate 6 {}
  hottest : Option Int := none
  ageDue : Nat := Config.ageRefreshMs * Config.ticksPerMs
  deriving DecidableEq, Repr

/-! ### Supply Monitor (R132) -/

/-- The supply classes (R132). -/
inductive SupplyClass
  | normal
  | low
  | critical
  deriving DecidableEq, Repr

/-- The two criteria in mV, at the defaults of R135. -/
structure Criteria where
  low : Nat := 21000
  critical : Nat := 18000
  deriving DecidableEq, Repr

/-- The Supply Monitor (R132). -/
structure SupplyMonitor where
  criteria : Criteria := {}
  pendingCriteria : Option Criteria := none
  sampleDue : Nat := Config.samplePeriodMs * Config.ticksPerMs
  count : Nat := 0
  minimum : Option Nat := none
  cls : SupplyClass := .critical
  firstClose : Bool := true
  lastMinimum : Nat := 0
  deriving DecidableEq, Repr

/-! ### Retarder Blend Unit (R144) -/

/-- The blend settings, at the defaults of R153. -/
structure BlendSettings where
  holdOff : Nat := 500
  assistEnabled : Bool := false
  assistStage : Nat := 0
  assistTemperature : Int := 0
  assistDemand : Nat := 0
  deriving DecidableEq, Repr

/-- A running hold-off: its expiry and the length in ms it started with (R150). -/
structure HoldOff where
  due : Nat
  length : Nat
  deriving DecidableEq, Repr

/-- The Retarder Blend Unit (R144). The lever inputs are pins: a reset does not move them. -/
structure RetarderUnit where
  input1 : Contact := .opened
  input2 : Contact := .opened
  settle : Option Nat := some (Config.leverSettleMs * Config.ticksPerMs)
  leverStage : Nat := 0
  settings : BlendSettings := {}
  cut : Bool := false
  holdOff : Option HoldOff := none
  assist : Bool := false
  allowed : Nat := 0
  output : Nat := 0
  ramp : Option Nat := none
  deriving DecidableEq, Repr

/-! ### Lane Controller, lanes and registers (R159 to R161, R174) -/

/-- The lane fault codes (R161). -/
inductive LaneFault
  | badLength
  | pastEnd
  | pastFill
  | countMismatch
  | badOffset
  deriving DecidableEq, Repr

/-- A lane's header words and accepted copies (R161). A lane is HALTED exactly while it holds a fault code, so the lane
state word is read from `fault`; the lane size word is the constant `LaneId.size`. On the request lane `accFill` is the
accepted fill offset; on a report lane `accDrain` and `accTaken` are the accepted copies. -/
structure Lane where
  fill : Word := 0
  posted : Word := 0
  drain : Word := 0
  taken : Word := 0
  fault : Option LaneFault := none
  threshold : Word := 1
  accFill : Word := 0
  accDrain : Word := 0
  accTaken : Word := 0
  deriving DecidableEq, Repr

/-- The causes of a reset (R184). -/
inductive ResetCause
  | power
  | pin
  | soft
  deriving DecidableEq, Repr

/-- The lanes, the Lane Controller's own state (R174) and the registers' stored bits (R160). -/
structure LaneController where
  request : Lane := {}
  response : Lane := {}
  event : Lane := {}
  episode : Lane := {}
  owed : Nat := 0
  holdback : List (List Byte) := []
  eventGap : Nat := 0
  episodeGap : Nat := 0
  collision : Bool := false
  enables : Word := 0x01F7
  cause : ResetCause := .power
  deriving DecidableEq, Repr

/-- The exchange memory's bytes outside the lane headers: addresses strictly rising, no entry equal to what an unlisted
address reads as. -/
abbrev Memory := List Host.Cell

/-- The part. `held` is the cause of the reset being held; `draws` numbers the free values (the model's own, never
reset); `pending` is the queue of waiting commands, first in first out. -/
structure State where
  clock : Nat := 0
  held : Option ResetCause := none
  wheels : Vector Wheel 6 := Vector.replicate 6 {}
  reg : Regulator := {}
  channels : Vector Channel 6 := Vector.replicate 6 {}
  pcu : PressureUnit := {}
  dtu : DrumUnit := {}
  smn : SupplyMonitor := {}
  rbu : RetarderUnit := {}
  lnc : LaneController := {}
  mem : Memory := []
  draws : Nat := 0
  pending : List Instr := []
  deriving DecidableEq, Repr

/-- The part as it leaves a power-on reset: every block at its reset values and the STARTED event, with subject POWER,
alone in the event lane (R172, R184). -/
def State.reset : State :=
  { lnc := { event := { fill := 16, posted := 1 } }
    mem := [(0x1000, 4), (0x1001, 1), (0x1003, 1)] }

end Sys2Proof.Machine
end

