-- ==== Sys2Proof/Machine/Codes.lean ====
section
/-! DEFINITION. The codes of 11.1 in which states, causes, classes and statuses are written, and the encodings of absence. -/

namespace Sys2Proof.Machine

def WheelState.code : WheelState → Byte
  | .off => 0
  | .stopped => 1
  | .starting => 2
  | .rolling => 3
  | .suspect => 4

def ChannelState.code : ChannelState → Byte
  | .idle => 0
  | .pass => 1
  | .hold => 2
  | .vent => 3
  | .reapply => 4
  | .test => 5
  | .lockout => 6

def LockoutCause.code : LockoutCause → Byte
  | .sensors => 1
  | .ventLimit => 2
  | .outputOpen => 3
  | .outputShort => 4

def Assignment.code : Assignment → Byte
  | .unassigned => 0
  | .governed => 1
  | .sensorless => 2

def CloseReason.code : CloseReason → Byte
  | .released => 1
  | .lowSpeed => 2
  | .disarmed => 3
  | .lockout => 4
  | .supply => 5

def AbsenceCause.code : AbsenceCause → Byte
  | .disarmed => 1
  | .supply => 2
  | .lowSpeed => 3
  | .released => 4

def Mode.code : Mode → Byte
  | .direct => 0
  | .grouped => 1

def SupplyClass.code : SupplyClass → Byte
  | .normal => 0
  | .low => 1
  | .critical => 2

def ResetCause.code : ResetCause → Byte
  | .power => 1
  | .pin => 2
  | .soft => 3

def Validity.code : Validity → Byte
  | .valid => 0
  | .holding => 1
  | .faulty => 2
  | .unused => 3

def Role.code : Role → Byte
  | .demandFront => 0
  | .demandRear => 1
  | .reservoirFront => 2
  | .reservoirRear => 3
  | .aux => 4

def DrumResult.code : DrumResult → Byte
  | .unknown => 0
  | .valid => 1
  | .clamped => 2
  | .noCurve => 3
  | .opened => 4
  | .short => 5
  | .refFault => 6

def Origin.code : Origin → Byte
  | .scan => 0
  | .request => 1

def LaneFault.code : LaneFault → Byte
  | .badLength => 1
  | .pastEnd => 2
  | .pastFill => 3
  | .countMismatch => 4
  | .badOffset => 5

def TestPhase.code : TestPhase → Byte
  | .on => 0
  | .off => 1

/-- The solenoid concerned (11.1). -/
def solenoidCode : Solenoid → Byte
  | .inlet => 0
  | .vent => 1

/-- The number of teeth D counts (R1). -/
def Divisor.toNat : Divisor → Nat
  | .one => 1
  | .four => 4
  | .sixteen => 16

/-- A flag byte: 0 for no and 1 for yes. -/
def flag (b : Bool) : Byte := if b then 1 else 0

/-- A bit of a flags byte. -/
def bit (n : Nat) (b : Bool) : Byte := if b then 1 <<< n else 0

/-- The code of an optional thing, 0 for none. -/
def codeOr {α : Type} (code : α → Byte) : Option α → Byte
  | none => 0
  | some a => code a

/-- The encoding of an absent reservoir pressure. -/
def absentReservoir : Word := 0xFFFF

/-- The encoding of an absent temperature. -/
def absentTemperature : Word := 0x7FFF

/-- The encoding of an absent wheel or input index. -/
def absentIndex : Byte := 0xFF

/-- A reservoir pressure, or its absence. -/
def reservoirWord : Option Nat → Word
  | none => absentReservoir
  | some p => BitVec.ofNat 16 p

/-- A temperature, or its absence. -/
def temperatureWord : Option Int → Word
  | none => absentTemperature
  | some t => BitVec.ofInt 16 t

/-- An index, or its absence. -/
def indexByte {n : Nat} : Option (Fin n) → Byte
  | none => absentIndex
  | some i => BitVec.ofNat 8 i

/-- The kinds of the events (R182). -/
inductive EventKind
  | started
  | laneFault
  | wheelSuspect
  | channelLockout
  | ventLimit
  | profileApplied
  | pressureFault
  | pressureRestored
  | reservoirLow
  | reservoirRestored
  | demandBlind
  | demandSeen
  | drumHot
  | drumCool
  | drumSensor
  | supplyClass
  | retarderCut
  | retarderRestored
  deriving DecidableEq, Repr

def EventKind.code : EventKind → Byte
  | .started => 0x01
  | .laneFault => 0x02
  | .wheelSuspect => 0x10
  | .channelLockout => 0x20
  | .ventLimit => 0x21
  | .profileApplied => 0x22
  | .pressureFault => 0x30
  | .pressureRestored => 0x31
  | .reservoirLow => 0x32
  | .reservoirRestored => 0x33
  | .demandBlind => 0x34
  | .demandSeen => 0x35
  | .drumHot => 0x40
  | .drumCool => 0x41
  | .drumSensor => 0x42
  | .supplyClass => 0x50
  | .retarderCut => 0x60
  | .retarderRestored => 0x61

/-- The response status codes (11.1, R178). -/
inductive Status
  | done
  | staged
  | refusedBusy
  | refusedRange
  | refusedState
  | unknownKind
  | badLength
  | queueFull
  | abandoned
  | abortedMotion
  | abortedSupply
  | abortedFault
  | abortedStop
  | sensorFault
  deriving DecidableEq, Repr

def Status.code : Status → Byte
  | .done => 0x00
  | .staged => 0x01
  | .refusedBusy => 0x10
  | .refusedRange => 0x11
  | .refusedState => 0x12
  | .unknownKind => 0x20
  | .badLength => 0x21
  | .queueFull => 0x30
  | .abandoned => 0x31
  | .abortedMotion => 0x40
  | .abortedSupply => 0x41
  | .abortedFault => 0x42
  | .abortedStop => 0x43
  | .sensorFault => 0x50

/-- The details of a refused VALVE-TEST (R85). -/
inductive TestRefusal
  | none
  | busy
  | state
  | motion
  | supply
  | reservoir
  deriving DecidableEq, Repr

def TestRefusal.code : TestRefusal → Byte
  | .none => 0
  | .busy => 1
  | .state => 2
  | .motion => 3
  | .supply => 4
  | .reservoir => 5

/-- The number of a lane (R157). -/
def laneCode : LaneId → Byte
  | .request => 0
  | .response => 1
  | .event => 2
  | .episode => 3

end Sys2Proof.Machine
end

