-- ==== Sys2Proof/Machine/Ops.lean ====
section
/-! DEFINITION. The operations every block shares: time and timers, the exchange memory, lanes and their frames, events,
episode records and responses, the holdback, lane faults, and the rewriting of live rows and of the status block. -/

namespace Sys2Proof

/-! ### Lane geometry (R157, R162) -/

/-- The size of a lane's area in bytes (R161). -/
def LaneId.size : LaneId → Nat
  | .request => 2048
  | .response => 1024
  | .event => 2048
  | .episode => 10240

/-- The first byte address of a lane's area (R157). -/
def LaneId.base : LaneId → Nat
  | .request => 0x0400
  | .response => 0x0C00
  | .event => 0x1000
  | .episode => 0x1800

/-- The frame size of a report lane (R162). -/
def ReportLane.frameSize : ReportLane → Nat
  | .response => 16
  | .event => 16
  | .episode => 32

/-- The slots of a report lane (R162). -/
def ReportLane.slots : ReportLane → Nat
  | .response => 64
  | .event => 128
  | .episode => 320

end Sys2Proof

namespace Sys2Proof.Machine

/-! ### Six wheels, channels and drums -/

/-- The indices 0 to 5 in order. -/
def indices : List (Fin 6) := [0, 1, 2, 3, 4, 5]

/-- The six values of `f` in index order. -/
def six {α : Type} (f : Fin 6 → α) : Vector α 6 := #v[f 0, f 1, f 2, f 3, f 4, f 5]

/-- `f` applied for each index in order, 0 to 5. -/
def forEach (f : Fin 6 → State → State) (s : State) : State := indices.foldl (fun s i => f i s) s

/-- The index a raw byte names, if it is 0 to 5. -/
def index6 (b : Byte) : Option (Fin 6) := if h : b.toNat < 6 then some ⟨b.toNat, h⟩ else none

def State.setWheel (w : Fin 6) (x : Wheel) (s : State) : State := { s with wheels := s.wheels.set w x }

def State.setChannel (c : Fin 6) (x : Channel) (s : State) : State := { s with channels := s.channels.set c x }

def State.setDrum (d : Fin 6) (x : Drum) (s : State) : State :=
  { s with dtu := { s.dtu with drums := s.dtu.drums.set d x } }

/-! ### Time (R2, R78, R171) -/

/-- The capture time base: microseconds since the reset, modulo 2^32 (R2). -/
def State.timeBase (s : State) : Long := BitVec.ofNat 32 (s.clock / Config.ticksPerMicro)

/-- The millisecond stamp: milliseconds since the reset, modulo 2^32 (R171). -/
def State.stamp (s : State) : Long := BitVec.ofNat 32 (s.clock / Config.ticksPerMs)

/-- The expiry of a timer started now that runs for `ms` milliseconds. -/
def State.after (ms : Nat) (s : State) : Nat := s.clock + ms * Config.ticksPerMs

/-- The step of the stamp at which it reaches its present value plus `ms`: the compare, hold-limit and vent-limit timers
measure on the stamp (R61, R62, R78). -/
def State.stampAfter (ms : Nat) (s : State) : Nat := (s.clock / Config.ticksPerMs + ms) * Config.ticksPerMs

/-- Whether a timer is running and has reached its expiry. A stopped timer does not expire (R78). -/
def State.due (timer : Option Nat) (s : State) : Bool :=
  match timer with
  | none => false
  | some t => decide (t ≤ s.clock)

/-- The time since a stamp, in ms (modulo 2^32). -/
def State.since (stamp : Long) (s : State) : Nat := (s.stamp - stamp).toNat

/-- While a reset is held, the part does nothing (R143, R184; log 6). -/
def State.whenRunning (s : State) (f : State → State) : Host.Outcome State Fault Refusal :=
  .next (if s.held.isSome then s else f s)

/-! ### Exchange memory (R157, R172) -/

/-- What an unlisted address reads as: the status block's values after a power-on reset (11.9), and 0 elsewhere. The
lane areas' 0 is the model's choice (log 7). -/
def resetByte (a : Nat) : Byte :=
  if a < 0x40 ∨ 0x5A < a then 0
  else if a = 0x42 then 1
  else if a = 0x46 then 1
  else if a = 0x4A then 0xF4
  else if a = 0x4B then 1
  else if a = 0x4C then 14
  else if a = 0x4E then 9
  else if a = 0x50 then 30
  else if a = 0x52 then 0x26
  else if a = 0x53 then 2
  else if a = 0x5A then 2
  else 0

/-- The byte at an address. -/
def Memory.read : Memory → Nat → Byte
  | [], a => resetByte a
  | (k, b) :: m, a => if a < k then resetByte a else if a = k then b else Memory.read m a

/-- The byte `b` written at an address, the canonical form kept. -/
def Memory.write : Memory → Nat → Byte → Memory
  | [], a, b => if b = resetByte a then [] else [(a, b)]
  | (k, c) :: m, a, b =>
      if a < k then if b = resetByte a then (k, c) :: m else (a, b) :: (k, c) :: m
      else if a = k then if b = resetByte a then m else (a, b) :: m
      else (k, c) :: Memory.write m a b

/-- Bytes written at rising addresses from `a`. -/
def Memory.writeAll (m : Memory) (a : Nat) : List Byte → Memory
  | [] => m
  | b :: bs => Memory.writeAll (m.write a b) (a + 1) bs

/-- Whether every address of a memory lies above `lo` or at it, strictly rising, with no entry equal to what an unlisted
address reads as. -/
def Memory.wfFrom (lo : Nat) : Memory → Bool
  | [] => true
  | (k, b) :: m => decide (lo ≤ k) && b != resetByte k && Memory.wfFrom (k + 1) m

/-- The canonical form. -/
def Memory.wf (m : Memory) : Bool := Memory.wfFrom 0 m

/-- The word at an even address, low byte first. -/
def Memory.word (m : Memory) (a : Nat) : Word := rd16 (fun o => m.read (a + o)) 0

/-- Bytes stored in the exchange memory. -/
def State.store (a : Nat) (bytes : List Byte) (s : State) : State := { s with mem := s.mem.writeAll a bytes }

/-- Fields of a row, each with its offset, stored from the row's base. -/
def State.storeFields (base : Nat) : List (Nat × List Byte) → State → State
  | [], s => s
  | (o, bytes) :: fs, s => State.storeFields base fs (s.store (base + o) bytes)

/-- One rewrite of a live row or of the status block: the edition is raised twice, odd before the fields are written and
even after (R170). -/
def rewrite (base : Nat) (fields : List (Nat × List Byte)) (s : State) : State :=
  (s.store base (le16 (s.mem.word base + 2))).storeFields base fields

/-- The base of the device status block (11.9). -/
def statusBase : Nat := 0x40

/-- One owner's rewrite of the status block, the millisecond stamp with it (R171). -/
def rewriteStatus (fields : List (Nat × List Byte)) (s : State) : State :=
  rewrite statusBase (fields ++ [(36, le32 s.stamp)]) s

/-! ### Lanes (R157, R161, R162) -/

def LaneController.lane (l : LaneController) : LaneId → Lane
  | .request => l.request
  | .response => l.response
  | .event => l.event
  | .episode => l.episode

def LaneController.setLane (id : LaneId) (x : Lane) (l : LaneController) : LaneController :=
  match id with
  | .request => { l with request := x }
  | .response => { l with response := x }
  | .event => { l with event := x }
  | .episode => { l with episode := x }

def State.lane (s : State) (id : LaneId) : Lane := s.lnc.lane id

def State.setLane (id : LaneId) (x : Lane) (s : State) : State := { s with lnc := s.lnc.setLane id x }

/-- A lane is HALTED exactly while it holds a fault code (R161). -/
def Lane.halted (l : Lane) : Bool := l.fault.isSome

/-- The occupied bytes (fill − drain) mod lane size (R162). -/
def occupied (size : Nat) (fill drain : Word) : Nat := (fill.toNat + (size - drain.toNat % size)) % size

/-- The frames present between the accepted drain and the fill (R162). -/
def framesPresent (r : ReportLane) (l : Lane) : Nat := occupied r.lane.size l.fill l.accDrain / r.frameSize

/-- The part has room while the frames present are fewer than the slots less one (R162). -/
def hasRoom (r : ReportLane) (l : Lane) : Bool := decide (framesPresent r l < r.slots - 1)

/-- A frame is written only while the lane is RUNNING and has room (R165). -/
def writable (r : ReportLane) (l : Lane) : Bool := !l.halted && hasRoom r l

/-- The offset that follows a frame of `bytes` bytes at `o`, 0 at the lane size (R162). -/
def followingOffset (size : Nat) (o : Word) (bytes : Nat) : Word :=
  if o.toNat + bytes = size then 0 else o + BitVec.ofNat 16 bytes

/-- A frame written at the fill offset; then the fill offset advances by one frame and the posted count by 1 (R165). -/
def writeFrame (r : ReportLane) (bytes : List Byte) (s : State) : State :=
  let l := s.lane r.lane
  (s.store (r.lane.base + l.fill.toNat) bytes).setLane r.lane
    { l with fill := followingOffset r.lane.size l.fill r.frameSize, posted := l.posted + 1 }

/-- A gap count, saturating at 255, as it stands after a skipped frame (R181). -/
def raiseGap (g : Nat) : Nat := min 255 (g + 1)

/-- The bytes of an event frame (R182, 11.6). Values are given as integers and carried in 32 bits. -/
def eventFrame (kind : EventKind) (gap : Nat) (subject : Byte) (stamp : Long) (v1 v2 : Int) : List Byte :=
  [4, kind.code, BitVec.ofNat 8 gap, subject] ++ le32 stamp ++ le32 (BitVec.ofInt 32 v1) ++ le32 (BitVec.ofInt 32 v2)

/-- An event handed to the Lane Controller: written with the gap counter, or skipped and counted (R181). -/
def raiseEvent (kind : EventKind) (subject : Byte) (v1 v2 : Int) (s : State) : State :=
  if writable .event s.lnc.event then
    let s := writeFrame .event (eventFrame kind s.lnc.eventGap subject s.stamp v1 v2) s
    { s with lnc := { s.lnc with eventGap := 0 } }
  else { s with lnc := { s.lnc with eventGap := raiseGap s.lnc.eventGap } }

/-- An episode record's body handed to the Lane Controller: written with the gap counter, or skipped and counted
(R181, R183). -/
def raiseEpisode (body : List Byte) (s : State) : State :=
  if writable .episode s.lnc.episode then
    let s := writeFrame .episode ([8, 0x70, BitVec.ofNat 8 s.lnc.episodeGap, 0] ++ body) s
    { s with lnc := { s.lnc with episodeGap := 0 } }
  else { s with lnc := { s.lnc with episodeGap := raiseGap s.lnc.episodeGap } }

/-- The owed count changed, which rewrites its field of the status block (R174). -/
def setOwed (n : Nat) (s : State) : State :=
  let s := { s with lnc := { s.lnc with owed := n } }
  rewriteStatus [(34, le16 (BitVec.ofNat 16 n))] s

/-- A list of bytes filled up with zeros to `n`. -/
def padTo (n : Nat) (bytes : List Byte) : List Byte := (bytes ++ List.replicate n 0).take n

/-- The bytes of a response frame (R178): unused result bytes read 0. -/
def responseFrame (kind tag : Byte) (status : Status) (result : List Byte) : List Byte :=
  [4, kind + 0x80, tag, status.code] ++ padTo 12 result

/-- A response frame written into the response lane; the owed count falls by 1 (R178). -/
def writeResponse (bytes : List Byte) (s : State) : State :=
  let s := writeFrame .response bytes s
  setOwed (s.lnc.owed - 1) s

/-- A completed response: written, or kept in the holdback where the lane is HALTED or has no room (R165, R178, R179). -/
def respond (kind tag : Byte) (status : Status) (result : List Byte) (s : State) : State :=
  let bytes := responseFrame kind tag status result
  if writable .response s.lnc.response then writeResponse bytes s
  else { s with lnc := { s.lnc with holdback := s.lnc.holdback ++ [bytes] } }

/-- The free slots of the response lane (R176). -/
def LaneController.freeSlots (l : LaneController) : Nat :=
  (1024 - occupied 1024 l.response.fill l.response.accDrain) / 16 - 1

/-- The conditions of request taking (R174). -/
inductive Taking
  | taking
  | waiting
  | suspended
  | blocked
  deriving DecidableEq, Repr

/-- The taking condition, read from the lanes (R174, R176). -/
def LaneController.taking (l : LaneController) : Taking :=
  if l.request.halted || l.response.halted then .blocked
  else if l.request.taken = l.request.posted then .waiting
  else if l.owed < l.freeSlots then .taking
  else .suspended

/-- A lane fault: the lane is HALTED with its code, then LANE_FAULT is handed over (R167). -/
def faultLane (id : LaneId) (code : LaneFault) (offset : Word) (s : State) : State :=
  raiseEvent .laneFault (laneCode id) code.code.toNat offset.toNat
    (s.setLane id { s.lane id with fault := some code })

/-! ### The request lane (R164, R175) -/

/-- What an examination finds at the drain offset (R164). -/
inductive Finding
  | fault (code : LaneFault)
  | empty
  | wrap
  | whole
  deriving DecidableEq, Repr

/-- The byte at an offset of the request lane's area from the drain. -/
def State.requestByte (s : State) (o : Nat) : Byte :=
  s.mem.read (LaneId.base .request + s.lnc.request.drain.toNat + o)

/-- The examination of the request lane at its drain offset, in the order of R164. -/
def examine (s : State) : Finding :=
  let q := s.lnc.request
  let length := (s.requestByte 0).toNat
  if q.drain = q.accFill then
    if q.taken = q.posted then .empty else .fault .countMismatch
  else if length = 0 then
    if s.requestByte 1 ≠ 0 then .fault .badLength
    else if q.drain = 0 then .fault .badLength
    else .wrap
  else if LaneId.size .request < q.drain.toNat + 4 * length then .fault .pastEnd
  else if occupied (LaneId.size .request) q.accFill q.drain < 4 * length then .fault .pastFill
  else .whole

/-- The fault an examination finds, if it finds one, at the drain offset. -/
def faultFound (s : State) : State :=
  match examine s with
  | .fault code => faultLane .request code s.lnc.request.drain s
  | .empty | .wrap | .whole => s

/-- The examination made before a take, while the condition is TAKING: a wrap marker moves the drain to 0 and the
examination begins again; a fault halts the lane (R164, R175). A marker at drain 0 is a fault, so it begins again once. -/
def examineRequests (s : State) : State :=
  match s.lnc.taking with
  | .waiting | .suspended | .blocked => s
  | .taking =>
    match examine s with
    | .wrap => faultFound (s.setLane .request { s.lnc.request with drain := 0 })
    | .fault _ | .empty | .whole => faultFound s

/-- The request whose frame may be taken now, if the condition is TAKING and a whole frame stands at the drain. -/
def State.readyRequest (s : State) : Option Instr :=
  match s.lnc.taking, examine s with
  | .taking, .whole => some (decodeFrame s.requestByte)
  | _, _ => none

/-- The frame at the drain counted as taken, and owed (R164, R175 step 2). -/
def countTake (s : State) : State :=
  let q := s.lnc.request
  let q := { q with
    drain := followingOffset (LaneId.size .request) q.drain (4 * (s.requestByte 0).toNat), taken := q.taken + 1 }
  let s := s.setLane .request q
  setOwed (s.lnc.owed + 1) s

/-- One take of the whole frame at the drain (R175 steps 2 to 4): it is counted, and `body` carries its request out. The next
frame is examined at the next take, so that a post event may come before that examination (R173). -/
def makeTake (body : State → State) (s : State) : State := body (countTake s)

/-- The take of request `i`, a command of its own, with the examination that is its first step (R175). Where no frame of `i`
may be taken, there is no take and nothing changes (log 5). -/
def take (i : Instr) (body : State → State) (s : State) : Host.Outcome State Fault Refusal :=
  s.whenRunning fun s =>
    let t := examineRequests s
    if t.readyRequest = some i then makeTake body t else s

end Sys2Proof.Machine
end

