-- ==== Sys2Proof/Machine/Flags.lean ====
section
/-! DEFINITION. What is read from conditions and not stored: pending and halted bits, the attention status and ATTN, the run
control register's read value, and the outputs' pins. -/

namespace Sys2Proof.Machine

/-- The effective attention threshold: 0 acts as 1, above 255 acts as 255 (R169). -/
def effectiveThreshold (t : Word) : Nat := if t = 0 then 1 else min 255 t.toNat

/-- The pending condition of a report lane (R169). -/
def Lane.pending (l : Lane) : Bool := decide (effectiveThreshold l.threshold ≤ (l.posted - l.accTaken).toNat)

/-- A bit of a register. -/
def wordBit (n : Nat) (b : Bool) : Word := if b then 1 <<< n else 0

/-- The attention status register (R160, 11.10). -/
def LaneController.attentionStatus (l : LaneController) : Word :=
  wordBit 0 l.response.pending ||| wordBit 1 l.event.pending ||| wordBit 2 l.episode.pending
    ||| wordBit 4 l.request.halted ||| wordBit 5 l.response.halted ||| wordBit 6 l.event.halted
    ||| wordBit 7 l.episode.halted ||| wordBit 8 l.collision

/-- The positions of the attention enable register's bits (11.10). -/
def enableMask : Word := 0x01F7

/-- Whether ATTN is driven low: an enabled status bit stands, and no reset is held (R160). -/
def State.attnLow (s : State) : Bool := s.held.isNone && (s.lnc.attentionStatus &&& s.lnc.enables) != 0

/-- The run control register as it is read: bit 0 armed, bits 8 and 9 the supply class (R159, 11.10). -/
def State.runControl (s : State) : Word :=
  wordBit 0 s.reg.armed ||| ((s.smn.cls.code.setWidth 16) <<< 8)

/-- Whether the stage output `n` (1 to 3) is energised: the outputs are cumulative (R146). -/
def RetarderUnit.stageOutput (r : RetarderUnit) (n : Nat) : Bool := decide (1 ≤ n ∧ n ≤ r.output)

end Sys2Proof.Machine
end

