-- ==== Sys2Proof/Machine/Reset.lean ====
section
/-! DEFINITION. Entering, holding and leaving a reset (R143, R172, R184). -/

namespace Sys2Proof.Machine

/-- Every block at its reset values with the cause written into the status block, the reset held (R24, R46, R76, R94,
R110, R131, R142, R156, R172). The lever's pins, the queue of commands and the model's own count are no state of a
block and stay. -/
def enterReset (cause : ResetCause) (s : State) : State :=
  { held := some cause
    rbu := { input1 := s.rbu.input1, input2 := s.rbu.input2 }
    lnc := { cause := cause }
    mem := Memory.write [] (statusBase + 2) cause.code
    draws := s.draws
    pending := s.pending }

/-- A reset of one kind: where a reset is already held, its cause stands (R184). -/
def reset (cause : ResetCause) (s : State) : State := if s.held.isSome then s else enterReset cause s

/-- The part leaves a held reset and writes STARTED with its cause (R184). -/
def leaveReset (s : State) : State :=
  match s.held with
  | none => s
  | some cause => raiseEvent .started cause.code 0 0 { s with held := none }

/-- A soft reset acts as every reset does and is not held from outside: the part leaves it at once (R159, R184; log 6). -/
def softReset (s : State) : State := if s.held.isSome then s else leaveReset (enterReset .soft s)

/-- POWER_ON_RESET (R143). -/
def execPowerOnReset (s : State) : Host.Outcome State Fault Refusal := .next (reset .power s)

/-- RESET_PIN (R184). -/
def execResetPin (s : State) : Host.Outcome State Fault Refusal := .next (reset .pin s)

/-- RESET_RELEASE (R184). -/
def execResetRelease (s : State) : Host.Outcome State Fault Refusal := .next (leaveReset s)

/-- SOFT_RESET (R159). -/
def execSoftReset (s : State) : Host.Outcome State Fault Refusal := .next (softReset s)

end Sys2Proof.Machine
end

