-- ==== Sys2Proof/Machine/Operands.lean ====
section
/-! DEFINITION. The field checks of the requests: raw fields of a frame to the values they stand for, absent where a field is
out of range (R177: a value that has no meaning for its field counts as out of range). -/

namespace Sys2Proof.Machine

/-- A flag byte's value, absent above 1 (R177). -/
def flagOf (b : Byte) : Option Bool := if b = 0 then some false else if b = 1 then some true else none

/-- Whether a value lies in an inclusive range. -/
def within (lo hi n : Nat) : Bool := decide (lo ≤ n) && decide (n ≤ hi)

/-- Whether a signed value lies in an inclusive range. -/
def withinInt (lo hi n : Int) : Bool := decide (lo ≤ n) && decide (n ≤ hi)

/-- A field for which 0 selects a default (R49, R153). -/
def orDefault (default n : Nat) : Nat := if n = 0 then default else n

/-- A signed field for which 0 selects a default. -/
def orDefaultInt (default n : Int) : Int := if n = 0 then default else n

/-- The distance constant K (R5). -/
def distanceConstant (teeth circumference : Nat) : Nat := (360000 * circumference + teeth / 2) / teeth

/-- A standstill window: 0 for the default of 300 ms, or 100 to 1,000 ms in steps of 10 (R4). -/
def windowOf (w : Nat) : Option Nat :=
  if w = 0 then some Config.defaultWindow
  else if within 100 1000 w && w % 10 == 0 then some w
  else none

/-- The wheel and record an INSTALL-WHEEL describes (R4). -/
def wheelFields (wheel channel eligible : Byte) (teeth circumference window : Word) : Option (Fin 6 × WheelRecord) := do
  let w ← index6 wheel
  let c ← index6 channel
  let e ← flagOf eligible
  let win ← windowOf window.toNat
  if within 30 120 teeth.toNat && within 1500 4000 circumference.toNat then
    some (w, { teeth := teeth.toNat, circumference := circumference.toNat, channel := c, eligible := e, window := win
               k := distanceConstant teeth.toNat circumference.toNat })
  else none

/-- The assignment mode a field names (R43). -/
def modeOf (w : Word) : Option Mode := if w = 0 then some .direct else if w = 1 then some .grouped else none

/-- The mode and settings of a SET-REFERENCE (R43). -/
def referenceFields (mode floor down up demand reservoir : Word) : Option (Mode × Settings) := do
  let m ← modeOf mode
  if within 200 1500 floor.toNat && within 1 200 down.toNat && within 1 200 up.toNat && within 10 200 demand.toNat
      && within 300 900 reservoir.toNat then
    some (m, { floor := floor.toNat, downLimit := down.toNat, upLimit := up.toNat, demandThreshold := demand.toNat
               reservoirLow := reservoir.toNat })
  else none

/-- The combine rule a field names (R49). -/
def combineOf (b : Byte) : Option Combine :=
  if b = 0 then some .selectLow else if b = 1 then some .selectHigh else none

/-- The channel and profile an INSTALL-CHANNEL describes: defaults are substituted for fields given as 0, and slip exit
is checked against the slip entry that results (R49). -/
def profileFields (f : ProfileFields) : Option (Fin 6 × Profile) := do
  let c ← index6 f.channel
  let enabled ← flagOf f.enabled
  let combine ← combineOf f.combine
  let continuous ← flagOf f.continuous
  let drive ← flagOf f.driveAxle
  let entry := orDefault 150 f.slipEntry.toNat
  let exit := orDefault 80 f.slipExit.toNat
  let decel := orDefaultInt (-60) f.holdDecel.toInt
  let go := orDefaultInt 40 f.reaccel.toInt
  let vent := orDefault 1200 f.ventLimit.toNat
  let hold := orDefault 400 f.holdLimit.toNat
  if within 50 400 entry && within 20 (entry - 10) exit && withinInt (-300) (-10) decel && withinInt 10 300 go
      && within 200 2000 vent && within 100 2000 hold && within 5 50 f.applyPulse.toNat
      && within 5 200 f.holdInterval.toNat then
    some (c, { enabled := enabled, combine := combine, slipEntry := entry, slipExit := exit, holdDecel := decel
               reaccel := go, ventLimit := vent, holdLimit := hold, applyPulse := f.applyPulse.toNat
               holdInterval := f.holdInterval.toNat, repeatCount := f.repeatCount.toNat, continuous := continuous
               driveAxle := drive })
  else none

/-- The solenoids a field names (R84). -/
def solenoidsOf (b : Byte) : Option TestSolenoids :=
  if b = 0 then some .inlet else if b = 1 then some .inletAndVent else none

/-- The channel and parameters of a VALVE-TEST (R84). -/
def testFields (channel solenoids n continuous : Byte) (onTime offTime : Word) : Option (Fin 6 × TestParams) := do
  let c ← index6 channel
  let sol ← solenoidsOf solenoids
  let cont ← flagOf continuous
  if within 10 200 onTime.toNat && within 10 2000 offTime.toNat then
    some (c, { solenoids := sol, onTime := onTime.toNat, offTime := offTime.toNat, repeatCount := n.toNat
               continuous := cont })
  else none

/-- The input a byte names, if it is 0 to 3. -/
def index4 (b : Byte) : Option (Fin 4) := if h : b.toNat < 4 then some ⟨b.toNat, h⟩ else none

/-- The scan list of a SET-SCAN: 1 to 8 entries, each an input 0 to 3; entries past the length are not read (R99). -/
def scanFields (length : Byte) (entries : Vector Byte 8) : Option (List (Fin 4)) :=
  if within 1 8 length.toNat then (entries.toList.take length.toNat).mapM index4 else none

/-- The role a byte names (R100). -/
def roleOf (b : Byte) : Option Role :=
  if b = 0 then some .demandFront
  else if b = 1 then some .demandRear
  else if b = 2 then some .reservoirFront
  else if b = 3 then some .reservoirRear
  else if b = 4 then some .aux
  else none

/-- The input, role, zero code and full code of a SET-CALIBRATION (R101). -/
def calibrationFields (input role : Byte) (zero full : Word) : Option (Fin 4 × Role × Nat × Nat) := do
  let i ← index4 input
  let r ← roleOf role
  if zero.toNat ≤ 4095 ∧ full.toNat ≤ 4095 ∧ zero.toNat + 1000 ≤ full.toNat then some (i, r, zero.toNat, full.toNat)
  else none

/-- The configuration of a SET-DRUM-CONFIG; an enable set with bit 6 or 7 set is out of range (R113, R177). -/
def drumFields (rRef : Long) (nRef interval hot : Word) (enable : Byte) : Option DrumConfig :=
  if within 1000 100000 rRef.toNat && within 256 32768 nRef.toNat
      && (interval.toNat == 0 || within 250 5000 interval.toNat) && withinInt 100 600 hot.toInt
      && decide (enable.toNat < 64) then
    some { rRef := rRef.toNat, nRef := nRef.toNat, interval := interval.toNat, hot := hot.toInt
           enabled := enable.setWidth 6 }
  else none

/-- Whether the resistances of points strictly ascend (R115). -/
def ascending : List PointFields → Bool
  | p :: q :: ps => decide (p.resistance.toNat < q.resistance.toNat) && ascending (q :: ps)
  | [_] => true
  | [] => true

/-- The curve of nine points (R115). -/
def curveFields (points : Vector PointFields 9) : Option (Vector CurvePoint 9) :=
  if points.toList.all (fun p => within 100 200000 p.resistance.toNat && withinInt (-40) 700 p.temperature.toInt)
      && ascending points.toList then
    some (points.map fun p => { resistance := p.resistance.toNat, temperature := p.temperature.toInt })
  else none

/-- A criterion: 12,000 to 28,000 mV, a multiple of 250 (R135). -/
def isCriterion (n : Nat) : Bool := within 12000 28000 n && n % 250 == 0

/-- The criteria of a SET-SUPPLY-CRITERIA, at least 1,000 mV apart (R135). -/
def criteriaFields (low critical : Word) : Option Criteria :=
  if isCriterion low.toNat && isCriterion critical.toNat && decide (critical.toNat + 1000 ≤ low.toNat) then
    some { low := low.toNat, critical := critical.toNat }
  else none

/-- The settings of a SET-BLEND: the assist fields are looked at only when assist is enabled, and stored as 0 when it is
not (R153). -/
def blendFields (holdOff : Word) (enabled stage : Byte) (temperature demand : Word) : Option BlendSettings := do
  let assist ← flagOf enabled
  if within 100 2000 (orDefault 500 holdOff.toNat) then
    if assist then
      if within 1 3 stage.toNat && withinInt 100 600 temperature.toInt && within 10 500 demand.toNat then
        some { holdOff := orDefault 500 holdOff.toNat, assistEnabled := true, assistStage := stage.toNat
               assistTemperature := temperature.toInt, assistDemand := demand.toNat }
      else none
    else some { holdOff := orDefault 500 holdOff.toNat }
  else none

end Sys2Proof.Machine
end

