-- ==== Sys2Proof/Machine/Drums.lean ====
section
/-! DEFINITION. The Drum Temperature Unit (chapter 6): measurements, resistance and temperature, the queue, scanning, marks,
rows, and its three requests. -/

namespace Sys2Proof.Machine

/-! ### Drum rows (R130) -/

/-- Whether a drum is in the enable set in force. -/
def DrumUnit.isEnabled (u : DrumUnit) (d : Fin 6) : Bool := u.config.enabled[d]

/-- Whether a drum is queued. -/
def DrumUnit.isQueued (u : DrumUnit) (d : Fin 6) : Bool := u.queue.any fun e => e.drum == d

/-- Whether a drum is in flight. -/
def DrumUnit.isInFlight (u : DrumUnit) (d : Fin 6) : Bool := u.inFlight.any fun m => m.drum == d

/-- A drum's age in ms, saturating at 65,535 (R130). -/
def drumAge (s : State) (x : Drum) : Nat :=
  match x.ageFrom with
  | none => 65535
  | some t => min 65535 ((s.clock - t) / Config.ticksPerMs)

/-- The flags of a drum's row (11.8), `flying` being its in-flight bit. -/
def drumFlags (u : DrumUnit) (d : Fin 6) (flying : Bool) : Byte :=
  bit 0 u.drums[d].hot ||| bit 1 (u.isEnabled d) ||| bit 2 (u.isQueued d) ||| bit 3 flying
    ||| bit 4 (u.drums[d].origin == .request)

/-- The base of a drum's live row (11.8). -/
def drumRowBase (d : Fin 6) : Nat := 0x0380 + 16 * d

/-- The fields of a drum's live row (R130, 11.8). -/
def drumRow (s : State) (d : Fin 6) (flying : Bool) : List (Nat × List Byte) :=
  let x := s.dtu.drums[d]
  [(2, [x.result.code, drumFlags s.dtu d flying] ++ le32 (BitVec.ofNat 32 x.resistance)
      ++ le32 (BitVec.ofNat 32 x.nSens) ++ le16 (temperatureWord x.temperature)
      ++ le16 (BitVec.ofNat 16 (drumAge s x)))]

/-- One drum's row rewritten (R130). -/
def rewriteDrum (d : Fin 6) (s : State) : State := rewrite (drumRowBase d) (drumRow s d (s.dtu.isInFlight d)) s

/-- All six drum rows rewritten (R130). -/
def rewriteDrums (s : State) : State := forEach rewriteDrum s

/-- The flags of all six rows. -/
def allFlags (u : DrumUnit) : List Byte := indices.map fun d => drumFlags u d (u.isInFlight d)

/-- A request or scan expiry, after which all six rows are rewritten where it changed a row's flags (R130). -/
def drumEvent (f : State → State) (s : State) : State :=
  let t := f s
  if allFlags t.dtu = allFlags s.dtu then t else rewriteDrums t

/-! ### One measurement (R116 to R120) -/

/-- 2^20, the span of the counter and of the time base (R112). -/
def span20 : Nat := 1048576

/-- The start of a measurement of an entry taken from the head of the queue: the REFERENCE phase begins (R116, R117) and
the drum's row is rewritten (R130). -/
def beginMeasurement (e : QueueEntry) (rest : List QueueEntry) (s : State) : State :=
  let u := s.dtu
  let m : Measurement :=
    { drum := e.drum, origin := e.origin, tags := e.tags, phase := .reference, rRef := u.config.rRef
      nRef := u.config.nRef, since := s.clock }
  rewriteDrum e.drum { s with dtu := { u with
    queue := rest, inFlight := some m, counter := BitVec.ofNat 20 (span20 - u.config.nRef), timeBase := 0 } }

/-- A measurement starts when nothing is in flight, the queue holds an entry and the class is not CRITICAL (R116). -/
def startIfAllowed (s : State) : State :=
  match s.dtu.inFlight, s.dtu.queue with
  | none, e :: rest => if s.smn.cls = .critical then s else beginMeasurement e rest s
  | none, [] => s
  | some _, _ => s

/-- The resistance of a count of 16 or more (R119). -/
def resistanceOf (rRef nRef count : Nat) : Nat := (rRef * nRef + count / 2) / count

/-- The temperature in a segment, the quotient truncated toward zero (R120). -/
def interpolate (a b : CurvePoint) (r : Nat) : Int :=
  a.temperature
    + (((r : Int) - a.resistance) * (b.temperature - a.temperature)).tdiv ((b.resistance : Int) - a.resistance)

/-- The temperature of a resistance on a curve's points, from the lowest segment that holds it; at or below the last
point (R120). -/
def onSegments (r : Nat) : List CurvePoint → Option Int
  | a :: b :: ps => if a.resistance ≤ r ∧ r ≤ b.resistance then some (interpolate a b r) else onSegments r (b :: ps)
  | [_] => none
  | [] => none

/-- The result state and temperature of a resistance (R120). -/
def convert (curve : Option (Vector CurvePoint 9)) (r : Nat) : DrumResult × Option Int :=
  match curve with
  | none => (.noCurve, none)
  | some points =>
    if r < (points.get 0).resistance then (.clamped, some (points.get 0).temperature)
    else if (points.get 8).resistance < r then (.clamped, some (points.get 8).temperature)
    else (.valid, onSegments r points.toList)

/-- Whether a result is a fault result (R112). -/
def DrumResult.isFault : DrumResult → Bool
  | .opened | .short | .refFault => true
  | .unknown | .valid | .clamped | .noCurve => false

/-- Whether a drum's result has a temperature that counts: VALID or CLAMPED (R127). -/
def DrumResult.measured : DrumResult → Bool
  | .valid | .clamped => true
  | .unknown | .noCurve | .opened | .short | .refFault => false

/-- The hottest drum temperature (R127). -/
def hottestOf (drums : Vector Drum 6) : Option Int :=
  (drums.toList.filterMap fun x => if x.result.measured then x.temperature else none).max?

/-- The hot mark after a result (R126). -/
def hotAfter (mark : Bool) (hot : Int) (result : DrumResult) (temperature : Option Int) : Bool :=
  match result.measured, temperature with
  | true, some t => if mark then decide (hot - 20 < t) else decide (hot ≤ t)
  | _, _ => mark

/-- The event of a change of the hot mark (R126). -/
def hotEvent (d : Fin 6) (old new : Bool) (temperature : Option Int) (hot : Int) (s : State) : State :=
  if !old && new then raiseEvent .drumHot (BitVec.ofNat 8 d) (temperature.getD 0) hot s
  else if old && !new then raiseEvent .drumCool (BitVec.ofNat 8 d) (temperature.getD 0) hot s
  else s

/-- The DRUM_SENSOR event: a fault result after a result that was none (R125). -/
def sensorEvent (d : Fin 6) (old new : DrumResult) (nSens : Nat) (s : State) : State :=
  if new.isFault && !old.isFault then raiseEvent .drumSensor (BitVec.ofNat 8 d) new.code.toNat nSens s else s

/-- A MEASURE-DRUM's result bytes (11.5); the temperature reads absent where none is carried. -/
def measureResult (drum : Byte) (state : DrumResult) (origin flags : Byte) (resistance : Nat) (t : Option Int) :
    List Byte :=
  [drum, state.code, origin, flags] ++ le32 (BitVec.ofNat 32 resistance) ++ le16 (temperatureWord t)

/-- Each tag of a list answered, in list order. -/
def answerTags (status : Status) (result : List Byte) (tags : List Byte) (s : State) : State :=
  tags.foldl (fun s tag => respond 0x42 tag status result s) s

/-- A measurement's completion with its result (R124): `m` is the in-flight measurement. The row of step 6 shows the
drum no longer in flight (log 12). -/
def completeMeasurement (m : Measurement) (result : DrumResult) (resistance : Nat) (t : Option Int) (nSens : Nat)
    (s : State) : State :=
  let old := s.dtu.drums[m.drum]
  let hot := hotAfter old.hot s.dtu.config.hot result t
  let x : Drum :=
    { result := result, resistance := resistance, temperature := t, nSens := nSens, origin := m.origin, hot := hot
      ageFrom := some s.clock }
  let s := s.setDrum m.drum x
  let s := { s with dtu := { s.dtu with hottest := hottestOf s.dtu.drums } }
  let s := sensorEvent m.drum old.result result nSens s
  let s := hotEvent m.drum old.hot hot t s.dtu.config.hot s
  let status := if result.isFault then Status.sensorFault else .done
  let s := answerTags status (measureResult (BitVec.ofNat 8 m.drum) result m.origin.code (bit 0 hot) resistance t) m.tags s
  let s := { s with dtu := { s.dtu with inFlight := none } }
  startIfAllowed (rewriteDrum m.drum s)

/-- A completion with a fault result: resistance 0 and no temperature (R124). -/
def completeFault (m : Measurement) (result : DrumResult) (nSens : Nat) (s : State) : State :=
  completeMeasurement m result 0 none nSens s

/-- A completion with SHORT at the counter's overflow, N_sens taken as 1,048,576 (R118). -/
def endShort (m : Measurement) (s : State) : State :=
  completeFault m .short span20 { s with dtu := { s.dtu with counter := 0 } }

/-- Whether an overflow of the counter waits at the present tick: a command that waits comes at it, for only an empty queue
lets the clock move (R118; logs 1 and 3). -/
def overflowWaits (s : State) : Bool := s.pending.contains .sensorOverflow

/-- The end of the SENSOR phase, the counter holding N_sens: SHORT where the counter overflows at the same tick, OPEN below
16, else the resistance and its temperature (R118, R119). -/
def endSensor (m : Measurement) (s : State) : State :=
  let count := s.dtu.counter.toNat
  if overflowWaits s then endShort m s
  else if count < 16 then completeFault m .opened count s
  else
    let r := resistanceOf m.rRef m.nRef count
    completeMeasurement m (convert s.dtu.curve r).1 r (convert s.dtu.curve r).2 count s

/-- Whether the time base has come back to 0 in the REFERENCE phase of a measurement (R117). -/
def referenceOver (m : Measurement) (s : State) : Bool := s.dtu.timeBase == 0 && decide (m.since < s.clock)

/-- The counter at a tick in which the oscillator on it runs `cycles` cycles: it rises by 1 at each, modulo 2^20, and stands
stopped with nothing in flight (R117, R118). -/
def stepCounter (cycles : Nat) (u : DrumUnit) : BitVec 20 :=
  match u.inFlight with
  | none => u.counter
  | some _ => u.counter + BitVec.ofNat 20 cycles

/-- Whether the counter overflows from 2^20 - 1 at such a tick (R117, R118). -/
def counterOverflows (cycles : Nat) (u : DrumUnit) : Bool :=
  u.inFlight.isSome && decide (span20 ≤ u.counter.toNat + cycles)

/-- The time base at a tick: down in the REFERENCE phase, up in the SENSOR phase, else stopped (R117, R118). -/
def stepTimeBase (u : DrumUnit) : BitVec 20 :=
  match u.inFlight with
  | none => u.timeBase
  | some m =>
    match m.phase with
    | .reference => u.timeBase - 1
    | .sensor => u.timeBase + 1

/-- The counter's overflow in the REFERENCE phase: the SENSOR phase begins, unless the time base has returned to 0 at the
same tick, which gives REF_FAULT (R117, R118). At the phase's start no tick has run, and no overflow can come. -/
def overflowReference (m : Measurement) (s : State) : State :=
  if referenceOver m s then completeFault m .refFault 0 s
  else if s.dtu.timeBase = 0 then s
  else { s with dtu := { s.dtu with counter := 0, inFlight := some { m with phase := .sensor } } }

/-- REFERENCE_OVERFLOW (R117). -/
def execReferenceOverflow (s : State) : Host.Outcome State Fault Refusal :=
  s.whenRunning fun s =>
    match s.dtu.inFlight with
    | none => s
    | some m => if m.phase = .reference then overflowReference m s else s

/-- REFERENCE_TIMEOUT (R117): the time base returns to 0 in the REFERENCE phase. -/
def execReferenceTimeout (s : State) : Host.Outcome State Fault Refusal :=
  s.whenRunning fun s =>
    match s.dtu.inFlight with
    | none => s
    | some m => if m.phase = .reference ∧ referenceOver m s then completeFault m .refFault 0 s else s

/-- SENSOR_PHASE_END (R118): the time base reaches 0 with `count` cycles counted, which the counter holds (log 3). -/
def execSensorPhaseEnd (count : BitVec 20) (s : State) : Host.Outcome State Fault Refusal :=
  s.whenRunning fun s =>
    match s.dtu.inFlight with
    | none => s
    | some m =>
      if m.phase = .sensor ∧ s.dtu.timeBase = 0 then endSensor m { s with dtu := { s.dtu with counter := count } } else s

/-- SENSOR_OVERFLOW (R118): the counter overflows in the SENSOR phase, at the latest at the tick at which the time base
reaches 0. N_sens is taken as 1,048,576. -/
def execSensorOverflow (s : State) : Host.Outcome State Fault Refusal :=
  s.whenRunning fun s =>
    match s.dtu.inFlight with
    | none => s
    | some m =>
      if m.phase = .sensor then endShort m s else s

/-! ### Scanning and the age refresh (R123, R130) -/

/-- The first enabled drum from the rotation pointer on, each considered once (R123). -/
def scanTarget (u : DrumUnit) : Option (Fin 6) := (indices.map fun i => u.rotation + i).find? u.isEnabled

/-- An entry joined at the tail of the queue. -/
def joinQueue (e : QueueEntry) (s : State) : State := { s with dtu := { s.dtu with queue := s.dtu.queue ++ [e] } }

/-- A scan expiry's offer: the drum found is skipped if it is in flight or queued, else queued with origin SCAN, and the
pointer moves past it (R123). -/
def offerScan (s : State) : State :=
  match scanTarget s.dtu with
  | none => s
  | some d =>
    let busy := s.dtu.isInFlight d || s.dtu.isQueued d
    let s := { s with dtu := { s.dtu with rotation := d + 1 } }
    if busy then s else startIfAllowed (joinQueue { drum := d, origin := .scan, tags := [] } s)

/-- The scan timer restarted from the interval in force, as it stands at an expiry (R123). -/
def restartScan (due : Nat) (s : State) : State :=
  { s with dtu := { s.dtu with scanTimer := some (due + s.dtu.config.interval * Config.ticksPerMs) } }

/-- DRUM_SCAN_EXPIRY (R123). -/
def execDrumScanExpiry (s : State) : Host.Outcome State Fault Refusal :=
  s.whenRunning fun s =>
    match s.dtu.scanTimer with
    | none => s
    | some due => if s.due (some due) then drumEvent (fun s => offerScan (restartScan due s)) s else s

/-- AGE_REFRESH (R130): all six rows are rewritten. -/
def execAgeRefresh (s : State) : Host.Outcome State Fault Refusal :=
  s.whenRunning fun s =>
    if s.due (some s.dtu.ageDue) then
      rewriteDrums { s with dtu := { s.dtu with ageDue := s.dtu.ageDue + Config.ageRefreshMs * Config.ticksPerMs } }
    else s

/-! ### SET-DRUM-CONFIG (R113, R114) -/

/-- The ABANDONED responses of a tag list, carrying the drum's result state and hot mark as they stand (R114). -/
def abandonTags (d : Fin 6) (origin : Origin) (tags : List Byte) (s : State) : State :=
  let x := s.dtu.drums[d]
  answerTags .abandoned (measureResult (BitVec.ofNat 8 d) x.result origin.code (bit 0 x.hot) 0 none) tags s

/-- Step 1 of R114: a measurement in flight is abandoned. -/
def abandonInFlight (s : State) : State :=
  match s.dtu.inFlight with
  | none => s
  | some m => abandonTags m.drum m.origin m.tags { s with dtu := { s.dtu with inFlight := none } }

/-- Step 3 of R114: the entries of drums not in the enable set are removed in queue order, their tags answered. -/
def removeEntries (s : State) : State :=
  let removed := s.dtu.queue.filter fun e => !s.dtu.isEnabled e.drum
  let s := { s with dtu := { s.dtu with queue := s.dtu.queue.filter fun e => s.dtu.isEnabled e.drum } }
  removed.foldl (fun s e => abandonTags e.drum e.origin e.tags s) s

/-- Step 4 of R114 for one drum: a drum that has left the enable set has its result cleared, its age counting from 0. -/
def clearLeaver (old new : BitVec 6) (clock : Nat) (d : Fin 6) (x : Drum) : Drum :=
  if old[d] && !new[d] then
    { x with result := .unknown, resistance := 0, nSens := 0, temperature := none, hot := false, ageFrom := some clock }
  else x

/-- The number of tags steps 1 and 3 of R114 answer under a new enable set. -/
def abandonedCount (new : DrumConfig) (u : DrumUnit) : Nat :=
  ((u.inFlight.map (·.tags.length)).getD 0)
    + ((u.queue.filter fun e => !(new.enabled[e.drum])).map (·.tags.length)).sum

/-- The result of a SET-DRUM-CONFIG: the configuration in force and the tags abandoned (R113, R114, 11.5). -/
def drumConfigResult (c : DrumConfig) (abandoned : Nat) : List Byte :=
  le32 (BitVec.ofNat 32 c.rRef) ++ le16 (BitVec.ofNat 16 c.nRef) ++ le16 (BitVec.ofNat 16 c.interval)
    ++ le16 (BitVec.ofInt 16 c.hot) ++ [c.enabled.setWidth 8, BitVec.ofNat 8 abandoned]

/-- Steps 1 to 5 of R114. -/
def reconfigure (new : DrumConfig) (s : State) : State :=
  let old := s.dtu.config
  let s := abandonInFlight s
  let s := { s with dtu := { s.dtu with config := new } }
  let s := removeEntries s
  let drums := six fun d => clearLeaver old.enabled new.enabled s.clock d s.dtu.drums[d]
  { s with dtu := { s.dtu with
    drums := drums
    hottest := hottestOf drums
    scanTimer := if new.interval = 0 then none else some (s.after new.interval) } }

/-- The carrying out of a SET-DRUM-CONFIG (R113, R114). -/
def carrySetDrumConfig (tag : Byte) (fields : Option DrumConfig) (s : State) : State :=
  match fields with
  | none => respond 0x40 tag .refusedRange (drumConfigResult s.dtu.config 0) s
  | some new =>
    let n := abandonedCount new s.dtu
    drumEvent (fun s => startIfAllowed (respond 0x40 tag .done (drumConfigResult new n) (reconfigure new s))) s

/-- SET_DRUM_CONFIG (R113, R114). -/
def execSetDrumConfig (tag : Byte) (rRef : Long) (nRef interval hot : Word) (enable : Byte) (s : State) :
    Host.Outcome State Fault Refusal :=
  take (.setDrumConfig tag rRef nRef interval hot enable)
    (carrySetDrumConfig tag (drumFields rRef nRef interval hot enable)) s

/-! ### SET-CURVE (R115) -/

/-- The curve after a SET-CURVE: absent for a clear presence flag, the nine points where they pass; none where the
request is out of range (R115). -/
def curveRequest (presence : Byte) (points : Vector PointFields 9) : Option (Option (Vector CurvePoint 9)) :=
  match flagOf presence with
  | none => none
  | some false => some none
  | some true => (curveFields points).map some

/-- The carrying out of a SET-CURVE (R115). -/
def carrySetCurve (tag : Byte) (fields : Option (Option (Vector CurvePoint 9))) (s : State) : State :=
  match fields with
  | none => respond 0x41 tag .refusedRange [flag s.dtu.curve.isSome] s
  | some curve => respond 0x41 tag .done [flag curve.isSome] { s with dtu := { s.dtu with curve := curve } }

/-- SET_CURVE (R115). -/
def execSetCurve (tag presence : Byte) (points : Vector PointFields 9) (s : State) :
    Host.Outcome State Fault Refusal :=
  take (.setCurve tag presence points) (carrySetCurve tag (curveRequest presence points)) s

/-! ### MEASURE-DRUM (R122) -/

/-- The immediate refusal of a MEASURE-DRUM: the drum's result state and whether it is queued or in flight (R122). -/
def refuseMeasure (tag : Byte) (d : Fin 6) (status : Status) (s : State) : State :=
  let flags := bit 1 (s.dtu.isQueued d) ||| bit 2 (s.dtu.isInFlight d)
  respond 0x42 tag status (measureResult (BitVec.ofNat 8 d) s.dtu.drums[d].result 0 flags 0 none) s

/-- A tag joined to the entry of a queued drum, whose origin becomes REQUEST (R122 case 5). -/
def joinEntry (d : Fin 6) (tag : Byte) (e : QueueEntry) : QueueEntry :=
  if e.drum = d then { e with origin := .request, tags := e.tags ++ [tag] } else e

/-- The carrying out of a MEASURE-DRUM for an enabled drum that is not in flight (R122 cases 5 to 7). -/
def measureQueued (tag : Byte) (d : Fin 6) (s : State) : State :=
  match s.dtu.queue.find? (fun e => e.drum == d) with
  | some e =>
    if e.tags.length < 4 then { s with dtu := { s.dtu with queue := s.dtu.queue.map (joinEntry d tag) } }
    else refuseMeasure tag d .queueFull s
  | none => drumEvent (fun s => startIfAllowed (joinQueue { drum := d, origin := .request, tags := [tag] } s)) s

/-- The carrying out of a MEASURE-DRUM for an enabled drum (R122 cases 3 to 7). -/
def measureEnabled (tag : Byte) (d : Fin 6) (s : State) : State :=
  match s.dtu.inFlight with
  | none => measureQueued tag d s
  | some m =>
    if m.drum = d then
      if m.tags.length < 4 then { s with dtu := { s.dtu with inFlight := some { m with tags := m.tags ++ [tag] } } }
      else refuseMeasure tag d .queueFull s
    else measureQueued tag d s

/-- The carrying out of a MEASURE-DRUM, the first case that applies deciding (R122). -/
def carryMeasureDrum (tag drum : Byte) (s : State) : State :=
  match index6 drum with
  | none => respond 0x42 tag .refusedRange (measureResult drum .unknown 0 0 0 none) s
  | some d => if s.dtu.isEnabled d then measureEnabled tag d s else refuseMeasure tag d .refusedState s

/-- MEASURE_DRUM (R122). -/
def execMeasureDrum (tag drum : Byte) (s : State) : Host.Outcome State Fault Refusal :=
  take (.measureDrum tag drum) (carryMeasureDrum tag drum) s

end Sys2Proof.Machine
end

