-- ==== Sys2Proof/Machine/Retarder.lean ====
section
/-! DEFINITION. The Retarder Blend Unit (chapter 8): lever filter, allowed stage, ramp, cut and hold-off, and SET-BLEND. -/

namespace Sys2Proof.Machine

/-- The retarder is withheld while the cut is raised or the hold-off timer runs (R144). -/
def RetarderUnit.withheld (r : RetarderUnit) : Bool := r.cut || r.holdOff.isSome

/-- What the status block shows of the unit (R154). -/
def RetarderUnit.statusFields (r : RetarderUnit) : List (Nat × List Byte) :=
  [(30, [BitVec.ofNat 8 r.leverStage, BitVec.ofNat 8 r.allowed, BitVec.ofNat 8 r.output,
    bit 0 r.cut ||| bit 1 r.holdOff.isSome ||| bit 2 r.assist])]

/-- An event in which the unit may change: its fields of the status block are rewritten where any of them changes
(R154). -/
def retarderEvent (f : State → State) (s : State) : State :=
  let t := f s
  if t.rbu.statusFields = s.rbu.statusFields then t else rewriteStatus t.rbu.statusFields t

/-- Whether the drum-heat assist's conditions hold (R147 step 2). -/
def assistHolds (s : State) : Bool :=
  s.rbu.settings.assistEnabled
    && s.dtu.hottest.any (fun t => decide (s.rbu.settings.assistTemperature ≤ t))
    && s.pcu.demand.any (fun p => decide (s.rbu.settings.assistDemand ≤ p))

/-- The cap of the supply class on a stage (R147 step 3). -/
def capStage (c : SupplyClass) (stage : Nat) : Nat :=
  match c with
  | .normal => stage
  | .low => min 1 stage
  | .critical => 0

/-- The allowed stage and assist active, as R147 forms them. -/
def formed (s : State) : Nat × Bool :=
  if s.rbu.withheld then (0, false)
  else
    let raised := assistHolds s && decide (s.rbu.leverStage < s.rbu.settings.assistStage)
    (capStage s.smn.cls (if raised then s.rbu.settings.assistStage else s.rbu.leverStage), raised)

/-- The output stage moved toward the allowed stage (R148). -/
def moveOutput (s : State) : State :=
  let r := s.rbu
  if r.allowed < r.output then { s with rbu := { r with output := r.allowed } }
  else if r.output < r.allowed ∧ r.ramp = none then
    { s with rbu := { r with output := r.output + 1, ramp := some (s.after Config.rampMs) } }
  else s

/-- A formation of the allowed stage (R147), after which the output stage moves (R148). -/
def formAllowed (s : State) : State :=
  moveOutput { s with rbu := { s.rbu with allowed := (formed s).1, assist := (formed s).2 } }

/-- The raising of the cut (R149). -/
def raiseCut (s : State) : State :=
  let r := s.rbu
  let s := if r.withheld then s else raiseEvent .retarderCut 0 r.output r.leverStage s
  formAllowed { s with rbu := { r with cut := true, holdOff := none } }

/-- The fall of the cut, at which the hold-off starts with the hold-off in force (R150). -/
def dropCut (s : State) : State :=
  let r := s.rbu
  formAllowed { s with rbu := { r with
    cut := false, holdOff := some { due := s.after r.settings.holdOff, length := r.settings.holdOff } } }

/-- Whether a channel state is one of the regulating states HOLD, VENT and REAPPLY (R47). -/
def ChannelState.regulating : ChannelState → Bool
  | .hold | .vent | .reapply => true
  | .idle | .pass | .test | .lockout => false

/-- Whether a channel marked drive-axle is in a regulating state (R70). -/
def Channel.cuts (c : Channel) : Bool := c.state.regulating && c.profile.any (·.driveAxle)

/-- The retarder cut formed from the channel states (R70): raised, fallen or unchanged. -/
def formCut (s : State) : State :=
  let now := s.channels.toList.any Channel.cuts
  if now && !s.rbu.cut then raiseCut s
  else if !now && s.rbu.cut then dropCut s
  else s

/-- The stage the lever inputs encode (R145). -/
def RetarderUnit.encodedStage (r : RetarderUnit) : Nat :=
  (if r.input1 = .closed then 1 else 0) + (if r.input2 = .closed then 2 else 0)

/-- LEVER_INPUT_CHANGE (R145): the inputs stand as given; a change starts or restarts the settle timer. The pins move
during a held reset too, in which no timer runs. -/
def execLeverInputChange (input1 input2 : Contact) (s : State) : Host.Outcome State Fault Refusal :=
  let r := s.rbu
  let settle := if s.held.isSome ∨ (r.input1 = input1 ∧ r.input2 = input2) then r.settle
    else some (s.after Config.leverSettleMs)
  .next { s with rbu := { r with input1 := input1, input2 := input2, settle := settle } }

/-- The settle timer's expiry: a stage that differs is a lever change, at which the allowed stage is formed (R145). -/
def settleLever (s : State) : State :=
  let r := { s.rbu with settle := none }
  if r.encodedStage = r.leverStage then { s with rbu := r }
  else formAllowed { s with rbu := { r with leverStage := r.encodedStage } }

/-- LEVER_SETTLE_EXPIRY (R145). -/
def execLeverSettleExpiry (s : State) : Host.Outcome State Fault Refusal :=
  s.whenRunning fun s => if s.due s.rbu.settle then retarderEvent settleLever s else s

/-- The hold-off's expiry: the withheld span ends, the stage is formed and moved, then RETARDER_RESTORED (R151). -/
def endHoldOff (h : HoldOff) (s : State) : State :=
  let s := formAllowed { s with rbu := { s.rbu with holdOff := none } }
  raiseEvent .retarderRestored 0 s.rbu.allowed h.length s

/-- HOLD_OFF_EXPIRY (R151). -/
def execHoldOffExpiry (s : State) : Host.Outcome State Fault Refusal :=
  s.whenRunning fun s =>
    match s.rbu.holdOff with
    | none => s
    | some h => if s.due (some h.due) then retarderEvent (endHoldOff h) s else s

/-- The ramp timer's expiry: it stops, and the output moves toward the allowed stage as it stands (R148). -/
def endRamp (s : State) : State := moveOutput { s with rbu := { s.rbu with ramp := none } }

/-- RAMP_EXPIRY (R148). -/
def execRampExpiry (s : State) : Host.Outcome State Fault Refusal :=
  s.whenRunning fun s => if s.due s.rbu.ramp then retarderEvent endRamp s else s

/-- The result of a SET-BLEND: the blend settings in force (11.5). -/
def blendResult (b : BlendSettings) : List Byte :=
  le16 (BitVec.ofNat 16 b.holdOff) ++ [flag b.assistEnabled, BitVec.ofNat 8 b.assistStage]
    ++ le16 (BitVec.ofInt 16 b.assistTemperature) ++ le16 (BitVec.ofNat 16 b.assistDemand)

/-- The carrying out of a SET-BLEND (R153). -/
def carrySetBlend (tag : Byte) (fields : Option BlendSettings) (s : State) : State :=
  match fields with
  | none => respond 0x60 tag .refusedRange (blendResult s.rbu.settings) s
  | some b =>
    let s := retarderEvent (fun s => formAllowed { s with rbu := { s.rbu with settings := b } }) s
    respond 0x60 tag .done (blendResult s.rbu.settings) s

/-- SET_BLEND (R153). -/
def execSetBlend (tag : Byte) (holdOff : Word) (enabled stage : Byte) (temperature demand : Word) (s : State) :
    Host.Outcome State Fault Refusal :=
  take (.setBlend tag holdOff enabled stage temperature demand)
    (carrySetBlend tag (blendFields holdOff enabled stage temperature demand)) s

end Sys2Proof.Machine
end

