-- ==== Sys2Proof/Machine/Wheels.lean ====
section
/-! DEFINITION. The Wheel Capture Unit (chapter 1): tooth edges, capture, plausibility, divisor, standstill, effective speed,
and the three wheel requests. -/

namespace Sys2Proof.Machine

/-- The greatest value of a 16-bit field, at which saturating results stand. -/
def maxWord : Nat := 65535

/-- The speed of a capture over `d` teeth in `p` µs, rounded to the nearest and saturated (R10, R12). -/
def captureSpeed (k d p : Nat) : Nat := min maxWord ((k * d + p / 2) / p)

/-- Whether a per-tooth period is plausible against a reference period (R13). -/
def plausible (p r : Nat) : Bool := decide (r ≤ 2 * p) && decide (p ≤ 2 * r)

/-- The divisor multiplied by 4. -/
def Divisor.up : Divisor → Divisor
  | .one => .four
  | .four => .sixteen
  | .sixteen => .sixteen

/-- The divisor divided by 4. -/
def Divisor.down : Divisor → Divisor
  | .one => .one
  | .four => .one
  | .sixteen => .four

/-- The divisor after an accepted capture of period `p` (R17). -/
def nextDivisor (d : Divisor) (p : Nat) : Divisor :=
  if p < 2500 then d.up else if 40000 < p then d.down else d

/-- A capture state with an accepted capture of period `p`, per-tooth period `pt` and speed `v` (R13, R14, R17). -/
def acceptCapture (c : Capture) (p pt v : Nat) : Capture :=
  { c with vCap := v, pAcc := pt, candidate := none, strikes := 0, divisor := nextDivisor c.divisor p }

/-- A capture state with a strike of per-tooth period `pt` (R15). -/
def strikeCapture (c : Capture) (pt : Nat) : Capture := { c with strikes := c.strikes + 1, candidate := some pt }

/-- Whether a capture's per-tooth period is accepted, against p_acc or as a confirmed jump (R13, R14). -/
def accepts (c : Capture) (pt : Nat) : Bool := plausible pt c.pAcc || c.candidate.any (plausible pt)

/-- The wheel's standstill timer restarted from the window of its record (R18). -/
def standstillAfter (r : WheelRecord) (s : State) : Option Nat := some (s.after r.window)

/-- The first taken edge of a STOPPED wheel (R9). -/
def edgeStopped (r : WheelRecord) (s : State) (x : Wheel) : Wheel :=
  { x with
    state := .starting
    capture := { x.capture with lastTooth := some s.timeBase, standstill := standstillAfter r s } }

/-- The edge of a STARTING wheel that gives its first period `p` (R10), to which the divisor rule is applied (R17). -/
def edgeStarting (r : WheelRecord) (p : Nat) (s : State) (x : Wheel) : Wheel :=
  { x with
    state := .rolling
    capture := { x.capture with
      vCap := captureSpeed r.k 1 p, pAcc := p, lastTooth := some s.timeBase, lastCapture := some s.timeBase
      standstill := standstillAfter r s, divisor := nextDivisor x.capture.divisor p } }

/-- The capture a ROLLING wheel's edge makes once the counter reaches D (R11, steps 1 to 6), `c` being the capture state
in which the edge has been counted and `last` the last capture time. A third strike enters SUSPECT (R16). -/
def capture (w : Fin 6) (r : WheelRecord) (last : Long) (c : Capture) (x : Wheel) (s : State) : State :=
  let p := (s.timeBase - last).toNat
  let pt := p / c.divisor.toNat
  let c := { c with teeth := 0, lastCapture := some s.timeBase }
  if accepts c pt then
    s.setWheel w { x with capture := acceptCapture c p pt (captureSpeed r.k c.divisor.toNat p) }
  else
    let c' := strikeCapture c pt
    if c'.strikes < 3 then s.setWheel w { x with capture := c' }
    else
      raiseEvent .wheelSuspect (BitVec.ofNat 8 w) pt c.pAcc
        (s.setWheel w { x with state := .suspect, capture := { c' with standstill := none } })

/-- An edge taken on a ROLLING wheel (R11). -/
def edgeRolling (w : Fin 6) (r : WheelRecord) (x : Wheel) (s : State) : State :=
  let c := { x.capture with
    teeth := x.capture.teeth + 1, lastTooth := some s.timeBase, standstill := standstillAfter r s }
  if c.teeth < c.divisor.toNat then s.setWheel w { x with capture := c }
  else
    match c.lastCapture with
    | none => s.setWheel w { x with capture := c }
    | some last => capture w r last c x s

/-- A tooth edge (R3, R9 to R11): ignored in OFF and SUSPECT; blanked less than 50 µs after the last tooth time. -/
def toothEdge (w : Fin 6) (s : State) : State :=
  let x := s.wheels[w]
  match x.state, x.record, x.capture.lastTooth with
  | .stopped, some r, _ => s.setWheel w (edgeStopped r s x)
  | .starting, some r, some last =>
    let p := (s.timeBase - last).toNat
    if p < 50 then s else s.setWheel w (edgeStarting r p s x)
  | .rolling, some r, some last =>
    if (s.timeBase - last).toNat < 50 then s else edgeRolling w r x s
  | _, _, _ => s

/-- TOOTH_EDGE (R11). -/
def execToothEdge (w : Fin 6) (s : State) : Host.Outcome State Fault Refusal := s.whenRunning (toothEdge w)

/-- Whether a wheel's standstill timer can expire: it is in STARTING or ROLLING and the timer has run out (R19). -/
def standstillDue (w : Fin 6) (s : State) : Bool :=
  match s.wheels[w].state with
  | .starting | .rolling => s.due s.wheels[w].capture.standstill
  | .off | .stopped | .suspect => false

/-- A wheel at standstill: its capture state cleared, in STOPPED (R19). -/
def stopWheel (x : Wheel) : Wheel := { x with state := .stopped, capture := {} }

/-- STANDSTILL_EXPIRY (R19). -/
def execStandstillExpiry (w : Fin 6) (s : State) : Host.Outcome State Fault Refusal :=
  s.whenRunning fun s => if standstillDue w s then s.setWheel w (stopWheel s.wheels[w]) else s

/-- The effective speed of a wheel at the present time base, or none (R20). -/
def effectiveSpeed (s : State) (x : Wheel) : Option Nat :=
  match x.state with
  | .off | .suspect => none
  | .stopped | .starting => some 0
  | .rolling =>
    match x.record, x.capture.lastTooth with
    | some r, some last => some (min x.capture.vCap (r.k / max 1 (s.timeBase - last).toNat))
    | _, _ => some 0

/-! ### Wheel sets (R33) -/

/-- Whether wheel `w` belongs to the wheel set of channel `c` (R33). -/
def inWheelSet (s : State) (c w : Fin 6) : Bool :=
  match s.wheels[w].record with
  | none => false
  | some r =>
    s.wheels[w].state != .off &&
      match s.reg.mode with
      | .direct => decide (w = c)
      | .grouped => decide (r.channel = c)

/-- The wheel set of a channel, in index order (R33). -/
def wheelSet (s : State) (c : Fin 6) : List (Fin 6) := indices.filter (inWheelSet s c)

/-! ### The wheel requests (R4 to R8) -/

/-- Whether a channel is occupied by regulation or a test (R6). -/
def busyChannel (s : State) (c : Fin 6) : Bool :=
  s.channels[c].state.regulating || s.channels[c].state == .test

/-- The channel a wheel with this record belongs to under the mode in force (R6). -/
def channelOf (s : State) (w : Fin 6) (r : WheelRecord) : Fin 6 :=
  match s.reg.mode with
  | .direct => w
  | .grouped => r.channel

/-- Whether a wheel's current channel is occupied; a wheel in OFF has no current channel (R6). -/
def currentBusy (s : State) (w : Fin 6) : Bool :=
  s.wheels[w].state != .off && s.wheels[w].record.any fun r => busyChannel s (channelOf s w r)

/-- The result of a wheel request: the index as given, the wheel's state (OFF for an index out of range), and K where it
is carried (R6 to R8, 11.5). -/
def wheelResult (wheel : Byte) (s : State) (k : Option Nat) : List Byte :=
  let state := match index6 wheel with
    | some w => s.wheels[w].state.code
    | none => WheelState.off.code
  [wheel, state, 0, 0] ++ le32 (BitVec.ofNat 32 (k.getD 0))

/-- The carrying out of an INSTALL-WHEEL (R4 to R6). -/
def carryInstallWheel (tag wheel : Byte) (fields : Option (Fin 6 × WheelRecord)) (s : State) : State :=
  match fields with
  | none => respond 0x10 tag .refusedRange (wheelResult wheel s none) s
  | some (w, r) =>
    if currentBusy s w || busyChannel s (channelOf s w r) then
      respond 0x10 tag .refusedBusy (wheelResult wheel s none) s
    else
      let s := s.setWheel w { record := some r, state := .stopped, capture := {} }
      respond 0x10 tag .done (wheelResult wheel s (some r.k)) s

/-- INSTALL_WHEEL (R4 to R6). -/
def execInstallWheel (tag wheel channel eligible : Byte) (teeth circumference window : Word) (s : State) :
    Host.Outcome State Fault Refusal :=
  take (.installWheel tag wheel channel eligible teeth circumference window)
    (carryInstallWheel tag wheel (wheelFields wheel channel eligible teeth circumference window)) s

/-- The carrying out of a REMOVE-WHEEL (R7). -/
def carryRemoveWheel (tag wheel : Byte) (s : State) : State :=
  match index6 wheel with
  | none => respond 0x11 tag .refusedRange (wheelResult wheel s none) s
  | some w =>
    if currentBusy s w then respond 0x11 tag .refusedBusy (wheelResult wheel s none) s
    else
      let s := s.setWheel w {}
      respond 0x11 tag .done (wheelResult wheel s none) s

/-- REMOVE_WHEEL (R7). -/
def execRemoveWheel (tag wheel : Byte) (s : State) : Host.Outcome State Fault Refusal :=
  take (.removeWheel tag wheel) (carryRemoveWheel tag wheel) s

/-- The carrying out of a CLEAR-WHEEL (R8). -/
def carryClearWheel (tag wheel : Byte) (s : State) : State :=
  match index6 wheel with
  | none => respond 0x12 tag .refusedRange (wheelResult wheel s none) s
  | some w =>
    if s.wheels[w].state = .suspect then
      let s := s.setWheel w (stopWheel s.wheels[w])
      respond 0x12 tag .done (wheelResult wheel s none) s
    else respond 0x12 tag .refusedState (wheelResult wheel s none) s

/-- CLEAR_WHEEL (R8). -/
def execClearWheel (tag wheel : Byte) (s : State) : Host.Outcome State Fault Refusal :=
  take (.clearWheel tag wheel) (carryClearWheel tag wheel) s

/-! ### The wheel live row (R23) -/

/-- The base of a wheel's live row (11.8). -/
def wheelRowBase (w : Fin 6) : Nat := 0x0100 + 32 * w

/-- The fields of a wheel's live row, with the effective speed of the period's read and the period's figures (R23). -/
def wheelRow (x : Wheel) (speed : Option Nat) (f : WheelFigures) : List (Nat × List Byte) :=
  let c := x.capture
  let rec' := x.record
  [(2, [x.state.code, BitVec.ofNat 8 c.divisor.toNat, BitVec.ofNat 8 c.strikes,
        codeOr (fun r => BitVec.ofNat 8 r.channel) rec', codeOr (fun r => flag r.eligible) rec',
        codeOr (fun r => BitVec.ofNat 8 r.teeth) rec']
      ++ le16 (BitVec.ofNat 16 c.vCap) ++ le16 (BitVec.ofNat 16 (speed.getD 0))
      ++ le16 (BitVec.ofNat 16 f.slip) ++ le16 (BitVec.ofInt 16 f.accel)
      ++ le32 (BitVec.ofNat 32 c.pAcc) ++ le32 (BitVec.ofNat 32 (c.candidate.getD 0))
      ++ le32 (BitVec.ofNat 32 ((rec'.map (·.k)).getD 0))
      ++ le16 (BitVec.ofNat 16 ((rec'.map (·.circumference)).getD 0))
      ++ le16 (BitVec.ofNat 16 ((rec'.map (·.window)).getD 0)))]

end Sys2Proof.Machine
end

