-- ==== Sys2Proof/Machine/Regulator.lean ====
section
/-! DEFINITION. The Regulator's figures (chapter 2): reference speed, slip, acceleration, assignment, braking present; its
fields of the status block; and the requests ARM and SET-REFERENCE. -/

namespace Sys2Proof.Machine

/-! ### Reference speed, slip and acceleration -/

/-- Whether a wheel counts for the candidate speed: its record is reference-eligible (R28). -/
def eligibleWheel (x : Wheel) : Bool := x.record.any (·.eligible)

/-- The candidate speed from the speeds of one read (R28): the highest effective speed among the eligible wheels, or 0. -/
def candidateSpeed (wheels : Vector Wheel 6) (speeds : Vector (Option Nat) 6) : Nat :=
  indices.foldl (fun m w => if eligibleWheel wheels[w] then max m (speeds[w].getD 0) else m) 0

/-- The new reference speed (R29). Natural subtraction gives 0 where the manual takes a result below 0 as 0. -/
def newVref (g : Settings) (old candidate : Nat) : Nat := min (old + g.upLimit) (max candidate (old - g.downLimit))

/-- The slip of a wheel, `speed` being its effective speed or none (R30). -/
def slipOf (g : Settings) (vref : Nat) (speed : Option Nat) : Nat :=
  match speed with
  | none => 0
  | some v => if vref < g.floor then 0 else if v < vref then (vref - v) * 1000 / vref else 0

/-- A value clamped to a range. -/
def clampInt (lo hi n : Int) : Int := max lo (min hi n)

/-- The acceleration of a wheel from its speed and its previous effective speed (R31). -/
def accelOf (previous speed : Option Nat) : Int :=
  match speed with
  | none => 0
  | some v => clampInt (-1000) 1000 ((((v : Int) - ((previous.getD 0 : Nat) : Int)) * 50).tdiv 9)

/-- A wheel's period results; its speed becomes its previous effective speed (R30 to R32). -/
def wheelFigures (g : Settings) (vref : Nat) (old : WheelFigures) (speed : Option Nat) : WheelFigures :=
  { slip := slipOf g vref speed, accel := accelOf old.previous speed, previous := speed }

/-! ### Assignment (R34, R35) -/

/-- Of two wheels, the one with the lower speed, the first where they are equal (R35). -/
def lowerOf (speeds : Vector (Option Nat) 6) (best : Option (Fin 6)) (w : Fin 6) : Option (Fin 6) :=
  match best with
  | none => some w
  | some b => if (speeds[w].getD 0) < (speeds[b].getD 0) then some w else some b

/-- Of two wheels, the one with the higher speed, the first where they are equal (R35). -/
def higherOf (speeds : Vector (Option Nat) 6) (best : Option (Fin 6)) (w : Fin 6) : Option (Fin 6) :=
  match best with
  | none => some w
  | some b => if (speeds[b].getD 0) < (speeds[w].getD 0) then some w else some b

/-- The governing wheel among the usable wheels of a set, by the combine rule (R35). -/
def governingWheel (rule : Combine) (speeds : Vector (Option Nat) 6) (usable : List (Fin 6)) : Option (Fin 6) :=
  match rule with
  | .selectLow => usable.foldl (lowerOf speeds) none
  | .selectHigh => usable.foldl (higherOf speeds) none

/-- The combine rule of a channel's profile in force, SELECT_LOW where none is installed (R35). -/
def Channel.combine (c : Channel) : Combine :=
  match c.profile with
  | some p => p.combine
  | none => .selectLow

/-- A channel's period results from its wheel set and the wheels' figures (R34, R35). A wheel of the set is usable
exactly where it has an effective speed. -/
def assignChannel (set : List (Fin 6)) (rule : Combine) (speeds : Vector (Option Nat) 6)
    (figures : Vector WheelFigures 6) : ChannelFigures :=
  if set.isEmpty then {}
  else
    match governingWheel rule speeds (set.filter fun w => speeds[w].isSome) with
    | none => { outcome := .sensorless }
    | some w => { outcome := .governed, governing := some w, slip := figures[w].slip, accel := figures[w].accel }

/-! ### Braking present (R37, R38) -/

/-- The absence cause, none while braking is present: the first of R37's causes that applies. BLIND demand counts as
met (R38). -/
def brakingVerdict (armed : Bool) (cls : SupplyClass) (vref : Nat) (g : Settings) (demand : Option Nat) :
    Option AbsenceCause :=
  if armed = false then some .disarmed
  else if cls = .critical then some .supply
  else if vref < g.floor then some .lowSpeed
  else if demand.any (fun p => decide (p < g.demandThreshold)) then some .released
  else none

/-- Steps 1 to 6 of a regulation period: the figures the Regulator forms from one read of the wheels (R26), the speeds
of that read being `speeds`. -/
def formFigures (speeds : Vector (Option Nat) 6) (s : State) : Regulator :=
  let g := s.reg.pendingSettings.getD s.reg.settings
  let vref := newVref g s.reg.vref (candidateSpeed s.wheels speeds)
  let figures := six fun w => wheelFigures g vref s.reg.wheels[w] speeds[w]
  { s.reg with
    settings := g
    pendingSettings := none
    vref := vref
    wheels := figures
    channels := six fun c => assignChannel (wheelSet s c) s.channels[c].combine speeds figures
    absence := brakingVerdict s.reg.armed s.smn.cls vref g s.pcu.demand }

/-! ### The Regulator's fields of the status block (R45) -/

/-- The Regulator's fields (R45, 11.9). -/
def Regulator.statusFields (r : Regulator) : List (Nat × List Byte) :=
  [(3, [flag r.armed, r.mode.code, flag r.absence.isNone, codeOr AbsenceCause.code r.absence]),
   (8, le16 (BitVec.ofNat 16 r.vref) ++ le16 (BitVec.ofNat 16 r.settings.floor)
        ++ le16 (BitVec.ofNat 16 r.settings.downLimit) ++ le16 (BitVec.ofNat 16 r.settings.upLimit)
        ++ le16 (BitVec.ofNat 16 r.settings.demandThreshold) ++ le16 (BitVec.ofNat 16 r.settings.reservoirLow))]

/-- The Regulator's rewrite of its fields (R45). -/
def regulatorStatus (s : State) : State := rewriteStatus s.reg.statusFields s

/-! ### ARM (R41) -/

/-- Whether a channel is enabled: its profile in force is installed with the enabled flag set (R41). -/
def Channel.enabled (c : Channel) : Bool := c.profile.any (·.enabled)

/-- The count of channels enabled and assigned at this moment (R41). -/
def enabledAssigned (s : State) : Nat :=
  (indices.filter fun c => s.channels[c].enabled && !(wheelSet s c).isEmpty).length

/-- The result of an ARM: the armed flag after the request and the count (R41). -/
def armResult (count : Nat) (s : State) : List Byte := [flag s.reg.armed, BitVec.ofNat 8 count]

/-- The carrying out of an ARM (R41). -/
def carryArm (tag : Byte) (s : State) : State :=
  let n := enabledAssigned s
  if s.reg.armed then respond 0x02 tag .done (armResult n s) s
  else if n = 0 then respond 0x02 tag .refusedState (armResult n s) s
  else
    let s := regulatorStatus { s with reg := { s.reg with armed := true } }
    respond 0x02 tag .done (armResult n s) s

/-- ARM (R41). -/
def execArm (tag : Byte) (s : State) : Host.Outcome State Fault Refusal := take (.arm tag) (carryArm tag) s

/-! ### SET-REFERENCE (R43, R44) -/

/-- The result of a SET-REFERENCE: the mode and the settings that stand, pending ones where they exist (R43). -/
def referenceResult (s : State) : List Byte :=
  let g := s.reg.pendingSettings.getD s.reg.settings
  le16 (s.reg.mode.code.setWidth 16) ++ le16 (BitVec.ofNat 16 g.floor) ++ le16 (BitVec.ofNat 16 g.downLimit)
    ++ le16 (BitVec.ofNat 16 g.upLimit) ++ le16 (BitVec.ofNat 16 g.demandThreshold)
    ++ le16 (BitVec.ofNat 16 g.reservoirLow)

/-- The carrying out of a SET-REFERENCE: the mode at once, the settings as pending settings (R43, R44). -/
def carrySetReference (tag : Byte) (fields : Option (Mode × Settings)) (s : State) : State :=
  match fields with
  | none => respond 0x04 tag .refusedRange (referenceResult s) s
  | some (m, g) =>
    if s.reg.armed ∧ m ≠ s.reg.mode then respond 0x04 tag .refusedState (referenceResult s) s
    else
      let t := { s with reg := { s.reg with mode := m, pendingSettings := some g } }
      let t := if m = s.reg.mode then t else regulatorStatus t
      respond 0x04 tag .done (referenceResult t) t

/-- SET_REFERENCE (R43, R44). -/
def execSetReference (tag : Byte) (mode floor down up demand reservoir : Word) (s : State) :
    Host.Outcome State Fault Refusal :=
  take (.setReference tag mode floor down up demand reservoir)
    (carrySetReference tag (referenceFields mode floor down up demand reservoir)) s

end Sys2Proof.Machine
end

