-- ==== Sys2Proof/Machine/Channels.lean ====
section
/-! DEFINITION. The Modulation Channels (chapter 3): solenoid patterns, entries to a state, episodes, lockout, the ending of
valve tests, the checks of a regulation period, limit expiries, output faults, and the channel requests. -/

namespace Sys2Proof.Machine

/-! ### Outputs (R48, R63) -/

/-- An output driven energised: one that was de-energised has its monitor start the 3 ms watch, one that was energised
keeps its monitor (R63). -/
def Output.energise (s : State) (o : Output) : Output :=
  if o.energised then o else { energised := true, watch := some (s.after Config.outputWatchMs) }

/-- A de-energised output, its monitor idle (R63). -/
def Output.off : Output := {}

/-! ### Episodes (R71 to R73) -/

/-- The open episode with `f` applied. -/
def Channel.updateEpisode (f : Episode → Episode) (x : Channel) : Channel := { x with episode := x.episode.map f }

/-- A count that saturates at 255 (R72). -/
def count255 (n : Nat) : Nat := min 255 (n + 1)

/-- The end of a vent phase: the time since the VENT entry stamp is added to the total vent time (R58, R72). -/
def Channel.endVentPhase (s : State) (x : Channel) : Channel :=
  match x.ventEntry with
  | none => x
  | some e =>
    Channel.updateEpisode (fun ep => { ep with ventTime := min maxWord (ep.ventTime + s.since e) })
      { x with ventEntry := none }

/-- An episode opened at a regulation period (R71). The state entered counts its own phase (R72). -/
def openedEpisode (c : Fin 6) (s : State) : Episode :=
  { openStamp := s.stamp, vrefAtOpen := s.reg.vref, governing := s.reg.channels[c].governing
    peakSlip := s.reg.channels[c].slip, reservoir := s.pcu.reservoir, hottest := s.dtu.hottest }

/-- The body of an episode record (11.7). -/
def episodeBody (c : Fin 6) (reason : CloseReason) (ep : Episode) (s : State) : List Byte :=
  [BitVec.ofNat 8 c, reason.code, indexByte ep.governing, BitVec.ofNat 8 ep.strikes] ++ le32 ep.openStamp
    ++ le16 (BitVec.ofNat 16 (min maxWord (s.since ep.openStamp))) ++ le16 (BitVec.ofNat 16 ep.vrefAtOpen)
    ++ le16 (BitVec.ofNat 16 s.reg.vref) ++ le16 (BitVec.ofNat 16 ep.peakSlip)
    ++ le16 (BitVec.ofNat 16 ep.ventTime) ++ le16 (BitVec.ofNat 16 ep.pulses)
    ++ [BitVec.ofNat 8 ep.ventPhases, BitVec.ofNat 8 ep.holdPhases, BitVec.ofNat 8 ep.trains, 0]
    ++ le16 (reservoirWord ep.reservoir) ++ le16 (temperatureWord ep.hottest)

/-- The close of an open episode: a vent phase in progress is ended, the record is handed over, and no episode is open
(R73). -/
def closeEpisode (c : Fin 6) (reason : CloseReason) (s : State) : State :=
  let x := s.channels[c].endVentPhase s
  match x.episode with
  | none => s
  | some ep => raiseEpisode (episodeBody c reason ep s) (s.setChannel c { x with episode := none })

/-! ### Entering a state (R48, R51) -/

/-- A channel that leaves its state: its limit timers stop, a vent phase ends, its train or test is over and it has no
lockout cause (R48, R82). -/
def Channel.left (s : State) (x : Channel) : Channel :=
  { x.endVentPhase s with holdTimer := none, ventTimer := none, activity := .none, cause := none }

/-- The train a channel starts on entering REAPPLY, from its profile in force (R79). -/
def startedTrain (p : Profile) (s : State) : Activity :=
  .train .apply (s.stampAfter p.applyPulse)
    { applyPulse := p.applyPulse, holdInterval := p.holdInterval, repeatCount := p.repeatCount
      continuous := p.continuous } 0

/-- A channel as it stands on entering a state: outputs in the state's pattern, timers and trains started, phases
counted (R48, R72, R79). On entering TEST the test's own start drives the outputs (R86). -/
def entered (new : ChannelState) (s : State) (x : Channel) : Channel :=
  let x := { x.left s with state := new }
  match new with
  | .idle | .pass | .lockout => { x with inlet := .off, vent := .off }
  | .hold =>
    Channel.updateEpisode (fun ep => { ep with holdPhases := count255 ep.holdPhases })
      { x with
        holdTimer := x.profile.map fun (p : Profile) => s.stampAfter p.holdLimit
        inlet := x.inlet.energise s, vent := .off }
  | .vent =>
    Channel.updateEpisode (fun ep => { ep with ventPhases := count255 ep.ventPhases })
      { x with
        ventTimer := x.profile.map fun (p : Profile) => s.stampAfter p.ventLimit
        ventEntry := some s.stamp, inlet := x.inlet.energise s, vent := x.vent.energise s }
  | .reapply =>
    Channel.updateEpisode (fun ep => { ep with trains := count255 ep.trains })
      { x with
        activity := (x.profile.map fun p => startedTrain p s).getD .none
        inlet := .off, vent := .off }
  | .test => x

/-- A staged profile applied, with PROFILE_APPLIED carrying the state entered (R51). -/
def applyStaged (c : Fin 6) (s : State) : State :=
  let x := s.channels[c]
  match x.staged with
  | none => s
  | some p =>
    raiseEvent .profileApplied (BitVec.ofNat 8 c) x.state.code.toNat 0
      (s.setChannel c { x with profile := some p, staged := none })

/-- A channel enters a state other than LOCKOUT; a staged profile is applied at an entry to PASS or IDLE (R51). -/
def enter (c : Fin 6) (new : ChannelState) (s : State) : State :=
  let s := s.setChannel c (entered new s s.channels[c])
  match new with
  | .idle | .pass => applyStaged c s
  | .hold | .vent | .reapply | .test | .lockout => s

/-! ### The ending of a valve test (R87) -/

/-- The result of a VALVE-TEST that has run (R87, 11.5). -/
def testResult (c : Fin 6) (pulses : Nat) (phase : TestPhase) (state : ChannelState) (cause : Option LockoutCause)
    (solenoid : Option Solenoid) : List Byte :=
  [BitVec.ofNat 8 c, state.code, 0, phase.code] ++ le16 (BitVec.ofNat 16 pulses)
    ++ [codeOr LockoutCause.code cause, codeOr solenoidCode solenoid]

/-- The state a channel enters at a test's end other than by a fault: PASS if the part is armed, IDLE if not (R87). -/
def afterTest (s : State) : ChannelState := if s.reg.armed then .pass else .idle

/-- The end of a test other than by a fault: the channel leaves TEST, then the response is handed over (R87). -/
def endTest (c : Fin 6) (status : Status) (s : State) : State :=
  let new := afterTest s
  match s.channels[c].activity with
  | .test phase _ _ pulses tag => respond 0x28 tag status (testResult c pulses phase new none none) (enter c new s)
  | .none | .train _ _ _ _ => enter c new s

/-! ### Lockout (R65) -/

/-- The second value of CHANNEL_LOCKOUT (R65): the solenoid concerned, the vent limit in ms, or 0. -/
def lockoutValue (cause : LockoutCause) (solenoid : Solenoid) (x : Channel) : Nat :=
  match cause with
  | .sensors => 0
  | .ventLimit => (x.profile.map (·.ventLimit)).getD 0
  | .outputOpen | .outputShort => (solenoidCode solenoid).toNat

/-- The response of a valve test that a fault aborts (R91). -/
def abortFault (c : Fin 6) (cause : LockoutCause) (solenoid : Solenoid) (activity : Activity) (s : State) : State :=
  match activity with
  | .test phase _ _ pulses tag =>
    respond 0x28 tag .abortedFault (testResult c pulses phase .lockout (some cause) (some solenoid)) s
  | .none | .train _ _ _ _ => s

/-- The entry to LOCKOUT (R65), in the order of its steps: the cause, the outputs and the timers; the answer of a test; the
episode's close; the event; the staged profile. -/
def lockOut (c : Fin 6) (cause : LockoutCause) (solenoid : Solenoid) (s : State) : State :=
  let x := s.channels[c]
  let s := s.setChannel c { entered .lockout s x with cause := some cause }
  let s := abortFault c cause solenoid x.activity s
  let s := closeEpisode c .lockout s
  let s := raiseEvent .channelLockout (BitVec.ofNat 8 c) cause.code.toNat (lockoutValue cause solenoid x) s
  applyStaged c s

/-! ### The regulation period in the channels (R52 to R59) -/

/-- The state to which slip and acceleration send a channel while braking is present (R56 to R59). -/
def regulated (p : Profile) (slip : Nat) (accel : Int) : ChannelState → ChannelState
  | .pass => if p.slipEntry ≤ slip then .vent else if accel ≤ p.holdDecel then .hold else .pass
  | .hold => if p.slipEntry ≤ slip then .vent else if slip < p.slipExit ∧ p.holdDecel < accel then .reapply else .hold
  | .vent => if p.reaccel ≤ accel ∨ slip < p.slipExit then .hold else .vent
  | .reapply => if p.slipEntry ≤ slip then .vent else if accel ≤ p.holdDecel then .hold else .reapply
  | .idle => .idle
  | .test => .test
  | .lockout => .lockout

/-- The close reason an absence cause gives (R55, R73). -/
def AbsenceCause.reason : AbsenceCause → CloseReason
  | .disarmed => .disarmed
  | .supply => .supply
  | .lowSpeed => .lowSpeed
  | .released => .released

/-- Whether a channel is eligible (R52): armed, enabled and GOVERNED at the latest period. -/
def eligible (s : State) (c : Fin 6) : Bool :=
  s.reg.armed && s.channels[c].enabled && s.reg.channels[c].outcome == .governed

/-- Check 3 of R52: the channel is taken to IDLE if it is not there already (R53). -/
def takeToIdle (c : Fin 6) (s : State) : State :=
  if s.channels[c].state = .idle then s
  else enter c .idle (closeEpisode c (if s.reg.armed then .released else .disarmed) s)

/-- Check 6 of R52: an open episode closes with the cause, and a regulating channel enters PASS (R55). -/
def brakingAbsent (c : Fin 6) (cause : AbsenceCause) (s : State) : State :=
  let was := s.channels[c].state
  let s := closeEpisode c cause.reason s
  if was.regulating then enter c .pass s else s

/-- Check 7 of R52: the regulating transitions (R56 to R59). A departure from PASS opens an episode if none is open
(R71). -/
def brakingPresent (c : Fin 6) (p : Profile) (s : State) : State :=
  let x := s.channels[c]
  let new := regulated p s.reg.channels[c].slip s.reg.channels[c].accel x.state
  if new = x.state then s
  else
    let s :=
      if x.state = .pass ∧ x.episode = none then s.setChannel c { x with episode := some (openedEpisode c s) } else s
    enter c new s

/-- The peak slip of an open episode at a regulation period (R72). -/
def notePeak (c : Fin 6) (s : State) : State :=
  s.setChannel c (s.channels[c].updateEpisode fun ep => { ep with peakSlip := max ep.peakSlip s.reg.channels[c].slip })

/-- A channel's checks at a regulation period, the first that applies deciding (R52); the motion abort of R89 is check
1. -/
def checkChannel (c : Fin 6) (s : State) : State :=
  let s := notePeak c s
  let x := s.channels[c]
  let f := s.reg.channels[c]
  if x.state = .test then if 0 < s.reg.vref then endTest c .abortedMotion s else s
  else if x.state = .lockout then s
  else if !s.reg.armed || !x.enabled || f.outcome == .unassigned then takeToIdle c s
  else if f.outcome = .sensorless then lockOut c .sensors .inlet s
  else if x.state = .idle then enter c .pass s
  else
    match s.reg.absence, x.profile with
    | some cause, _ => brakingAbsent c cause s
    | none, some p => brakingPresent c p s
    | none, none => s

/-! ### The channel live row (R75) -/

/-- The base of a channel's live row (11.8). -/
def channelRowBase (c : Fin 6) : Nat := 0x0200 + 32 * c

/-- A profile field for the row, 0 while no profile is installed (11.8). -/
def profileField (f : Profile → Nat) (x : Channel) : Word := BitVec.ofNat 16 ((x.profile.map f).getD 0)

/-- The fields of a channel's live row, its last ten bytes 0 (R75, 11.8). -/
def channelRow (x : Channel) (f : ChannelFigures) : List (Nat × List Byte) :=
  [(2, [x.state.code, codeOr LockoutCause.code x.cause, f.outcome.code, indexByte f.governing]
      ++ le16 (BitVec.ofNat 16 f.slip) ++ le16 (BitVec.ofInt 16 f.accel)
      ++ [bit 0 x.inlet.energised ||| bit 1 x.vent.energised,
          bit 0 x.episode.isSome ||| bit 1 x.staged.isSome ||| bit 2 x.profile.isSome ||| bit 3 x.enabled
            ||| bit 4 (x.combine == .selectHigh) ||| bit 5 (x.profile.any (·.driveAxle)),
          BitVec.ofNat 8 ((x.episode.map (·.strikes)).getD 0), 0]
      ++ le16 (profileField (·.slipEntry) x) ++ le16 (profileField (·.slipExit) x)
      ++ le16 (profileField (·.ventLimit) x) ++ le16 (profileField (·.holdLimit) x) ++ List.replicate 10 0)]

/-! ### Limit expiries (R61, R62) -/

/-- HOLD_LIMIT_EXPIRY (R61): a channel still in HOLD enters REAPPLY, and a train starts. -/
def execHoldLimitExpiry (c : Fin 6) (s : State) : Host.Outcome State Fault Refusal :=
  s.whenRunning fun s =>
    if s.channels[c].state = .hold ∧ s.due s.channels[c].holdTimer then
      retarderEvent (fun s => formCut (enter c .reapply s)) s
    else s

/-- The strikes of a channel's open episode, 0 when none is open. -/
def Channel.strikes (x : Channel) : Nat := (x.episode.map (·.strikes)).getD 0

/-- The vent-limit expiry's steps 1 to 3 (R62): the vent phase ends, a strike is counted and VENT_LIMIT is written. -/
def countVentStrike (c : Fin 6) (s : State) : State :=
  let x := (s.channels[c].endVentPhase s).updateEpisode fun ep => { ep with strikes := min 2 (ep.strikes + 1) }
  raiseEvent .ventLimit (BitVec.ofNat 8 c) x.strikes ((x.profile.map (·.ventLimit)).getD 0 : Nat) (s.setChannel c x)

/-- The vent-limit expiry of a channel in VENT (R62): PASS at the first strike, LOCKOUT at the second. -/
def ventLimit (c : Fin 6) (s : State) : State :=
  let s := countVentStrike c s
  formCut (if s.channels[c].strikes < 2 then enter c .pass s else lockOut c .ventLimit .inlet s)

/-- VENT_LIMIT_EXPIRY (R62). -/
def execVentLimitExpiry (c : Fin 6) (s : State) : Host.Outcome State Fault Refusal :=
  s.whenRunning fun s =>
    if s.channels[c].state = .vent ∧ s.due s.channels[c].ventTimer then retarderEvent (ventLimit c) s else s

/-! ### Output monitors and faults (R63, R64) -/

/-- The output of a solenoid. -/
def Channel.output (x : Channel) : Solenoid → Output
  | .inlet => x.inlet
  | .vent => x.vent

/-- A channel with one output replaced. -/
def Channel.setOutput (sol : Solenoid) (o : Output) (x : Channel) : Channel :=
  match sol with
  | .inlet => { x with inlet := o }
  | .vent => { x with vent := o }

/-- OUTPUT_PROVED (R63): the watch of an energised output ends and its monitor returns to idle. -/
def execOutputProved (c : Fin 6) (sol : Solenoid) (s : State) : Host.Outcome State Fault Refusal :=
  s.whenRunning fun s =>
    let x := s.channels[c]
    s.setChannel c (x.setOutput sol { x.output sol with watch := none })

/-- An output fault taken against a channel sends it to LOCKOUT from whatever state it is in; a channel already there has
its outputs de-energised (R64, R65). -/
def outputFault (c : Fin 6) (cause : LockoutCause) (sol : Solenoid) (s : State) : State :=
  formCut (lockOut c cause sol s)

/-- OUTPUT_OPEN (R63): the watch of an output has run out with the output still energised. -/
def execOutputOpen (c : Fin 6) (sol : Solenoid) (s : State) : Host.Outcome State Fault Refusal :=
  s.whenRunning fun s =>
    let o := s.channels[c].output sol
    if o.energised ∧ s.due o.watch then retarderEvent (outputFault c .outputOpen sol) s else s

/-- OUTPUT_SHORT (R64): an overcurrent on an energised output, proved or not. -/
def execOutputShort (c : Fin 6) (sol : Solenoid) (s : State) : Host.Outcome State Fault Refusal :=
  s.whenRunning fun s =>
    if (s.channels[c].output sol).energised then retarderEvent (outputFault c .outputShort sol) s else s

/-! ### The channel requests (R49, R50, R66) -/

/-- The result of an INSTALL-CHANNEL: for an index out of range, that index, state 0 and no staged profile (R49, R50). -/
def channelResult (channel : Byte) (s : State) : List Byte :=
  match index6 channel with
  | none => [channel, 0, 0]
  | some c => [channel, s.channels[c].state.code, flag s.channels[c].staged.isSome]

/-- The carrying out of an INSTALL-CHANNEL (R49, R50). -/
def carryInstallChannel (tag channel : Byte) (fields : Option (Fin 6 × Profile)) (s : State) : State :=
  match fields with
  | none => respond 0x20 tag .refusedRange (channelResult channel s) s
  | some (c, p) =>
    let x := s.channels[c]
    if x.state.regulating then
      let s := s.setChannel c { x with staged := some p }
      respond 0x20 tag .staged (channelResult channel s) s
    else
      let s := s.setChannel c { x with profile := some p, staged := none }
      respond 0x20 tag .done (channelResult channel s) s

/-- INSTALL_CHANNEL (R49, R50). -/
def execInstallChannel (tag : Byte) (fields : ProfileFields) (s : State) : Host.Outcome State Fault Refusal :=
  take (.installChannel tag fields) (carryInstallChannel tag fields.channel (profileFields fields)) s

/-- The result of a CLEAR-CHANNEL (R66). -/
def clearResult (channel : Byte) (s : State) : List Byte :=
  match index6 channel with
  | none => [channel, 0, 0]
  | some c => [channel, s.channels[c].state.code, codeOr LockoutCause.code s.channels[c].cause]

/-- The carrying out of a CLEAR-CHANNEL: refused outside LOCKOUT and while vref is at or above the floor; else the
channel leaves LOCKOUT, to PASS if it is eligible and to IDLE if not (R66). -/
def carryClearChannel (tag channel : Byte) (s : State) : State :=
  match index6 channel with
  | none => respond 0x21 tag .refusedRange (clearResult channel s) s
  | some c =>
    if s.channels[c].state ≠ .lockout ∨ s.reg.settings.floor ≤ s.reg.vref then
      respond 0x21 tag .refusedState (clearResult channel s) s
    else
      let s := retarderEvent (fun s => formCut (enter c (if eligible s c then .pass else .idle) s)) s
      respond 0x21 tag .done (clearResult channel s) s

/-- CLEAR_CHANNEL (R66). -/
def execClearChannel (tag channel : Byte) (s : State) : Host.Outcome State Fault Refusal :=
  take (.clearChannel tag channel) (carryClearChannel tag channel) s

end Sys2Proof.Machine
end

