-- ==== Sys2Proof/Machine/Pulses.lean ====
section
/-! DEFINITION. The Pulse Generator (chapter 4): the phase ends of reapply trains and valve tests, VALVE-TEST and
STOP-TEST. -/

namespace Sys2Proof.Machine

/-- A pulse counted, saturating at 65,535 (R80, R86). -/
def countPulse (n : Nat) : Nat := min maxWord (n + 1)

/-! ### Reapply trains (R79 to R81) -/

/-- The end of an apply interval (R80): the pulse is counted, in the episode too, and the hold interval begins with the
inlet energised. -/
def endApply (c : Fin 6) (par : TrainParams) (pulses : Nat) (s : State) : State :=
  let x := s.channels[c]
  s.setChannel c
    (Channel.updateEpisode (fun ep => { ep with pulses := countPulse ep.pulses })
      { x with
        activity := .train .hold (s.stampAfter par.holdInterval) par (countPulse pulses)
        inlet := x.inlet.energise s })

/-- APPLY_EXPIRY (R80). -/
def execApplyExpiry (c : Fin 6) (s : State) : Host.Outcome State Fault Refusal :=
  s.whenRunning fun s =>
    match s.channels[c].activity with
    | .train .apply due par pulses => if s.due (some due) then endApply c par pulses s else s
    | .train .hold _ _ _ | .test _ _ _ _ _ | .none => s

/-- The end of a hold interval (R81): the next pulse begins with the inlet de-energised, or a counted train ends and the
channel enters PASS with its episode open (R60). -/
def endHoldInterval (c : Fin 6) (par : TrainParams) (pulses : Nat) (s : State) : State :=
  if par.continuous || decide (pulses < par.repeatCount + 1) then
    s.setChannel c { s.channels[c] with
      activity := .train .apply (s.stampAfter par.applyPulse) par pulses, inlet := .off }
  else formCut (enter c .pass s)

/-- HOLD_INTERVAL_EXPIRY (R81). -/
def execHoldIntervalExpiry (c : Fin 6) (s : State) : Host.Outcome State Fault Refusal :=
  s.whenRunning fun s =>
    match s.channels[c].activity with
    | .train .hold due par pulses =>
      if s.due (some due) then retarderEvent (endHoldInterval c par pulses) s else s
    | .train .apply _ _ _ | .test _ _ _ _ _ | .none => s

/-! ### Valve tests (R84 to R92) -/

/-- A channel in the ON phase of a test, its outputs in the ON pattern (R86). -/
def testOn (par : TestParams) (pulses : Nat) (tag : Byte) (s : State) (x : Channel) : Channel :=
  { x with
    activity := .test .on (s.stampAfter par.onTime) par pulses tag
    inlet := x.inlet.energise s
    vent := match par.solenoids with
      | .inlet => .off
      | .inletAndVent => x.vent.energise s }

/-- A channel in the OFF phase of a test, both outputs de-energised (R86). -/
def testOff (par : TestParams) (pulses : Nat) (tag : Byte) (s : State) (x : Channel) : Channel :=
  { x with activity := .test .off (s.stampAfter par.offTime) par pulses tag, inlet := .off, vent := .off }

/-- ON_EXPIRY (R86): the pulse is counted and the off time begins. -/
def execOnExpiry (c : Fin 6) (s : State) : Host.Outcome State Fault Refusal :=
  s.whenRunning fun s =>
    match s.channels[c].activity with
    | .test .on due par pulses tag =>
      if s.due (some due) then s.setChannel c (testOff par (countPulse pulses) tag s s.channels[c]) else s
    | .test .off _ _ _ _ | .train _ _ _ _ | .none => s

/-- The end of an off time: the next cycle begins, or a counted test completes (R86, R88). -/
def endOffTime (c : Fin 6) (par : TestParams) (pulses : Nat) (tag : Byte) (s : State) : State :=
  if par.continuous || decide (pulses < par.repeatCount + 1) then
    s.setChannel c (testOn par pulses tag s s.channels[c])
  else formCut (endTest c .done s)

/-- OFF_EXPIRY (R86, R88). -/
def execOffExpiry (c : Fin 6) (s : State) : Host.Outcome State Fault Refusal :=
  s.whenRunning fun s =>
    match s.channels[c].activity with
    | .test .off due par pulses tag =>
      if s.due (some due) then retarderEvent (endOffTime c par pulses tag) s else s
    | .test .on _ _ _ _ | .train _ _ _ _ | .none => s

/-- The first condition for admission that fails, with its status (R85), none where the test is admitted. -/
def testRefusal (c : Fin 6) (s : State) : Option (Status × TestRefusal) :=
  let state := s.channels[c].state
  if state = .test then some (.refusedBusy, .busy)
  else if state ≠ .idle ∧ state ≠ .pass then some (.refusedState, .state)
  else if s.reg.vref ≠ 0 then some (.refusedState, .motion)
  else if s.smn.cls = .critical then some (.refusedState, .supply)
  else if s.pcu.lowMark then some (.refusedState, .reservoir)
  else none

/-- The result of a refused VALVE-TEST: the index as given, and for an index in range the present state (R84, R85). -/
def testRefusalResult (channel : Byte) (detail : TestRefusal) (s : State) : List Byte :=
  let state := match index6 channel with
    | none => ChannelState.code .idle
    | some c => s.channels[c].state.code
  [channel, state, detail.code]

/-- The start of an admitted test: the channel enters TEST with the ON pattern, and no response is written (R86). -/
def startTest (c : Fin 6) (par : TestParams) (tag : Byte) (s : State) : State :=
  let s := enter c .test s
  formCut (s.setChannel c (testOn par 0 tag s s.channels[c]))

/-- The carrying out of a VALVE-TEST (R84 to R86). -/
def carryValveTest (tag channel : Byte) (fields : Option (Fin 6 × TestParams)) (s : State) : State :=
  match fields with
  | none => respond 0x28 tag .refusedRange (testRefusalResult channel .none s) s
  | some (c, par) =>
    match testRefusal c s with
    | some (status, detail) => respond 0x28 tag status (testRefusalResult channel detail s) s
    | none => retarderEvent (startTest c par tag) s

/-- VALVE_TEST (R84 to R86). -/
def execValveTest (tag channel solenoids repeatCount continuous : Byte) (onTime offTime : Word) (s : State) :
    Host.Outcome State Fault Refusal :=
  take (.valveTest tag channel solenoids repeatCount continuous onTime offTime)
    (carryValveTest tag channel (testFields channel solenoids repeatCount continuous onTime offTime)) s

/-- The result of a STOP-TEST (R92). -/
def stopResult (channel : Byte) (s : State) : List Byte :=
  match index6 channel with
  | none => [channel, 0]
  | some c => [channel, s.channels[c].state.code]

/-- The carrying out of a STOP-TEST: the stopped test's ABORTED_STOP stands before the stop's DONE (R92). -/
def carryStopTest (tag channel : Byte) (s : State) : State :=
  match index6 channel with
  | none => respond 0x29 tag .refusedRange (stopResult channel s) s
  | some c =>
    if s.channels[c].state = .test then
      let s := retarderEvent (fun s => formCut (endTest c .abortedStop s)) s
      respond 0x29 tag .done (stopResult channel s) s
    else respond 0x29 tag .refusedState (stopResult channel s) s

/-- STOP_TEST (R92). -/
def execStopTest (tag channel : Byte) (s : State) : Host.Outcome State Fault Refusal :=
  take (.stopTest tag channel) (carryStopTest tag channel) s

end Sys2Proof.Machine
end

