-- ==== Sys2Proof/Machine/Period.lean ====
section
/-! DEFINITION. The regulation period (R26, R52) and DISARM (R42, R67), which act on the Regulator, the channels and the
retarder together. -/

namespace Sys2Proof.Machine

/-- The effective speeds of one read of the wheels (R21). -/
def readSpeeds (s : State) : Vector (Option Nat) 6 := six fun w => effectiveSpeed s s.wheels[w]

/-- The period timer runs on from its expiry (R26). -/
def nextPeriod (s : State) : State :=
  { s with reg := { s.reg with periodDue := s.reg.periodDue + Config.regulationPeriodMs * Config.ticksPerMs } }

/-- What the channels and the retarder do at a period: the checks of all six channels in index order, then the cut, then
the formation of the allowed stage (R52, R70, R147). -/
def actOnPeriod (s : State) : State := formAllowed (formCut (forEach checkChannel s))

/-- The live rows of the wheels and channels, and the Regulator's status fields (R23, R45, R75). -/
def writePeriodRows (speeds : Vector (Option Nat) 6) (s : State) : State :=
  let s := forEach (fun w s => rewrite (wheelRowBase w) (wheelRow s.wheels[w] speeds[w] s.reg.wheels[w]) s) s
  let s := forEach (fun c s => rewrite (channelRowBase c) (channelRow s.channels[c] s.reg.channels[c]) s) s
  regulatorStatus s

/-- The regulation period (R26): figures from one read, then the channels and the retarder, then the rows. -/
def regulationPeriod (s : State) : State :=
  let speeds := readSpeeds s
  let s := nextPeriod { s with reg := formFigures speeds s }
  writePeriodRows speeds (retarderEvent actOnPeriod s)

/-- REGULATION_PERIOD (R26): acts at the expiry of the period timer. -/
def execRegulationPeriod (s : State) : Host.Outcome State Fault Refusal :=
  s.whenRunning fun s => if s.due (some s.reg.periodDue) then regulationPeriod s else s

/-- DISARM acting on a channel: PASS and the regulating states go to IDLE with the episode closed; IDLE, TEST and
LOCKOUT stay (R67). -/
def disarmChannel (c : Fin 6) (s : State) : State :=
  match s.channels[c].state with
  | .pass | .hold | .vent | .reapply => enter c .idle (closeEpisode c .disarmed s)
  | .idle | .test | .lockout => s

/-- A DISARM of an armed part (R42, R67). -/
def disarmPart (s : State) : State :=
  let s := { s with reg := { s.reg with armed := false, absence := some .disarmed } }
  regulatorStatus (retarderEvent (fun s => formCut (forEach disarmChannel s)) s)

/-- The carrying out of a DISARM (R42). -/
def carryDisarm (tag : Byte) (s : State) : State :=
  let s := if s.reg.armed then disarmPart s else s
  respond 0x03 tag .done [flag s.reg.armed] s

/-- DISARM (R42, R67). -/
def execDisarm (tag : Byte) (s : State) : Host.Outcome State Fault Refusal := take (.disarm tag) (carryDisarm tag) s

end Sys2Proof.Machine
end

