-- ==== Sys2Proof/Machine/Pressure.lean ====
section
/-! DEFINITION. The Pressure Unit (chapter 5): converter and arbiter, scan passes, validity, demand and reservoir, SET-SCAN
and SET-CALIBRATION. -/

namespace Sys2Proof.Machine

/-! ### The converter and its arbiter (R95, R96) -/

/-- The arbiter: an idle converter is granted to the supply claim first, then to the scan claim (R96). -/
def grant (s : State) : State :=
  let p := s.pcu
  match p.converter with
  | .converting _ _ => s
  | .idle =>
    if p.supplyClaim then
      { s with pcu := { p with supplyClaim := false, converter := .converting .supply (s.clock + Config.conversionTicks) } }
    else if p.scanClaim then
      { s with pcu := { p with scanClaim := false, converter := .converting .entry (s.clock + Config.conversionTicks) } }
    else s

/-- Whether a conversion for a claim completes now (R95). -/
def conversionDone (claim : Claim) (s : State) : Bool :=
  match s.pcu.converter with
  | .idle => false
  | .converting c due => decide (c = claim) && s.due (some due)

/-! ### Codes and pressures (R102) -/

/-- Whether a code is out of range for an input's calibration (R102). -/
def outOfRange (i : Input) (code : Nat) : Bool := decide (code + 82 < i.zero) || decide (i.full + 82 < code)

/-- The pressure of a code in range, clamped to 0 to 1,000 kPa (R102). Natural subtraction clamps a code below the zero
code to 0. -/
def pressureOf (i : Input) (code : Nat) : Nat := min 1000 ((code - i.zero) * 1000 / (i.full - i.zero))

/-- An input's pass result (R98): bad with its first out-of-range code, or good with its mean code. -/
inductive PassResult
  | bad (code : Nat)
  | good (code : Nat)
  deriving DecidableEq, Repr

/-- The code a pass result shows in the input's row (R108). -/
def PassResult.code : PassResult → Nat
  | .bad c => c
  | .good c => c

/-- The codes recorded for an input, in list order (R98). -/
def codesOf (list : List (Fin 4)) (codes : List (BitVec 12)) (i : Fin 4) : List Nat :=
  ((list.zip codes).filter fun e => e.1 == i).map fun e => e.2.toNat

/-- The pass result of an input from its codes, absent for an input not on the list (R98). -/
def passResult (x : Input) (codes : List Nat) : Option PassResult :=
  if codes.isEmpty then none
  else
    match codes.find? (outOfRange x) with
    | some c => some (.bad c)
    | none => some (.good (codes.sum / codes.length))

/-- An input with a good pass that gives it its pressure (R103). -/
def Input.restored (x : Input) (code : Nat) : Input :=
  { x with validity := .valid, held := pressureOf x code, bad := 0, good := 0 }

/-- An input moved by its pass result (R103). -/
def moveInput (x : Input) : PassResult → Input
  | .good code =>
    match x.validity with
    | .valid | .holding => x.restored code
    | .faulty => if x.good + 1 < 5 then { x with good := x.good + 1 } else x.restored code
    | .unused => x
  | .bad _ =>
    match x.validity with
    | .valid => { x with validity := .holding, bad := 1 }
    | .holding =>
      if x.bad + 1 < 3 then { x with bad := x.bad + 1 } else { x with validity := .faulty, bad := 3, good := 0 }
    | .faulty => { x with bad := 3, good := 0 }
    | .unused => x

/-- Whether an input is usable (R103). -/
def Input.usable (x : Input) : Bool :=
  match x.validity with
  | .valid | .holding => true
  | .faulty | .unused => false

def Role.isDemand : Role → Bool
  | .demandFront | .demandRear => true
  | .reservoirFront | .reservoirRear | .aux => false

def Role.isReservoir : Role → Bool
  | .reservoirFront | .reservoirRear => true
  | .demandFront | .demandRear | .aux => false

/-- The values of the usable inputs whose role meets `p`. -/
def usableValues (p : Role → Bool) (inputs : Vector Input 4) : List Nat :=
  (inputs.toList.filter fun x => p x.role && x.usable).map (·.held)

/-- Demand: the greatest of the usable demand inputs' values, none while BLIND (R105). -/
def demandOf (inputs : Vector Input 4) : Option Nat := (usableValues Role.isDemand inputs).max?

/-- Reservoir: the least of the usable reservoir inputs' values, or absent (R106). -/
def reservoirOf (inputs : Vector Input 4) : Option Nat := (usableValues Role.isReservoir inputs).min?

/-- The reservoir-low mark after a completion (R106). -/
def markAfter (mark : Bool) (reservoir : Option Nat) (threshold : Nat) : Bool :=
  match reservoir with
  | none => true
  | some p => if mark then decide (p < threshold + 50) else decide (p < threshold)

/-! ### Pass completion (R97) -/

/-- The event an input's move raises (R103). -/
def inputEvent (i : Fin 4) (old new : Input) (result : Option PassResult) (s : State) : State :=
  match result with
  | none => s
  | some r =>
    if old.validity ≠ .faulty ∧ new.validity = .faulty then
      raiseEvent .pressureFault (BitVec.ofNat 8 i) r.code new.held s
    else if old.validity = .faulty ∧ new.validity = .valid then
      raiseEvent .pressureRestored (BitVec.ofNat 8 i) new.held 0 s
    else s

/-- The event a change of demand's state raises (R105). -/
def demandEvent (old new : Option Nat) (s : State) : State :=
  match old, new with
  | some p, none => raiseEvent .demandBlind 0 p 0 s
  | none, some p => raiseEvent .demandSeen 0 p 0 s
  | some _, some _ | none, none => s

/-- The event a change of the reservoir-low mark raises (R106). -/
def markEvent (old new : Bool) (reservoir : Option Nat) (threshold : Nat) (s : State) : State :=
  if !old && new then raiseEvent .reservoirLow 0 (reservoirWord reservoir).toNat threshold s
  else if old && !new then raiseEvent .reservoirRestored 0 (reservoirWord reservoir).toNat threshold s
  else s

/-- The unit's fields of the status block (R109, 11.9). -/
def PressureUnit.statusFields (p : PressureUnit) : List (Nat × List Byte) :=
  [(20, [flag p.demand.isNone, flag p.lowMark]),
   (22, le16 (BitVec.ofNat 16 (p.demand.getD 0)) ++ le16 (reservoirWord p.reservoir))]

/-- The base of a pressure live row (11.8). -/
def pressureRowBase (i : Fin 4) : Nat := 0x0300 + 16 * i

/-- The fields of a pressure live row (R108, 11.8). -/
def pressureRow (x : Input) (code occurrences : Nat) : List (Nat × List Byte) :=
  [(2, [x.validity.code, x.role.code] ++ le16 (BitVec.ofNat 16 x.zero) ++ le16 (BitVec.ofNat 16 x.full)
      ++ le16 (BitVec.ofNat 16 code) ++ le16 (BitVec.ofNat 16 x.held)
      ++ [BitVec.ofNat 8 occurrences, BitVec.ofNat 8 x.bad, BitVec.ofNat 8 x.good, 0])]

/-- The four inputs in order. -/
def inputIndices : List (Fin 4) := [0, 1, 2, 3]

/-- The four values of `f` in input order. -/
def four {α : Type} (f : Fin 4 → α) : Vector α 4 := #v[f 0, f 1, f 2, f 3]

/-- The live row of an input rewritten at a completion (R108). -/
def rewriteInput (results : Vector (Option PassResult) 4) (i : Fin 4) (s : State) : State :=
  rewrite (pressureRowBase i)
    (pressureRow s.pcu.inputs[i] ((results[i].map (·.code)).getD 0) (s.pcu.scanList.count i)) s

/-- A pass's completion with its codes, in the order of R97. -/
def completePass (codes : List (BitVec 12)) (s : State) : State :=
  let old := s.pcu
  let results := four fun i => passResult old.inputs[i] (codesOf old.scanList codes i)
  let inputs := four fun i => (results[i].map (moveInput old.inputs[i])).getD old.inputs[i]
  let demand := demandOf inputs
  let reservoir := reservoirOf inputs
  let threshold := s.reg.settings.reservoirLow
  let mark := markAfter old.lowMark reservoir threshold
  let new : PressureUnit := { old with inputs := inputs, demand := demand, reservoir := reservoir, lowMark := mark, pass := none }
  let s := { s with pcu := new }
  let s := inputIndices.foldl (fun s i => inputEvent i old.inputs[i] inputs[i] results[i] s) s
  let s := demandEvent old.demand demand s
  let s := markEvent old.lowMark mark reservoir threshold s
  let s := inputIndices.foldl (fun s i => rewriteInput results i s) s
  if new.statusFields = old.statusFields then s else rewriteStatus new.statusFields s

/-- A code recorded for the pass in progress; the next entry's claim is raised, or the pass completes (R97). -/
def recordCode (code : BitVec 12) (codes : List (BitVec 12)) (s : State) : State :=
  let codes := codes ++ [code]
  if codes.length < s.pcu.scanList.length then
    { s with pcu := { s.pcu with pass := some codes, scanClaim := true } }
  else completePass codes s

/-- ENTRY_CONVERSION_COMPLETION (R97): the code is recorded for its entry, and the arbiter acts (R96). -/
def execEntryConversionCompletion (code : BitVec 12) (s : State) : Host.Outcome State Fault Refusal :=
  s.whenRunning fun s =>
    if conversionDone .entry s then
      let s := { s with pcu := { s.pcu with converter := .idle } }
      match s.pcu.pass with
      | none => grant s
      | some codes => grant (recordCode code codes s)
    else s

/-! ### The start of a pass (R97, R104) -/

/-- An input at the expiry at which a list enters force (R104). -/
def joinOrLeave (list : List (Fin 4)) (i : Fin 4) (x : Input) : Input :=
  if i ∈ list then
    if x.validity = .unused then { x with validity := .valid, held := 0, bad := 0, good := 0 } else x
  else { x with validity := .unused, held := 0, bad := 0, good := 0 }

/-- A pending scan list entering force (R97 step 1, R104). -/
def enterList (p : PressureUnit) : PressureUnit :=
  match p.pendingList with
  | none => p
  | some list =>
    { p with scanList := list, pendingList := none, inputs := four fun i => joinOrLeave list i p.inputs[i] }

/-- The arbiter at the raising of a pass's first claim: where the sample timer expires at the same tick, both claims are
raised together, and the scan claim waits for the supply claim (R96, R133). -/
def grantScan (s : State) : State := if s.due (some s.smn.sampleDue) then s else grant s

/-- SCAN_TIMER_EXPIRY (R97): a pass starts and the claim of its first entry is raised. -/
def execScanTimerExpiry (s : State) : Host.Outcome State Fault Refusal :=
  s.whenRunning fun s =>
    if s.due (some s.pcu.scanDue) then
      let p := enterList s.pcu
      grantScan { s with pcu := { p with
        scanDue := p.scanDue + Config.scanPeriodMs * Config.ticksPerMs, pass := some [], scanClaim := true } }
    else s

/-! ### SET-SCAN and SET-CALIBRATION (R99, R101) -/

/-- The result of an accepted SET-SCAN: the list as it will stand at the next pass, entries past its length 0 (R99,
11.5). -/
def scanResult (list : List (Fin 4)) : List Byte :=
  [BitVec.ofNat 8 list.length, 0, 0, 0] ++ padTo 8 (list.map fun i => BitVec.ofNat 8 i)

/-- The carrying out of a SET-SCAN (R99). A refusal carries no list (log 11). -/
def carrySetScan (tag : Byte) (fields : Option (List (Fin 4))) (s : State) : State :=
  match fields with
  | none => respond 0x30 tag .refusedRange [] s
  | some list => respond 0x30 tag .done (scanResult list) { s with pcu := { s.pcu with pendingList := some list } }

/-- SET_SCAN (R99). -/
def execSetScan (tag length : Byte) (entries : Vector Byte 8) (s : State) : Host.Outcome State Fault Refusal :=
  take (.setScan tag length entries) (carrySetScan tag (scanFields length entries)) s

/-- The result of a SET-CALIBRATION: the input's calibration after the request, 0 for an index out of range, and the
input that holds the role where it is carried (R101). -/
def calibrationResult (input : Byte) (holder : Option (Fin 4)) (s : State) : List Byte :=
  match index4 input with
  | none => [input, 0, 0, 0, 0, 0, absentIndex]
  | some i =>
    let x := s.pcu.inputs[i]
    [input, x.role.code] ++ le16 (BitVec.ofNat 16 x.zero) ++ le16 (BitVec.ofNat 16 x.full) ++ [indexByte holder]

/-- The other input that holds a role (R101). -/
def roleHolder (i : Fin 4) (r : Role) (s : State) : Option (Fin 4) :=
  inputIndices.find? fun j => decide (j ≠ i) && decide (s.pcu.inputs[j].role = r)

/-- The carrying out of a SET-CALIBRATION (R101). -/
def carrySetCalibration (tag input : Byte) (fields : Option (Fin 4 × Role × Nat × Nat)) (s : State) : State :=
  match fields with
  | none => respond 0x31 tag .refusedRange (calibrationResult input none s) s
  | some (i, r, zeroCode, fullCode) =>
    match roleHolder i r s with
    | some j => respond 0x31 tag .refusedState (calibrationResult input (some j) s) s
    | none =>
      let x := { s.pcu.inputs[i] with role := r, zero := zeroCode, full := fullCode }
      let s := { s with pcu := { s.pcu with inputs := s.pcu.inputs.set i x } }
      respond 0x31 tag .done (calibrationResult input none s) s

/-- SET_CALIBRATION (R101). -/
def execSetCalibration (tag input role : Byte) (zero full : Word) (s : State) : Host.Outcome State Fault Refusal :=
  take (.setCalibration tag input role zero full)
    (carrySetCalibration tag input (calibrationFields input role zero full)) s

end Sys2Proof.Machine
end

