-- ==== Sys2Proof/Machine/Supply.lean ====
section
/-! DEFINITION. The Supply Monitor (chapter 7): samples, windows, the supply class and what a change of it does at its window
close, and SET-SUPPLY-CRITERIA. -/

namespace Sys2Proof.Machine

/-- A supply sample in mV from its code (R133). -/
def sampleOf (code : Nat) : Nat := code * 625 / 64

/-- The raw class of a window minimum (R137). -/
def rawClass (c : Criteria) (m : Nat) : SupplyClass :=
  if m < c.critical then .critical else if m < c.low then .low else .normal

/-- The class a window close decides from the class before it, with the hysteresis of 500 mV (R137). -/
def classAfter (c : Criteria) (before : SupplyClass) (m : Nat) : SupplyClass :=
  match before with
  | .normal => rawClass c m
  | .low => if m < c.critical then .critical else if m < c.low + 500 then .low else .normal
  | .critical => if m < c.critical + 500 then .critical else if m < c.low + 500 then .low else .normal

/-- The class a window close decides; at the first close after a reset the raw class (R137, R138). -/
def decidedClass (u : SupplyMonitor) (m : Nat) : SupplyClass :=
  if u.firstClose then rawClass u.criteria m else classAfter u.criteria u.cls m

/-- Pending criteria entering force at a window close (R136). -/
def enterCriteria (u : SupplyMonitor) : SupplyMonitor :=
  { u with criteria := u.pendingCriteria.getD u.criteria, pendingCriteria := none }

/-- The Regulator at a class change to CRITICAL (R40): braking absent with cause SUPPLY, where the part is armed. -/
def regulatorCritical (s : State) : State :=
  if s.reg.armed then regulatorStatus { s with reg := { s.reg with absence := some .supply } } else s

/-- A channel at a class change to CRITICAL (R68, R90): regulating channels enter PASS, open episodes close with SUPPLY,
and a test is aborted. -/
def channelCritical (c : Fin 6) (s : State) : State :=
  match s.channels[c].state with
  | .hold | .vent | .reapply => enter c .pass (closeEpisode c .supply s)
  | .pass => closeEpisode c .supply s
  | .test => endTest c .abortedSupply s
  | .idle | .lockout => s

/-- The reactions to a class change to CRITICAL of the Regulator and the channels (R40, R68). -/
def reactCritical (s : State) : State := formCut (forEach channelCritical (regulatorCritical s))

/-- What a change of the class does at its window close (R139): SUPPLY_CLASS first, then the consumers. -/
def changeClass (new : SupplyClass) (m : Nat) (s : State) : State :=
  let before := s.smn.cls
  let s := { s with smn := { s.smn with cls := new } }
  let s := raiseEvent .supplyClass new.code m before.code.toNat s
  let s := if new = .critical then reactCritical s else s
  let s := if before = .critical then startIfAllowed s else s
  formAllowed s

/-- The monitor's fields of the status block (R141, 11.9). -/
def supplyStatus (s : State) : State :=
  rewriteStatus [(26, [s.smn.cls.code]), (28, le16 (BitVec.ofNat 16 s.smn.lastMinimum))] s

/-- A window close with its minimum (R134, R136 to R139). -/
def closeWindow (m : Nat) (s : State) : State :=
  let u := enterCriteria s.smn
  let new := decidedClass u m
  let s := { s with smn := { u with firstClose := false, lastMinimum := m, count := 0, minimum := none } }
  let s := if new = s.smn.cls then s else retarderEvent (changeClass new m) s
  supplyStatus s

/-- A sample taken into its window; the tenth closes it (R134). -/
def takeSample (mV : Nat) (s : State) : State :=
  let m := match s.smn.minimum with
    | none => mV
    | some x => min x mV
  if s.smn.count + 1 < 10 then { s with smn := { s.smn with count := s.smn.count + 1, minimum := some m } }
  else closeWindow m s

/-- SAMPLE_TIMER_EXPIRY (R133): the supply claim is raised. -/
def execSampleTimerExpiry (s : State) : Host.Outcome State Fault Refusal :=
  s.whenRunning fun s =>
    if s.due (some s.smn.sampleDue) then
      grant { s with
        smn := { s.smn with sampleDue := s.smn.sampleDue + Config.samplePeriodMs * Config.ticksPerMs }
        pcu := { s.pcu with supplyClaim := true } }
    else s

/-- SAMPLE_COMPLETION (R134): the converter becomes IDLE, the arbiter acts, and the sample is taken into its window. -/
def execSampleCompletion (code : BitVec 12) (s : State) : Host.Outcome State Fault Refusal :=
  s.whenRunning fun s =>
    if conversionDone .supply s then
      takeSample (sampleOf code.toNat) (grant { s with pcu := { s.pcu with converter := .idle } })
    else s

/-- The result of a SET-SUPPLY-CRITERIA: the pair in force from the next window close (R135). -/
def criteriaResult (u : SupplyMonitor) : List Byte :=
  let c := u.pendingCriteria.getD u.criteria
  le16 (BitVec.ofNat 16 c.low) ++ le16 (BitVec.ofNat 16 c.critical)

/-- The carrying out of a SET-SUPPLY-CRITERIA (R135). -/
def carrySetSupplyCriteria (tag : Byte) (fields : Option Criteria) (s : State) : State :=
  match fields with
  | none => respond 0x50 tag .refusedRange (criteriaResult s.smn) s
  | some c =>
    let s := { s with smn := { s.smn with pendingCriteria := some c } }
    respond 0x50 tag .done (criteriaResult s.smn) s

/-- SET_SUPPLY_CRITERIA (R135). -/
def execSetSupplyCriteria (tag : Byte) (low critical : Word) (s : State) : Host.Outcome State Fault Refusal :=
  take (.setSupplyCriteria tag low critical) (carrySetSupplyCriteria tag (criteriaFields low critical)) s

end Sys2Proof.Machine
end

