-- ==== Sys2Proof/Machine/Lanes.lean ====
section
/-! DEFINITION. The host's bus: the signalling writes of the lanes, lane restarts, the registers, and every other word of the
map, read and written (chapter 9); and the requests the Lane Controller owns (R177, R180). -/

namespace Sys2Proof.Machine

/-! ### The Lane Controller's own requests (R177, R180) -/

/-- The result of an IDENTIFY (R180, 11.5). -/
def identifyResult (s : State) : List Byte :=
  le16 Config.identity ++ [Config.revision, s.lnc.cause.code, 6, 6, 4, 6, 8, 4, 8, 40]

/-- The carrying out of an IDENTIFY (R180). -/
def carryIdentify (tag : Byte) (s : State) : State := respond 0x01 tag .done (identifyResult s) s

/-- IDENTIFY (R180). -/
def execIdentify (tag : Byte) (s : State) : Host.Outcome State Fault Refusal :=
  take (.identify tag) (carryIdentify tag) s

/-- The status of a frame the judgement refuses: UNKNOWN_KIND, or BAD_LENGTH for a kind of the catalogue (R177). -/
def judgement (kind : Byte) : Status := if (requiredLength kind).isNone then .unknownKind else .badLength

/-- The carrying out of a frame the judgement refuses (R177). -/
def carryUnknownKind (kind length tag : Byte) (s : State) : State :=
  respond kind tag (judgement kind) [kind, length] s

/-- UNKNOWN_KIND (R177). -/
def execUnknownKind (kind length tag : Byte) (s : State) : Host.Outcome State Fault Refusal :=
  take (.unknownKind kind length tag) (carryUnknownKind kind length tag) s

/-! ### The first take (R175) -/

/-- What a request's owner does with it once its frame is counted (R175 step 4); the other commands are no requests. -/
def carryRequest : Instr → State → State
  | .identify tag => carryIdentify tag
  | .unknownKind kind length tag => carryUnknownKind kind length tag
  | .arm tag => carryArm tag
  | .disarm tag => carryDisarm tag
  | .setReference tag mode floor down up demand reservoir =>
    carrySetReference tag (referenceFields mode floor down up demand reservoir)
  | .installWheel tag wheel channel eligible teeth circumference window =>
    carryInstallWheel tag wheel (wheelFields wheel channel eligible teeth circumference window)
  | .removeWheel tag wheel => carryRemoveWheel tag wheel
  | .clearWheel tag wheel => carryClearWheel tag wheel
  | .installChannel tag fields => carryInstallChannel tag fields.channel (profileFields fields)
  | .clearChannel tag channel => carryClearChannel tag channel
  | .valveTest tag channel solenoids repeatCount continuous onTime offTime =>
    carryValveTest tag channel (testFields channel solenoids repeatCount continuous onTime offTime)
  | .stopTest tag channel => carryStopTest tag channel
  | .setScan tag length entries => carrySetScan tag (scanFields length entries)
  | .setCalibration tag input role zero full => carrySetCalibration tag input (calibrationFields input role zero full)
  | .setDrumConfig tag rRef nRef interval hot enable => carrySetDrumConfig tag (drumFields rRef nRef interval hot enable)
  | .setCurve tag presence points => carrySetCurve tag (curveRequest presence points)
  | .measureDrum tag drum => carryMeasureDrum tag drum
  | .setSupplyCriteria tag low critical => carrySetSupplyCriteria tag (criteriaFields low critical)
  | .setBlend tag holdOff enabled stage temperature demand =>
    carrySetBlend tag (blendFields holdOff enabled stage temperature demand)
  | .toothEdge _ | .standstillExpiry _ | .regulationPeriod | .holdLimitExpiry _ | .ventLimitExpiry _
  | .outputProved _ _ | .outputOpen _ _ | .outputShort _ _ | .applyExpiry _ | .holdIntervalExpiry _
  | .onExpiry _ | .offExpiry _ | .scanTimerExpiry | .entryConversionCompletion _ | .sampleTimerExpiry
  | .sampleCompletion _ | .referenceOverflow | .referenceTimeout | .sensorPhaseEnd _ | .sensorOverflow
  | .drumScanExpiry | .ageRefresh | .leverInputChange _ _ | .leverSettleExpiry | .holdOffExpiry | .rampExpiry
  | .postEvent _ | .giveBack _ _ | .thresholdWrite _ _ | .laneRestart _ | .softReset | .collisionClear
  | .attentionEnableWrite _ | .hostWordWrite _ _ | .powerOnReset | .resetPin | .resetRelease => id

/-- The first take (R175): the lane is examined, and where a whole frame stands at the drain, it is taken. -/
def firstTake (s : State) : State :=
  let t := examineRequests s
  match t.readyRequest with
  | none => t
  | some i => makeTake (carryRequest i) t

/-- The condition formed again at an event that found the part as `before` and left it as `s`: where the event brings the
condition to TAKING, the first take is made at it; while the condition was TAKING, the next take is the end of the one
before it (R175). -/
def formTaking (before s : State) : State := if before.lnc.taking = .taking then s else firstTake s

/-! ### Post event and give-back (R162, R163, R166) -/

/-- Whether an offset is valid on a lane whose positions are multiples of `unit` (R162). -/
def validOffset (size unit : Nat) (o : Word) : Bool := o.toNat % unit == 0 && decide (o.toNat + unit ≤ size)

/-- The post event (R163): the count is stored; on a RUNNING lane the fill offset is accepted, or faults, and taking may
begin (R175). -/
def postEvent (posted : Word) (s : State) : State :=
  let q := { s.lnc.request with posted := posted }
  if q.halted then s.setLane .request q
  else if validOffset (LaneId.size .request) 4 q.fill then
    formTaking s (s.setLane .request { q with accFill := q.fill })
  else faultLane .request .badOffset q.fill (s.setLane .request q)

/-- POST_EVENT (R163). -/
def execPostEvent (posted : Word) (s : State) : Host.Outcome State Fault Refusal := s.whenRunning (postEvent posted)

/-- The fault a give-back finds, in the order of R166, `l` holding the written taken count. -/
def giveBackFault (r : ReportLane) (l : Lane) : Option LaneFault :=
  let a := (l.taken - l.accTaken).toNat
  if validOffset r.lane.size r.frameSize l.drain = false then some .badOffset
  else if (l.posted - l.accTaken).toNat < a then some .countMismatch
  else if l.drain.toNat ≠ (l.accDrain.toNat + a * r.frameSize) % r.lane.size then some .badOffset
  else none

/-- The give-back event (R166): on a RUNNING lane the drain and the written count are accepted, or the lane faults; on
the response lane taking may resume (R175). -/
def giveBack (r : ReportLane) (taken : Word) (s : State) : State :=
  let l := { s.lane r.lane with taken := taken }
  if l.halted then s.setLane r.lane l
  else
    match giveBackFault r l with
    | some code => faultLane r.lane code l.drain (s.setLane r.lane l)
    | none =>
      let t := s.setLane r.lane { l with accDrain := l.drain, accTaken := taken }
      match r with
      | .response => formTaking s t
      | .event | .episode => t

/-- GIVE_BACK (R166). -/
def execGiveBack (r : ReportLane) (taken : Word) (s : State) : Host.Outcome State Fault Refusal :=
  s.whenRunning (giveBack r taken)

/-- A lane's attention threshold stored (R161, R169): the pending condition is read from it. -/
def writeThreshold (id : LaneId) (t : Word) (s : State) : State := s.setLane id { s.lane id with threshold := t }

/-- THRESHOLD_WRITE (R169). -/
def execThresholdWrite (id : LaneId) (t : Word) (s : State) : Host.Outcome State Fault Refusal :=
  s.whenRunning (writeThreshold id t)

/-! ### Lane restart (R168, R179) -/

/-- A restart's steps on a lane's own words: counts, offsets and accepted copies 0, RUNNING, the threshold kept (R168). -/
def restartedLane (l : Lane) : Lane := { threshold := l.threshold }

/-- The lane's gap counter set to 0 (R168). -/
def clearGap (id : LaneId) (s : State) : State :=
  match id with
  | .event => { s with lnc := { s.lnc with eventGap := 0 } }
  | .episode => { s with lnc := { s.lnc with episodeGap := 0 } }
  | .request | .response => s

/-- The holdback written into the emptied response lane, from head to tail (R179). -/
def writeHoldback (s : State) : State :=
  let held := s.lnc.holdback
  held.foldl (fun s bytes => writeResponse bytes s) { s with lnc := { s.lnc with holdback := [] } }

/-- The restart of one lane (R168). Of the response lane, the holdback is written, the condition is formed again, and taking
may resume (R179). -/
def restartLane (id : LaneId) (s : State) : State :=
  let t := clearGap id (s.setLane id (restartedLane (s.lane id)))
  match id with
  | .response => formTaking s (writeHoldback t)
  | .request | .event | .episode => t

/-- The lanes in order with the bit that restarts each (R159, 11.10). -/
def restartOrder : List (LaneId × Fin 4) := [(.request, 0), (.response, 1), (.event, 2), (.episode, 3)]

/-- The lanes named are restarted one after another in lane order, each restart complete before the next (R159). -/
def restartLanes (lanes : BitVec 4) (s : State) : State :=
  restartOrder.foldl (fun s e => if lanes[e.2] then restartLane e.1 s else s) s

/-- LANE_RESTART (R168). -/
def execLaneRestart (lanes : BitVec 4) (s : State) : Host.Outcome State Fault Refusal :=
  s.whenRunning (restartLanes lanes)

/-! ### Registers (R159, R160) -/

/-- The collision bit cleared (R160). -/
def clearCollision (s : State) : State := { s with lnc := { s.lnc with collision := false } }

/-- COLLISION_CLEAR (R160). -/
def execCollisionClear (s : State) : Host.Outcome State Fault Refusal := s.whenRunning clearCollision

/-- The attention enables stored; bits without a status bit read 0 (R160, 11.10). -/
def writeEnables (v : Word) (s : State) : State := { s with lnc := { s.lnc with enables := v &&& enableMask } }

/-- ATTENTION_ENABLE_WRITE (R160). -/
def execAttentionEnableWrite (v : Word) (s : State) : Host.Outcome State Fault Refusal :=
  s.whenRunning (writeEnables v)

/-- A write of the run control register (R159): a soft reset, or the restarts named. -/
def writeRunControl (v : Word) (s : State) : State :=
  if v[15] then softReset s else restartLanes (v.setWidth 4) s

/-! ### Every word of the map (R157, R158, R161) -/

/-- A collision: the word keeps the part's value and the flag is set (R158). -/
def collide (s : State) : State := { s with lnc := { s.lnc with collision := true } }

/-- The lane whose header lies at an address below 0x40. -/
def headerLane (a : Nat) : LaneId :=
  if a < 0x10 then .request else if a < 0x20 then .response else if a < 0x30 then .event else .episode

/-- A host write of a word of a lane header: the host's words are stored, its signalling words act, the part's words
collide (R161). -/
def writeHeader (a : Nat) (v : Word) (s : State) : State :=
  let o := a % 16
  if o = 14 then writeThreshold (headerLane a) v s
  else
    match headerLane a with
    | .request =>
      if o = 0 then s.setLane .request { s.lnc.request with fill := v }
      else if o = 2 then postEvent v s
      else collide s
    | .response => writeReportHeader .response o v s
    | .event => writeReportHeader .event o v s
    | .episode => writeReportHeader .episode o v s
where
  /-- A host write of a word of a report lane's header. -/
  writeReportHeader (r : ReportLane) (o : Nat) (v : Word) (s : State) : State :=
    if o = 4 then s.setLane r.lane { s.lane r.lane with drain := v }
    else if o = 6 then giveBack r v s
    else collide s

/-- Whether the map assigns an address below 0x400 and above the headers: the status block and the live rows (R157). -/
def isRowAddress (a : Nat) : Bool :=
  (decide (0x40 ≤ a) && decide (a < 0x100)) || (decide (0x100 ≤ a) && decide (a < 0x1C0))
    || (decide (0x200 ≤ a) && decide (a < 0x2C0)) || (decide (0x300 ≤ a) && decide (a < 0x3E0))

/-- A host write of a word of the map, by what the word is (R157 to R161). The signalling words and the registers act as
their own rows do. -/
def hostWrite (a : Nat) (v : Word) (s : State) : State :=
  if a < 0x40 then writeHeader a v s
  else if a < 0x400 then if isRowAddress a then collide s else s
  else if a < 0xC00 then s.store a (le16 v)
  else if a < 0x4000 then collide s
  else if a = 0x4002 then writeRunControl v s
  else if a = 0x4004 then if v[8] then clearCollision s else s
  else if a = 0x4006 then writeEnables v s
  else s

/-- HOST_WORD_WRITE (R158). An odd address, or one above 0x4007, names no word. -/
def execHostWordWrite (a v : Word) (s : State) : Host.Outcome State Fault Refusal :=
  if isBusWord a then s.whenRunning (hostWrite a.toNat v) else .fault .noSuchWord

/-- A lane state word: 0 RUNNING, 1 HALTED (11.1). -/
def Lane.stateWord (l : Lane) : Word := wordBit 0 l.halted

/-- The word of a lane header as it is read (R161). -/
def readHeader (a : Nat) (s : State) : Word :=
  let l := s.lane (headerLane a)
  let o := a % 16
  if o = 0 then l.fill
  else if o = 2 then l.posted
  else if o = 4 then l.drain
  else if o = 6 then l.taken
  else if o = 8 then l.stateWord
  else if o = 10 then (codeOr LaneFault.code l.fault).setWidth 16
  else if o = 12 then BitVec.ofNat 16 (headerLane a).size
  else l.threshold

/-- What a host read of a word returns: the whole word, 0 for an unlisted one (R157 to R161). At an address that names no word
the manual states nothing, and the value is free (the model's choice, log 13). -/
def State.hostRead (s : State) (a : Nat) : Word :=
  if namesWord a = false then Config.unnamedRead a
  else if a < 0x40 then readHeader a s
  else if a < 0x400 then if isRowAddress a then s.mem.word a else 0
  else if a < 0x4000 then s.mem.word a
  else if a = 0x4000 then Config.identity
  else if a = 0x4002 then s.runControl
  else if a = 0x4004 then s.lnc.attentionStatus
  else s.lnc.enables

end Sys2Proof.Machine
end

