-- ==== Sys2Proof/Machine/Clock.lean ====
section
/-! DEFINITION. What the part does when no command waits: it takes the request that stands ready, or its clock advances by
one 0.25 µs tick and the events that fall due are put on the queue (log 1, log 3, log 4, log 5). -/

namespace Sys2Proof.Machine

/-- A command if a condition holds. -/
def whenDue (b : Bool) (i : Instr) : List Instr := if b then [i] else []

/-- The phase end of a channel's compare timer (R78). -/
def phaseEnd (c : Fin 6) (s : State) : List Instr :=
  match s.channels[c].activity with
  | .none => []
  | .train .apply due _ _ => whenDue (s.due (some due)) (.applyExpiry c)
  | .train .hold due _ _ => whenDue (s.due (some due)) (.holdIntervalExpiry c)
  | .test .on due _ _ _ => whenDue (s.due (some due)) (.onExpiry c)
  | .test .off due _ _ _ => whenDue (s.due (some due)) (.offExpiry c)

/-- The expiries of one channel. -/
def channelExpiries (c : Fin 6) (s : State) : List Instr :=
  let x := s.channels[c]
  whenDue (s.due x.holdTimer) (.holdLimitExpiry c) ++ whenDue (s.due x.ventTimer) (.ventLimitExpiry c)
    ++ phaseEnd c s ++ whenDue (s.due x.inlet.watch) (.outputOpen c .inlet)
    ++ whenDue (s.due x.vent.watch) (.outputOpen c .vent)

/-- The conversion that completes, with the free code (R95; log 3). -/
def conversionEnd (s : State) : List Instr :=
  whenDue (conversionDone .supply s) (.sampleCompletion (Config.conversionCode s.draws))
    ++ whenDue (conversionDone .entry s) (.entryConversionCompletion (Config.conversionCode s.draws))

/-- The end of a measurement's phase at a tick, `overflow` telling whether the counter overflowed at it. In the SENSOR phase
an overflow decides, also where the time base reaches 0 at the same tick (R117, R118). -/
def measurementEnd (overflow : Bool) (s : State) : List Instr :=
  match s.dtu.inFlight with
  | none => []
  | some m =>
    match m.phase with
    | .reference => whenDue overflow .referenceOverflow ++ whenDue (referenceOver m s) .referenceTimeout
    | .sensor => if overflow then [.sensorOverflow] else whenDue (s.dtu.timeBase == 0) (.sensorPhaseEnd s.dtu.counter)

/-- The events that fall due at the present clock. -/
def dueEvents (overflow : Bool) (s : State) : List Instr :=
  (indices.flatMap fun w => whenDue (standstillDue w s) (.standstillExpiry w))
    ++ whenDue (s.due (some s.reg.periodDue)) .regulationPeriod
    ++ (indices.flatMap fun c => channelExpiries c s)
    ++ whenDue (s.due (some s.pcu.scanDue)) .scanTimerExpiry
    ++ whenDue (s.due (some s.smn.sampleDue)) .sampleTimerExpiry
    ++ conversionEnd s ++ measurementEnd overflow s
    ++ whenDue (s.due s.dtu.scanTimer) .drumScanExpiry
    ++ whenDue (s.due (some s.dtu.ageDue)) .ageRefresh
    ++ whenDue (s.due s.rbu.settle) .leverSettleExpiry
    ++ whenDue (s.due (s.rbu.holdOff.map (·.due))) .holdOffExpiry
    ++ whenDue (s.due s.rbu.ramp) .rampExpiry

/-- An item put into a list at the first place before which `before` lets it stand. -/
def placeBy (before : Nat → Nat → Bool) (x : Nat × Instr) : List (Nat × Instr) → List (Nat × Instr)
  | [] => [x]
  | y :: ys => if before x.1 y.1 then x :: y :: ys else y :: placeBy before x ys

/-- Events in the free order in which they are taken (log 4). -/
def freeOrder (before : Nat → Nat → Bool) (events : List Instr) : List Instr :=
  ((events.zipIdx.foldl (fun done e => placeBy before (e.2, e.1) done) []).map (·.2))

/-- One tick of 0.25 µs: the clock advances, the DTU's time base and counter count, and the events that fall due join the
queue. -/
def tick (s : State) : State :=
  let cycles := Config.oscillatorCycles s.draws
  let t := { s with
    clock := s.clock + 1, draws := s.draws + 1
    dtu := { s.dtu with timeBase := stepTimeBase s.dtu, counter := stepCounter cycles s.dtu } }
  { t with pending := t.pending ++ freeOrder (Config.takenBefore t.draws) (dueEvents (counterOverflows cycles s.dtu) t) }

/-- What the part does when no command waits: nothing while a reset is held; while the condition is TAKING, the next take, of
the request its examination leaves ready, or that examination alone where it finds none (R175 step 1); else a tick. -/
def idle (s : State) : State :=
  if s.held.isSome then s
  else
    match s.lnc.taking with
    | .waiting | .suspended | .blocked => tick s
    | .taking =>
      let t := examineRequests s
      match t.readyRequest with
      | some i => { s with pending := s.pending ++ [i] }
      | none => t

end Sys2Proof.Machine
end

