-- ==== Sys2Proof/Machine/Dispatch.lean ====
section
/-! DEFINITION. One arm per row of spec/opcode_table.json, each a direct call of the command's meaning. -/

namespace Sys2Proof.Machine

def exec (i : Instr) (s : State) : Host.Outcome State Fault Refusal :=
  match i with
  | .toothEdge wheel => Sys2Proof.Machine.execToothEdge wheel s
  | .standstillExpiry wheel => Sys2Proof.Machine.execStandstillExpiry wheel s
  | .regulationPeriod => Sys2Proof.Machine.execRegulationPeriod s
  | .holdLimitExpiry channel => Sys2Proof.Machine.execHoldLimitExpiry channel s
  | .ventLimitExpiry channel => Sys2Proof.Machine.execVentLimitExpiry channel s
  | .outputProved channel solenoid => Sys2Proof.Machine.execOutputProved channel solenoid s
  | .outputOpen channel solenoid => Sys2Proof.Machine.execOutputOpen channel solenoid s
  | .outputShort channel solenoid => Sys2Proof.Machine.execOutputShort channel solenoid s
  | .applyExpiry channel => Sys2Proof.Machine.execApplyExpiry channel s
  | .holdIntervalExpiry channel => Sys2Proof.Machine.execHoldIntervalExpiry channel s
  | .onExpiry channel => Sys2Proof.Machine.execOnExpiry channel s
  | .offExpiry channel => Sys2Proof.Machine.execOffExpiry channel s
  | .scanTimerExpiry => Sys2Proof.Machine.execScanTimerExpiry s
  | .entryConversionCompletion code => Sys2Proof.Machine.execEntryConversionCompletion code s
  | .sampleTimerExpiry => Sys2Proof.Machine.execSampleTimerExpiry s
  | .sampleCompletion code => Sys2Proof.Machine.execSampleCompletion code s
  | .referenceOverflow => Sys2Proof.Machine.execReferenceOverflow s
  | .referenceTimeout => Sys2Proof.Machine.execReferenceTimeout s
  | .sensorPhaseEnd count => Sys2Proof.Machine.execSensorPhaseEnd count s
  | .sensorOverflow => Sys2Proof.Machine.execSensorOverflow s
  | .drumScanExpiry => Sys2Proof.Machine.execDrumScanExpiry s
  | .ageRefresh => Sys2Proof.Machine.execAgeRefresh s
  | .leverInputChange input1 input2 => Sys2Proof.Machine.execLeverInputChange input1 input2 s
  | .leverSettleExpiry => Sys2Proof.Machine.execLeverSettleExpiry s
  | .holdOffExpiry => Sys2Proof.Machine.execHoldOffExpiry s
  | .rampExpiry => Sys2Proof.Machine.execRampExpiry s
  | .postEvent posted => Sys2Proof.Machine.execPostEvent posted s
  | .giveBack lane taken => Sys2Proof.Machine.execGiveBack lane taken s
  | .thresholdWrite lane threshold => Sys2Proof.Machine.execThresholdWrite lane threshold s
  | .laneRestart lanes => Sys2Proof.Machine.execLaneRestart lanes s
  | .softReset => Sys2Proof.Machine.execSoftReset s
  | .collisionClear => Sys2Proof.Machine.execCollisionClear s
  | .attentionEnableWrite enables => Sys2Proof.Machine.execAttentionEnableWrite enables s
  | .hostWordWrite address value => Sys2Proof.Machine.execHostWordWrite address value s
  | .powerOnReset => Sys2Proof.Machine.execPowerOnReset s
  | .resetPin => Sys2Proof.Machine.execResetPin s
  | .resetRelease => Sys2Proof.Machine.execResetRelease s
  | .identify tag => Sys2Proof.Machine.execIdentify tag s
  | .unknownKind kind length tag => Sys2Proof.Machine.execUnknownKind kind length tag s
  | .arm tag => Sys2Proof.Machine.execArm tag s
  | .disarm tag => Sys2Proof.Machine.execDisarm tag s
  | .setReference tag mode floor down up demand reservoir => Sys2Proof.Machine.execSetReference tag mode floor down up demand reservoir s
  | .installWheel tag wheel channel eligible teeth circumference window => Sys2Proof.Machine.execInstallWheel tag wheel channel eligible teeth circumference window s
  | .removeWheel tag wheel => Sys2Proof.Machine.execRemoveWheel tag wheel s
  | .clearWheel tag wheel => Sys2Proof.Machine.execClearWheel tag wheel s
  | .installChannel tag fields => Sys2Proof.Machine.execInstallChannel tag fields s
  | .clearChannel tag channel => Sys2Proof.Machine.execClearChannel tag channel s
  | .valveTest tag channel solenoids repeatCount continuous onTime offTime => Sys2Proof.Machine.execValveTest tag channel solenoids repeatCount continuous onTime offTime s
  | .stopTest tag channel => Sys2Proof.Machine.execStopTest tag channel s
  | .setScan tag length entries => Sys2Proof.Machine.execSetScan tag length entries s
  | .setCalibration tag input role zero full => Sys2Proof.Machine.execSetCalibration tag input role zero full s
  | .setDrumConfig tag rRef nRef interval hot enable => Sys2Proof.Machine.execSetDrumConfig tag rRef nRef interval hot enable s
  | .setCurve tag presence points => Sys2Proof.Machine.execSetCurve tag presence points s
  | .measureDrum tag drum => Sys2Proof.Machine.execMeasureDrum tag drum s
  | .setSupplyCriteria tag low critical => Sys2Proof.Machine.execSetSupplyCriteria tag low critical s
  | .setBlend tag holdOff enabled stage temperature demand => Sys2Proof.Machine.execSetBlend tag holdOff enabled stage temperature demand s

end Sys2Proof.Machine
end

