-- ==== Sys2Proof/Safety.lean ====
section
/-! DEFINITION. The terms the claims use: what a command may touch of the memory and the lanes, when a request may be taken
and how it is answered, and the invariants every step keeps. -/

namespace Sys2Proof.Machine

/-! ### Memory spans -/

/-- Memory `t` reads as `m` does at every address outside the spans given as (start, length). -/
def KeepsOutside (spans : List (Nat × Nat)) (m t : Memory) : Prop :=
  ∀ a, (∀ x ∈ spans, a < x.1 ∨ x.1 + x.2 ≤ a) → t.read a = m.read a

/-- The bytes stand in the memory from an address on. -/
def HoldsAt (m : Memory) (a : Nat) (bytes : List Byte) : Prop :=
  ∀ k, k < bytes.length → m.read (a + k) = bytes.getD k 0

/-! ### Requests taken and answered (R164, R175, R178) -/

/-- Request `i` may be taken: no reset is held, the condition is TAKING and the frame of `i` stands whole at the drain. -/
abbrev Ready (i : Instr) (s : State) : Prop := s.held = none ∧ s.readyRequest = some i

/-- The lanes once the frame at the drain has been taken (R164) and its response written (R165): drain and taken count of
the request lane, fill and posted count of the response lane; the owed count is as before the take. -/
def answeredLanes (s : State) : LaneController :=
  { s.lnc with
    request := { s.lnc.request with
      drain := followingOffset 2048 s.lnc.request.drain (4 * (s.requestByte 0).toNat)
      taken := s.lnc.request.taken + 1 }
    response := { s.lnc.response with
      fill := followingOffset 1024 s.lnc.response.fill 16
      posted := s.lnc.response.posted + 1 } }

/-- The address the next response frame is stored to (R157, R165). -/
def responseSlot (s : State) : Nat := 0x0C00 + s.lnc.response.fill.toNat

/-- What one answered take leaves in the memory: the response frame in its slot, and the status block's owed responses,
stamp and edition after the two changes of the owed count (R170, R171, R174). Every other byte is kept. -/
structure AnswerStored (frame : List Byte) (s : State) (m : Memory) : Prop where
  response : HoldsAt m (responseSlot s) frame
  edition : m.word 0x40 = s.mem.word 0x40 + 4
  owed : m.word 0x62 = BitVec.ofNat 16 s.lnc.owed
  stamp : HoldsAt m 0x64 (le32 s.stamp)
  elsewhere : KeepsOutside [(responseSlot s, 16), (0x40, 2), (0x62, 6)] s.mem m

/-- Request `i`, taken in `s`, is answered at once with a status and a result, every block then standing as in `b`; the next
frame is examined at the next take (R175). -/
def AnsweredAtOnce (i : Instr) (s b : State) (kind tag : Byte) (status : Status) (result : List Byte) : Prop :=
  ∃ m, exec i s = .next { b with lnc := answeredLanes s, mem := m } ∧
    AnswerStored (responseFrame kind tag status result) s m

/-- An event that found the part as `before` and brings it to `u` ends in `v` once the condition is formed again (R175):
where it was not TAKING, the lane is examined and a request that then stands ready is taken at this event; where it was,
nothing more happens, the take after the one before being due already (log 5). -/
structure Resumes (before u v : State) : Prop where
  going : before.lnc.taking = .taking → v = u
  taken : before.lnc.taking ≠ .taking → ∀ i, (examineRequests u).readyRequest = some i →
    exec i (examineRequests u) = .next v
  examined : before.lnc.taking ≠ .taking → (examineRequests u).readyRequest = none → v = examineRequests u

/-! ### The status block (11.9) -/

/-- The Regulator's fields of the status block show `r` (R45). -/
structure ShowsRegulator (r : Regulator) (m : Memory) : Prop where
  flags : HoldsAt m 0x43 [if r.armed then 1 else 0, if r.mode = .direct then 0 else 1, if r.absence = none then 1 else 0,
    match r.absence with
    | none => 0
    | some .disarmed => 1
    | some .supply => 2
    | some .lowSpeed => 3
    | some .released => 4]
  figures : HoldsAt m 0x48 (le16 (BitVec.ofNat 16 r.vref) ++ le16 (BitVec.ofNat 16 r.settings.floor)
    ++ le16 (BitVec.ofNat 16 r.settings.downLimit) ++ le16 (BitVec.ofNat 16 r.settings.upLimit)
    ++ le16 (BitVec.ofNat 16 r.settings.demandThreshold) ++ le16 (BitVec.ofNat 16 r.settings.reservoirLow))

/-- The retarder's four bytes of the status block (R154): lever, allowed and output stage, and the flags of the cut, the
hold-off and the assist. -/
def retarderBytes (r : RetarderUnit) : List Byte :=
  [BitVec.ofNat 8 r.leverStage, BitVec.ofNat 8 r.allowed, BitVec.ofNat 8 r.output,
    BitVec.ofNat 8 ((if r.cut then 1 else 0) + (if r.holdOff = none then 0 else 2) + (if r.assist then 4 else 0))]

/-- The retarder's bytes after an event that began with `before` and the memory `m` and left `after` and `t` (R154): rewritten
where one of them changes, else as they stood. -/
structure ShowsRetarder (before after : RetarderUnit) (m t : Memory) : Prop where
  changed : retarderBytes before ≠ retarderBytes after → HoldsAt t 0x5E (retarderBytes after)
  kept : retarderBytes before = retarderBytes after → ∀ a, 0x5E ≤ a → a < 0x62 → t.read a = m.read a

/-- The rise of the status block's edition by the retarder's rewrite, where it is made (R154, R170). -/
def retarderRise (before after : RetarderUnit) : Word := if retarderBytes before = retarderBytes after then 0 else 2

/-- A channel is in HOLD, VENT, REAPPLY or TEST (R6). -/
abbrev Occupied (s : State) (c : Fin 6) : Prop := s.channels[c].state.regulating = true ∨ s.channels[c].state = .test

/-! ### What a tick brings (R2, R78, R95, R117, R118, R171) -/

/-- A timer runs and stands at its expiry or past it. -/
def RunsOut (clock : Nat) (timer : Option Nat) : Prop := ∃ t, timer = some t ∧ t ≤ clock

/-- The Drum Temperature Unit after a tick in which the oscillator on its counter runs `cycles` cycles (R117, R118): the
time base falls by 1 in the REFERENCE phase and rises by 1 in the SENSOR phase, and the counter rises by 1 at each cycle;
both stand with nothing in flight. -/
def ticked (cycles : Nat) (u : DrumUnit) : DrumUnit :=
  match u.inFlight with
  | none => u
  | some m =>
    { u with
      timeBase := match m.phase with
        | .reference => u.timeBase - 1
        | .sensor => u.timeBase + 1
      counter := BitVec.ofNat 20 (u.counter.toNat + cycles) }

/-- The measurement in flight is in a phase. -/
def InPhase (u : DrumUnit) (phase : MeasurePhase) : Prop := ∃ m, u.inFlight = some m ∧ m.phase = phase

/-- The event `i` falls due at the tick that leaves the part as `s`: its timer runs and has run out, its conversion ends, or
the counter's overflow or the time base ends its phase. `overflow` says that the counter passed 2^20 - 1 at this tick. -/
def FallsDue (overflow : Prop) (s : State) : Instr → Prop
  | .standstillExpiry w =>
    (s.wheels[w].state = .starting ∨ s.wheels[w].state = .rolling) ∧ RunsOut s.clock s.wheels[w].capture.standstill
  | .regulationPeriod => s.reg.periodDue ≤ s.clock
  | .holdLimitExpiry c => RunsOut s.clock s.channels[c].holdTimer
  | .ventLimitExpiry c => RunsOut s.clock s.channels[c].ventTimer
  | .outputOpen c .inlet => RunsOut s.clock s.channels[c].inlet.watch
  | .outputOpen c .vent => RunsOut s.clock s.channels[c].vent.watch
  | .applyExpiry c => ∃ due par n, s.channels[c].activity = .train .apply due par n ∧ due ≤ s.clock
  | .holdIntervalExpiry c => ∃ due par n, s.channels[c].activity = .train .hold due par n ∧ due ≤ s.clock
  | .onExpiry c => ∃ due par n tag, s.channels[c].activity = .test .on due par n tag ∧ due ≤ s.clock
  | .offExpiry c => ∃ due par n tag, s.channels[c].activity = .test .off due par n tag ∧ due ≤ s.clock
  | .scanTimerExpiry => s.pcu.scanDue ≤ s.clock
  | .sampleTimerExpiry => s.smn.sampleDue ≤ s.clock
  | .sampleCompletion code =>
    code = Config.conversionCode s.draws ∧ ∃ due, s.pcu.converter = .converting .supply due ∧ due ≤ s.clock
  | .entryConversionCompletion code =>
    code = Config.conversionCode s.draws ∧ ∃ due, s.pcu.converter = .converting .entry due ∧ due ≤ s.clock
  | .referenceOverflow => InPhase s.dtu .reference ∧ overflow
  | .referenceTimeout => s.dtu.timeBase = 0 ∧ ∃ m, s.dtu.inFlight = some m ∧ m.phase = .reference ∧ m.since < s.clock
  | .sensorPhaseEnd count => InPhase s.dtu .sensor ∧ ¬overflow ∧ s.dtu.timeBase = 0 ∧ count = s.dtu.counter
  | .sensorOverflow => InPhase s.dtu .sensor ∧ overflow
  | .drumScanExpiry => RunsOut s.clock s.dtu.scanTimer
  | .ageRefresh => s.dtu.ageDue ≤ s.clock
  | .leverSettleExpiry => RunsOut s.clock s.rbu.settle
  | .holdOffExpiry => ∃ h, s.rbu.holdOff = some h ∧ h.due ≤ s.clock
  | .rampExpiry => RunsOut s.clock s.rbu.ramp
  | .toothEdge _ | .outputProved _ _ | .outputShort _ _ | .leverInputChange _ _ | .postEvent _ | .giveBack _ _
  | .thresholdWrite _ _ | .laneRestart _ | .softReset | .collisionClear | .attentionEnableWrite _
  | .hostWordWrite _ _ | .powerOnReset | .resetPin | .resetRelease | .identify _ | .unknownKind _ _ _ | .arm _
  | .disarm _ | .setReference _ _ _ _ _ _ _ | .installWheel _ _ _ _ _ _ _ | .removeWheel _ _ | .clearWheel _ _
  | .installChannel _ _ | .clearChannel _ _ | .valveTest _ _ _ _ _ _ _ | .stopTest _ _ | .setScan _ _ _
  | .setCalibration _ _ _ _ _ | .setDrumConfig _ _ _ _ _ _ | .setCurve _ _ _ | .measureDrum _ _
  | .setSupplyCriteria _ _ _ | .setBlend _ _ _ _ _ _ => False

/-! ### Values the rules give -/

/-- A stamp-measured timer of `ms` started now: its expiry is the step of the stamp `ms` later (R61, R62, R78). -/
def stampTimer (ms : Nat) (s : State) : Nat := (s.clock / 4000 + ms) * 4000

/-- D after an accepted capture of period `p` (R17). -/
def steppedDivisor (p : Nat) : Divisor → Divisor
  | .one => if p < 2500 then .four else .one
  | .four => if p < 2500 then .sixteen else if 40000 < p then .one else .four
  | .sixteen => if 40000 < p then .four else .sixteen

/-- The settings that stand, pending ones where they exist (R43). -/
def standing (s : State) : Settings := s.reg.pendingSettings.getD s.reg.settings

/-- Wheel `w` is in the wheel set of channel `c` (R33). -/
def AssignedTo (s : State) (w c : Fin 6) : Prop :=
  s.wheels[w].state ≠ .off ∧ ∃ r, s.wheels[w].record = some r ∧
    match s.reg.mode with
    | .direct => w = c
    | .grouped => r.channel = c

/-- Wheel `w` of the wheel set of channel `c` is usable: STOPPED, STARTING or ROLLING (R34). -/
def UsableFor (s : State) (w c : Fin 6) : Prop := AssignedTo s w c ∧ s.wheels[w].state ≠ .suspect

/-- The state R52 to R59 send a channel to at a regulation period, from its state `x`, the armed flag, and the vref, the
absence cause and the channel's figures `f` formed at that period. -/
def judgedState (armed : Bool) (vref : Nat) (absence : Option AbsenceCause) (f : ChannelFigures) (x : Channel) :
    ChannelState :=
  match x.state with
  | .test => if 0 < vref then if armed then .pass else .idle else .test
  | .lockout => .lockout
  | .idle =>
    if armed = false ∨ x.profile.any (·.enabled) = false ∨ f.outcome = .unassigned then .idle
    else if f.outcome = .sensorless then .lockout
    else .pass
  | .pass | .hold | .vent | .reapply =>
    if armed = false ∨ x.profile.any (·.enabled) = false ∨ f.outcome = .unassigned then .idle
    else if f.outcome = .sensorless then .lockout
    else
      match absence, x.profile with
      | some _, _ => .pass
      | none, none => x.state
      | none, some p =>
        match x.state with
        | .pass => if p.slipEntry ≤ f.slip then .vent else if f.accel ≤ p.holdDecel then .hold else .pass
        | .hold =>
          if p.slipEntry ≤ f.slip then .vent
          else if f.slip < p.slipExit ∧ p.holdDecel < f.accel then .reapply
          else .hold
        | .vent => if p.reaccel ≤ f.accel ∨ f.slip < p.slipExit then .hold else .vent
        | .reapply => if p.slipEntry ≤ f.slip then .vent else if f.accel ≤ p.holdDecel then .hold else .reapply
        | .idle | .test | .lockout => x.state

/-- A field of which 0 selects a default (R49, R153). -/
def chosen (default n : Nat) : Nat := if n = 0 then default else n

/-- The profile an INSTALL-CHANNEL gives, defaults substituted (R49). -/
def profileGiven (f : ProfileFields) : Profile :=
  { enabled := f.enabled == 1
    combine := if f.combine = 0 then .selectLow else .selectHigh
    slipEntry := chosen 150 f.slipEntry.toNat
    slipExit := chosen 80 f.slipExit.toNat
    holdDecel := if f.holdDecel = 0 then -60 else f.holdDecel.toInt
    reaccel := if f.reaccel = 0 then 40 else f.reaccel.toInt
    ventLimit := chosen 1200 f.ventLimit.toNat
    holdLimit := chosen 400 f.holdLimit.toNat
    applyPulse := f.applyPulse.toNat
    holdInterval := f.holdInterval.toNat
    repeatCount := f.repeatCount.toNat
    continuous := f.continuous == 1
    driveAxle := f.driveAxle == 1 }

/-- Every field of an INSTALL-CHANNEL but the channel lies in its range (R49, R177). -/
def ProfileInRange (f : ProfileFields) : Prop :=
  f.enabled.toNat ≤ 1 ∧ f.combine.toNat ≤ 1 ∧ f.continuous.toNat ≤ 1 ∧ f.driveAxle.toNat ≤ 1 ∧
    (f.slipEntry = 0 ∨ (50 ≤ f.slipEntry.toNat ∧ f.slipEntry.toNat ≤ 400)) ∧
    (20 ≤ chosen 80 f.slipExit.toNat ∧ chosen 80 f.slipExit.toNat + 10 ≤ chosen 150 f.slipEntry.toNat) ∧
    (f.holdDecel = 0 ∨ (-300 ≤ f.holdDecel.toInt ∧ f.holdDecel.toInt ≤ -10)) ∧
    (f.reaccel = 0 ∨ (10 ≤ f.reaccel.toInt ∧ f.reaccel.toInt ≤ 300)) ∧
    (f.ventLimit = 0 ∨ (200 ≤ f.ventLimit.toNat ∧ f.ventLimit.toNat ≤ 2000)) ∧
    (f.holdLimit = 0 ∨ (100 ≤ f.holdLimit.toNat ∧ f.holdLimit.toNat ≤ 2000)) ∧
    (5 ≤ f.applyPulse.toNat ∧ f.applyPulse.toNat ≤ 50) ∧ (5 ≤ f.holdInterval.toNat ∧ f.holdInterval.toNat ≤ 200)

/-! ### The frames of the channels -/

/-- The close reason's byte (11.1, R73). -/
def reasonByte : CloseReason → Byte
  | .released => 1
  | .lowSpeed => 2
  | .disarmed => 3
  | .lockout => 4
  | .supply => 5

/-- The 28 bytes behind the head of the record of an episode of channel `c` that closes at the stamp `now` (R73, 11.7), its
last vent phase counted: `vref` is the one of the close. -/
def episodeRecord (c : Fin 6) (reason : CloseReason) (ep : Episode) (now : Long) (vref : Nat) : List Byte :=
  let word := fun n : Nat => le16 (BitVec.ofNat 16 n)
  [BitVec.ofNat 8 c, reasonByte reason, (ep.governing.map fun w => BitVec.ofNat 8 w.val).getD 0xFF,
      BitVec.ofNat 8 ep.strikes]
    ++ le32 ep.openStamp ++ word (min 65535 (now - ep.openStamp).toNat) ++ word ep.vrefAtOpen ++ word vref
    ++ word ep.peakSlip ++ word ep.ventTime ++ word ep.pulses
    ++ [BitVec.ofNat 8 ep.ventPhases, BitVec.ofNat 8 ep.holdPhases, BitVec.ofNat 8 ep.trains, 0]
    ++ word (ep.reservoir.getD 0xFFFF) ++ le16 ((ep.hottest.map (BitVec.ofInt 16)).getD 0x7FFF)

/-- The record of the episode that channel `c`, standing as `x`, has open is handed over: a vent phase in progress is added to
the total vent time, which saturates at 65,535 (R73). -/
def recordClosed (c : Fin 6) (reason : CloseReason) (x : Channel) (vref : Nat) (u : State) : State :=
  match x.episode, x.ventEntry with
  | none, _ => u
  | some ep, none => raiseEpisode (episodeRecord c reason ep u.stamp vref) u
  | some ep, some e =>
    raiseEpisode
      (episodeRecord c reason { ep with ventTime := min 65535 (ep.ventTime + (u.stamp - e).toNat) } u.stamp vref) u

/-- PROFILE_APPLIED of channel `c`, standing as `x`, at its entry to the state of a code, where a profile is staged
(R51). -/
def reportApplied (c : Fin 6) (x : Channel) (entered : Nat) (u : State) : State :=
  if x.staged = none then u else raiseEvent .profileApplied (BitVec.ofNat 8 c) entered 0 u

/-- The response of the valve test that runs on channel `c`, standing as `x`, where it ends with a status and sends the
channel to PASS if the part is armed and to IDLE if not (R87). -/
def testEnded (c : Fin 6) (x : Channel) (status : Status) (armed : Bool) (u : State) : State :=
  match x.activity with
  | .test phase _ _ pulses tag =>
    respond 0x28 tag status ([BitVec.ofNat 8 c, if armed then 1 else 0, 0, match phase with
      | .on => 0
      | .off => 1] ++ le16 (BitVec.ofNat 16 pulses) ++ [0, 0]) u
  | .none | .train _ _ _ _ => u

/-- What `f` hands over for each channel, 0 to 5. -/
def overChannels (f : Fin 6 → State → State) (u : State) : State := f 5 (f 4 (f 3 (f 2 (f 1 (f 0 u)))))

/-- The frames channel `c` of `s` hands over at a regulation period that forms the Regulator `r` (R52 to R55, R65, R73,
R89): the motion abort's response, or the record of the episode that closes, CHANNEL_LOCKOUT with cause SENSORS, and
PROFILE_APPLIED. -/
def periodFrames (r : Regulator) (s : State) (c : Fin 6) (u : State) : State :=
  let f := r.channels[c]
  let x := { s.channels[c] with
    episode := s.channels[c].episode.map fun ep : Episode => { ep with peakSlip := max ep.peakSlip f.slip } }
  let new := judgedState r.armed r.vref r.absence f x
  match x.state, new with
  | .test, .pass | .test, .idle => testEnded c x .abortedMotion r.armed u
  | .test, _ | .lockout, _ | .idle, .idle | .idle, .pass => u
  | _, .idle => reportApplied c x 0 (recordClosed c (if r.armed then .released else .disarmed) x r.vref u)
  | _, .lockout =>
    reportApplied c x 6 (raiseEvent .channelLockout (BitVec.ofNat 8 c) 1 0 (recordClosed c .lockout x r.vref u))
  | was, .pass =>
    let closed := fun reason => recordClosed c reason x r.vref u
    let applied := fun v => if was = .pass then v else reportApplied c x 1 v
    match r.absence with
    | none => u
    | some .disarmed => applied (closed .disarmed)
    | some .supply => applied (closed .supply)
    | some .lowSpeed => applied (closed .lowSpeed)
    | some .released => applied (closed .released)
  | _, _ => u

/-- The frames channel `c` of `s` hands over at a DISARM (R67, R73). -/
def disarmFrames (s : State) (c : Fin 6) (u : State) : State :=
  let x := s.channels[c]
  match x.state with
  | .pass | .hold | .vent | .reapply => reportApplied c x 0 (recordClosed c .disarmed x s.reg.vref u)
  | .idle | .test | .lockout => u

/-- The frames channel `c` of `s` hands over at a window close to CRITICAL (R68, R73, R90). -/
def criticalFrames (s : State) (c : Fin 6) (u : State) : State :=
  let x := s.channels[c]
  match x.state with
  | .hold | .vent | .reapply => reportApplied c x 1 (recordClosed c .supply x s.reg.vref u)
  | .pass => recordClosed c .supply x s.reg.vref u
  | .test => testEnded c x .abortedSupply s.reg.armed u
  | .idle | .lockout => u

/-! ### Outputs, inputs and drums -/

/-- An output driven energised: its monitor starts the 3 ms watch where it was de-energised, else stays as it stands
(R63). -/
def driven (s : State) (o : Output) : Output :=
  if o.energised then o else { energised := true, watch := some (s.clock + 12000) }

/-- An input after a pass completion in which it gave the codes `ks` in list order, `ks` empty off the list (R98, R102,
R103). -/
def judgedInput (x : Input) (ks : List Nat) : Input :=
  if ks = [] then x
  else
    let bad := ks.any fun k => decide (k + 82 < x.zero) || decide (x.full + 82 < k)
    let pressure := min 1000 ((ks.sum / ks.length - x.zero) * 1000 / (x.full - x.zero))
    let good := { x with validity := .valid, held := pressure, bad := 0, good := 0 }
    match x.validity, bad with
    | .unused, _ => x
    | .valid, true => { x with validity := .holding, bad := 1 }
    | .holding, true =>
      if x.bad + 1 < 3 then { x with bad := x.bad + 1 } else { x with validity := .faulty, bad := 3, good := 0 }
    | .faulty, true => { x with bad := 3, good := 0 }
    | .valid, false | .holding, false => good
    | .faulty, false => if x.good + 1 < 5 then { x with good := x.good + 1 } else good

/-- The raw class of a window minimum (R137). -/
def classOf (c : Criteria) (m : Nat) : SupplyClass :=
  if m < c.critical then .critical else if m < c.low then .low else .normal

/-- The codes a pass recorded for the entries of input `i`, in list order (R98). -/
def entryCodes (list : List (Fin 4)) (codes : List (BitVec 12)) (i : Fin 4) : List Nat :=
  ((list.zip codes).filter fun e => e.1 == i).map fun e => e.2.toNat

/-- Input `x` is usable and holds a role of `roles` (R103, R105, R106). -/
def Counts (roles : List Role) (x : Input) : Prop :=
  x.role ∈ roles ∧ (x.validity = .valid ∨ x.validity = .holding)

/-- The four values of a function of the inputs. -/
abbrev eachInput {α : Type} (f : Fin 4 → α) : Vector α 4 := #v[f 0, f 1, f 2, f 3]

/-- An event to hand over: kind, subject and the two values. -/
abbrev Report := EventKind × Byte × Int × Int

/-- Events handed to the Lane Controller in order. -/
def reportAll (events : List Report) (s : State) : State :=
  events.foldl (fun s e => raiseEvent e.1 e.2.1 e.2.2.1 e.2.2.2 s) s

/-- The Drum Temperature Unit after a test of R116: the head entry of the queue starts where nothing is in flight and the
class is not CRITICAL; the counter is preset and the time base stands at 0 (R117). -/
def started (cls : SupplyClass) (clock : Nat) (u : DrumUnit) : DrumUnit :=
  if cls = .critical then u
  else
    match u.inFlight, u.queue with
    | none, e :: rest =>
      { u with
        queue := rest, counter := BitVec.ofNat 20 (1048576 - u.config.nRef), timeBase := 0
        inFlight := some
          { drum := e.drum, origin := e.origin, tags := e.tags, phase := .reference, rRef := u.config.rRef
            nRef := u.config.nRef, since := clock } }
    | _, _ => u

/-- The drum whose waiting measurement a test of R116 starts, where it starts one. -/
def begins (cls : SupplyClass) (u : DrumUnit) : Option (Fin 6) :=
  if cls = .critical ∨ u.inFlight ≠ none then none else u.queue.head?.map (·.drum)

/-- The flags byte of a drum's live row (11.8): hot mark, enabled, queued, in flight, latest origin REQUEST. -/
def rowFlags (u : DrumUnit) (d : Fin 6) : Byte :=
  BitVec.ofNat 8 ((if u.drums[d].hot then 1 else 0) + (if u.config.enabled[d] then 2 else 0)
    + (if u.queue.any (·.drum == d) then 4 else 0) + (if u.inFlight.any (·.drum == d) then 8 else 0)
    + (if u.drums[d].origin = .request then 16 else 0))

/-- The address of a drum's live row (11.8). -/
def drumRowAt (d : Fin 6) : Nat := 0x380 + 16 * d

/-- The bytes of a drum's live row behind its edition word, as a rewrite at a clock reading gives them (R130, 11.8). -/
def drumRowBytes (u : DrumUnit) (clock : Nat) (d : Fin 6) : List Byte :=
  let x := u.drums[d]
  let age := (x.ageFrom.map fun t => min 65535 ((clock - t) / 4000)).getD 65535
  [x.result.code, rowFlags u d] ++ le32 (BitVec.ofNat 32 x.resistance) ++ le32 (BitVec.ofNat 32 x.nSens)
    ++ le16 (temperatureWord x.temperature) ++ le16 (BitVec.ofNat 16 age)

/-- From memory `m` to memory `t` every drum's row is rewritten and shows `u`, each edition raised by 2, and by 2 more of the
drum whose measurement `begun` starts (R130, R170; log 10). -/
structure ShowsDrums (u : DrumUnit) (clock : Nat) (begun : Option (Fin 6)) (m t : Memory) : Prop where
  rows : ∀ d : Fin 6, HoldsAt t (drumRowAt d + 2) (drumRowBytes u clock d)
  editions : ∀ d : Fin 6, t.word (drumRowAt d) = m.word (drumRowAt d) + if begun = some d then 4 else 2

/-- From memory `m` to memory `t` the row of the drum whose measurement `begun` starts is rewritten and shows `u`, its edition
raised by 2 (R130, R170). -/
def ShowsBegun (u : DrumUnit) (clock : Nat) (begun : Option (Fin 6)) (m t : Memory) : Prop :=
  ∀ d, begun = some d →
    t.word (drumRowAt d) = m.word (drumRowAt d) + 2 ∧ HoldsAt t (drumRowAt d + 2) (drumRowBytes u clock d)

/-- Where the row lies of the drum whose measurement starts. -/
def begunRow (begun : Option (Fin 6)) : List (Nat × Nat) := begun.toList.map fun d => (drumRowAt d, 16)

/-- OPEN, SHORT and REF_FAULT (R112). -/
abbrev DrumResult.Fault (r : DrumResult) : Prop := r = .opened ∨ r = .short ∨ r = .refFault

/-- VALID and CLAMPED (R127). -/
abbrev DrumResult.Good (r : DrumResult) : Prop := r = .valid ∨ r = .clamped

/-- `t` is the highest temperature among the drums whose result is VALID or CLAMPED, absent where there is none
(R127). -/
def Hottest (drums : Vector Drum 6) (t : Option Int) : Prop :=
  ∀ v, t = some v ↔
    (∃ d : Fin 6, drums[d].result.Good ∧ drums[d].temperature = some v) ∧
      ∀ (d : Fin 6) (w : Int), drums[d].result.Good → drums[d].temperature = some w → w ≤ v

/-- The events of a completion on a drum that stood as `x` (R125, R126); `t` is absent for a result that is neither
VALID nor CLAMPED. -/
def completionReports (d : Fin 6) (x : Drum) (hot : Int) (r : DrumResult) (t : Option Int) (nSens : Nat) : List Report :=
  (if r.Fault ∧ ¬x.result.Fault then [(EventKind.drumSensor, BitVec.ofNat 8 d, (r.code.toNat : Int), (nSens : Int))] else []) ++
    match t with
    | none => []
    | some v =>
      if x.hot = false ∧ hot ≤ v then [(EventKind.drumHot, BitVec.ofNat 8 d, v, hot)]
      else if x.hot = true ∧ v ≤ hot - 20 then [(EventKind.drumCool, BitVec.ofNat 8 d, v, hot)]
      else []

/-- Command `i` completes measurement `m` with a result (R124): the drum's result, hot mark and age, the hottest drum, the
events, the answers of the waiting tags in order, the drum's row, no longer in flight, with its edition raised by 2 (log 12),
and the next start with the row of the drum it starts. -/
def Completes (i : Instr) (s : State) (m : Measurement) (counter : BitVec 20) (r : DrumResult) (resistance : Nat)
    (t : Option Int) (nSens : Nat) : Prop :=
  let x := s.dtu.drums[m.drum]
  let limit := s.dtu.config.hot
  let hot := match t with
    | none => x.hot
    | some v => if x.hot then decide (limit - 20 < v) else decide (limit ≤ v)
  let y : Drum :=
    { result := r, resistance := resistance, temperature := t, nSens := nSens, origin := m.origin, hot := hot
      ageFrom := some s.clock }
  let result := [BitVec.ofNat 8 m.drum, r.code, m.origin.code, if hot then 1 else 0]
    ++ le32 (BitVec.ofNat 32 resistance) ++ le16 (temperatureWord t)
  let status := if r.Fault then Status.sensorFault else .done
  let reported := m.tags.foldl (fun u tag => respond 0x42 tag status result u)
    (reportAll (completionReports m.drum x limit r t nSens) s)
  let begun := begins s.smn.cls { s.dtu with inFlight := none }
  ∃ hottest u mem, Hottest (s.dtu.drums.set m.drum y) hottest ∧
    u = started s.smn.cls s.clock
      { s.dtu with drums := s.dtu.drums.set m.drum y, hottest := hottest, counter := counter, inFlight := none } ∧
    exec i s = .next { s with dtu := u, lnc := reported.lnc, mem := mem } ∧
    KeepsOutside ((drumRowAt m.drum, 16) :: begunRow begun) reported.mem mem ∧
    ShowsBegun u s.clock begun s.mem mem ∧ mem.word (drumRowAt m.drum) = s.mem.word (drumRowAt m.drum) + 2 ∧
    HoldsAt mem (drumRowAt m.drum + 2)
      ([r.code, rowFlags { s.dtu with drums := s.dtu.drums.set m.drum y, inFlight := none } m.drum]
        ++ le32 (BitVec.ofNat 32 resistance) ++ le32 (BitVec.ofNat 32 nSens) ++ le16 (temperatureWord t) ++ [0, 0])

/-- The class a window close decides from the class before it, as the table of R137 gives it. -/
def judgedClass (c : Criteria) (before : SupplyClass) (m : Nat) : SupplyClass :=
  match before with
  | .normal => if m < c.critical then .critical else if m < c.low then .low else .normal
  | .low => if m < c.critical then .critical else if m < c.low + 500 then .low else .normal
  | .critical => if m < c.critical + 500 then .critical else if m < c.low + 500 then .low else .normal

/-- The converter of an arbiter that finds it idle: the supply claim first, then the scan claim (R96). -/
def granted (clock : Nat) (p : PressureUnit) : PressureUnit :=
  if p.supplyClaim then { p with supplyClaim := false, converter := .converting .supply (clock + 32) }
  else if p.scanClaim then { p with scanClaim := false, converter := .converting .entry (clock + 32) }
  else { p with converter := .idle }

/-- The allowed stage and assist active that R147 forms in a state. -/
def formedStage (s : State) : Nat × Bool :=
  let r := s.rbu
  if r.cut = true ∨ r.holdOff.isSome = true then (0, false)
  else
    let hot := s.dtu.hottest.any fun t => decide (r.settings.assistTemperature ≤ t)
    let braking := s.pcu.demand.any fun p => decide (r.settings.assistDemand ≤ p)
    let raised := r.settings.assistEnabled && hot && braking && decide (r.leverStage < r.settings.assistStage)
    let base := if raised then r.settings.assistStage else r.leverStage
    (match s.smn.cls with
      | .normal => base
      | .low => min 1 base
      | .critical => 0, raised)

/-- The output stage and ramp timer after a comparison with the allowed stage (R148). -/
def steppedOutput (clock allowed output : Nat) (ramp : Option Nat) : Nat × Option Nat :=
  if allowed < output then (allowed, ramp)
  else if output < allowed ∧ ramp = none then (output + 1, some (clock + 400000))
  else (output, ramp)

/-- The retarder after a formation of the allowed stage (R147) and the move of the output stage (R148). -/
def formedRetarder (s : State) : RetarderUnit :=
  let f := formedStage s
  let o := steppedOutput s.clock f.1 s.rbu.output s.rbu.ramp
  { s.rbu with allowed := f.1, assist := f.2, output := o.1, ramp := o.2 }

/-- The state byte of a wheel as its responses show it: OFF for an index out of range (R8, 11.1). -/
def shownWheel (s : State) (wheel : Byte) : Byte :=
  if h : wheel.toNat < 6 then s.wheels[wheel.toNat].state.code else 0

/-- The state byte of a channel as its responses show it: 0 for an index out of range (R49, R66, R84, R92). -/
def shownChannel (s : State) (channel : Byte) : Byte :=
  if h : channel.toNat < 6 then s.channels[channel.toNat].state.code else 0

/-- Whether a channel whose profile in force has the drive-axle flag is in HOLD, VENT or REAPPLY (R70). -/
def cutting (s : State) : Bool :=
  decide (∃ c : Fin 6, s.channels[c].state.regulating = true ∧ s.channels[c].profile.any (·.driveAxle) = true)

/-- The retarder after an event that leaves the channels as they stand in `s`: the cut raised (R149), or fallen with the
hold-off started (R150), or as it was (R70). -/
def cutRetarder (s : State) : RetarderUnit :=
  let r := s.rbu
  if cutting s = true ∧ r.cut = false then
    { r with cut := true, holdOff := none, allowed := 0, assist := false, output := 0 }
  else if cutting s = false ∧ r.cut = true then
    { r with
      cut := false, holdOff := some { due := s.clock + r.settings.holdOff * 4000, length := r.settings.holdOff }
      allowed := 0, assist := false, output := 0 }
  else r

/-- A state with its retarder settled after the channels' event: RETARDER_CUT is written at a rise of the cut that finds the
retarder not withheld (R149). -/
def cutSettled (s : State) : State :=
  let t := if cutting s = true ∧ s.rbu.cut = false ∧ s.rbu.holdOff = none then
    raiseEvent .retarderCut 0 s.rbu.output s.rbu.leverStage s else s
  { t with rbu := cutRetarder s }

/-- The retarder's fields of the status block, from its byte 30 on, rewritten where an event that began with `before` changed
one (R154). -/
def retarderShown (before : RetarderUnit) (s : State) : State :=
  if retarderBytes before = retarderBytes s.rbu then s else rewriteStatus [(30, retarderBytes s.rbu)] s

/-! ### The wheels (R1) -/

/-- A wheel record within the ranges of R4, its K that of R5. -/
def WheelRecord.Sound (r : WheelRecord) : Prop :=
  30 ≤ r.teeth ∧ r.teeth ≤ 120 ∧ 1500 ≤ r.circumference ∧ r.circumference ≤ 4000 ∧ 100 ≤ r.window ∧ r.window ≤ 1000 ∧
    r.k = (360000 * r.circumference + r.teeth / 2) / r.teeth

/-- A wheel's entry hangs together (R1, R9, R16, R18). -/
structure Wheel.Sound (x : Wheel) : Prop where
  off : x.state = .off ↔ x.record = none
  record : ∀ r, x.record = some r → r.Sound
  cleared : x.state = .off ∨ x.state = .stopped → x.capture = {}
  starting : x.state = .starting →
    x.capture = { lastTooth := x.capture.lastTooth, standstill := x.capture.standstill }
  teeth : x.capture.teeth < x.capture.divisor.toNat
  strikes : x.capture.strikes ≤ 3 ∧ (x.capture.strikes = 3 ↔ x.state = .suspect)
  timer : x.capture.standstill.isSome = true ↔ x.state = .starting ∨ x.state = .rolling
  lastTooth : x.state = .starting ∨ x.state = .rolling → x.capture.lastTooth.isSome = true
  lastCapture : x.state = .rolling → x.capture.lastCapture.isSome = true
  speed : x.capture.vCap ≤ 65535

/-- All six wheels hang together. -/
def WheelsSound (s : State) : Prop := ∀ w : Fin 6, s.wheels[w].Sound

/-! ### The channels (R47, R48, R71, R77) -/

/-- The solenoid pattern (inlet, vent) a channel's state and activity give it (R48, R86). -/
def Channel.pattern (x : Channel) : Bool × Bool :=
  match x.state, x.activity with
  | .hold, _ => (true, false)
  | .vent, _ => (true, true)
  | .reapply, .train .hold _ _ _ => (true, false)
  | .test, .test .on _ p _ _ => (true, p.solenoids == .inletAndVent)
  | _, _ => (false, false)

/-- Whether a channel's activity is the one its state has (R77). -/
def Channel.activityFits (x : Channel) : Bool :=
  match x.state, x.activity with
  | .reapply, .train _ _ _ _ => true
  | .test, .test _ _ _ _ _ => true
  | .reapply, _ | .test, _ => false
  | _, .none => true
  | _, _ => false

/-- A channel hangs together: its outputs follow its state, its lockout cause, timers, activity, episode and staged
profile stand exactly where the manual has them. -/
structure Channel.Sound (x : Channel) : Prop where
  outputs : (x.inlet.energised, x.vent.energised) = x.pattern
  monitors : (x.inlet.energised = false → x.inlet.watch = none) ∧ (x.vent.energised = false → x.vent.watch = none)
  cause : x.cause.isSome = true ↔ x.state = .lockout
  activity : x.activityFits = true
  holdTimer : x.holdTimer.isSome = true ↔ x.state = .hold
  ventTimer : x.ventTimer.isSome = true ↔ x.state = .vent
  ventEntry : x.ventEntry.isSome = true ↔ x.state = .vent
  regulating : x.state.regulating = true → x.profile.isSome = true ∧ x.episode.isSome = true
  staged : x.staged.isSome = true → x.state.regulating = true

/-- All six channels hang together. -/
def ChannelsSound (s : State) : Prop := ∀ c : Fin 6, s.channels[c].Sound

/-- When channels may act: not while the class is CRITICAL (R68), not while disarmed but for a test (R42, R67), and a test
runs only while vref is 0 (R89). -/
structure Engagement (s : State) : Prop where
  critical : s.smn.cls = .critical → ∀ c : Fin 6, s.channels[c].state.regulating = false ∧ s.channels[c].state ≠ .test
  supply : s.smn.cls = .critical → s.reg.absence ≠ none
  disarmed : s.reg.armed = false → s.reg.absence = some .disarmed ∧
    ∀ c : Fin 6, s.channels[c].state.regulating = false ∧ s.channels[c].state ≠ .pass
  motion : ∀ c : Fin 6, s.channels[c].state = .test → s.reg.vref = 0

/-! ### The retarder (R70, R144 to R152) -/

/-- The retarder is held within what the lever, the cut, the hold-off and the supply class allow. -/
structure RetarderSafe (s : State) : Prop where
  cut : s.rbu.cut = true ↔
    ∃ c : Fin 6, s.channels[c].state.regulating = true ∧ s.channels[c].profile.any (·.driveAxle) = true
  stages : s.rbu.leverStage ≤ 3 ∧ s.rbu.settings.assistStage ≤ 3 ∧ s.rbu.allowed ≤ 3
  output : s.rbu.output ≤ s.rbu.allowed
  withheld : s.rbu.cut = true ∨ s.rbu.holdOff.isSome = true → s.rbu.allowed = 0
  low : s.smn.cls = .low → s.rbu.allowed ≤ 1
  critical : s.smn.cls = .critical → s.rbu.allowed = 0

/-! ### The pressure inputs (R98 to R104) -/

/-- An input's counts and held value agree with its validity (R103). -/
def Input.Sound (x : Input) : Prop :=
  x.zero + 1000 ≤ x.full ∧ x.full ≤ 4095 ∧ x.held ≤ 1000 ∧
    match x.validity with
    | .valid => x.bad = 0 ∧ x.good = 0
    | .holding => (x.bad = 1 ∨ x.bad = 2) ∧ x.good = 0
    | .faulty => x.bad = 3 ∧ x.good < 5
    | .unused => x.bad = 0 ∧ x.good = 0 ∧ x.held = 0

/-- The Pressure Unit hangs together: each role is held by one input at most (R100), an input is UNUSED exactly while it
is off the list (R104), and lists have 1 to 8 entries (R99). -/
structure PressureSound (s : State) : Prop where
  inputs : ∀ i : Fin 4, s.pcu.inputs[i].Sound
  roles : ∀ i j : Fin 4, s.pcu.inputs[i].role = s.pcu.inputs[j].role → i = j
  unused : ∀ i : Fin 4, s.pcu.inputs[i].validity = .unused ↔ i ∉ s.pcu.scanList
  list : 1 ≤ s.pcu.scanList.length ∧ s.pcu.scanList.length ≤ 8
  waiting : ∀ l, s.pcu.pendingList = some l → 1 ≤ l.length ∧ l.length ≤ 8

/-! ### The drums (R112, R121, R127) -/

/-- The measurement queue and the drums' results hang together. -/
structure DrumsSound (s : State) : Prop where
  once : (s.dtu.queue.map (·.drum)).Nodup
  flying : ∀ m, s.dtu.inFlight = some m → (∀ e ∈ s.dtu.queue, e.drum ≠ m.drum) ∧ m.tags.length ≤ 4 ∧
    s.dtu.config.enabled[m.drum] = true
  entries : ∀ e ∈ s.dtu.queue, e.tags.length ≤ 4 ∧ (e.origin = .scan → e.tags = []) ∧ s.dtu.config.enabled[e.drum] = true
  unknown : ∀ d : Fin 6, s.dtu.drums[d].result = .unknown →
    s.dtu.drums[d].resistance = 0 ∧ s.dtu.drums[d].nSens = 0 ∧ s.dtu.drums[d].temperature = none ∧
      s.dtu.drums[d].hot = false
  hottest : s.dtu.hottest = hottestOf s.dtu.drums

/-! ### The response reservation (R162, R174, R176, R179) -/

/-- Whether a valve test runs on a channel, whose request is owed its response. -/
def Channel.owesTest (x : Channel) : Bool :=
  match x.activity with
  | .test _ _ _ _ _ => true
  | .none | .train _ _ _ _ => false

/-- The requests taken and not yet completed by their owners: running valve tests and waiting MEASURE-DRUM tags. -/
def outstanding (s : State) : Nat :=
  s.channels.toList.countP Channel.owesTest + (s.dtu.inFlight.map (·.tags.length)).getD 0
    + (s.dtu.queue.map (·.tags.length)).sum

/-- Every request taken is owed exactly once: to its owner or to the holdback; and every owed response has a slot or
stands in the holdback. -/
structure ReservationSound (s : State) : Prop where
  owed : s.lnc.owed = outstanding s + s.lnc.holdback.length
  bound : s.lnc.owed ≤ 63
  reserved : s.lnc.owed ≤ s.lnc.freeSlots + s.lnc.holdback.length
  running : s.lnc.response.fault = none → s.lnc.holdback = []
  fill : s.lnc.response.fill.toNat % 16 = 0 ∧ s.lnc.response.fill.toNat < 1024
  drain : s.lnc.response.accDrain.toNat % 16 = 0 ∧ s.lnc.response.accDrain.toNat < 1024
  frames : (s.lnc.response.posted - s.lnc.response.accTaken).toNat = framesPresent .response s.lnc.response

end Sys2Proof.Machine
end

