-- ==== Sys2Proof/WellFormed.lean ====
section
/-! DEFINITION. The checks a command must meet beyond its types: a bus write names an existing word that has no row of its
own, a lane restart names a lane, and UNKNOWN_KIND carries a head the judgement of R177 refuses. -/

namespace Sys2Proof

/-- Whether a command is one the table lists. -/
def WellFormed : Instr → Bool
  | .hostWordWrite a _ => isBusWord a && !hasOwnRow a
  | .laneRestart lanes => lanes != 0
  | .unknownKind kind length _ => requiredLength kind != some length.toNat
  | .toothEdge _ | .standstillExpiry _ | .regulationPeriod | .holdLimitExpiry _ | .ventLimitExpiry _
  | .outputProved _ _ | .outputOpen _ _ | .outputShort _ _ | .applyExpiry _ | .holdIntervalExpiry _ | .onExpiry _
  | .offExpiry _ | .scanTimerExpiry | .entryConversionCompletion _ | .sampleTimerExpiry | .sampleCompletion _
  | .referenceOverflow | .referenceTimeout | .sensorPhaseEnd _ | .sensorOverflow | .drumScanExpiry | .ageRefresh
  | .leverInputChange _ _ | .leverSettleExpiry | .holdOffExpiry | .rampExpiry | .postEvent _ | .giveBack _ _
  | .thresholdWrite _ _ | .softReset | .collisionClear | .attentionEnableWrite _ | .powerOnReset | .resetPin
  | .resetRelease | .identify _ | .arm _ | .disarm _ | .setReference _ _ _ _ _ _ _ | .installWheel _ _ _ _ _ _ _
  | .removeWheel _ _ | .clearWheel _ _ | .installChannel _ _ | .clearChannel _ _ | .valveTest _ _ _ _ _ _ _
  | .stopTest _ _ | .setScan _ _ _ | .setCalibration _ _ _ _ _ | .setDrumConfig _ _ _ _ _ _ | .setCurve _ _ _
  | .measureDrum _ _ | .setSupplyCriteria _ _ _ | .setBlend _ _ _ _ _ _ => true

end Sys2Proof
end

