-- ==== Sys2Proof/Certificates/Slice0/Obligations.lean ====
section
/-! DEFINITION. The statements, from the manual's rules, about the part's commands and its state. -/

open Sys2Proof Sys2Proof.Machine

/-! ### The step and the queue of commands -/

/-- One step with a command at the front of the queue is that command carried out on the state with the queue's rest. -/
def Obligations.StepRunsFrontCommand : Prop :=
  ∀ (c : Instr) (s : State), step { s with pending := c :: s.pending } = exec c s

/-- What a step does on an empty queue (the model's choice, logs 1, 3, 4, 5 and 6): nothing while a reset is held; while the
condition is TAKING, the request that the next take's examination leaves ready joins the queue, or, where it leaves none,
that examination is made; else one tick of 0.25 µs passes: the clock advances, the time base of a measurement in flight
falls in the REFERENCE phase and rises in the SENSOR phase, its counter rises by the cycles its oscillator runs (R117,
R118), and the queue holds once, in a free order, each event whose timer runs and has run out, whose conversion ends, or
that ends a phase. -/
def Obligations.EmptyQueue : Prop :=
  ∀ s : State, s.pending = [] →
    (s.held ≠ none → step s = .next s) ∧
    (s.held = none → s.lnc.taking = .taking → ∀ i, (examineRequests s).readyRequest = some i →
      step s = .next { s with pending := [i] }) ∧
    (s.held = none → s.lnc.taking = .taking → (examineRequests s).readyRequest = none →
      step s = .next (examineRequests s)) ∧
    (s.held = none → s.lnc.taking ≠ .taking → ∃ (cycles : Nat) (t : State) (q : List Instr),
      t = { s with clock := s.clock + 1, draws := s.draws + 1, dtu := ticked cycles s.dtu } ∧
        step s = .next { t with pending := q } ∧ q.Nodup ∧
        ∀ i, i ∈ q ↔ FallsDue (1048576 ≤ s.dtu.counter.toNat + cycles) t i)

/-- While a reset is held only its release and the lever's pins act (R184; the model's choice, log 6), and a request
acts only where the examination of its take leaves its frame ready to be taken (R175; log 5). -/
def Obligations.TurnedAway : Prop :=
  (∀ (c : Instr) (s : State), s.held ≠ none → c ≠ .resetRelease → (∀ a b, c ≠ .leverInputChange a b) →
    (∀ a v, c = .hostWordWrite a v → isBusWord a = true) → exec c s = .next s) ∧
  ∀ (c : Instr) (s : State), c.isRequest = true → s.held = none → (examineRequests s).readyRequest ≠ some c →
    exec c s = .next s

/-! ### Wheels (chapter 1) -/

/-- Blanking (R3): an edge less than 50 µs after the last tooth time of a STARTING or ROLLING wheel leaves no trace, one
50 µs after it or later is taken and becomes the last tooth time, as any edge in STOPPED does; in OFF and SUSPECT edges
are ignored. -/
def Obligations.BlankedEdge : Prop :=
  ∀ (w : Fin 6) (s : State), s.held = none →
    (s.wheels[w].state = .off ∨ s.wheels[w].state = .suspect → exec (.toothEdge w) s = .next s) ∧
    (∀ t, (s.wheels[w].state = .starting ∨ s.wheels[w].state = .rolling) → s.wheels[w].capture.lastTooth = some t →
      (s.timeBase - t).toNat < 50 → exec (.toothEdge w) s = .next s) ∧
    (∀ r t, (s.wheels[w].state = .starting ∨ s.wheels[w].state = .rolling) → s.wheels[w].record = some r →
      s.wheels[w].capture.lastTooth = some t → 50 ≤ (s.timeBase - t).toNat →
      ∃ u, exec (.toothEdge w) s = .next u ∧ u.wheels[w].capture.lastTooth = some s.timeBase) ∧
    (∀ r, s.wheels[w].state = .stopped → s.wheels[w].record = some r →
      ∃ u, exec (.toothEdge w) s = .next u ∧ u.wheels[w].capture.lastTooth = some s.timeBase)

/-- The first edge of a STOPPED wheel (R9), and the edges OFF and SUSPECT ignore. -/
def Obligations.FirstEdge : Prop :=
  ∀ (w : Fin 6) (s : State), s.held = none →
    (s.wheels[w].state = .off ∨ s.wheels[w].state = .suspect → exec (.toothEdge w) s = .next s) ∧
    ∀ r, s.wheels[w].state = .stopped → s.wheels[w].record = some r →
      exec (.toothEdge w) s = .next { s with wheels := s.wheels.set w { s.wheels[w] with
        state := .starting
        capture := { s.wheels[w].capture with
          lastTooth := some s.timeBase
          standstill := some (s.clock + r.window * 4000) } } }

/-- The first period of a wheel (R10), with the divisor rule applied to it (R17). An edge of a ROLLING wheel that is
not blanked: below D it only counts (R11); at D it is a capture, whose per-tooth period is accepted against p_acc or
as a confirmed jump (R12 to R14, R17), or is a strike, of which the third enters SUSPECT with event WHEEL_SUSPECT
(R15, R16). -/
def Obligations.MovingEdges : Prop :=
  (∀ (w : Fin 6) (s : State) (r : WheelRecord) (t : Long) (p : Nat), s.held = none →
     s.wheels[w].state = .starting → s.wheels[w].record = some r → s.wheels[w].capture.lastTooth = some t →
     p = (s.timeBase - t).toNat → 50 ≤ p →
     exec (.toothEdge w) s = .next { s with wheels := s.wheels.set w { s.wheels[w] with
       state := .rolling
       capture := { s.wheels[w].capture with
         vCap := min 65535 ((r.k + p / 2) / p)
         pAcc := p
         lastTooth := some s.timeBase
         lastCapture := some s.timeBase
         divisor := steppedDivisor p s.wheels[w].capture.divisor
         standstill := some (s.clock + r.window * 4000) } } }) ∧
  ∀ (w : Fin 6) (s : State) (r : WheelRecord) (t last : Long) (c : Capture) (d p pt : Nat), s.held = none →
    s.wheels[w].state = .rolling → s.wheels[w].record = some r → c = s.wheels[w].capture →
    c.lastTooth = some t → 50 ≤ (s.timeBase - t).toNat → c.lastCapture = some last →
    d = c.divisor.toNat → p = (s.timeBase - last).toNat → pt = p / d →
    let plausible := fun q : Nat => q ≤ 2 * pt ∧ pt ≤ 2 * q
    let accepted := plausible c.pAcc ∨ ∃ q, c.candidate = some q ∧ plausible q
    let timed := { c with lastTooth := some s.timeBase, standstill := some (s.clock + r.window * 4000) }
    let put := fun (x : Wheel) => { s with wheels := s.wheels.set w x }
    (c.teeth + 1 < d → exec (.toothEdge w) s =
      .next (put { s.wheels[w] with capture := { timed with teeth := c.teeth + 1 } })) ∧
    (d ≤ c.teeth + 1 → accepted → exec (.toothEdge w) s =
      .next (put { s.wheels[w] with capture := { timed with
        teeth := 0, lastCapture := some s.timeBase, vCap := min 65535 ((r.k * d + p / 2) / p), pAcc := pt
        candidate := none, strikes := 0, divisor := steppedDivisor p c.divisor } })) ∧
    (d ≤ c.teeth + 1 → ¬accepted → c.strikes + 1 < 3 → exec (.toothEdge w) s =
      .next (put { s.wheels[w] with capture := { timed with
        teeth := 0, lastCapture := some s.timeBase, candidate := some pt, strikes := c.strikes + 1 } })) ∧
    (d ≤ c.teeth + 1 → ¬accepted → 3 ≤ c.strikes + 1 → exec (.toothEdge w) s =
      .next (raiseEvent .wheelSuspect (BitVec.ofNat 8 w) pt c.pAcc
        (put { s.wheels[w] with
          state := .suspect
          capture := { timed with
            teeth := 0, lastCapture := some s.timeBase, candidate := some pt, strikes := c.strikes + 1
            standstill := none } })))

/-- The standstill expiry (R19): the capture state is cleared to the values of R1 and the wheel enters STOPPED, with no
event. A timer that is stopped, or that an edge has restarted, does not expire. -/
def Obligations.Standstill : Prop :=
  ∀ (w : Fin 6) (s : State), s.held = none →
    (∀ t, (s.wheels[w].state = .starting ∨ s.wheels[w].state = .rolling) →
      s.wheels[w].capture.standstill = some t → t ≤ s.clock →
      exec (.standstillExpiry w) s = .next { s with wheels := s.wheels.set w { s.wheels[w] with
        state := .stopped
        capture := { divisor := .one, teeth := 0, lastTooth := none, lastCapture := none, pAcc := 0
                     candidate := none, strikes := 0, vCap := 0, standstill := none } } }) ∧
    (∀ t, s.wheels[w].capture.standstill = some t → s.clock < t → exec (.standstillExpiry w) s = .next s) ∧
    (s.wheels[w].capture.standstill = none → exec (.standstillExpiry w) s = .next s)

/-- INSTALL-WHEEL (R4 to R6): REFUSED_RANGE before anything else, REFUSED_BUSY where the current or the new channel is in
HOLD, VENT, REAPPLY or TEST, else the wheel in STOPPED with the new record, its K and a cleared capture state. -/
def Obligations.InstallWheel : Prop :=
  ∀ (tag wheel channel eligible : Byte) (teeth circumference window : Word) (s : State), s.mem.wf = true →
    Ready (.installWheel tag wheel channel eligible teeth circumference window) s →
    let answer := AnsweredAtOnce (.installWheel tag wheel channel eligible teeth circumference window) s
    let inRange := wheel.toNat < 6 ∧ channel.toNat < 6 ∧ eligible.toNat ≤ 1 ∧ (30 ≤ teeth.toNat ∧ teeth.toNat ≤ 120) ∧
      (1500 ≤ circumference.toNat ∧ circumference.toNat ≤ 4000) ∧
      (window = 0 ∨ (100 ≤ window.toNat ∧ window.toNat ≤ 1000 ∧ window.toNat % 10 = 0))
    (¬inRange → answer s 0x10 tag .refusedRange [wheel, shownWheel s wheel, 0, 0, 0, 0, 0, 0]) ∧
    ∀ w c : Fin 6, inRange → w.val = wheel.toNat → c.val = channel.toNat →
      let under := fun named : Fin 6 => match s.reg.mode with
        | .direct => w
        | .grouped => named
      let busy := (s.wheels[w].state ≠ .off ∧ ∃ r, s.wheels[w].record = some r ∧ Occupied s (under r.channel)) ∨
        Occupied s (under c)
      let k := (360000 * circumference.toNat + teeth.toNat / 2) / teeth.toNat
      let r : WheelRecord :=
        { teeth := teeth.toNat, circumference := circumference.toNat, channel := c, eligible := eligible == 1
          window := if window = 0 then 300 else window.toNat, k := k }
      (busy → answer s 0x10 tag .refusedBusy [wheel, shownWheel s wheel, 0, 0, 0, 0, 0, 0]) ∧
      (¬busy → answer { s with wheels := s.wheels.set w { record := some r, state := .stopped, capture := {} } }
        0x10 tag .done ([wheel, 1, 0, 0] ++ le32 (BitVec.ofNat 32 k)))

/-- REMOVE-WHEEL (R7) and CLEAR-WHEEL (R8), with their refusals. -/
def Obligations.RemoveAndClearWheel : Prop :=
  ∀ (tag wheel : Byte) (s : State), s.mem.wf = true →
    (Ready (.removeWheel tag wheel) s →
      let answer := AnsweredAtOnce (.removeWheel tag wheel) s
      (6 ≤ wheel.toNat → answer s 0x11 tag .refusedRange [wheel, 0]) ∧
      ∀ w : Fin 6, w.val = wheel.toNat →
        let busy := s.wheels[w].state ≠ .off ∧ ∃ r, s.wheels[w].record = some r ∧
          Occupied s (match s.reg.mode with
            | .direct => w
            | .grouped => r.channel)
        (busy → answer s 0x11 tag .refusedBusy [wheel, shownWheel s wheel]) ∧
        (¬busy → answer { s with wheels := s.wheels.set w { record := none, state := .off, capture := {} } }
          0x11 tag .done [wheel, 0])) ∧
    (Ready (.clearWheel tag wheel) s →
      let answer := AnsweredAtOnce (.clearWheel tag wheel) s
      (6 ≤ wheel.toNat → answer s 0x12 tag .refusedRange [wheel, 0]) ∧
      ∀ w : Fin 6, w.val = wheel.toNat →
        (s.wheels[w].state ≠ .suspect → answer s 0x12 tag .refusedState [wheel, shownWheel s wheel]) ∧
        (s.wheels[w].state = .suspect →
          answer { s with wheels := s.wheels.set w { s.wheels[w] with state := .stopped, capture := {} } }
            0x12 tag .done [wheel, 1]))

/-! ### The Regulator (chapter 2) -/

/-- ARM (R41): DONE and armed where at least one channel is enabled and has a wheel in its wheel set, REFUSED_STATE where
none is; DONE with nothing changed while the part is armed already. The result carries the armed flag and the count. An ARM
that sets the flag rewrites the Regulator's fields of the status block (R45). -/
def Obligations.ArmRequest : Prop :=
  ∀ (tag : Byte) (s : State) (ready : List (Fin 6)), s.mem.wf = true → Ready (.arm tag) s → ready.Nodup →
    (∀ c, c ∈ ready ↔ s.channels[c].profile.any (·.enabled) = true ∧ ∃ w, AssignedTo s w c) →
    let n := BitVec.ofNat 8 ready.length
    (s.reg.armed = true → AnsweredAtOnce (.arm tag) s s 0x02 tag .done [1, n]) ∧
    (s.reg.armed = false → ready = [] → AnsweredAtOnce (.arm tag) s s 0x02 tag .refusedState [0, 0]) ∧
    (s.reg.armed = false → ready ≠ [] → ∃ m,
      exec (.arm tag) s =
        .next { s with reg := { s.reg with armed := true }, lnc := answeredLanes s, mem := m } ∧
      HoldsAt m (responseSlot s) (responseFrame 0x02 tag .done [1, n]) ∧
      m.word 0x40 = s.mem.word 0x40 + 6 ∧ ShowsRegulator { s.reg with armed := true } m ∧
      m.word 0x62 = BitVec.ofNat 16 s.lnc.owed ∧ HoldsAt m 0x64 (le32 s.stamp) ∧
      KeepsOutside [(responseSlot s, 16), (0x40, 2), (0x43, 4), (0x48, 12), (0x62, 6)] s.mem m)

/-- SET-REFERENCE (R43, R44): REFUSED_RANGE, REFUSED_STATE for a change of mode while armed, else the mode at once and the
settings as pending settings, which replace any earlier ones. A change of mode rewrites the Regulator's status fields. -/
def Obligations.SetReference : Prop :=
  ∀ (tag : Byte) (mode floor down up demand reservoir : Word) (s : State), s.mem.wf = true →
    Ready (.setReference tag mode floor down up demand reservoir) s →
    let i := Instr.setReference tag mode floor down up demand reservoir
    let inRange := mode.toNat ≤ 1 ∧ (200 ≤ floor.toNat ∧ floor.toNat ≤ 1500) ∧ (1 ≤ down.toNat ∧ down.toNat ≤ 200) ∧
      (1 ≤ up.toNat ∧ up.toNat ≤ 200) ∧ (10 ≤ demand.toNat ∧ demand.toNat ≤ 200) ∧
      (300 ≤ reservoir.toNat ∧ reservoir.toNat ≤ 900)
    let named := if mode = 0 then Mode.direct else Mode.grouped
    let g : Settings :=
      { floor := floor.toNat, downLimit := down.toNat, upLimit := up.toNat, demandThreshold := demand.toNat
        reservoirLow := reservoir.toNat }
    let shown := fun (m : Mode) (x : Settings) =>
      [m.code, 0] ++ le16 (BitVec.ofNat 16 x.floor) ++ le16 (BitVec.ofNat 16 x.downLimit)
        ++ le16 (BitVec.ofNat 16 x.upLimit) ++ le16 (BitVec.ofNat 16 x.demandThreshold)
        ++ le16 (BitVec.ofNat 16 x.reservoirLow)
    let after := { s.reg with mode := named, pendingSettings := some g }
    (¬inRange → AnsweredAtOnce i s s 0x04 tag .refusedRange (shown s.reg.mode (standing s))) ∧
    (inRange → s.reg.armed = true → named ≠ s.reg.mode →
      AnsweredAtOnce i s s 0x04 tag .refusedState (shown s.reg.mode (standing s))) ∧
    (inRange → named = s.reg.mode →
      AnsweredAtOnce i s { s with reg := { s.reg with pendingSettings := some g } } 0x04 tag .done (shown named g)) ∧
    (inRange → s.reg.armed = false → named ≠ s.reg.mode → ∃ m,
      exec i s = .next { s with reg := after, lnc := answeredLanes s, mem := m } ∧
      HoldsAt m (responseSlot s) (responseFrame 0x04 tag .done (shown named g)) ∧
      m.word 0x40 = s.mem.word 0x40 + 6 ∧ ShowsRegulator after m ∧
      m.word 0x62 = BitVec.ofNat 16 s.lnc.owed ∧ HoldsAt m 0x64 (le32 s.stamp) ∧
      KeepsOutside [(responseSlot s, 16), (0x40, 2), (0x43, 4), (0x48, 12), (0x62, 6)] s.mem m)

/-- The figures of a regulation period (R20, R26, R28 to R32, R37, R38), from one read of the wheels: `speed` is each
wheel's effective speed at the read. Nothing but the Regulator, the channels, the retarder, the lanes and the memory
changes. -/
def Obligations.PeriodFigures : Prop :=
  ∀ (s : State) (g : Settings) (speed : Fin 6 → Option Nat), s.held = none → s.reg.periodDue ≤ s.clock →
    g = standing s →
    (∀ w : Fin 6, match s.wheels[w].state with
      | .off | .suspect => speed w = none
      | .stopped | .starting => speed w = some 0
      | .rolling => ∃ r t, s.wheels[w].record = some r ∧ s.wheels[w].capture.lastTooth = some t ∧
          speed w = some (min s.wheels[w].capture.vCap (r.k / max 1 (s.timeBase - t).toNat))) →
    ∃ r cs q l m, exec .regulationPeriod s =
        .next { s with reg := r, channels := cs, rbu := q, lnc := l, mem := m } ∧
      r.armed = s.reg.armed ∧ r.mode = s.reg.mode ∧ r.settings = g ∧ r.pendingSettings = none ∧
      r.periodDue = s.reg.periodDue + 20000 ∧
      (∃ candidate : Nat,
        (∀ w x v, s.wheels[w].record = some x → x.eligible = true → speed w = some v → v ≤ candidate) ∧
        (candidate = 0 ∨ ∃ w x, s.wheels[w].record = some x ∧ x.eligible = true ∧ speed w = some candidate) ∧
        r.vref = min (s.reg.vref + g.upLimit) (max candidate (s.reg.vref - g.downLimit))) ∧
      (∀ w : Fin 6, r.wheels[w] = match speed w with
        | none => { slip := 0, accel := 0, previous := none }
        | some v =>
          { slip := if r.vref < g.floor then 0 else if v < r.vref then (r.vref - v) * 1000 / r.vref else 0
            accel := max (-1000) (min 1000 ((((v : Int) - (s.reg.wheels[w].previous.getD 0 : Nat)) * 50).tdiv 9))
            previous := some v }) ∧
      r.absence = if s.reg.armed = false then some .disarmed
        else if s.smn.cls = .critical then some .supply
        else if r.vref < g.floor then some .lowSpeed
        else match s.pcu.demand with
          | some p => if p < g.demandThreshold then some .released else none
          | none => none

/-- The assignment of a regulation period (R33 to R35): each channel's outcome, and for a GOVERNED channel the usable wheel
of its set that its combine rule picks, the lowest index where speeds are equal. A wheel's speed of the read is its new
previous effective speed (R32). -/
def Obligations.PeriodAssignment : Prop :=
  ∀ s : State, s.held = none → s.reg.periodDue ≤ s.clock → ∃ t, exec .regulationPeriod s = .next t ∧
    ∀ c : Fin 6,
      let speed := fun w : Fin 6 => t.reg.wheels[w].previous.getD 0
      let high := (s.channels[c].profile.map (·.combine)) = some .selectHigh
      ((∀ w, ¬AssignedTo s w c) → t.reg.channels[c] = { outcome := .unassigned, governing := none, slip := 0, accel := 0 }) ∧
      ((∃ w, AssignedTo s w c) → (∀ w, AssignedTo s w c → s.wheels[w].state = .suspect) →
        t.reg.channels[c] = { outcome := .sensorless, governing := none, slip := 0, accel := 0 }) ∧
      ((∃ w, UsableFor s w c) → ∃ g : Fin 6, UsableFor s g c ∧
        t.reg.channels[c] =
          { outcome := .governed, governing := some g, slip := t.reg.wheels[g].slip, accel := t.reg.wheels[g].accel } ∧
        ∀ w : Fin 6, UsableFor s w c → w ≠ g →
          (¬high → speed g < speed w ∨ (speed g = speed w ∧ g < w)) ∧
          (high → speed w < speed g ∨ (speed w = speed g ∧ g < w)))

/-- What a regulation period does with each channel (R52 to R59), the state it goes to being `judgedState` of the figures
formed at that period; an open episode notes its peak slip first (R72). -/
def Obligations.PeriodJudgement : Prop :=
  ∀ s : State, s.held = none → s.reg.periodDue ≤ s.clock → ChannelsSound s → ∃ t, exec .regulationPeriod s = .next t ∧
    ∀ c : Fin 6,
      let x := s.channels[c]
      let f := t.reg.channels[c]
      let noted := x.episode.map fun ep : Episode => { ep with peakSlip := max ep.peakSlip f.slip }
      t.channels[c].state = judgedState s.reg.armed t.reg.vref t.reg.absence f x ∧
      (t.channels[c].state = x.state → x.state ≠ .pass ∨ t.reg.absence = none → t.channels[c] = { x with episode := noted }) ∧
      (t.channels[c].state = x.state → x.state = .pass → t.reg.absence ≠ none →
        t.channels[c] = { x with episode := none }) ∧
      (t.channels[c].state ≠ x.state → t.channels[c].state.regulating = false →
        t.channels[c] =
          { profile := if x.staged.isSome then x.staged else x.profile
            staged := none
            state := t.channels[c].state
            cause := if t.channels[c].state = .lockout then some .sensors else none
            episode := if (x.state = .idle ∧ t.channels[c].state = .pass) ∨ x.state = .test then noted else none })

/-- How a channel enters HOLD, VENT or REAPPLY at a regulation period (R48, R57, R58, R61 to R63, R71, R72, R79). -/
def Obligations.PeriodEntries : Prop :=
  ∀ s : State, s.held = none → s.reg.periodDue ≤ s.clock → ChannelsSound s → ∃ t, exec .regulationPeriod s = .next t ∧
    ∀ (c : Fin 6) (p : Profile),
      let x := s.channels[c]
      let f := t.reg.channels[c]
      let ep : Episode := match x.episode with
        | some e => { e with peakSlip := max e.peakSlip f.slip }
        | none =>
          { openStamp := s.stamp, vrefAtOpen := t.reg.vref, governing := f.governing, peakSlip := f.slip
            reservoir := s.pcu.reservoir, hottest := s.dtu.hottest }
      let vented : Episode := match x.ventEntry with
        | some e => { ep with ventTime := min 65535 (ep.ventTime + (s.stamp - e).toNat) }
        | none => ep
      x.profile = some p → t.channels[c].state ≠ x.state →
      (t.channels[c].state = .vent → t.channels[c] = { x with
        state := .vent, holdTimer := none, ventTimer := some (stampTimer p.ventLimit s), ventEntry := some s.stamp
        episode := some { ep with ventPhases := min 255 (ep.ventPhases + 1) }
        inlet := driven s x.inlet, vent := driven s x.vent, activity := .none }) ∧
      (t.channels[c].state = .hold → t.channels[c] = { x with
        state := .hold, holdTimer := some (stampTimer p.holdLimit s), ventTimer := none, ventEntry := none
        episode := some { vented with holdPhases := min 255 (ep.holdPhases + 1) }
        inlet := driven s x.inlet, vent := {}, activity := .none }) ∧
      (t.channels[c].state = .reapply → t.channels[c] = { x with
        state := .reapply, holdTimer := none, ventTimer := none
        episode := some { ep with trains := min 255 (ep.trains + 1) }
        inlet := {}, vent := {}
        activity := .train .apply (stampTimer p.applyPulse s)
          { applyPulse := p.applyPulse, holdInterval := p.holdInterval, repeatCount := p.repeatCount
            continuous := p.continuous } 0 })

/-- The retarder at a regulation period (R70, R147, R148): the cut from the channels as they stand after their checks, then
the formation of the allowed stage and the move of the output. -/
def Obligations.PeriodRetarder : Prop :=
  ∀ s : State, s.held = none → s.reg.periodDue ≤ s.clock → ∃ t, exec .regulationPeriod s = .next t ∧
    t.rbu = formedRetarder { t with rbu := cutRetarder { t with rbu := s.rbu } }

/-- The live rows of the wheels and channels and the status block's fields of the Regulator and the retarder, as a regulation
period leaves them (R23, R45, R75, R154, 11.8, 11.9), and the frames it hands over (R51 to R55, R65, R73, R89, R149): for each
channel in index order the response of a test aborted by motion, the record of an episode that closes, CHANNEL_LOCKOUT with
cause SENSORS and PROFILE_APPLIED; last RETARDER_CUT where the cut rises with the retarder not withheld. Each rewrite of a
row or of the status block raises its edition by 2, and nothing else below the lanes changes. -/
def Obligations.PeriodRows : Prop :=
  ∀ s : State, s.held = none → s.mem.wf = true → s.reg.periodDue ≤ s.clock → ∃ t, exec .regulationPeriod s = .next t ∧
    (∀ w : Fin 6,
      let x := s.wheels[w]
      let c := x.capture
      let f := t.reg.wheels[w]
      let ofRecord := fun g : WheelRecord → Nat => (x.record.map g).getD 0
      HoldsAt t.mem (0x100 + 32 * w) (le16 (s.mem.word (0x100 + 32 * w) + 2)
        ++ [x.state.code, BitVec.ofNat 8 c.divisor.toNat, BitVec.ofNat 8 c.strikes,
          BitVec.ofNat 8 (ofRecord fun r => r.channel.val), BitVec.ofNat 8 (ofRecord fun r => if r.eligible then 1 else 0),
          BitVec.ofNat 8 (ofRecord (·.teeth))]
        ++ le16 (BitVec.ofNat 16 c.vCap) ++ le16 (BitVec.ofNat 16 (f.previous.getD 0))
        ++ le16 (BitVec.ofNat 16 f.slip) ++ le16 (BitVec.ofInt 16 f.accel)
        ++ le32 (BitVec.ofNat 32 c.pAcc) ++ le32 (BitVec.ofNat 32 (c.candidate.getD 0))
        ++ le32 (BitVec.ofNat 32 (ofRecord (·.k))) ++ le16 (BitVec.ofNat 16 (ofRecord (·.circumference)))
        ++ le16 (BitVec.ofNat 16 (ofRecord (·.window))))) ∧
    (∀ c : Fin 6,
      let x := t.channels[c]
      let f := t.reg.channels[c]
      let ofProfile := fun g : Profile → Nat => le16 (BitVec.ofNat 16 ((x.profile.map g).getD 0))
      let has := fun (n : Nat) (b : Bool) => if b then n else 0
      HoldsAt t.mem (0x200 + 32 * c) (le16 (s.mem.word (0x200 + 32 * c) + 2)
        ++ [x.state.code, (x.cause.map LockoutCause.code).getD 0, f.outcome.code,
          (f.governing.map fun w => BitVec.ofNat 8 w.val).getD 0xFF]
        ++ le16 (BitVec.ofNat 16 f.slip) ++ le16 (BitVec.ofInt 16 f.accel)
        ++ [BitVec.ofNat 8 (has 1 x.inlet.energised + has 2 x.vent.energised),
          BitVec.ofNat 8 (has 1 x.episode.isSome + has 2 x.staged.isSome + has 4 x.profile.isSome
            + has 8 (x.profile.any (·.enabled)) + has 16 (x.profile.any (·.combine == .selectHigh))
            + has 32 (x.profile.any (·.driveAxle))),
          BitVec.ofNat 8 ((x.episode.map (·.strikes)).getD 0), 0]
        ++ ofProfile (·.slipEntry) ++ ofProfile (·.slipExit) ++ ofProfile (·.ventLimit) ++ ofProfile (·.holdLimit)
        ++ List.replicate 10 0)) ∧
    ShowsRegulator t.reg t.mem ∧ ShowsRetarder s.rbu t.rbu s.mem t.mem ∧ HoldsAt t.mem 0x64 (le32 s.stamp) ∧
    (∀ a, a < 0xC00 →
      (∀ x ∈ [(0x40, 2), (0x43, 4), (0x48, 12), (0x5E, 10), (0x100, 0xC0), (0x200, 0xC0)], a < x.1 ∨ x.1 + x.2 ≤ a) →
      t.mem.read a = s.mem.read a) ∧
    (ChannelsSound s →
      let channels := overChannels (periodFrames t.reg s) s
      let handed := if cutting t = true ∧ s.rbu.cut = false ∧ s.rbu.holdOff = none then
        raiseEvent .retarderCut 0 s.rbu.output s.rbu.leverStage channels else channels
      t.lnc = handed.lnc ∧ (∀ a, a = 0x62 ∨ a = 0x63 ∨ 0xC00 ≤ a → t.mem.read a = handed.mem.read a) ∧
      t.mem.word 0x40 = handed.mem.word 0x40 + 2 + retarderRise s.rbu t.rbu)

/-! ### The channels and the pulse generator (chapters 3 and 4) -/

/-- The hold-limit expiry (R61): a channel still in HOLD enters REAPPLY with a train started (R79), and nothing else
changes; an expiry that finds no running timer of a HOLD channel run out does nothing. The vent-limit expiry (R62):
the vent phase ends and a strike is counted, event VENT_LIMIT; the first strike sends the channel to PASS, the second
to LOCKOUT, where the episode closes and CHANNEL_LOCKOUT is written (R65). A staged profile is applied (R51) and the
cut is formed (R70). -/
def Obligations.LimitExpiries : Prop :=
  (∀ (c : Fin 6) (s : State), s.held = none → ChannelsSound s → RetarderSafe s →
     (∀ t p, s.channels[c].state = .hold → s.channels[c].holdTimer = some t → s.channels[c].profile = some p →
       (t ≤ s.clock → exec (.holdLimitExpiry c) s = .next { s with channels := s.channels.set c { s.channels[c] with
         state := .reapply
         holdTimer := none
         activity := .train .apply (stampTimer p.applyPulse s)
           { applyPulse := p.applyPulse, holdInterval := p.holdInterval, repeatCount := p.repeatCount
             continuous := p.continuous } 0
         episode := s.channels[c].episode.map fun ep : Episode => { ep with trains := min 255 (ep.trains + 1) }
         inlet := {}
         vent := {} } }) ∧
       (s.clock < t → exec (.holdLimitExpiry c) s = .next s)) ∧
     (s.channels[c].state ≠ .hold → exec (.holdLimitExpiry c) s = .next s)) ∧
  ∀ (c : Fin 6) (s : State) (t : Nat) (p : Profile) (ep : Episode) (e : Long), s.held = none → ChannelsSound s →
    s.channels[c].state = .vent → s.channels[c].ventTimer = some t → s.channels[c].profile = some p →
    s.channels[c].episode = some ep → s.channels[c].ventEntry = some e →
    let x := s.channels[c]
    let counted : Episode :=
      { ep with ventTime := min 65535 (ep.ventTime + (s.stamp - e).toNat), strikes := min 2 (ep.strikes + 1) }
    let reported := raiseEvent .ventLimit (BitVec.ofNat 8 c) counted.strikes p.ventLimit s
    (s.clock < t → exec (.ventLimitExpiry c) s = .next s) ∧
    (t ≤ s.clock → ep.strikes = 0 → exec (.ventLimitExpiry c) s =
      .next (retarderShown s.rbu (cutSettled (applyStaged c { reported with channels := s.channels.set c { x with
        state := .pass, ventTimer := none, ventEntry := none, episode := some counted, inlet := {}, vent := {} } })))) ∧
    (t ≤ s.clock → ep.strikes ≠ 0 → exec (.ventLimitExpiry c) s =
      .next (retarderShown s.rbu (cutSettled (applyStaged c
        (raiseEvent .channelLockout (BitVec.ofNat 8 c) 2 p.ventLimit
          (raiseEpisode (episodeRecord c .lockout counted s.stamp s.reg.vref) { reported with channels := s.channels.set c { x with
            state := .lockout, cause := some .ventLimit, ventTimer := none, ventEntry := none, episode := none
            inlet := {}, vent := {} } }))))))

/-- A proved output's watch ends and its monitor returns to idle (R63); nothing else changes. An output fault (R63,
R64) locks the channel out in the order of R65: cause, outputs and timers; a valve test answered ABORTED_FAULT (R91);
the open episode closed; CHANNEL_LOCKOUT; a staged profile applied; then the cut (R70). An open output is a fault
once its watch has run out, an overcurrent at any moment; of a de-energised output neither is. -/
def Obligations.Outputs : Prop :=
  (∀ (c : Fin 6) (s : State), s.held = none →
     let x := s.channels[c]
     let put := fun y : Channel => { s with channels := s.channels.set c y }
     exec (.outputProved c .inlet) s = .next (put { x with inlet := { x.inlet with watch := none } }) ∧
     exec (.outputProved c .vent) s = .next (put { x with vent := { x.vent with watch := none } })) ∧
  ∀ (c : Fin 6) (sol : Solenoid) (s : State) (cause : LockoutCause), s.held = none →
    let x := s.channels[c]
    let o := match sol with
      | .inlet => x.inlet
      | .vent => x.vent
    let code : Byte := match sol with
      | .inlet => 0
      | .vent => 1
    let cut := { s with channels := s.channels.set c { x with
      state := .lockout, cause := some cause, holdTimer := none, ventTimer := none, ventEntry := none, episode := none
      inlet := {}, vent := {}, activity := .none } }
    let answered := match x.activity with
      | .test phase _ _ pulses tag =>
        respond 0x28 tag .abortedFault
          ([BitVec.ofNat 8 c, 6, 0, phase.code] ++ le16 (BitVec.ofNat 16 pulses) ++ [cause.code, code]) cut
      | .none | .train _ _ _ _ => cut
    let closed := match x.episode with
      | none => answered
      | some ep => raiseEpisode (episodeRecord c .lockout
          (match x.ventEntry with
            | none => ep
            | some e => { ep with ventTime := min 65535 (ep.ventTime + (s.stamp - e).toNat) }) s.stamp s.reg.vref)
          answered
    let done := retarderShown s.rbu (cutSettled (applyStaged c
      (raiseEvent .channelLockout (BitVec.ofNat 8 c) cause.code.toNat code.toNat closed)))
    (cause = .outputOpen → o.energised = true → (∃ t, o.watch = some t ∧ t ≤ s.clock) →
      exec (.outputOpen c sol) s = .next done) ∧
    (cause = .outputShort → o.energised = true → exec (.outputShort c sol) s = .next done) ∧
    (o.energised = false → exec (.outputOpen c sol) s = .next s ∧ exec (.outputShort c sol) s = .next s)

/-- INSTALL-CHANNEL (R49, R50): REFUSED_RANGE, else staged for a channel in HOLD, VENT or REAPPLY (STAGED), and in
force at once in any other state (DONE). A staged profile (R51): applied where its channel stands, with
PROFILE_APPLIED carrying the state entered; nothing happens where none is staged. -/
def Obligations.Profiles : Prop :=
  (∀ (tag : Byte) (f : ProfileFields) (s : State), s.mem.wf = true → Ready (.installChannel tag f) s →
     let answer := AnsweredAtOnce (.installChannel tag f) s
     (6 ≤ f.channel.toNat → answer s 0x20 tag .refusedRange [f.channel, 0, 0]) ∧
     ∀ c : Fin 6, c.val = f.channel.toNat →
       let x := s.channels[c]
       (¬ProfileInRange f → answer s 0x20 tag .refusedRange [f.channel, x.state.code, if x.staged.isSome then 1 else 0]) ∧
       (ProfileInRange f → x.state.regulating = true →
         answer { s with channels := s.channels.set c { x with staged := some (profileGiven f) } } 0x20 tag .staged
           [f.channel, x.state.code, 1]) ∧
       (ProfileInRange f → x.state.regulating = false →
         answer { s with channels := s.channels.set c { x with profile := some (profileGiven f), staged := none } }
           0x20 tag .done [f.channel, x.state.code, 0])) ∧
  ∀ (c : Fin 6) (s : State),
    (s.channels[c].staged = none → applyStaged c s = s) ∧
    ∀ p, s.channels[c].staged = some p →
      applyStaged c s = raiseEvent .profileApplied (BitVec.ofNat 8 c) s.channels[c].state.code.toNat 0
        { s with channels := s.channels.set c { s.channels[c] with profile := some p, staged := none } }

/-- CLEAR-CHANNEL (R66): REFUSED_RANGE; REFUSED_STATE outside LOCKOUT and while vref is at or above the floor; else the
channel enters PASS if it is eligible and IDLE if not. -/
def Obligations.ClearChannel : Prop :=
  ∀ (tag channel : Byte) (s : State), s.mem.wf = true → ChannelsSound s → RetarderSafe s →
    Ready (.clearChannel tag channel) s →
    let answer := AnsweredAtOnce (.clearChannel tag channel) s
    (6 ≤ channel.toNat → answer s 0x21 tag .refusedRange [channel, 0, 0]) ∧
    ∀ c : Fin 6, c.val = channel.toNat →
      let x := s.channels[c]
      let new : ChannelState :=
        if s.reg.armed = true ∧ x.profile.any (·.enabled) = true ∧ s.reg.channels[c].outcome = .governed then .pass
        else .idle
      (x.state ≠ .lockout ∨ s.reg.settings.floor ≤ s.reg.vref →
        answer s 0x21 tag .refusedState [channel, x.state.code, (x.cause.map LockoutCause.code).getD 0]) ∧
      (x.state = .lockout → s.reg.vref < s.reg.settings.floor →
        answer { s with channels := s.channels.set c { x with state := new, cause := none } } 0x21 tag .done
          [channel, new.code, 0])

/-- The phase ends of a reapply train (R80, R81): a delivered pulse is counted and the hold interval begins; after it the
next pulse begins, or a counted train that has delivered its n + 1 pulses ends and the channel enters PASS with its episode
open (R60). -/
def Obligations.Train : Prop :=
  ∀ (c : Fin 6) (s : State) (due pulses : Nat) (par : TrainParams), s.held = none → due ≤ s.clock →
    let x := s.channels[c]
    let put := fun y : Channel => { s with channels := s.channels.set c y }
    (x.activity = .train .apply due par pulses → exec (.applyExpiry c) s = .next (put { x with
      activity := .train .hold (stampTimer par.holdInterval s) par (min 65535 (pulses + 1))
      inlet := driven s x.inlet
      episode := x.episode.map fun ep : Episode => { ep with pulses := min 65535 (ep.pulses + 1) } })) ∧
    (x.activity = .train .hold due par pulses → par.continuous = true ∨ pulses < par.repeatCount + 1 →
      exec (.holdIntervalExpiry c) s =
        .next (put { x with activity := .train .apply (stampTimer par.applyPulse s) par pulses, inlet := {} })) ∧
    (x.activity = .train .hold due par pulses → par.continuous = false → par.repeatCount + 1 ≤ pulses → ChannelsSound s →
      exec (.holdIntervalExpiry c) s = .next (retarderShown s.rbu (cutSettled (applyStaged c
        (put { x with state := .pass, activity := .none, inlet := {}, vent := {} })))))

/-- The phase ends of a valve test (R86, R88): the on-time's pulse is counted and both outputs are de-energised; after the
off time the next cycle begins, or a counted test that has delivered its n + 1 pulses completes with DONE and the channel
enters PASS if the part is armed, IDLE if not (R87). -/
def Obligations.TestPhases : Prop :=
  ∀ (c : Fin 6) (s : State) (due pulses : Nat) (par : TestParams) (tag : Byte), s.held = none → due ≤ s.clock →
    let x := s.channels[c]
    let put := fun y : Channel => { s with channels := s.channels.set c y }
    let new : ChannelState := if s.reg.armed = true then .pass else .idle
    (x.activity = .test .on due par pulses tag → exec (.onExpiry c) s = .next (put { x with
      activity := .test .off (stampTimer par.offTime s) par (min 65535 (pulses + 1)) tag, inlet := {}, vent := {} })) ∧
    (x.activity = .test .off due par pulses tag → par.continuous = true ∨ pulses < par.repeatCount + 1 →
      exec (.offExpiry c) s = .next (put { x with
        activity := .test .on (stampTimer par.onTime s) par pulses tag
        inlet := driven s x.inlet
        vent := if par.solenoids = .inletAndVent then driven s x.vent else {} })) ∧
    (x.activity = .test .off due par pulses tag → par.continuous = false → par.repeatCount + 1 ≤ pulses →
      ChannelsSound s → RetarderSafe s →
      exec (.offExpiry c) s = .next (respond 0x28 tag .done
        ([BitVec.ofNat 8 c, new.code, 0, 1] ++ le16 (BitVec.ofNat 16 pulses) ++ [0, 0])
        (put { x with state := new, activity := .none })))

/-- VALVE-TEST (R84 to R86): REFUSED_RANGE; the first admission condition that fails, with its status and detail; else the
channel enters TEST in phase ON with its outputs in the ON pattern, and no response is written. -/
def Obligations.ValveTest : Prop :=
  ∀ (tag channel solenoids n continuous : Byte) (onTime offTime : Word) (s : State), s.mem.wf = true →
    ChannelsSound s → RetarderSafe s →
    Ready (.valveTest tag channel solenoids n continuous onTime offTime) s →
    let i := Instr.valveTest tag channel solenoids n continuous onTime offTime
    let inRange := solenoids.toNat ≤ 1 ∧ continuous.toNat ≤ 1 ∧ (10 ≤ onTime.toNat ∧ onTime.toNat ≤ 200) ∧
      (10 ≤ offTime.toNat ∧ offTime.toNat ≤ 2000)
    (6 ≤ channel.toNat ∨ ¬inRange → AnsweredAtOnce i s s 0x28 tag .refusedRange [channel, shownChannel s channel, 0]) ∧
    ∀ c : Fin 6, c.val = channel.toNat → inRange →
      let x := s.channels[c]
      let refused := fun (status : Status) (detail : Byte) =>
        AnsweredAtOnce i s s 0x28 tag status [channel, x.state.code, detail]
      let free := x.state = .idle ∨ x.state = .pass
      let par : TestParams :=
        { solenoids := if solenoids = 0 then .inlet else .inletAndVent
          onTime := onTime.toNat, offTime := offTime.toNat, repeatCount := n.toNat, continuous := continuous == 1 }
      (x.state = .test → refused .refusedBusy 1) ∧
      (x.state ≠ .test → ¬free → refused .refusedState 2) ∧
      (free → s.reg.vref ≠ 0 → refused .refusedState 3) ∧
      (free → s.reg.vref = 0 → s.smn.cls = .critical → refused .refusedState 4) ∧
      (free → s.reg.vref = 0 → s.smn.cls ≠ .critical → s.pcu.lowMark = true → refused .refusedState 5) ∧
      (free → s.reg.vref = 0 → s.smn.cls ≠ .critical → s.pcu.lowMark = false →
        exec i s = .next { countTake s with channels := s.channels.set c { x with
          state := .test
          activity := .test .on (stampTimer onTime.toNat s) par 0 tag
          inlet := driven s x.inlet
          vent := if solenoids = 0 then {} else driven s x.vent } })

/-- STOP-TEST (R92): REFUSED_RANGE; REFUSED_STATE where no test runs on the channel; else the test ends, answered
ABORTED_STOP, and then the stop is answered DONE. -/
def Obligations.StopTest : Prop :=
  ∀ (tag channel : Byte) (s : State), s.mem.wf = true → ChannelsSound s → RetarderSafe s →
    Ready (.stopTest tag channel) s →
    (6 ≤ channel.toNat → AnsweredAtOnce (.stopTest tag channel) s s 0x29 tag .refusedRange [channel, 0]) ∧
    ∀ c : Fin 6, c.val = channel.toNat →
      let x := s.channels[c]
      let new : ChannelState := if s.reg.armed = true then .pass else .idle
      (x.state ≠ .test →
        AnsweredAtOnce (.stopTest tag channel) s s 0x29 tag .refusedState [channel, x.state.code]) ∧
      ∀ phase due par pulses testTag, x.state = .test → x.activity = .test phase due par pulses testTag →
        exec (.stopTest tag channel) s = .next (respond 0x29 tag .done [channel, new.code]
          (respond 0x28 testTag .abortedStop
            ([BitVec.ofNat 8 c, new.code, 0, phase.code] ++ le16 (BitVec.ofNat 16 pulses) ++ [0, 0])
            { countTake s with channels := s.channels.set c { x with
              state := new, activity := .none, inlet := {}, vent := {} } }))

/-- DISARM (R42, R67): answered DONE with the part disarmed. Of an armed part, braking is absent with cause DISARMED, every
channel in PASS, HOLD, VENT or REAPPLY enters IDLE with its episode closed with reason DISARMED and recorded and its staged
profile applied, in index order (R51, R73), the cut is formed (R70), and the status fields of the Regulator and, where they
change, of the retarder are rewritten (R45, R154); IDLE, TEST and LOCKOUT stay. -/
def Obligations.Disarm : Prop :=
  ∀ (tag : Byte) (s : State), s.mem.wf = true → ChannelsSound s → Ready (.disarm tag) s →
    (s.reg.armed = false → AnsweredAtOnce (.disarm tag) s s 0x03 tag .done [0]) ∧
    (s.reg.armed = true →
      let handed := overChannels (disarmFrames s) (countTake s)
      let r := { s.reg with armed := false, absence := some .disarmed }
      ∃ cs q m, q = cutRetarder { s with channels := cs } ∧
        exec (.disarm tag) s = .next (respond 0x03 tag .done [0]
          { s with reg := r, channels := cs, rbu := q, lnc := handed.lnc, mem := m }) ∧
        (∀ c : Fin 6, (s.channels[c].state = .idle ∨ s.channels[c].state = .test ∨ s.channels[c].state = .lockout →
            cs[c] = s.channels[c]) ∧
          (s.channels[c].state = .pass ∨ s.channels[c].state.regulating = true →
            cs[c] =
              { profile := if s.channels[c].staged.isSome then s.channels[c].staged else s.channels[c].profile
                state := .idle })) ∧
        ShowsRegulator r m ∧ ShowsRetarder s.rbu q s.mem m ∧ HoldsAt m 0x64 (le32 s.stamp) ∧
        m.word 0x40 = handed.mem.word 0x40 + 2 + retarderRise s.rbu q ∧
        KeepsOutside [(0x40, 2), (0x43, 4), (0x48, 12), (0x5E, 4), (0x64, 4)] handed.mem m)

/-! ### The Pressure Unit (chapter 5) -/

/-- The scan timer's expiry (R97, R104): the timer runs on, a pending list enters force with its inputs, a pass
starts and the claim of its first entry is raised; an idle converter is granted by R96. Where the sample timer stands
due at the same tick, the claim waits for the supply claim raised with it. A pass still in progress gives way to the new one
(the model's choice, log 17). An expiry that finds the timer not run out does nothing. The sample timer's expiry (R133): the
timer runs on and the supply claim is raised; an idle converter is granted to it at once, one that is CONVERTING finishes
first (R96). -/
def Obligations.ConverterTimers : Prop :=
  (∀ s : State, s.held = none →
     let list := s.pcu.pendingList.getD s.pcu.scanList
     let moved := fun i : Fin 4 =>
       let x := s.pcu.inputs[i]
       if s.pcu.pendingList = none then x
       else if i ∉ list then { x with validity := .unused, held := 0, bad := 0, good := 0 }
       else if x.validity = .unused then { x with validity := .valid, held := 0, bad := 0, good := 0 }
       else x
     let p : PressureUnit := { s.pcu with
       scanList := list, pendingList := none, inputs := eachInput moved, scanDue := s.pcu.scanDue + 8000
       pass := some [], scanClaim := true }
     (s.pcu.scanDue ≤ s.clock → exec .scanTimerExpiry s =
       .next { s with pcu := if s.pcu.converter = .idle ∧ s.clock < s.smn.sampleDue then granted s.clock p else p }) ∧
     (s.clock < s.pcu.scanDue → exec .scanTimerExpiry s = .next s)) ∧
  ∀ s : State, s.held = none →
    let p : PressureUnit := { s.pcu with supplyClaim := true }
    (s.smn.sampleDue ≤ s.clock → exec .sampleTimerExpiry s = .next { s with
      smn := { s.smn with sampleDue := s.smn.sampleDue + 4000 }
      pcu := if s.pcu.converter = .idle then granted s.clock p else p }) ∧
    (s.clock < s.smn.sampleDue → exec .sampleTimerExpiry s = .next s)

/-- An entry's conversion that completes while entries remain (R95 to R97): its code is recorded, the next claim is
raised, and the arbiter acts, a waiting supply claim first. A completion that no conversion of an entry is due for
does nothing. A sample taken into a window that goes on (R133, R134): its millivolts enter the running minimum, the
count rises, and the converter is free for the next claim (R96). A completion that no supply conversion is due for
does nothing. -/
def Obligations.ConversionRecorded : Prop :=
  (∀ (code : BitVec 12) (s : State), s.held = none →
     (∀ due codes, s.pcu.converter = .converting .entry due → due ≤ s.clock → s.pcu.pass = some codes →
       codes.length + 1 < s.pcu.scanList.length →
       exec (.entryConversionCompletion code) s = .next { s with
         pcu := granted s.clock { s.pcu with converter := .idle, pass := some (codes ++ [code]), scanClaim := true } }) ∧
     ((∀ due, s.pcu.converter = .converting .entry due → s.clock < due) →
       exec (.entryConversionCompletion code) s = .next s)) ∧
  ∀ (code : BitVec 12) (s : State), s.held = none →
    (∀ due, s.pcu.converter = .converting .supply due → due ≤ s.clock → s.smn.count + 1 < 10 →
      exec (.sampleCompletion code) s = .next { s with
        pcu := granted s.clock s.pcu
        smn := { s.smn with
          count := s.smn.count + 1
          minimum := some ((s.smn.minimum.map (min · (code.toNat * 625 / 64))).getD (code.toNat * 625 / 64)) } }) ∧
    ((∀ due, s.pcu.converter = .converting .supply due → s.clock < due) →
      exec (.sampleCompletion code) s = .next s)

/-- A pass's completion (R97, R98, R102 to R106): every listed input moves by its codes, demand is the greatest usable
demand value or BLIND, reservoir the least usable reservoir value or absent, and the low mark moves with its 50 kPa of
hysteresis. Nothing but the Pressure Unit, the lanes and the memory changes. -/
def Obligations.PassFigures : Prop :=
  ∀ (code : BitVec 12) (due : Nat) (codes : List (BitVec 12)) (s : State), s.held = none →
    s.pcu.converter = .converting .entry due → due ≤ s.clock → s.pcu.pass = some codes →
    s.pcu.scanList.length ≤ codes.length + 1 →
    ∃ p l m, exec (.entryConversionCompletion code) s = .next { s with pcu := p, lnc := l, mem := m } ∧
      p = granted s.clock { s.pcu with
        converter := .idle, pass := none, inputs := p.inputs, demand := p.demand, reservoir := p.reservoir
        lowMark := p.lowMark } ∧
      (∀ i : Fin 4, p.inputs[i] = judgedInput s.pcu.inputs[i] (entryCodes s.pcu.scanList (codes ++ [code]) i)) ∧
      (∀ v, p.demand = some v ↔
        (∃ i : Fin 4, Counts [.demandFront, .demandRear] p.inputs[i] ∧ p.inputs[i].held = v) ∧
          ∀ i : Fin 4, Counts [.demandFront, .demandRear] p.inputs[i] → p.inputs[i].held ≤ v) ∧
      (∀ v, p.reservoir = some v ↔
        (∃ i : Fin 4, Counts [.reservoirFront, .reservoirRear] p.inputs[i] ∧ p.inputs[i].held = v) ∧
          ∀ i : Fin 4, Counts [.reservoirFront, .reservoirRear] p.inputs[i] → v ≤ p.inputs[i].held) ∧
      p.lowMark = match p.reservoir with
        | none => true
        | some v =>
          if s.pcu.lowMark then decide (v < s.reg.settings.reservoirLow + 50)
          else decide (v < s.reg.settings.reservoirLow)

/-- What a pass's completion reports (R97, R103, R105, R106, R108, R109): the inputs' events for X0 to X3, the demand event
and the reservoir event, in this order; then the four live rows, and the unit's status fields where they change. -/
def Obligations.PassReports : Prop :=
  ∀ (code : BitVec 12) (due : Nat) (codes : List (BitVec 12)) (s t : State), s.held = none → s.mem.wf = true →
    s.pcu.converter = .converting .entry due → due ≤ s.clock → s.pcu.pass = some codes →
    s.pcu.scanList.length ≤ codes.length + 1 → exec (.entryConversionCompletion code) s = .next t →
    let got := fun i : Fin 4 => entryCodes s.pcu.scanList (codes ++ [code]) i
    let bad := fun (i : Fin 4) (k : Nat) =>
      decide (k + 82 < s.pcu.inputs[i].zero) || decide (s.pcu.inputs[i].full + 82 < k)
    let inputReport := fun i : Fin 4 =>
      let x := s.pcu.inputs[i]
      let y := t.pcu.inputs[i]
      if x.validity ≠ .faulty ∧ y.validity = .faulty then
        [((EventKind.pressureFault, BitVec.ofNat 8 i, (((got i).find? (bad i)).getD 0 : Nat), y.held) : Report)]
      else if x.validity = .faulty ∧ y.validity = .valid then [(.pressureRestored, BitVec.ofNat 8 i, y.held, 0)]
      else []
    let demandReport : List Report :=
      match s.pcu.demand, t.pcu.demand with
      | some p, none => [(.demandBlind, 0, p, 0)]
      | none, some p => [(.demandSeen, 0, p, 0)]
      | _, _ => []
    let reservoirReport : List Report :=
      let v := (reservoirWord t.pcu.reservoir).toNat
      if s.pcu.lowMark = false ∧ t.pcu.lowMark = true then [(.reservoirLow, 0, v, s.reg.settings.reservoirLow)]
      else if s.pcu.lowMark = true ∧ t.pcu.lowMark = false then
        [(.reservoirRestored, 0, v, s.reg.settings.reservoirLow)]
      else []
    let reported := reportAll
      (inputReport 0 ++ inputReport 1 ++ inputReport 2 ++ inputReport 3 ++ demandReport ++ reservoirReport) s
    let shown := fun p : PressureUnit =>
      [if p.demand = none then 1 else 0, if p.lowMark then 1 else 0] ++ le16 (BitVec.ofNat 16 (p.demand.getD 0))
        ++ le16 (reservoirWord p.reservoir)
    t.lnc = reported.lnc ∧
      KeepsOutside [(0x300, 64), (0x40, 2), (0x54, 6), (0x64, 4)] reported.mem t.mem ∧
      (∀ i : Fin 4,
        let y := t.pcu.inputs[i]
        let k := if got i = [] then 0 else ((got i).find? (bad i)).getD ((got i).sum / (got i).length)
        t.mem.word (0x300 + 16 * i) = s.mem.word (0x300 + 16 * i) + 2 ∧
          HoldsAt t.mem (0x302 + 16 * i) ([y.validity.code, y.role.code] ++ le16 (BitVec.ofNat 16 y.zero)
            ++ le16 (BitVec.ofNat 16 y.full) ++ le16 (BitVec.ofNat 16 k) ++ le16 (BitVec.ofNat 16 y.held)
            ++ [BitVec.ofNat 8 (s.pcu.scanList.count i), BitVec.ofNat 8 y.bad, BitVec.ofNat 8 y.good, 0])) ∧
      (shown t.pcu ≠ shown s.pcu → t.mem.word 0x40 = s.mem.word 0x40 + 2 ∧ HoldsAt t.mem 0x54 (shown t.pcu) ∧
        HoldsAt t.mem 0x64 (le32 s.stamp)) ∧
      (shown t.pcu = shown s.pcu → KeepsOutside [(0x300, 64)] reported.mem t.mem)

/-- SET-SCAN (R99): REFUSED_RANGE for a length outside 1 to 8 or an entry within it that names no input, the refusal
carrying no list (the model's choice, log 11); else the list becomes the pending list, and the response carries it.
SET-CALIBRATION (R101): REFUSED_RANGE; REFUSED_STATE where another input holds the role, with that input; else the
three fields are the input's calibration, its validity, counts and held value kept. -/
def Obligations.PressureRequests : Prop :=
  (∀ (tag length : Byte) (entries : Vector Byte 8) (s : State), s.mem.wf = true →
     Ready (.setScan tag length entries) s →
     let answer := AnsweredAtOnce (.setScan tag length entries) s
     let named := entries.toList.take length.toNat
     let inRange := 1 ≤ length.toNat ∧ length.toNat ≤ 8 ∧ ∀ b ∈ named, b.toNat < 4
     (¬inRange → answer s 0x30 tag .refusedRange []) ∧
     ∀ list : List (Fin 4), inRange → list.map (fun i => BitVec.ofNat 8 i) = named →
       answer { s with pcu := { s.pcu with pendingList := some list } } 0x30 tag .done ([length, 0, 0, 0] ++ named)) ∧
  ∀ (tag input role : Byte) (zero full : Word) (s : State), s.mem.wf = true →
    Ready (.setCalibration tag input role zero full) s →
    let answer := AnsweredAtOnce (.setCalibration tag input role zero full) s
    let inRange := role.toNat ≤ 4 ∧ zero.toNat ≤ 4095 ∧ full.toNat ≤ 4095 ∧ zero.toNat + 1000 ≤ full.toNat
    let shown := fun x : Input =>
      [input, x.role.code] ++ le16 (BitVec.ofNat 16 x.zero) ++ le16 (BitVec.ofNat 16 x.full)
    (4 ≤ input.toNat → answer s 0x31 tag .refusedRange [input, 0, 0, 0, 0, 0, 0xFF]) ∧
    ∀ i : Fin 4, i.val = input.toNat →
      let x := s.pcu.inputs[i]
      (¬inRange → answer s 0x31 tag .refusedRange (shown x ++ [0xFF])) ∧
      ∀ r : Role, inRange → r.code = role →
        (∀ j : Fin 4, j ≠ i → s.pcu.inputs[j].role = r → (∀ k : Fin 4, k < j → k ≠ i → s.pcu.inputs[k].role ≠ r) →
          answer s 0x31 tag .refusedState (shown x ++ [BitVec.ofNat 8 j])) ∧
        ((∀ j : Fin 4, j ≠ i → s.pcu.inputs[j].role ≠ r) →
          let y := { x with role := r, zero := zero.toNat, full := full.toNat }
          answer { s with pcu := { s.pcu with inputs := s.pcu.inputs.set i y } } 0x31 tag .done (shown y ++ [0xFF]))

/-! ### The Supply Monitor (chapter 7) -/

/-- The tenth sample closes the window (R134, R136 to R138): pending criteria enter force, the first close decides the raw
class and every later one by the table; the class is never better than the raw class, and worse only within 500 mV above a
criterion; the status block shows the class and the window minimum (R141). -/
def Obligations.WindowClose : Prop :=
  ∀ (code : BitVec 12) (due m : Nat) (s : State), s.held = none → s.mem.wf = true →
    s.pcu.converter = .converting .supply due → due ≤ s.clock → 9 ≤ s.smn.count →
    m = (s.smn.minimum.map (min · (code.toNat * 625 / 64))).getD (code.toNat * 625 / 64) →
    let criteria := s.smn.pendingCriteria.getD s.smn.criteria
    ∃ t, exec (.sampleCompletion code) s = .next t ∧
      t.smn = { s.smn with
        criteria := criteria, pendingCriteria := none, cls := t.smn.cls, firstClose := false, lastMinimum := m
        count := 0, minimum := none } ∧
      (s.smn.firstClose = true → t.smn.cls = classOf criteria m) ∧
      (s.smn.firstClose = false → t.smn.cls = judgedClass criteria s.smn.cls m) ∧
      (criteria.critical + 1000 ≤ criteria.low →
        (classOf criteria m).code.toNat ≤ t.smn.cls.code.toNat ∧
        (t.smn.cls ≠ classOf criteria m → (criteria.critical ≤ m ∧ m < criteria.critical + 500) ∨
          (criteria.low ≤ m ∧ m < criteria.low + 500))) ∧
      t.pcu = granted s.clock s.pcu ∧ HoldsAt t.mem 0x5A [t.smn.cls.code] ∧
      HoldsAt t.mem 0x5C (le16 (BitVec.ofNat 16 m)) ∧
      (t.smn.cls = s.smn.cls →
        t = { s with pcu := t.pcu, smn := t.smn, mem := t.mem } ∧ t.mem.word 0x40 = s.mem.word 0x40 + 2 ∧
          KeepsOutside [(0x40, 2), (0x5A, 1), (0x5C, 2), (0x64, 4)] s.mem t.mem)

/-- A window close at which the class becomes CRITICAL (R139, R40, R68, R90, R152): SUPPLY_CLASS is written first; of an
armed part braking is absent with cause SUPPLY (whatever the cause before: log 21); regulating channels enter PASS with their
episodes closed, valve tests end, IDLE and LOCKOUT stay; the retarder's allowed and output stages are 0. The channels hand
over, in index order, episode records with reason SUPPLY, PROFILE_APPLIED and the responses ABORTED_SUPPLY (R51, R73, R90); the
status block shows what changed. -/
def Obligations.CriticalClose : Prop :=
  ∀ (code : BitVec 12) (due m : Nat) (s t : State), s.held = none → s.mem.wf = true → ChannelsSound s →
    RetarderSafe s →
    s.lnc.event.fill.toNat + 16 ≤ 2048 →
    s.lnc.response.fill.toNat % 16 = 0 → s.lnc.response.fill.toNat < 1024 →
    s.pcu.converter = .converting .supply due → due ≤ s.clock → 9 ≤ s.smn.count →
    m = (s.smn.minimum.map (min · (code.toNat * 625 / 64))).getD (code.toNat * 625 / 64) →
    exec (.sampleCompletion code) s = .next t → s.smn.cls ≠ .critical → t.smn.cls = .critical →
    t = { s with
      pcu := t.pcu, smn := t.smn, channels := t.channels, rbu := t.rbu, lnc := t.lnc, mem := t.mem
      reg := if s.reg.armed then { s.reg with absence := some .supply } else s.reg } ∧
    (∀ c : Fin 6,
      let x := s.channels[c]
      let y := t.channels[c]
      match x.state with
      | .idle | .lockout => y = x
      | .pass => y = { x with episode := none }
      | .hold | .vent | .reapply =>
        y = { profile := if x.staged.isSome then x.staged else x.profile, state := .pass }
      | .test => y = { x with
          state := if s.reg.armed then .pass else .idle, activity := .none, inlet := {}, vent := {} }) ∧
    t.rbu = formedRetarder { t with rbu := cutRetarder { s with channels := t.channels } } ∧
    t.rbu.allowed = 0 ∧ t.rbu.output = 0 ∧ t.rbu.cut = false ∧
    (let handed := overChannels (criticalFrames s) (raiseEvent .supplyClass 2 m s.smn.cls.code.toNat s)
     t.lnc = handed.lnc ∧
      (s.reg.armed = true → ShowsRegulator t.reg t.mem) ∧
      (s.reg.armed = false → KeepsOutside [(0x40, 2), (0x5A, 1), (0x5C, 2), (0x5E, 4), (0x64, 4)] handed.mem t.mem) ∧
      ShowsRetarder s.rbu t.rbu s.mem t.mem ∧ HoldsAt t.mem 0x5A [2] ∧ HoldsAt t.mem 0x5C (le16 (BitVec.ofNat 16 m)) ∧
      HoldsAt t.mem 0x64 (le32 s.stamp) ∧
      t.mem.word 0x40 = handed.mem.word 0x40 + (if s.reg.armed then 4 else 2) + retarderRise s.rbu t.rbu ∧
      KeepsOutside [(0x40, 2), (0x43, 4), (0x48, 12), (0x5A, 1), (0x5C, 2), (0x5E, 4), (0x64, 4)] handed.mem t.mem) ∧
    (s.lnc.event.fault = none → (framesPresent .event s.lnc.event) < 127 →
      HoldsAt t.mem (0x1000 + s.lnc.event.fill.toNat)
        (eventFrame .supplyClass s.lnc.eventGap 2 s.stamp m s.smn.cls.code.toNat))

/-- A window close at which the class changes to LOW or NORMAL (R139, R128, R152): the event, then, where the class leaves
CRITICAL, the start of a waiting measurement (R116) with its drum's row (R130), and the formation of the allowed stage; the
status block shows class, minimum and retarder (R141, R154). The Regulator and the channels do not change. -/
def Obligations.BetterClose : Prop :=
  ∀ (code : BitVec 12) (due m : Nat) (s t : State), s.held = none →
    s.pcu.converter = .converting .supply due → due ≤ s.clock → 9 ≤ s.smn.count →
    m = (s.smn.minimum.map (min · (code.toNat * 625 / 64))).getD (code.toNat * 625 / 64) →
    exec (.sampleCompletion code) s = .next t → t.smn.cls ≠ s.smn.cls → t.smn.cls ≠ .critical →
    t = { s with
      pcu := t.pcu, smn := t.smn, mem := t.mem
      dtu := if s.smn.cls = .critical then started t.smn.cls s.clock s.dtu else s.dtu
      rbu := formedRetarder { t with rbu := s.rbu }
      lnc := (raiseEvent .supplyClass t.smn.cls.code m s.smn.cls.code.toNat s).lnc } ∧
    (s.mem.wf = true →
      let handed := raiseEvent .supplyClass t.smn.cls.code m s.smn.cls.code.toNat s
      let begun := if s.smn.cls = .critical then begins t.smn.cls s.dtu else none
      HoldsAt t.mem 0x5A [t.smn.cls.code] ∧ HoldsAt t.mem 0x5C (le16 (BitVec.ofNat 16 m)) ∧
        ShowsRetarder s.rbu t.rbu s.mem t.mem ∧ HoldsAt t.mem 0x64 (le32 s.stamp) ∧
        t.mem.word 0x40 = s.mem.word 0x40 + 2 + retarderRise s.rbu t.rbu ∧
        ShowsBegun t.dtu s.clock begun s.mem t.mem ∧
        KeepsOutside ([(0x40, 2), (0x5A, 1), (0x5C, 2), (0x5E, 4), (0x64, 4)] ++ begunRow begun) handed.mem t.mem)

/-- SET-SUPPLY-CRITERIA (R135): REFUSED_RANGE with the pair that stands, or the pair pending and answered DONE. SET-CURVE
(R115): the curve absent for a clear presence flag, REFUSED_RANGE with the curve kept, or the nine points in force. -/
def Obligations.CriteriaAndCurve : Prop :=
  (∀ (tag : Byte) (low critical : Word) (s : State), s.mem.wf = true → Ready (.setSupplyCriteria tag low critical) s →
    let answer := AnsweredAtOnce (.setSupplyCriteria tag low critical) s
    let criterion := fun w : Word => 12000 ≤ w.toNat ∧ w.toNat ≤ 28000 ∧ w.toNat % 250 = 0
    let inRange := criterion low ∧ criterion critical ∧ critical.toNat + 1000 ≤ low.toNat
    let standing := s.smn.pendingCriteria.getD s.smn.criteria
    (¬inRange → answer s 0x50 tag .refusedRange
      (le16 (BitVec.ofNat 16 standing.low) ++ le16 (BitVec.ofNat 16 standing.critical))) ∧
    (inRange →
      answer { s with smn := { s.smn with pendingCriteria := some { low := low.toNat, critical := critical.toNat } } }
        0x50 tag .done (le16 low ++ le16 critical))) ∧
  ∀ (tag presence : Byte) (points : Vector PointFields 9) (s : State), s.mem.wf = true →
    Ready (.setCurve tag presence points) s →
    let answer := AnsweredAtOnce (.setCurve tag presence points) s
    let pass := (∀ i : Fin 9, 100 ≤ points[i].resistance.toNat ∧ points[i].resistance.toNat ≤ 200000 ∧
        -40 ≤ points[i].temperature.toInt ∧ points[i].temperature.toInt ≤ 700) ∧
      ∀ i j : Fin 9, i < j → points[i].resistance.toNat < points[j].resistance.toNat
    (presence = 0 → answer { s with dtu := { s.dtu with curve := none } } 0x41 tag .done [0]) ∧
    (2 ≤ presence.toNat ∨ (presence = 1 ∧ ¬pass) →
      answer s 0x41 tag .refusedRange [if s.dtu.curve.isSome then 1 else 0]) ∧
    (presence = 1 → pass → answer
      { s with dtu := { s.dtu with
        curve := some (points.map fun p => { resistance := p.resistance.toNat, temperature := p.temperature.toInt }) } }
      0x41 tag .done [1])

/-! ### The Drum Temperature Unit (chapter 6) -/

/-- The end of the REFERENCE phase (R117): the counter's overflow begins the SENSOR phase with the counter at 0; the time
base's return to 0 gives REF_FAULT, at an overflow of the same tick too. Neither event acts in the SENSOR phase or with
nothing in flight, nor, by the model's choice (log 3), at the tick at which the phase began. The row a completion writes
shows the drum no longer in flight, in one rewrite (the model's choice, log 12). -/
def Obligations.ReferencePhase : Prop :=
  ∀ s : State, s.held = none → s.mem.wf = true → DrumsSound s →
    (s.dtu.inFlight = none → exec .referenceOverflow s = .next s ∧ exec .referenceTimeout s = .next s) ∧
    ∀ m, s.dtu.inFlight = some m →
      (m.phase = .sensor → exec .referenceOverflow s = .next s ∧ exec .referenceTimeout s = .next s) ∧
      (m.phase = .reference → s.dtu.timeBase ≠ 0 →
        exec .referenceOverflow s =
          .next { s with dtu := { s.dtu with counter := 0, inFlight := some { m with phase := .sensor } } } ∧
        exec .referenceTimeout s = .next s) ∧
      (m.phase = .reference → s.dtu.timeBase = 0 → m.since < s.clock →
        Completes .referenceOverflow s m s.dtu.counter .refFault 0 none 0 ∧
        Completes .referenceTimeout s m s.dtu.counter .refFault 0 none 0) ∧
      (m.phase = .reference → s.dtu.timeBase = 0 → s.clock ≤ m.since →
        exec .referenceOverflow s = .next s ∧ exec .referenceTimeout s = .next s)

/-- The end of the SENSOR phase (R118 to R120) with a count, N_sens, which the counter then holds: OPEN below 16 cycles; else the resistance, and
with the curve in force NO_CURVE, CLAMPED to an end point, or VALID with the temperature of the lowest segment that holds it,
the quotient truncated toward zero. A counter overflow gives SHORT with N_sens 1,048,576, before the phase's end or at its
tick: an overflow that waits behind the end comes at that tick (the model's choice, log 3). The completion is R124's; its row
shows the drum no longer in flight, in one rewrite (the model's choice, log 12). -/
def Obligations.SensorPhase : Prop :=
  ∀ (count : BitVec 20) (s : State) (m : Measurement) (n : Nat), s.held = none → s.mem.wf = true → DrumsSound s →
    s.dtu.inFlight = some m → n = count.toNat →
    let r := (m.rRef * m.nRef + n / 2) / n
    let gives := fun (result : DrumResult) (resistance : Nat) (t : Option Int) =>
      Completes (.sensorPhaseEnd count) s m count result resistance t n
    (m.phase = .reference → exec (.sensorPhaseEnd count) s = .next s ∧ exec .sensorOverflow s = .next s) ∧
    (m.phase = .sensor → s.dtu.timeBase ≠ 0 → exec (.sensorPhaseEnd count) s = .next s) ∧
    (m.phase = .sensor → Completes .sensorOverflow s m 0 .short 0 none 1048576) ∧
    (m.phase = .sensor → s.dtu.timeBase = 0 → .sensorOverflow ∈ s.pending →
      Completes (.sensorPhaseEnd count) s m 0 .short 0 none 1048576) ∧
    (m.phase = .sensor → s.dtu.timeBase = 0 → .sensorOverflow ∉ s.pending →
      (n < 16 → gives .opened 0 none) ∧
      (16 ≤ n → s.dtu.curve = none → gives .noCurve r none) ∧
      ∀ p : Vector CurvePoint 9, 16 ≤ n → s.dtu.curve = some p →
        (r < p[0].resistance → gives .clamped r (some p[0].temperature)) ∧
        (p[0].resistance ≤ r → p[8].resistance < r → gives .clamped r (some p[8].temperature)) ∧
        ∀ k : Fin 8, p[0].resistance ≤ r → r ≤ p[8].resistance →
          p[k.val].resistance ≤ r → r ≤ p[k.val + 1].resistance →
          (∀ j : Fin 8, j < k → ¬(p[j.val].resistance ≤ r ∧ r ≤ p[j.val + 1].resistance)) →
          gives .valid r (some (p[k.val].temperature
            + (((r : Int) - p[k.val].resistance) * (p[k.val + 1].temperature - p[k.val].temperature)).tdiv
                ((p[k.val + 1].resistance : Int) - p[k.val].resistance))))

/-- MEASURE-DRUM (R122), its cases in order: REFUSED_RANGE; REFUSED_STATE; a tag joins the measurement in flight or the
queued entry, whose origin becomes REQUEST, or is refused QUEUE_FULL where four wait; else a new entry joins the tail and
starts at once where R116 allows it, and all six rows are rewritten (R130), the row of a drum that starts twice (the model's
choice, log 10). -/
def Obligations.MeasureDrum : Prop :=
  ∀ (tag drum : Byte) (s : State), s.mem.wf = true → DrumsSound s → Ready (.measureDrum tag drum) s →
    let i := Instr.measureDrum tag drum
    let absent : List Byte := [0, 0, 0, 0, 0xFF, 0x7F]
    (6 ≤ drum.toNat → AnsweredAtOnce i s s 0x42 tag .refusedRange ([drum, 0, 0, 0] ++ absent)) ∧
    ∀ d : Fin 6, d.val = drum.toNat →
      let queued := s.dtu.queue.any (·.drum == d)
      let flying := s.dtu.inFlight.any (·.drum == d)
      let refused := fun status : Status => AnsweredAtOnce i s s 0x42 tag status
        ([drum, s.dtu.drums[d].result.code, 0, (if queued then 2 else 0) ||| (if flying then 4 else 0)] ++ absent)
      let on := s.dtu.config.enabled[d]
      (on = false → refused .refusedState) ∧
      (∀ m, on = true → s.dtu.inFlight = some m → m.drum = d →
        (4 ≤ m.tags.length → refused .queueFull) ∧
        (m.tags.length < 4 → exec i s = .next { countTake s with
          dtu := { s.dtu with inFlight := some { m with tags := m.tags ++ [tag] } } })) ∧
      (∀ e, on = true → e ∈ s.dtu.queue → e.drum = d →
        (4 ≤ e.tags.length → refused .queueFull) ∧
        (e.tags.length < 4 → ∃ before after, s.dtu.queue = before ++ e :: after ∧
          exec i s = .next { countTake s with dtu := { s.dtu with
            queue := before ++ { e with origin := .request, tags := e.tags ++ [tag] } :: after } })) ∧
      (on = true → queued = false → flying = false →
        let joined := { s.dtu with queue := s.dtu.queue ++ [{ drum := d, origin := .request, tags := [tag] }] }
        ∃ u mem, u = started s.smn.cls s.clock joined ∧
        exec i s = .next { countTake s with dtu := u, mem := mem } ∧
        KeepsOutside [(0x380, 96)] (countTake s).mem mem ∧
        ShowsDrums u s.clock (begins s.smn.cls joined) s.mem mem)

/-- The drum scan timer's expiry (R123): it restarts from the interval in force; the first enabled drum from the
rotation pointer on is offered and the pointer passes it; a drum that is busy is skipped, another joins the queue
with origin SCAN and may start (R116), and all six rows are rewritten (R130), the row of a drum that starts twice (the
model's choice, log 10). With no drum enabled nothing is offered. The age refresh (R130): the timer runs on for 100 ms and
every drum's row is rewritten whole, the age saturating at 65,535; nothing else changes. -/
def Obligations.DrumTimers : Prop :=
  (∀ s : State, s.held = none → s.mem.wf = true →
     (s.dtu.scanTimer = none → exec .drumScanExpiry s = .next s) ∧
     ∀ due, s.dtu.scanTimer = some due →
       (s.clock < due → exec .drumScanExpiry s = .next s) ∧
       let timed := { s.dtu with scanTimer := some (due + s.dtu.config.interval * 4000) }
       (due ≤ s.clock → s.dtu.config.enabled = 0 → exec .drumScanExpiry s = .next { s with dtu := timed }) ∧
       ∀ (k d : Fin 6), due ≤ s.clock → (∀ j : Fin 6, j < k → s.dtu.config.enabled[s.dtu.rotation + j] = false) →
         d = s.dtu.rotation + k → s.dtu.config.enabled[d] = true →
         let busy := s.dtu.queue.any (·.drum == d) || s.dtu.inFlight.any (·.drum == d)
         (busy = true → exec .drumScanExpiry s = .next { s with dtu := { timed with rotation := d + 1 } }) ∧
         (busy = false →
           let joined := { timed with
             rotation := d + 1, queue := s.dtu.queue ++ [{ drum := d, origin := .scan, tags := [] }] }
           ∃ u mem, u = started s.smn.cls s.clock joined ∧
           exec .drumScanExpiry s = .next { s with dtu := u, mem := mem } ∧
           KeepsOutside [(0x380, 96)] s.mem mem ∧ ShowsDrums u s.clock (begins s.smn.cls joined) s.mem mem)) ∧
  ∀ s : State, s.held = none → s.mem.wf = true →
    (s.clock < s.dtu.ageDue → exec .ageRefresh s = .next s) ∧
    (s.dtu.ageDue ≤ s.clock → ∃ mem,
      exec .ageRefresh s = .next { s with dtu := { s.dtu with ageDue := s.dtu.ageDue + 400000 }, mem := mem } ∧
      KeepsOutside [(0x380, 96)] s.mem mem ∧
      ∀ d : Fin 6, mem.word (drumRowAt d) = s.mem.word (drumRowAt d) + 2 ∧
        HoldsAt mem (drumRowAt d + 2) (drumRowBytes s.dtu s.clock d))

/-- SET-DRUM-CONFIG (R113, R114): REFUSED_RANGE with the configuration in force, or the steps of R114 in order: the
measurement in flight and the entries of drums left out are abandoned and answered, drums that leave the set are cleared
(their origin kept, the model's choice, log 9), the scan timer starts from the new interval, the request is answered, and a
measurement starts where R116 allows it. All six rows are rewritten where a row's flags change (R130), the row of a drum that
starts twice (the model's choice, log 10). -/
def Obligations.SetDrumConfig : Prop :=
  ∀ (tag : Byte) (rRef : Long) (nRef interval hot : Word) (enable : Byte) (s : State), s.mem.wf = true →
    Ready (.setDrumConfig tag rRef nRef interval hot enable) s →
    let i := Instr.setDrumConfig tag rRef nRef interval hot enable
    let inRange := (1000 ≤ rRef.toNat ∧ rRef.toNat ≤ 100000) ∧ (256 ≤ nRef.toNat ∧ nRef.toNat ≤ 32768) ∧
      (interval = 0 ∨ (250 ≤ interval.toNat ∧ interval.toNat ≤ 5000)) ∧ (100 ≤ hot.toInt ∧ hot.toInt ≤ 600) ∧
      enable.toNat < 64
    let new : DrumConfig :=
      { rRef := rRef.toNat, nRef := nRef.toNat, interval := interval.toNat, hot := hot.toInt
        enabled := enable.setWidth 6 }
    let shown := fun (c : DrumConfig) (n : Nat) =>
      le32 (BitVec.ofNat 32 c.rRef) ++ le16 (BitVec.ofNat 16 c.nRef) ++ le16 (BitVec.ofNat 16 c.interval)
        ++ le16 (BitVec.ofInt 16 c.hot) ++ [c.enabled.setWidth 8, BitVec.ofNat 8 n]
    (¬inRange → AnsweredAtOnce i s s 0x40 tag .refusedRange (shown s.dtu.config 0)) ∧
    (inRange →
      let flying : List QueueEntry := (s.dtu.inFlight.map fun m => ⟨m.drum, m.origin, m.tags⟩).toList
      let stays := fun e : QueueEntry => new.enabled[e.drum]
      let abandoned := flying ++ s.dtu.queue.filter fun e => !stays e
      let answers : List (Byte × List Byte) := abandoned.flatMap fun e => e.tags.map fun tag =>
        (tag, [BitVec.ofNat 8 e.drum, s.dtu.drums[e.drum].result.code, e.origin.code,
          if s.dtu.drums[e.drum].hot then 1 else 0, 0, 0, 0, 0, 0xFF, 0x7F])
      let answered := respond 0x40 tag .done (shown new answers.length)
        (answers.foldl (fun u a => respond 0x42 a.1 .abandoned a.2 u) (countTake s))
      let kept := fun d : Fin 6 =>
        if s.dtu.config.enabled[d] = true ∧ new.enabled[d] = false then
          { s.dtu.drums[d] with
            result := .unknown, resistance := 0, nSens := 0, temperature := none, hot := false
            ageFrom := some s.clock }
        else s.dtu.drums[d]
      ∃ hottest settled u mem, Hottest #v[kept 0, kept 1, kept 2, kept 3, kept 4, kept 5] hottest ∧
        settled = { s.dtu with
          config := new, queue := s.dtu.queue.filter stays, inFlight := none, hottest := hottest
          drums := #v[kept 0, kept 1, kept 2, kept 3, kept 4, kept 5]
          scanTimer := if interval = 0 then none else some (s.clock + interval.toNat * 4000) } ∧
        u = started s.smn.cls s.clock settled ∧
        exec i s = .next { answered with dtu := u, mem := mem } ∧
        KeepsOutside [(0x380, 96)] answered.mem mem ∧
        ((∃ d, rowFlags u d ≠ rowFlags s.dtu d) → ShowsDrums u s.clock (begins s.smn.cls settled) s.mem mem) ∧
        ((∀ d, rowFlags u d = rowFlags s.dtu d) →
          ShowsBegun u s.clock (begins s.smn.cls settled) s.mem mem ∧
          KeepsOutside (begunRow (begins s.smn.cls settled)) answered.mem mem))

/-! ### The Retarder Blend Unit (chapter 8) -/

/-- The lever (R145): a change of an input starts or restarts the 10 ms settle timer; at its expiry the stage the
inputs encode is taken, and where it differs from the lever stage the allowed stage is formed (R147, R148). During a
held reset the pins move and no timer runs (the model's choice, log 6). The hold-off's expiry ends the withheld span:
the allowed stage is formed and the output moved, then RETARDER_RESTORED carries the stage formed and the length that
ran (R151). The ramp's expiry stops the timer and compares again, a rise restarting it (R148). Where one of the
retarder's four bytes of the status block changes, they are rewritten with the stamp, the edition raised by 2 (R154). -/
def Obligations.LeverAndTimers : Prop :=
  (∀ s : State,
     (∀ a b : Contact, exec (.leverInputChange a b) s = .next { s with rbu := { s.rbu with
       input1 := a, input2 := b
       settle := if s.held = none ∧ ¬(a = s.rbu.input1 ∧ b = s.rbu.input2) then some (s.clock + 40000)
         else s.rbu.settle } }) ∧
     ∀ (t stage : Nat), s.held = none → s.rbu.settle = some t →
       (stage = match s.rbu.input1, s.rbu.input2 with
         | .opened, .opened => 0
         | .closed, .opened => 1
         | .opened, .closed => 2
         | .closed, .closed => 3) →
       (s.clock < t → exec .leverSettleExpiry s = .next s) ∧
       (t ≤ s.clock → stage = s.rbu.leverStage →
         exec .leverSettleExpiry s = .next { s with rbu := { s.rbu with settle := none } }) ∧
       (t ≤ s.clock → stage ≠ s.rbu.leverStage →
         exec .leverSettleExpiry s = .next (retarderShown s.rbu { s with
           rbu := formedRetarder { s with rbu := { s.rbu with settle := none, leverStage := stage } } }))) ∧
  ∀ s : State, s.held = none →
    (∀ h : HoldOff, s.rbu.holdOff = some h →
      let r := formedRetarder { s with rbu := { s.rbu with holdOff := none } }
      (s.clock < h.due → exec .holdOffExpiry s = .next s) ∧
      (h.due ≤ s.clock → exec .holdOffExpiry s =
        .next (retarderShown s.rbu (raiseEvent .retarderRestored 0 r.allowed h.length { s with rbu := r })))) ∧
    (∀ t, s.rbu.ramp = some t →
      (s.clock < t → exec .rampExpiry s = .next s) ∧
      (t ≤ s.clock → s.rbu.output < s.rbu.allowed → exec .rampExpiry s = .next (retarderShown s.rbu { s with
        rbu := { s.rbu with output := s.rbu.output + 1, ramp := some (s.clock + 400000) } })) ∧
      (t ≤ s.clock → s.rbu.allowed ≤ s.rbu.output → exec .rampExpiry s = .next (retarderShown s.rbu { s with
        rbu := { s.rbu with output := s.rbu.allowed, ramp := none } }))) ∧
    (s.rbu.holdOff = none → exec .holdOffExpiry s = .next s) ∧ (s.rbu.ramp = none → exec .rampExpiry s = .next s) ∧
    ∀ before : RetarderUnit, s.mem.wf = true → retarderBytes before ≠ retarderBytes s.rbu →
      ∃ m, retarderShown before s = { s with mem := m } ∧ HoldsAt m 0x5E (retarderBytes s.rbu) ∧
        m.word 0x40 = s.mem.word 0x40 + 2 ∧ HoldsAt m 0x64 (le32 s.stamp) ∧
        KeepsOutside [(0x40, 2), (0x5E, 4), (0x64, 4)] s.mem m

/-- SET-BLEND (R153): REFUSED_RANGE with the settings in force, the assist fields looked at only where assist is enabled;
else the settings in force at once, the allowed stage formed and the output moved, then the answer. -/
def Obligations.SetBlend : Prop :=
  ∀ (tag : Byte) (holdOff : Word) (enabled stage : Byte) (temperature demand : Word) (s : State), s.mem.wf = true →
    Ready (.setBlend tag holdOff enabled stage temperature demand) s →
    let i := Instr.setBlend tag holdOff enabled stage temperature demand
    let inRange := (holdOff = 0 ∨ (100 ≤ holdOff.toNat ∧ holdOff.toNat ≤ 2000)) ∧ enabled.toNat ≤ 1 ∧
      (enabled = 1 → (1 ≤ stage.toNat ∧ stage.toNat ≤ 3) ∧ (100 ≤ temperature.toInt ∧ temperature.toInt ≤ 600) ∧
        (10 ≤ demand.toNat ∧ demand.toNat ≤ 500))
    let new : BlendSettings :=
      if enabled = 1 then
        { holdOff := chosen 500 holdOff.toNat, assistEnabled := true, assistStage := stage.toNat
          assistTemperature := temperature.toInt, assistDemand := demand.toNat }
      else { holdOff := chosen 500 holdOff.toNat, assistEnabled := false, assistStage := 0, assistTemperature := 0
             assistDemand := 0 }
    let shown := fun b : BlendSettings =>
      le16 (BitVec.ofNat 16 b.holdOff) ++ [if b.assistEnabled then 1 else 0, BitVec.ofNat 8 b.assistStage]
        ++ le16 (BitVec.ofInt 16 b.assistTemperature) ++ le16 (BitVec.ofNat 16 b.assistDemand)
    (¬inRange → AnsweredAtOnce i s s 0x60 tag .refusedRange (shown s.rbu.settings)) ∧
    (inRange → exec i s = .next (respond 0x60 tag .done (shown new) (retarderShown s.rbu
      { countTake s with rbu := formedRetarder { s with rbu := { s.rbu with settings := new } } })))

/-! ### Lanes and registers (chapter 9) -/

/-- The signalling writes (R163, R166): on a HALTED lane the count is stored and nothing more; else a post event accepts the
fill offset, or faults with BAD_OFFSET, and a give-back accepts drain and count, or faults by the first check that fails. A
fault halts the lane and hands LANE_FAULT over (R167). An accepted post event or response-lane give-back that brings the
condition to TAKING makes the first take (R175); while it is TAKING already, the take due next stays a command of its own
(log 5). -/
def Obligations.SignallingWrites : Prop :=
  (∀ (v : Word) (s : State), s.held = none →
    let q := { s.lnc.request with posted := v }
    let put := fun x : Lane => { s with lnc := { s.lnc with request := x } }
    let valid := q.fill.toNat % 4 = 0 ∧ q.fill.toNat ≤ 2044
    (q.fault ≠ none → exec (.postEvent v) s = .next (put q)) ∧
    (q.fault = none → valid → ∃ t, Resumes s (put { q with accFill := q.fill }) t ∧ exec (.postEvent v) s = .next t) ∧
    (q.fault = none → ¬valid → exec (.postEvent v) s =
      .next (raiseEvent .laneFault 0 5 q.fill.toNat (put { q with fault := some .badOffset })))) ∧
  ∀ (r : ReportLane) (v : Word) (s : State), s.held = none →
    let frame := match r with
      | .response | .event => 16
      | .episode => 32
    let size := match r with
      | .response => 1024
      | .event => 2048
      | .episode => 10240
    let number : Byte := match r with
      | .response => 1
      | .event => 2
      | .episode => 3
    let l := { s.lane r.lane with taken := v }
    let put := fun x : Lane => s.setLane r.lane x
    let a := (v - l.accTaken).toNat
    let valid := l.drain.toNat % frame = 0 ∧ l.drain.toNat + frame ≤ size
    let together := l.drain.toNat = (l.accDrain.toNat + a * frame) % size
    let halted := fun (f : LaneFault) (code : Nat) =>
      exec (.giveBack r v) s = .next (raiseEvent .laneFault number code l.drain.toNat (put { l with fault := some f }))
    (l.fault ≠ none → exec (.giveBack r v) s = .next (put l)) ∧
    (l.fault = none → ¬valid → halted .badOffset 5) ∧
    (l.fault = none → valid → (l.posted - l.accTaken).toNat < a → halted .countMismatch 4) ∧
    (l.fault = none → valid → a ≤ (l.posted - l.accTaken).toNat → ¬together → halted .badOffset 5) ∧
    (l.fault = none → valid → a ≤ (l.posted - l.accTaken).toNat → together →
      let given := put { l with accDrain := l.drain, accTaken := v }
      (r ≠ .response → exec (.giveBack r v) s = .next given) ∧
      (r = .response → ∃ t, Resumes s given t ∧ exec (.giveBack r v) s = .next t))

/-- The taking condition (R174, R176) and the examination at the drain (R164): nothing happens unless the condition is
TAKING; then a wrap marker above offset 0 moves the drain to 0, a finding halts the lane with LANE_FAULT at the drain
(R167), and a whole frame stands ready to be taken. A take makes the examination first (R175 step 1). -/
def Obligations.Examination : Prop :=
  ∀ s : State,
    let q := s.lnc.request
    let length := (s.requestByte 0).toNat
    let kind := s.requestByte 1
    let occupied := (q.accFill.toNat + 2048 - q.drain.toNat) % 2048
    let free := (1024 - (s.lnc.response.fill.toNat + 1024 - s.lnc.response.accDrain.toNat) % 1024) / 16 - 1
    let running := q.fault = none ∧ s.lnc.response.fault = none
    let fault := fun (f : LaneFault) (code : Nat) => examineRequests s =
      raiseEvent .laneFault 0 code q.drain.toNat { s with lnc := { s.lnc with request := { q with fault := some f } } }
    let taking := running ∧ q.taken ≠ q.posted ∧ s.lnc.owed < free
    (s.lnc.response.accDrain.toNat < 1024 → (s.lnc.taking = .taking ↔ taking)) ∧
    (s.lnc.taking = .blocked ↔ ¬running) ∧
    (s.lnc.taking = .waiting ↔ running ∧ q.taken = q.posted) ∧
    (s.lnc.taking ≠ .taking → examineRequests s = s ∧ s.readyRequest = none) ∧
    (s.lnc.taking = .taking → q.drain.toNat < 2048 →
      (q.drain = q.accFill → fault .countMismatch 4) ∧
      (q.drain ≠ q.accFill → length = 0 → kind ≠ 0 ∨ q.drain = 0 → fault .badLength 1) ∧
      (q.drain ≠ q.accFill → length = 0 → kind = 0 → q.drain ≠ 0 →
        examineRequests s = examineRequests { s with lnc := { s.lnc with request := { q with drain := 0 } } }) ∧
      (q.drain ≠ q.accFill → length ≠ 0 → 2048 < q.drain.toNat + 4 * length → fault .pastEnd 2) ∧
      (q.drain ≠ q.accFill → length ≠ 0 → q.drain.toNat + 4 * length ≤ 2048 → occupied < 4 * length →
        fault .pastFill 3) ∧
      (q.drain ≠ q.accFill → length ≠ 0 → q.drain.toNat + 4 * length ≤ 2048 → 4 * length ≤ occupied →
        examineRequests s = s ∧ s.readyRequest = some (decodeFrame s.requestByte))) ∧
    ∀ i : Instr, s.held = none → i.isRequest = true → (examineRequests s).readyRequest = some i →
      Ready i (examineRequests s) ∧ exec i s = exec i (examineRequests s)

/-- A lane restart (R159, R168, R179), one lane after another: of every lane named, counts, offsets, accepted copies and gap
counter are 0, the lane is RUNNING, its threshold kept. Into a restarted response lane the holdback is written from head to
tail, each frame lowering the owed count; then the condition is formed again, and the first take is made where it becomes
TAKING (R175; log 5), before the event and the episode lane are restarted. -/
def Obligations.LaneRestart : Prop :=
  ∀ (lanes : BitVec 4) (s : State), s.held = none → s.mem.wf = true →
    (lanes[1] = true → (∀ f ∈ s.lnc.holdback, f.length = 16) ∧ s.lnc.holdback.length ≤ 63) →
    let restarted := fun (named : Bool) (l : Lane) => if named then { threshold := l.threshold } else l
    let first := { s with lnc := { s.lnc with request := restarted lanes[0] s.lnc.request } }
    let n := s.lnc.holdback.length
    let response : Lane :=
      { threshold := s.lnc.response.threshold, fill := BitVec.ofNat 16 (16 * n), posted := BitVec.ofNat 16 n }
    ∃ second : State,
      (lanes[1] = false → second = first) ∧
      (lanes[1] = true → ∃ m,
        Resumes first { first with
          lnc := { first.lnc with response := response, holdback := [], owed := s.lnc.owed - n }, mem := m } second ∧
        (∀ k, k < n → HoldsAt m (0xC00 + 16 * k) (s.lnc.holdback.getD k [])) ∧
        (n ≠ 0 → m.word 0x62 = BitVec.ofNat 16 (s.lnc.owed - n) ∧ HoldsAt m 0x64 (le32 s.stamp)) ∧
        m.word 0x40 = s.mem.word 0x40 + BitVec.ofNat 16 (2 * n) ∧
        KeepsOutside [(0xC00, 16 * n), (0x40, 2), (0x62, 6)] s.mem m ∧ (n = 0 → m = s.mem)) ∧
      exec (.laneRestart lanes) s = .next { second with lnc := { second.lnc with
        event := restarted lanes[2] second.lnc.event
        episode := restarted lanes[3] second.lnc.episode
        eventGap := if lanes[2] then 0 else second.lnc.eventGap
        episodeGap := if lanes[3] then 0 else second.lnc.episodeGap } }

/-- The registers (R159, R160, R169): a threshold, a cleared collision flag and the enables are stored, enables without a
status bit reading 0 (11.10); the status bits follow their conditions and ATTN is low exactly while an enabled one is set and
no reset is held; the run control register reads armed and class, the identity register 0x4610. A lane header's eight words
read as R161 and 11.2 give them, every other listed word as its two bytes, low byte first, and an unlisted one 0 (R157). -/
def Obligations.Registers : Prop :=
  ∀ s : State,
    let effective := fun t : Word => if t = 0 then 1 else min 255 t.toNat
    let pending := fun l : Lane => effective l.threshold ≤ (l.posted - l.accTaken).toNat
    let status := s.hostRead 0x4004
    (s.held = none →
      (∀ (id : LaneId) (t : Word), exec (.thresholdWrite id t) s =
        .next (s.setLane id { s.lane id with threshold := t })) ∧
      exec .collisionClear s = .next { s with lnc := { s.lnc with collision := false } } ∧
      ∀ v : Word, exec (.attentionEnableWrite v) s =
        .next { s with lnc := { s.lnc with enables := v &&& 0x01F7 } }) ∧
    (status[0] = true ↔ pending s.lnc.response) ∧ (status[1] = true ↔ pending s.lnc.event) ∧
    (status[2] = true ↔ pending s.lnc.episode) ∧ (status[4] = true ↔ s.lnc.request.fault ≠ none) ∧
    (status[5] = true ↔ s.lnc.response.fault ≠ none) ∧ (status[6] = true ↔ s.lnc.event.fault ≠ none) ∧
    (status[7] = true ↔ s.lnc.episode.fault ≠ none) ∧ status[8] = s.lnc.collision ∧
    status &&& 0x01F7 = status ∧ s.hostRead 0x4006 = s.lnc.enables ∧
    (s.attnLow = true ↔ s.held = none ∧ ∃ k : Fin 16, status[k] = true ∧ (s.lnc.enables)[k] = true) ∧
    s.hostRead 0x4000 = 0x4610 ∧ (s.hostRead 0x4002)[0] = s.reg.armed ∧
    (s.hostRead 0x4002).extractLsb' 8 2 = s.smn.cls.code.setWidth 2 ∧
    s.hostRead 0x4002 &&& 0x0301 = s.hostRead 0x4002 ∧
    (∀ (id : LaneId) (number size : Nat),
      (id, number, size) ∈ [(LaneId.request, 0, 2048), (.response, 1, 1024), (.event, 2, 2048), (.episode, 3, 10240)] →
      let l := s.lane id
      let reads := fun (offset : Nat) (w : Word) => s.hostRead (16 * number + offset) = w
      reads 0 l.fill ∧ reads 2 l.posted ∧ reads 4 l.drain ∧ reads 6 l.taken ∧
        reads 8 (if l.fault = none then 0 else 1) ∧
        reads 10 (match l.fault with
          | none => 0
          | some .badLength => 1
          | some .pastEnd => 2
          | some .pastFill => 3
          | some .countMismatch => 4
          | some .badOffset => 5) ∧
        reads 12 (BitVec.ofNat 16 size) ∧ reads 14 l.threshold) ∧
    ∀ a : Nat, a % 2 = 0 →
      ((0x40 ≤ a ∧ a < 0x1C0) ∨ (0x200 ≤ a ∧ a < 0x2C0) ∨ (0x300 ≤ a ∧ a < 0x3E0) ∨ (0x400 ≤ a ∧ a < 0x4000) →
        s.hostRead a = s.mem.read (a + 1) ++ s.mem.read a) ∧
      ((0x1C0 ≤ a ∧ a < 0x200) ∨ (0x2C0 ≤ a ∧ a < 0x300) ∨ (0x3E0 ≤ a ∧ a < 0x400) → s.hostRead a = 0)

/-- A host write of a word (R157 to R161): stored in the request area and in the host's header words; a collision in the
part's words; ignored in the identity register and in unlisted words; a signalling word or a register acts as its own
command does. An address that names no word stops the model (the model's choice, log 13). -/
def Obligations.HostWordWrite : Prop :=
  ∀ (a v : Word) (s : State), s.held = none → s.mem.wf = true →
    let n := a.toNat
    let does := fun t : State => exec (.hostWordWrite a v) s = .next t
    let acts := fun c : Instr => exec (.hostWordWrite a v) s = exec c s
    let collision := { s with lnc := { s.lnc with collision := true } }
    let between := fun lo hi : Nat => lo ≤ n ∧ n < hi
    (n % 2 = 1 ∨ 0x4006 < n → exec (.hostWordWrite a v) s = .fault .noSuchWord) ∧
    (n % 2 = 0 →
      (between 0x400 0xC00 → ∃ m, does { s with mem := m } ∧ HoldsAt m n (le16 v) ∧ KeepsOutside [(n, 2)] s.mem m) ∧
      (between 0x40 0x1C0 ∨ between 0x200 0x2C0 ∨ between 0x300 0x3E0 ∨ between 0xC00 0x4000 → does collision) ∧
      (between 0x1C0 0x200 ∨ between 0x2C0 0x300 ∨ between 0x3E0 0x400 ∨ n = 0x4000 → does s) ∧
      (n < 0x40 → n % 16 = 8 ∨ n % 16 = 10 ∨ n % 16 = 12 → does collision) ∧
      (n = 0x04 ∨ n = 0x06 ∨ n = 0x10 ∨ n = 0x12 ∨ n = 0x20 ∨ n = 0x22 ∨ n = 0x30 ∨ n = 0x32 → does collision) ∧
      (n = 0x00 → does { s with lnc := { s.lnc with request := { s.lnc.request with fill := v } } }) ∧
      (n = 0x14 → does { s with lnc := { s.lnc with response := { s.lnc.response with drain := v } } }) ∧
      (n = 0x24 → does { s with lnc := { s.lnc with event := { s.lnc.event with drain := v } } }) ∧
      (n = 0x34 → does { s with lnc := { s.lnc with episode := { s.lnc.episode with drain := v } } }) ∧
      (n = 0x02 → acts (.postEvent v)) ∧ (n = 0x16 → acts (.giveBack .response v)) ∧
      (n = 0x26 → acts (.giveBack .event v)) ∧ (n = 0x36 → acts (.giveBack .episode v)) ∧
      (n = 0x0E → acts (.thresholdWrite .request v)) ∧ (n = 0x1E → acts (.thresholdWrite .response v)) ∧
      (n = 0x2E → acts (.thresholdWrite .event v)) ∧ (n = 0x3E → acts (.thresholdWrite .episode v)) ∧
      (n = 0x4002 → v[15] = true → acts .softReset) ∧
      (n = 0x4002 → v[15] = false → v.extractLsb' 0 4 ≠ 0 → acts (.laneRestart (v.extractLsb' 0 4))) ∧
      (n = 0x4002 → v[15] = false → v.extractLsb' 0 4 = 0 → does s) ∧
      (n = 0x4004 → v[8] = true → acts .collisionClear) ∧ (n = 0x4004 → v[8] = false → does s) ∧
      (n = 0x4006 → acts (.attentionEnableWrite v)))

/-! ### Requests, responses and reports (chapter 10) -/

/-- IDENTIFY answers DONE with the part's fixed figures and the reset cause (R180). A frame of no kind of the catalogue is
answered UNKNOWN_KIND, one of a length its kind does not require BAD_LENGTH, with its kind and length (R177). -/
def Obligations.IdentifyAndJudgement : Prop :=
  (∀ (tag : Byte) (s : State), s.mem.wf = true → Ready (.identify tag) s →
    AnsweredAtOnce (.identify tag) s s 0x01 tag .done [0x10, 0x46, 1, s.lnc.cause.code, 6, 6, 4, 6, 8, 4, 8, 40]) ∧
  ∀ (kind length tag : Byte) (s : State), s.mem.wf = true → Ready (.unknownKind kind length tag) s →
    let kinds : List Byte :=
      [0x01, 0x02, 0x03, 0x04, 0x10, 0x11, 0x12, 0x20, 0x21, 0x28, 0x29, 0x30, 0x31, 0x40, 0x41, 0x42, 0x50, 0x60]
    AnsweredAtOnce (.unknownKind kind length tag) s s kind tag
      (if kind ∈ kinds then .badLength else .unknownKind) [kind, length]

/-- What the Lane Controller does with a frame handed over: an event or an episode record is written at the fill with the
gap count, or skipped and counted to 255 (R165, R181 to R183); a response is written and the owed count falls, or waits in
the holdback, still owed (R178, R179); a take counts its request as owed (R174). -/
def Obligations.FramesHandedOver : Prop :=
  ∀ s : State, s.mem.wf = true →
    let present := fun (size frame : Nat) (l : Lane) => (l.fill.toNat + size - l.accDrain.toNat) % size / frame
    let room := fun (size frame : Nat) (l : Lane) => l.fault = none ∧ present size frame l < size / frame - 1
    let grown := fun (size frame : Nat) (l : Lane) => { l with
      fill := if l.fill.toNat + frame = size then 0 else l.fill + BitVec.ofNat 16 frame, posted := l.posted + 1 }
    (∀ (k : EventKind) (subject : Byte) (v w : Int), s.lnc.event.accDrain.toNat < 2048 →
      (room 2048 16 s.lnc.event → ∃ m,
        raiseEvent k subject v w s =
          { s with lnc := { s.lnc with event := grown 2048 16 s.lnc.event, eventGap := 0 }, mem := m } ∧
        HoldsAt m (0x1000 + s.lnc.event.fill.toNat) ([4, k.code, BitVec.ofNat 8 s.lnc.eventGap, subject] ++ le32 s.stamp
          ++ le32 (BitVec.ofInt 32 v) ++ le32 (BitVec.ofInt 32 w)) ∧
        KeepsOutside [(0x1000 + s.lnc.event.fill.toNat, 16)] s.mem m) ∧
      (¬room 2048 16 s.lnc.event →
        raiseEvent k subject v w s = { s with lnc := { s.lnc with eventGap := min 255 (s.lnc.eventGap + 1) } })) ∧
    (∀ body : List Byte, body.length = 28 → s.lnc.episode.accDrain.toNat < 10240 →
      (room 10240 32 s.lnc.episode → ∃ m,
        raiseEpisode body s =
          { s with lnc := { s.lnc with episode := grown 10240 32 s.lnc.episode, episodeGap := 0 }, mem := m } ∧
        HoldsAt m (0x1800 + s.lnc.episode.fill.toNat) ([8, 0x70, BitVec.ofNat 8 s.lnc.episodeGap, 0] ++ body) ∧
        KeepsOutside [(0x1800 + s.lnc.episode.fill.toNat, 32)] s.mem m) ∧
      (¬room 10240 32 s.lnc.episode →
        raiseEpisode body s = { s with lnc := { s.lnc with episodeGap := min 255 (s.lnc.episodeGap + 1) } })) ∧
    (∀ (kind tag : Byte) (status : Status) (result : List Byte), s.lnc.response.accDrain.toNat < 1024 →
      result.length ≤ 12 →
      let frame := [4, kind + 0x80, tag, status.code] ++ result ++ List.replicate (12 - result.length) 0
      (room 1024 16 s.lnc.response → ∃ m,
        respond kind tag status result s = { s with
          lnc := { s.lnc with response := grown 1024 16 s.lnc.response, owed := s.lnc.owed - 1 }, mem := m } ∧
        HoldsAt m (responseSlot s) frame ∧ m.word 0x62 = BitVec.ofNat 16 (s.lnc.owed - 1) ∧
        KeepsOutside [(responseSlot s, 16), (0x40, 2), (0x62, 6)] s.mem m) ∧
      (¬room 1024 16 s.lnc.response →
        respond kind tag status result s = { s with lnc := { s.lnc with holdback := s.lnc.holdback ++ [frame] } })) ∧
    ∃ m,
      countTake s = { s with
        lnc := { s.lnc with request := (answeredLanes s).request, owed := s.lnc.owed + 1 }, mem := m } ∧
      m.word 0x40 = s.mem.word 0x40 + 2 ∧ m.word 0x62 = BitVec.ofNat 16 (s.lnc.owed + 1) ∧
      HoldsAt m 0x64 (le32 s.stamp) ∧ KeepsOutside [(0x40, 2), (0x62, 6)] s.mem m

/-- The resets (R172, R184): a reset of a running part leaves every block at its reset values with the cause in the status
block; one that arrives while a reset is held changes nothing; the release writes STARTED, stamp 0 and gap 0, first in the
event lane. The model's choices: a soft reset is left at once, has no effect while another reset is held, and a release
without a reset does nothing (log 6); memory other than the status block reads 0 (log 7); the queue, the draws and the
lever's pins stand, and `State.reset` is the part right after a power-on's release (log 8); the origin of every drum's latest
result is SCAN (log 9); the measurement counter and the time base are 0 (log 24). -/
def Obligations.Resets : Prop :=
  ∀ s : State,
    let pins : RetarderUnit := { input1 := s.rbu.input1, input2 := s.rbu.input2 }
    let held := fun (cause : ResetCause) (m : Memory) =>
      ({ held := some cause, rbu := pins, lnc := { cause := cause }, mem := m, draws := s.draws, pending := s.pending } :
        State)
    let block := fun code : Byte =>
      [0, 0, code, 0, 0, 0, 1, 0, 0, 0, 0xF4, 0x01, 14, 0, 9, 0, 30, 0, 0x26, 0x02, 0, 0, 0, 0, 0, 0, 2, 0, 0, 0, 0, 0,
        0, 0, 0, 0, 0, 0, 0, 0]
    (s.held = none → ∀ c cause, (c, cause) ∈ [(Instr.powerOnReset, ResetCause.power), (.resetPin, .pin)] → ∃ m,
      exec c s = .next (held cause m) ∧ m.wf = true ∧ HoldsAt m 0x40 (block cause.code) ∧
        ∀ a, a < 0x40 ∨ 0x68 ≤ a → m.read a = 0) ∧
    (s.held = none → ∃ m,
      exec .softReset s =
        .next { held .soft m with held := none, lnc := { cause := .soft, event := { fill := 16, posted := 1 } } } ∧
      HoldsAt m 0x40 (block 3) ∧ HoldsAt m 0x1000 [4, 1, 0, 3, 0, 0, 0, 0, 0, 0, 0, 0, 0, 0, 0, 0] ∧
      ∀ a, a < 0x40 ∨ (0x68 ≤ a ∧ a < 0x1000) ∨ 0x1010 ≤ a → m.read a = 0) ∧
    (s.held ≠ none → exec .powerOnReset s = .next s ∧ exec .resetPin s = .next s ∧ exec .softReset s = .next s) ∧
    (s.held = none → exec .resetRelease s = .next s) ∧
    (∀ cause, s.held = some cause →
      exec .resetRelease s = .next (raiseEvent .started cause.code 0 0 { s with held := none })) ∧
    (s.held = none → ∀ t, exec .powerOnReset s = .next t → exec .resetRelease t = .next { State.reset with
      rbu := pins, draws := s.draws, pending := s.pending })

/-! ### Request frames (11.3, 11.4) -/

/-- Every well-formed request is read back from its frame, every field at every value, and its frame is as long as its head
says in 4-byte units (but for a head the judgement of R177 refuses). -/
def Obligations.FrameRoundTrip : Prop :=
  ∀ i : Instr, i.isRequest = true → WellFormed i = true →
    decodeFrame (frameByte (encodeFrame i)) = i ∧
      ((∀ k n t, i ≠ .unknownKind k n t) → (encodeFrame i).length = 4 * (frameByte (encodeFrame i) 0).toNat)

/-! ### What every step keeps -/

/-- The exchange memory keeps its canonical form at every step. -/
def Obligations.MemoryForm : Prop := ∀ s t : State, s.mem.wf = true → step s = .next t → t.mem.wf = true

/-- Every wheel's entry goes on hanging together (R1, R9, R16, R18). -/
def Obligations.WheelsKept : Prop := ∀ s t : State, WheelsSound s → step s = .next t → WheelsSound t

/-- Every channel goes on hanging together: outputs by its state and phase (R48, R86), timers, activity, cause, episode and
staged profile exactly where they may stand (R47, R51, R71, R77). -/
def Obligations.ChannelsKept : Prop := ∀ s t : State, ChannelsSound s → step s = .next t → ChannelsSound t

/-- Channels act only where they may (R42, R67, R68, R89, R90): none regulates or tests while the class is CRITICAL, none
passes or regulates while the part is disarmed, none tests while vref is above 0. -/
def Obligations.EngagementKept : Prop :=
  ∀ s t : State, ChannelsSound s → Engagement s → step s = .next t → Engagement t

/-- The retarder stays within what R70 and R146 to R152 allow: the cut is raised exactly while a drive-axle channel
regulates, the output stands at or below the allowed stage, 0 while withheld or CRITICAL, at most 1 while LOW. -/
def Obligations.RetarderKept : Prop :=
  ∀ s t : State, ChannelsSound s → RetarderSafe s → step s = .next t → RetarderSafe t

/-- The pressure inputs go on hanging together (R99, R100, R103, R104): validity, counts and held value agree, no two inputs
hold one role, an input is UNUSED exactly while it is off the list. -/
def Obligations.PressureKept : Prop := ∀ s t : State, PressureSound s → step s = .next t → PressureSound t

/-- The measurement queue goes on hanging together (R112, R114, R121, R127): one entry a drum, none for the drum in flight,
at most four tags, every drum of it enabled; the hottest drum is that of the results. -/
def Obligations.DrumsKept : Prop := ∀ s t : State, DrumsSound s → step s = .next t → DrumsSound t

/-- Every request taken is owed one response until it is written (R174, R176, R179): the owed count is that of the running
tests, the waiting tags and the holdback, and never exceeds the free slots with the holdback, nor 63. A tag joins one entry
only where a drum is queued at most once (R121). -/
def Obligations.ReservationKept : Prop :=
  ∀ s t : State, ChannelsSound s → DrumsSound s → ReservationSound s → step s = .next t → ReservationSound t

/-- The part as it leaves a power-on reset meets every invariant. -/
def Obligations.InvariantsAtReset : Prop :=
  State.reset.mem.wf = true ∧ WheelsSound State.reset ∧ ChannelsSound State.reset ∧ Engagement State.reset ∧
    RetarderSafe State.reset ∧ PressureSound State.reset ∧ DrumsSound State.reset ∧ ReservationSound State.reset
end

