-- ==== Sys2Proof/Laws/State.lean ====
section
/-! SUPPORT. One lemma per field per update of the state, so that no later proof unfolds a record update. -/

namespace Sys2Proof.Machine

/-! ### setWheel -/

@[simp] theorem State.setWheel_clock (w : Fin 6) (x : Wheel) (s : State) :
    (s.setWheel w x).clock = s.clock := rfl
@[simp] theorem State.setWheel_held (w : Fin 6) (x : Wheel) (s : State) :
    (s.setWheel w x).held = s.held := rfl
@[simp] theorem State.setWheel_wheels (w : Fin 6) (x : Wheel) (s : State) :
    (s.setWheel w x).wheels = s.wheels.set w x := rfl
@[simp] theorem State.setWheel_reg (w : Fin 6) (x : Wheel) (s : State) :
    (s.setWheel w x).reg = s.reg := rfl
@[simp] theorem State.setWheel_channels (w : Fin 6) (x : Wheel) (s : State) :
    (s.setWheel w x).channels = s.channels := rfl
@[simp] theorem State.setWheel_pcu (w : Fin 6) (x : Wheel) (s : State) :
    (s.setWheel w x).pcu = s.pcu := rfl
@[simp] theorem State.setWheel_dtu (w : Fin 6) (x : Wheel) (s : State) :
    (s.setWheel w x).dtu = s.dtu := rfl
@[simp] theorem State.setWheel_smn (w : Fin 6) (x : Wheel) (s : State) :
    (s.setWheel w x).smn = s.smn := rfl
@[simp] theorem State.setWheel_rbu (w : Fin 6) (x : Wheel) (s : State) :
    (s.setWheel w x).rbu = s.rbu := rfl
@[simp] theorem State.setWheel_lnc (w : Fin 6) (x : Wheel) (s : State) :
    (s.setWheel w x).lnc = s.lnc := rfl
@[simp] theorem State.setWheel_mem (w : Fin 6) (x : Wheel) (s : State) :
    (s.setWheel w x).mem = s.mem := rfl
@[simp] theorem State.setWheel_draws (w : Fin 6) (x : Wheel) (s : State) :
    (s.setWheel w x).draws = s.draws := rfl
@[simp] theorem State.setWheel_pending (w : Fin 6) (x : Wheel) (s : State) :
    (s.setWheel w x).pending = s.pending := rfl

/-! ### setChannel -/

@[simp] theorem State.setChannel_clock (c : Fin 6) (x : Channel) (s : State) :
    (s.setChannel c x).clock = s.clock := rfl
@[simp] theorem State.setChannel_held (c : Fin 6) (x : Channel) (s : State) :
    (s.setChannel c x).held = s.held := rfl
@[simp] theorem State.setChannel_wheels (c : Fin 6) (x : Channel) (s : State) :
    (s.setChannel c x).wheels = s.wheels := rfl
@[simp] theorem State.setChannel_reg (c : Fin 6) (x : Channel) (s : State) :
    (s.setChannel c x).reg = s.reg := rfl
@[simp] theorem State.setChannel_channels (c : Fin 6) (x : Channel) (s : State) :
    (s.setChannel c x).channels = s.channels.set c x := rfl
@[simp] theorem State.setChannel_pcu (c : Fin 6) (x : Channel) (s : State) :
    (s.setChannel c x).pcu = s.pcu := rfl
@[simp] theorem State.setChannel_dtu (c : Fin 6) (x : Channel) (s : State) :
    (s.setChannel c x).dtu = s.dtu := rfl
@[simp] theorem State.setChannel_smn (c : Fin 6) (x : Channel) (s : State) :
    (s.setChannel c x).smn = s.smn := rfl
@[simp] theorem State.setChannel_rbu (c : Fin 6) (x : Channel) (s : State) :
    (s.setChannel c x).rbu = s.rbu := rfl
@[simp] theorem State.setChannel_lnc (c : Fin 6) (x : Channel) (s : State) :
    (s.setChannel c x).lnc = s.lnc := rfl
@[simp] theorem State.setChannel_mem (c : Fin 6) (x : Channel) (s : State) :
    (s.setChannel c x).mem = s.mem := rfl
@[simp] theorem State.setChannel_draws (c : Fin 6) (x : Channel) (s : State) :
    (s.setChannel c x).draws = s.draws := rfl
@[simp] theorem State.setChannel_pending (c : Fin 6) (x : Channel) (s : State) :
    (s.setChannel c x).pending = s.pending := rfl

/-! ### setDrum -/

@[simp] theorem State.setDrum_clock (d : Fin 6) (x : Drum) (s : State) :
    (s.setDrum d x).clock = s.clock := rfl
@[simp] theorem State.setDrum_held (d : Fin 6) (x : Drum) (s : State) :
    (s.setDrum d x).held = s.held := rfl
@[simp] theorem State.setDrum_wheels (d : Fin 6) (x : Drum) (s : State) :
    (s.setDrum d x).wheels = s.wheels := rfl
@[simp] theorem State.setDrum_reg (d : Fin 6) (x : Drum) (s : State) :
    (s.setDrum d x).reg = s.reg := rfl
@[simp] theorem State.setDrum_channels (d : Fin 6) (x : Drum) (s : State) :
    (s.setDrum d x).channels = s.channels := rfl
@[simp] theorem State.setDrum_pcu (d : Fin 6) (x : Drum) (s : State) :
    (s.setDrum d x).pcu = s.pcu := rfl
@[simp] theorem State.setDrum_dtu (d : Fin 6) (x : Drum) (s : State) :
    (s.setDrum d x).dtu = { s.dtu with drums := s.dtu.drums.set d x } := rfl
@[simp] theorem State.setDrum_smn (d : Fin 6) (x : Drum) (s : State) :
    (s.setDrum d x).smn = s.smn := rfl
@[simp] theorem State.setDrum_rbu (d : Fin 6) (x : Drum) (s : State) :
    (s.setDrum d x).rbu = s.rbu := rfl
@[simp] theorem State.setDrum_lnc (d : Fin 6) (x : Drum) (s : State) :
    (s.setDrum d x).lnc = s.lnc := rfl
@[simp] theorem State.setDrum_mem (d : Fin 6) (x : Drum) (s : State) :
    (s.setDrum d x).mem = s.mem := rfl
@[simp] theorem State.setDrum_draws (d : Fin 6) (x : Drum) (s : State) :
    (s.setDrum d x).draws = s.draws := rfl
@[simp] theorem State.setDrum_pending (d : Fin 6) (x : Drum) (s : State) :
    (s.setDrum d x).pending = s.pending := rfl

/-! ### setLane -/

@[simp] theorem State.setLane_clock (id : LaneId) (x : Lane) (s : State) :
    (s.setLane id x).clock = s.clock := rfl
@[simp] theorem State.setLane_held (id : LaneId) (x : Lane) (s : State) :
    (s.setLane id x).held = s.held := rfl
@[simp] theorem State.setLane_wheels (id : LaneId) (x : Lane) (s : State) :
    (s.setLane id x).wheels = s.wheels := rfl
@[simp] theorem State.setLane_reg (id : LaneId) (x : Lane) (s : State) :
    (s.setLane id x).reg = s.reg := rfl
@[simp] theorem State.setLane_channels (id : LaneId) (x : Lane) (s : State) :
    (s.setLane id x).channels = s.channels := rfl
@[simp] theorem State.setLane_pcu (id : LaneId) (x : Lane) (s : State) :
    (s.setLane id x).pcu = s.pcu := rfl
@[simp] theorem State.setLane_dtu (id : LaneId) (x : Lane) (s : State) :
    (s.setLane id x).dtu = s.dtu := rfl
@[simp] theorem State.setLane_smn (id : LaneId) (x : Lane) (s : State) :
    (s.setLane id x).smn = s.smn := rfl
@[simp] theorem State.setLane_rbu (id : LaneId) (x : Lane) (s : State) :
    (s.setLane id x).rbu = s.rbu := rfl
@[simp] theorem State.setLane_lnc (id : LaneId) (x : Lane) (s : State) :
    (s.setLane id x).lnc = s.lnc.setLane id x := rfl
@[simp] theorem State.setLane_mem (id : LaneId) (x : Lane) (s : State) :
    (s.setLane id x).mem = s.mem := rfl
@[simp] theorem State.setLane_draws (id : LaneId) (x : Lane) (s : State) :
    (s.setLane id x).draws = s.draws := rfl
@[simp] theorem State.setLane_pending (id : LaneId) (x : Lane) (s : State) :
    (s.setLane id x).pending = s.pending := rfl

/-! ### store -/

@[simp] theorem State.store_clock (a : Nat) (bytes : List Byte) (s : State) :
    (s.store a bytes).clock = s.clock := rfl
@[simp] theorem State.store_held (a : Nat) (bytes : List Byte) (s : State) :
    (s.store a bytes).held = s.held := rfl
@[simp] theorem State.store_wheels (a : Nat) (bytes : List Byte) (s : State) :
    (s.store a bytes).wheels = s.wheels := rfl
@[simp] theorem State.store_reg (a : Nat) (bytes : List Byte) (s : State) :
    (s.store a bytes).reg = s.reg := rfl
@[simp] theorem State.store_channels (a : Nat) (bytes : List Byte) (s : State) :
    (s.store a bytes).channels = s.channels := rfl
@[simp] theorem State.store_pcu (a : Nat) (bytes : List Byte) (s : State) :
    (s.store a bytes).pcu = s.pcu := rfl
@[simp] theorem State.store_dtu (a : Nat) (bytes : List Byte) (s : State) :
    (s.store a bytes).dtu = s.dtu := rfl
@[simp] theorem State.store_smn (a : Nat) (bytes : List Byte) (s : State) :
    (s.store a bytes).smn = s.smn := rfl
@[simp] theorem State.store_rbu (a : Nat) (bytes : List Byte) (s : State) :
    (s.store a bytes).rbu = s.rbu := rfl
@[simp] theorem State.store_lnc (a : Nat) (bytes : List Byte) (s : State) :
    (s.store a bytes).lnc = s.lnc := rfl
@[simp] theorem State.store_mem (a : Nat) (bytes : List Byte) (s : State) :
    (s.store a bytes).mem = s.mem.writeAll a bytes := rfl
@[simp] theorem State.store_draws (a : Nat) (bytes : List Byte) (s : State) :
    (s.store a bytes).draws = s.draws := rfl
@[simp] theorem State.store_pending (a : Nat) (bytes : List Byte) (s : State) :
    (s.store a bytes).pending = s.pending := rfl

/-! ### Entries of a vector after an update -/

/-- The entry of a wheel after a wheel is set. -/
theorem State.setWheel_get (w v : Fin 6) (x : Wheel) (s : State) :
    (s.setWheel w x).wheels[v] = if v = w then x else s.wheels[v] := by
  simp [Vector.getElem_set, Fin.ext_iff, eq_comm]

/-- The entry of a channel after a channel is set. -/
theorem State.setChannel_get (c d : Fin 6) (x : Channel) (s : State) :
    (s.setChannel c x).channels[d] = if d = c then x else s.channels[d] := by
  simp [Vector.getElem_set, Fin.ext_iff, eq_comm]

/-- The entry of a drum after a drum is set. -/
theorem State.setDrum_get (d e : Fin 6) (x : Drum) (s : State) :
    (s.setDrum d x).dtu.drums[e] = if e = d then x else s.dtu.drums[e] := by
  simp [Vector.getElem_set, Fin.ext_iff, eq_comm]

@[simp] theorem State.setWheel_self (w : Fin 6) (x : Wheel) (s : State) : (s.setWheel w x).wheels[w] = x := by
  simp

@[simp] theorem State.setChannel_self (c : Fin 6) (x : Channel) (s : State) : (s.setChannel c x).channels[c] = x := by
  simp

@[simp] theorem State.setDrum_self (d : Fin 6) (x : Drum) (s : State) : (s.setDrum d x).dtu.drums[d] = x := by
  simp

/-! ### Lanes -/

@[simp] theorem LaneController.setLane_lane (id : LaneId) (x : Lane) (l : LaneController) :
    (l.setLane id x).lane id = x := by
  cases id <;> rfl

/-- A lane other than the one set is kept. -/
theorem LaneController.setLane_lane_ne {id j : LaneId} (x : Lane) (l : LaneController) (h : j ≠ id) :
    (l.setLane id x).lane j = l.lane j := by
  cases id <;> cases j <;> first | rfl | exact absurd rfl h

@[simp] theorem LaneController.setLane_owed (id : LaneId) (x : Lane) (l : LaneController) :
    (l.setLane id x).owed = l.owed := by
  cases id <;> rfl

@[simp] theorem LaneController.setLane_holdback (id : LaneId) (x : Lane) (l : LaneController) :
    (l.setLane id x).holdback = l.holdback := by
  cases id <;> rfl

@[simp] theorem LaneController.setLane_eventGap (id : LaneId) (x : Lane) (l : LaneController) :
    (l.setLane id x).eventGap = l.eventGap := by
  cases id <;> rfl

@[simp] theorem LaneController.setLane_episodeGap (id : LaneId) (x : Lane) (l : LaneController) :
    (l.setLane id x).episodeGap = l.episodeGap := by
  cases id <;> rfl

@[simp] theorem LaneController.setLane_collision (id : LaneId) (x : Lane) (l : LaneController) :
    (l.setLane id x).collision = l.collision := by
  cases id <;> rfl

@[simp] theorem LaneController.setLane_enables (id : LaneId) (x : Lane) (l : LaneController) :
    (l.setLane id x).enables = l.enables := by
  cases id <;> rfl

@[simp] theorem LaneController.setLane_cause (id : LaneId) (x : Lane) (l : LaneController) :
    (l.setLane id x).cause = l.cause := by
  cases id <;> rfl

@[simp] theorem State.setLane_lane (id : LaneId) (x : Lane) (s : State) : (s.setLane id x).lane id = x := by
  simp [State.lane]

end Sys2Proof.Machine
end

