-- ==== Sys2Proof/Laws/Memory.lean ====
section
/-! SUPPORT. The laws of the exchange memory: reading after writing, and the canonical form under every write. -/

namespace Sys2Proof.Machine

/-! ### The canonical form -/

theorem Memory.wfFrom_cons {lo k : Nat} {b : Byte} {m : Memory} :
    Memory.wfFrom lo ((k, b) :: m) = true ↔ lo ≤ k ∧ b ≠ resetByte k ∧ Memory.wfFrom (k + 1) m = true := by
  simp [Memory.wfFrom, and_assoc]

/-- The form from a higher address is the form from a lower one. -/
theorem Memory.wfFrom_mono {lo hi : Nat} {m : Memory} (h : lo ≤ hi) (hm : Memory.wfFrom hi m = true) :
    Memory.wfFrom lo m = true := by
  cases m with
  | nil => rfl
  | cons e m => obtain ⟨k, b⟩ := e; rw [wfFrom_cons] at *; exact ⟨h.trans hm.1, hm.2⟩

/-- An address below every entry reads as an unlisted one. -/
theorem Memory.read_below {lo a : Nat} {m : Memory} (hm : Memory.wfFrom lo m = true) (h : a < lo) :
    m.read a = resetByte a := by
  cases m with
  | nil => rfl
  | cons e m => obtain ⟨k, b⟩ := e; rw [wfFrom_cons] at hm; simp [Memory.read, Nat.lt_of_lt_of_le h hm.1]

/-- A write at an address keeps the form from any address not above it. -/
theorem Memory.write_wfFrom {lo a : Nat} {b : Byte} {m : Memory} (hm : Memory.wfFrom lo m = true) (h : lo ≤ a) :
    Memory.wfFrom lo (m.write a b) = true := by
  induction m generalizing lo with
  | nil => by_cases hb : b = resetByte a <;> simp [Memory.write, Memory.wfFrom, hb, h]
  | cons e m ih =>
    obtain ⟨k, c⟩ := e
    rw [wfFrom_cons] at hm
    obtain ⟨h1, h2, h3⟩ := hm
    unfold Memory.write
    split_ifs with ha hb hk hb
    · exact wfFrom_cons.2 ⟨h1, h2, h3⟩
    · exact wfFrom_cons.2 ⟨h, hb, wfFrom_cons.2 ⟨ha, h2, h3⟩⟩
    · exact wfFrom_mono (h1.trans (Nat.le_succ k)) h3
    · subst hk; exact wfFrom_cons.2 ⟨h, hb, h3⟩
    · exact wfFrom_cons.2 ⟨h1, h2, ih h3 (by omega)⟩

/-- A write keeps the canonical form. -/
theorem Memory.write_wf {a : Nat} {b : Byte} {m : Memory} (hm : m.wf = true) : (m.write a b).wf = true :=
  write_wfFrom hm (Nat.zero_le a)

/-- Every write of a list of bytes keeps the canonical form. -/
theorem Memory.writeAll_wf {a : Nat} {bytes : List Byte} {m : Memory} (hm : m.wf = true) :
    (m.writeAll a bytes).wf = true := by
  induction bytes generalizing m a with
  | nil => exact hm
  | cons b bs ih => exact ih (write_wf hm)

/-- The memory after a reset has the canonical form. -/
theorem Memory.reset_wf : State.reset.mem.wf = true := by decide

/-! ### Reading after writing -/

/-- A byte read after a write: the byte written at its own address, every other byte as before. -/
theorem Memory.read_write_from {lo a x : Nat} {b : Byte} {m : Memory} (hm : Memory.wfFrom lo m = true) :
    (m.write a b).read x = if x = a then b else m.read x := by
  induction m generalizing lo with
  | nil => grind [Memory.write, Memory.read]
  | cons e m ih =>
    obtain ⟨k, c⟩ := e
    rw [wfFrom_cons] at hm
    obtain ⟨h1, h2, h3⟩ := hm
    have hlow : ∀ y, y < k + 1 → Memory.read m y = resetByte y := fun y hy => read_below h3 hy
    have hrec := ih h3
    grind [Memory.write, Memory.read]

/-- A byte read after a write into a memory of canonical form. -/
theorem Memory.read_write {a x : Nat} {b : Byte} {m : Memory} (hm : m.wf = true) :
    (m.write a b).read x = if x = a then b else m.read x :=
  read_write_from hm

/-- A byte read after a list of bytes was written: the byte of the list inside its span, every other byte as before. -/
theorem Memory.read_writeAll {a x : Nat} {bytes : List Byte} {m : Memory} (hm : m.wf = true) :
    (m.writeAll a bytes).read x = if a ≤ x ∧ x < a + bytes.length then bytes.getD (x - a) 0 else m.read x := by
  induction bytes generalizing m a with
  | nil => simp [Memory.writeAll]
  | cons b bs ih =>
    simp only [Memory.writeAll, ih (write_wf hm), read_write hm, List.length_cons]
    by_cases h1 : a + 1 ≤ x ∧ x < a + 1 + bs.length
    · have h2 : a ≤ x ∧ x < a + (bs.length + 1) := by omega
      have h3 : x - a = (x - (a + 1)) + 1 := by omega
      simp [h1, h2, h3]
    · by_cases h2 : x = a
      · subst h2; simp
      · have h3 : ¬(a ≤ x ∧ x < a + (bs.length + 1)) := by omega
        rw [if_neg h1, if_neg h2, if_neg h3]

/-- A byte outside the span a list of bytes is written to is kept. -/
theorem Memory.read_writeAll_outside {a x : Nat} {bytes : List Byte} {m : Memory} (hm : m.wf = true)
    (h : x < a ∨ a + bytes.length ≤ x) : (m.writeAll a bytes).read x = m.read x := by
  rw [read_writeAll hm, if_neg]
  omega

/-! ### The memory of the state -/

/-- A store keeps the canonical form. -/
theorem State.store_wf {a : Nat} {bytes : List Byte} {s : State} (h : s.mem.wf = true) :
    (s.store a bytes).mem.wf = true :=
  Memory.writeAll_wf h

/-- The fields of a row stored keep the canonical form. -/
theorem State.storeFields_wf {base : Nat} {fields : List (Nat × List Byte)} {s : State} (h : s.mem.wf = true) :
    (s.storeFields base fields).mem.wf = true := by
  induction fields generalizing s with
  | nil => exact h
  | cons f fs ih => exact ih (store_wf h)

/-- A row's rewrite keeps the canonical form. -/
theorem rewrite_wf {base : Nat} {fields : List (Nat × List Byte)} {s : State} (h : s.mem.wf = true) :
    (rewrite base fields s).mem.wf = true :=
  State.storeFields_wf (State.store_wf h)

/-- The span the fields of a row are stored to: every byte outside it is kept. -/
theorem State.storeFields_outside {base : Nat} {fields : List (Nat × List Byte)} {s : State} {x : Nat}
    (hm : s.mem.wf = true) (h : ∀ f ∈ fields, x < base + f.1 ∨ base + f.1 + f.2.length ≤ x) :
    (s.storeFields base fields).mem.read x = s.mem.read x := by
  induction fields generalizing s with
  | nil => rfl
  | cons f fs ih =>
    have h1 := h f (by simp)
    have h2 : ∀ g ∈ fs, x < base + g.1 ∨ base + g.1 + g.2.length ≤ x := fun g hg => h g (by simp [hg])
    rw [State.storeFields, ih (store_wf hm) h2]
    exact Memory.read_writeAll_outside hm h1

/-- Every byte outside a row's edition and the fields written is kept by the row's rewrite. -/
theorem rewrite_outside {base : Nat} {fields : List (Nat × List Byte)} {s : State} {x : Nat} (hm : s.mem.wf = true)
    (he : x < base ∨ base + 2 ≤ x) (h : ∀ f ∈ fields, x < base + f.1 ∨ base + f.1 + f.2.length ≤ x) :
    (rewrite base fields s).mem.read x = s.mem.read x := by
  rw [rewrite, State.storeFields_outside (State.store_wf hm) h]
  exact Memory.read_writeAll_outside hm (by simpa [le16] using he)

end Sys2Proof.Machine
end

