-- ==== Sys2Proof/Laws/Ops.lean ====
section
/-! SUPPORT. What the shared operations leave unchanged, field by field, and what they do to the lanes and the memory. -/

namespace Sys2Proof.Machine

/-! ### What storing leaves unchanged -/

/-- Storing the fields of a row changes the memory alone. -/
theorem State.storeFields_eq (base : Nat) (fields : List (Nat × List Byte)) (s : State) :
    s.storeFields base fields = { s with mem := (s.storeFields base fields).mem } := by
  induction fields generalizing s with
  | nil => rfl
  | cons f fs ih => rw [State.storeFields, ih]; rfl

/-- A row's rewrite changes the memory alone. -/
theorem rewrite_eq (base : Nat) (fields : List (Nat × List Byte)) (s : State) :
    rewrite base fields s = { s with mem := (rewrite base fields s).mem } := by
  rw [rewrite, State.storeFields_eq]; rfl

/-- A rewrite of the status block changes the memory alone. -/
theorem rewriteStatus_eq (fields : List (Nat × List Byte)) (s : State) :
    rewriteStatus fields s = { s with mem := (rewriteStatus fields s).mem } := rewrite_eq _ _ _

@[simp] theorem rewrite_clock (base : Nat) (fields : List (Nat × List Byte)) (s : State) :
    (rewrite base fields s).clock = s.clock := by rw [rewrite_eq]

@[simp] theorem rewrite_held (base : Nat) (fields : List (Nat × List Byte)) (s : State) :
    (rewrite base fields s).held = s.held := by rw [rewrite_eq]

@[simp] theorem rewrite_wheels (base : Nat) (fields : List (Nat × List Byte)) (s : State) :
    (rewrite base fields s).wheels = s.wheels := by rw [rewrite_eq]

@[simp] theorem rewrite_reg (base : Nat) (fields : List (Nat × List Byte)) (s : State) :
    (rewrite base fields s).reg = s.reg := by rw [rewrite_eq]

@[simp] theorem rewrite_channels (base : Nat) (fields : List (Nat × List Byte)) (s : State) :
    (rewrite base fields s).channels = s.channels := by rw [rewrite_eq]

@[simp] theorem rewrite_pcu (base : Nat) (fields : List (Nat × List Byte)) (s : State) :
    (rewrite base fields s).pcu = s.pcu := by rw [rewrite_eq]

@[simp] theorem rewrite_dtu (base : Nat) (fields : List (Nat × List Byte)) (s : State) :
    (rewrite base fields s).dtu = s.dtu := by rw [rewrite_eq]

@[simp] theorem rewrite_smn (base : Nat) (fields : List (Nat × List Byte)) (s : State) :
    (rewrite base fields s).smn = s.smn := by rw [rewrite_eq]

@[simp] theorem rewrite_rbu (base : Nat) (fields : List (Nat × List Byte)) (s : State) :
    (rewrite base fields s).rbu = s.rbu := by rw [rewrite_eq]

@[simp] theorem rewrite_draws (base : Nat) (fields : List (Nat × List Byte)) (s : State) :
    (rewrite base fields s).draws = s.draws := by rw [rewrite_eq]

@[simp] theorem rewrite_pending (base : Nat) (fields : List (Nat × List Byte)) (s : State) :
    (rewrite base fields s).pending = s.pending := by rw [rewrite_eq]

@[simp] theorem rewrite_lnc (base : Nat) (fields : List (Nat × List Byte)) (s : State) :
    (rewrite base fields s).lnc = s.lnc := by rw [rewrite_eq]

@[simp] theorem rewriteStatus_clock (fields : List (Nat × List Byte)) (s : State) :
    (rewriteStatus fields s).clock = s.clock := by rw [rewriteStatus_eq]

@[simp] theorem rewriteStatus_held (fields : List (Nat × List Byte)) (s : State) :
    (rewriteStatus fields s).held = s.held := by rw [rewriteStatus_eq]

@[simp] theorem rewriteStatus_wheels (fields : List (Nat × List Byte)) (s : State) :
    (rewriteStatus fields s).wheels = s.wheels := by rw [rewriteStatus_eq]

@[simp] theorem rewriteStatus_reg (fields : List (Nat × List Byte)) (s : State) :
    (rewriteStatus fields s).reg = s.reg := by rw [rewriteStatus_eq]

@[simp] theorem rewriteStatus_channels (fields : List (Nat × List Byte)) (s : State) :
    (rewriteStatus fields s).channels = s.channels := by rw [rewriteStatus_eq]

@[simp] theorem rewriteStatus_pcu (fields : List (Nat × List Byte)) (s : State) :
    (rewriteStatus fields s).pcu = s.pcu := by rw [rewriteStatus_eq]

@[simp] theorem rewriteStatus_dtu (fields : List (Nat × List Byte)) (s : State) :
    (rewriteStatus fields s).dtu = s.dtu := by rw [rewriteStatus_eq]

@[simp] theorem rewriteStatus_smn (fields : List (Nat × List Byte)) (s : State) :
    (rewriteStatus fields s).smn = s.smn := by rw [rewriteStatus_eq]

@[simp] theorem rewriteStatus_rbu (fields : List (Nat × List Byte)) (s : State) :
    (rewriteStatus fields s).rbu = s.rbu := by rw [rewriteStatus_eq]

@[simp] theorem rewriteStatus_draws (fields : List (Nat × List Byte)) (s : State) :
    (rewriteStatus fields s).draws = s.draws := by rw [rewriteStatus_eq]

@[simp] theorem rewriteStatus_pending (fields : List (Nat × List Byte)) (s : State) :
    (rewriteStatus fields s).pending = s.pending := by rw [rewriteStatus_eq]

@[simp] theorem rewriteStatus_lnc (fields : List (Nat × List Byte)) (s : State) :
    (rewriteStatus fields s).lnc = s.lnc := by rw [rewriteStatus_eq]

/-! ### What the lanes' operations leave unchanged -/

@[simp] theorem writeFrame_clock (r : ReportLane) (bytes : List Byte) (s : State) :
    (writeFrame r bytes s).clock = s.clock := rfl

@[simp] theorem writeFrame_held (r : ReportLane) (bytes : List Byte) (s : State) :
    (writeFrame r bytes s).held = s.held := rfl

@[simp] theorem writeFrame_wheels (r : ReportLane) (bytes : List Byte) (s : State) :
    (writeFrame r bytes s).wheels = s.wheels := rfl

@[simp] theorem writeFrame_reg (r : ReportLane) (bytes : List Byte) (s : State) :
    (writeFrame r bytes s).reg = s.reg := rfl

@[simp] theorem writeFrame_channels (r : ReportLane) (bytes : List Byte) (s : State) :
    (writeFrame r bytes s).channels = s.channels := rfl

@[simp] theorem writeFrame_pcu (r : ReportLane) (bytes : List Byte) (s : State) :
    (writeFrame r bytes s).pcu = s.pcu := rfl

@[simp] theorem writeFrame_dtu (r : ReportLane) (bytes : List Byte) (s : State) :
    (writeFrame r bytes s).dtu = s.dtu := rfl

@[simp] theorem writeFrame_smn (r : ReportLane) (bytes : List Byte) (s : State) :
    (writeFrame r bytes s).smn = s.smn := rfl

@[simp] theorem writeFrame_rbu (r : ReportLane) (bytes : List Byte) (s : State) :
    (writeFrame r bytes s).rbu = s.rbu := rfl

@[simp] theorem writeFrame_draws (r : ReportLane) (bytes : List Byte) (s : State) :
    (writeFrame r bytes s).draws = s.draws := rfl

@[simp] theorem writeFrame_pending (r : ReportLane) (bytes : List Byte) (s : State) :
    (writeFrame r bytes s).pending = s.pending := rfl

@[simp] theorem raiseEvent_clock (kind : EventKind) (subject : Byte) (v1 v2 : Int) (s : State) :
    (raiseEvent kind subject v1 v2 s).clock = s.clock := by rw [raiseEvent]; split <;> simp only [writeFrame_clock]

@[simp] theorem raiseEvent_held (kind : EventKind) (subject : Byte) (v1 v2 : Int) (s : State) :
    (raiseEvent kind subject v1 v2 s).held = s.held := by rw [raiseEvent]; split <;> simp only [writeFrame_held]

@[simp] theorem raiseEvent_wheels (kind : EventKind) (subject : Byte) (v1 v2 : Int) (s : State) :
    (raiseEvent kind subject v1 v2 s).wheels = s.wheels := by rw [raiseEvent]; split <;> simp only [writeFrame_wheels]

@[simp] theorem raiseEvent_reg (kind : EventKind) (subject : Byte) (v1 v2 : Int) (s : State) :
    (raiseEvent kind subject v1 v2 s).reg = s.reg := by rw [raiseEvent]; split <;> simp only [writeFrame_reg]

@[simp] theorem raiseEvent_channels (kind : EventKind) (subject : Byte) (v1 v2 : Int) (s : State) :
    (raiseEvent kind subject v1 v2 s).channels = s.channels := by rw [raiseEvent]; split <;> simp only [writeFrame_channels]

@[simp] theorem raiseEvent_pcu (kind : EventKind) (subject : Byte) (v1 v2 : Int) (s : State) :
    (raiseEvent kind subject v1 v2 s).pcu = s.pcu := by rw [raiseEvent]; split <;> simp only [writeFrame_pcu]

@[simp] theorem raiseEvent_dtu (kind : EventKind) (subject : Byte) (v1 v2 : Int) (s : State) :
    (raiseEvent kind subject v1 v2 s).dtu = s.dtu := by rw [raiseEvent]; split <;> simp only [writeFrame_dtu]

@[simp] theorem raiseEvent_smn (kind : EventKind) (subject : Byte) (v1 v2 : Int) (s : State) :
    (raiseEvent kind subject v1 v2 s).smn = s.smn := by rw [raiseEvent]; split <;> simp only [writeFrame_smn]

@[simp] theorem raiseEvent_rbu (kind : EventKind) (subject : Byte) (v1 v2 : Int) (s : State) :
    (raiseEvent kind subject v1 v2 s).rbu = s.rbu := by rw [raiseEvent]; split <;> simp only [writeFrame_rbu]

@[simp] theorem raiseEvent_draws (kind : EventKind) (subject : Byte) (v1 v2 : Int) (s : State) :
    (raiseEvent kind subject v1 v2 s).draws = s.draws := by rw [raiseEvent]; split <;> simp only [writeFrame_draws]

@[simp] theorem raiseEvent_pending (kind : EventKind) (subject : Byte) (v1 v2 : Int) (s : State) :
    (raiseEvent kind subject v1 v2 s).pending = s.pending := by rw [raiseEvent]; split <;> simp only [writeFrame_pending]

@[simp] theorem raiseEpisode_clock (body : List Byte) (s : State) :
    (raiseEpisode body s).clock = s.clock := by rw [raiseEpisode]; split <;> simp only [writeFrame_clock]

@[simp] theorem raiseEpisode_held (body : List Byte) (s : State) :
    (raiseEpisode body s).held = s.held := by rw [raiseEpisode]; split <;> simp only [writeFrame_held]

@[simp] theorem raiseEpisode_wheels (body : List Byte) (s : State) :
    (raiseEpisode body s).wheels = s.wheels := by rw [raiseEpisode]; split <;> simp only [writeFrame_wheels]

@[simp] theorem raiseEpisode_reg (body : List Byte) (s : State) :
    (raiseEpisode body s).reg = s.reg := by rw [raiseEpisode]; split <;> simp only [writeFrame_reg]

@[simp] theorem raiseEpisode_channels (body : List Byte) (s : State) :
    (raiseEpisode body s).channels = s.channels := by rw [raiseEpisode]; split <;> simp only [writeFrame_channels]

@[simp] theorem raiseEpisode_pcu (body : List Byte) (s : State) :
    (raiseEpisode body s).pcu = s.pcu := by rw [raiseEpisode]; split <;> simp only [writeFrame_pcu]

@[simp] theorem raiseEpisode_dtu (body : List Byte) (s : State) :
    (raiseEpisode body s).dtu = s.dtu := by rw [raiseEpisode]; split <;> simp only [writeFrame_dtu]

@[simp] theorem raiseEpisode_smn (body : List Byte) (s : State) :
    (raiseEpisode body s).smn = s.smn := by rw [raiseEpisode]; split <;> simp only [writeFrame_smn]

@[simp] theorem raiseEpisode_rbu (body : List Byte) (s : State) :
    (raiseEpisode body s).rbu = s.rbu := by rw [raiseEpisode]; split <;> simp only [writeFrame_rbu]

@[simp] theorem raiseEpisode_draws (body : List Byte) (s : State) :
    (raiseEpisode body s).draws = s.draws := by rw [raiseEpisode]; split <;> simp only [writeFrame_draws]

@[simp] theorem raiseEpisode_pending (body : List Byte) (s : State) :
    (raiseEpisode body s).pending = s.pending := by rw [raiseEpisode]; split <;> simp only [writeFrame_pending]

@[simp] theorem setOwed_clock (n : Nat) (s : State) :
    (setOwed n s).clock = s.clock := by simp [setOwed]

@[simp] theorem setOwed_held (n : Nat) (s : State) :
    (setOwed n s).held = s.held := by simp [setOwed]

@[simp] theorem setOwed_wheels (n : Nat) (s : State) :
    (setOwed n s).wheels = s.wheels := by simp [setOwed]

@[simp] theorem setOwed_reg (n : Nat) (s : State) :
    (setOwed n s).reg = s.reg := by simp [setOwed]

@[simp] theorem setOwed_channels (n : Nat) (s : State) :
    (setOwed n s).channels = s.channels := by simp [setOwed]

@[simp] theorem setOwed_pcu (n : Nat) (s : State) :
    (setOwed n s).pcu = s.pcu := by simp [setOwed]

@[simp] theorem setOwed_dtu (n : Nat) (s : State) :
    (setOwed n s).dtu = s.dtu := by simp [setOwed]

@[simp] theorem setOwed_smn (n : Nat) (s : State) :
    (setOwed n s).smn = s.smn := by simp [setOwed]

@[simp] theorem setOwed_rbu (n : Nat) (s : State) :
    (setOwed n s).rbu = s.rbu := by simp [setOwed]

@[simp] theorem setOwed_draws (n : Nat) (s : State) :
    (setOwed n s).draws = s.draws := by simp [setOwed]

@[simp] theorem setOwed_pending (n : Nat) (s : State) :
    (setOwed n s).pending = s.pending := by simp [setOwed]

@[simp] theorem writeResponse_clock (bytes : List Byte) (s : State) :
    (writeResponse bytes s).clock = s.clock := by simp [writeResponse]

@[simp] theorem writeResponse_held (bytes : List Byte) (s : State) :
    (writeResponse bytes s).held = s.held := by simp [writeResponse]

@[simp] theorem writeResponse_wheels (bytes : List Byte) (s : State) :
    (writeResponse bytes s).wheels = s.wheels := by simp [writeResponse]

@[simp] theorem writeResponse_reg (bytes : List Byte) (s : State) :
    (writeResponse bytes s).reg = s.reg := by simp [writeResponse]

@[simp] theorem writeResponse_channels (bytes : List Byte) (s : State) :
    (writeResponse bytes s).channels = s.channels := by simp [writeResponse]

@[simp] theorem writeResponse_pcu (bytes : List Byte) (s : State) :
    (writeResponse bytes s).pcu = s.pcu := by simp [writeResponse]

@[simp] theorem writeResponse_dtu (bytes : List Byte) (s : State) :
    (writeResponse bytes s).dtu = s.dtu := by simp [writeResponse]

@[simp] theorem writeResponse_smn (bytes : List Byte) (s : State) :
    (writeResponse bytes s).smn = s.smn := by simp [writeResponse]

@[simp] theorem writeResponse_rbu (bytes : List Byte) (s : State) :
    (writeResponse bytes s).rbu = s.rbu := by simp [writeResponse]

@[simp] theorem writeResponse_draws (bytes : List Byte) (s : State) :
    (writeResponse bytes s).draws = s.draws := by simp [writeResponse]

@[simp] theorem writeResponse_pending (bytes : List Byte) (s : State) :
    (writeResponse bytes s).pending = s.pending := by simp [writeResponse]

@[simp] theorem respond_clock (kind tag : Byte) (status : Status) (result : List Byte) (s : State) :
    (respond kind tag status result s).clock = s.clock := by rw [respond]; split <;> simp only [writeResponse_clock]

@[simp] theorem respond_held (kind tag : Byte) (status : Status) (result : List Byte) (s : State) :
    (respond kind tag status result s).held = s.held := by rw [respond]; split <;> simp only [writeResponse_held]

@[simp] theorem respond_wheels (kind tag : Byte) (status : Status) (result : List Byte) (s : State) :
    (respond kind tag status result s).wheels = s.wheels := by rw [respond]; split <;> simp only [writeResponse_wheels]

@[simp] theorem respond_reg (kind tag : Byte) (status : Status) (result : List Byte) (s : State) :
    (respond kind tag status result s).reg = s.reg := by rw [respond]; split <;> simp only [writeResponse_reg]

@[simp] theorem respond_channels (kind tag : Byte) (status : Status) (result : List Byte) (s : State) :
    (respond kind tag status result s).channels = s.channels := by rw [respond]; split <;> simp only [writeResponse_channels]

@[simp] theorem respond_pcu (kind tag : Byte) (status : Status) (result : List Byte) (s : State) :
    (respond kind tag status result s).pcu = s.pcu := by rw [respond]; split <;> simp only [writeResponse_pcu]

@[simp] theorem respond_dtu (kind tag : Byte) (status : Status) (result : List Byte) (s : State) :
    (respond kind tag status result s).dtu = s.dtu := by rw [respond]; split <;> simp only [writeResponse_dtu]

@[simp] theorem respond_smn (kind tag : Byte) (status : Status) (result : List Byte) (s : State) :
    (respond kind tag status result s).smn = s.smn := by rw [respond]; split <;> simp only [writeResponse_smn]

@[simp] theorem respond_rbu (kind tag : Byte) (status : Status) (result : List Byte) (s : State) :
    (respond kind tag status result s).rbu = s.rbu := by rw [respond]; split <;> simp only [writeResponse_rbu]

@[simp] theorem respond_draws (kind tag : Byte) (status : Status) (result : List Byte) (s : State) :
    (respond kind tag status result s).draws = s.draws := by rw [respond]; split <;> simp only [writeResponse_draws]

@[simp] theorem respond_pending (kind tag : Byte) (status : Status) (result : List Byte) (s : State) :
    (respond kind tag status result s).pending = s.pending := by rw [respond]; split <;> simp only [writeResponse_pending]

@[simp] theorem faultLane_clock (id : LaneId) (code : LaneFault) (offset : Word) (s : State) :
    (faultLane id code offset s).clock = s.clock := by simp [faultLane]

@[simp] theorem faultLane_held (id : LaneId) (code : LaneFault) (offset : Word) (s : State) :
    (faultLane id code offset s).held = s.held := by simp [faultLane]

@[simp] theorem faultLane_wheels (id : LaneId) (code : LaneFault) (offset : Word) (s : State) :
    (faultLane id code offset s).wheels = s.wheels := by simp [faultLane]

@[simp] theorem faultLane_reg (id : LaneId) (code : LaneFault) (offset : Word) (s : State) :
    (faultLane id code offset s).reg = s.reg := by simp [faultLane]

@[simp] theorem faultLane_channels (id : LaneId) (code : LaneFault) (offset : Word) (s : State) :
    (faultLane id code offset s).channels = s.channels := by simp [faultLane]

@[simp] theorem faultLane_pcu (id : LaneId) (code : LaneFault) (offset : Word) (s : State) :
    (faultLane id code offset s).pcu = s.pcu := by simp [faultLane]

@[simp] theorem faultLane_dtu (id : LaneId) (code : LaneFault) (offset : Word) (s : State) :
    (faultLane id code offset s).dtu = s.dtu := by simp [faultLane]

@[simp] theorem faultLane_smn (id : LaneId) (code : LaneFault) (offset : Word) (s : State) :
    (faultLane id code offset s).smn = s.smn := by simp [faultLane]

@[simp] theorem faultLane_rbu (id : LaneId) (code : LaneFault) (offset : Word) (s : State) :
    (faultLane id code offset s).rbu = s.rbu := by simp [faultLane]

@[simp] theorem faultLane_draws (id : LaneId) (code : LaneFault) (offset : Word) (s : State) :
    (faultLane id code offset s).draws = s.draws := by simp [faultLane]

@[simp] theorem faultLane_pending (id : LaneId) (code : LaneFault) (offset : Word) (s : State) :
    (faultLane id code offset s).pending = s.pending := by simp [faultLane]

@[simp] theorem faultFound_clock (s : State) :
    (faultFound s).clock = s.clock := by unfold faultFound; split <;> simp

@[simp] theorem faultFound_held (s : State) :
    (faultFound s).held = s.held := by unfold faultFound; split <;> simp

@[simp] theorem faultFound_wheels (s : State) :
    (faultFound s).wheels = s.wheels := by unfold faultFound; split <;> simp

@[simp] theorem faultFound_reg (s : State) :
    (faultFound s).reg = s.reg := by unfold faultFound; split <;> simp

@[simp] theorem faultFound_channels (s : State) :
    (faultFound s).channels = s.channels := by unfold faultFound; split <;> simp

@[simp] theorem faultFound_pcu (s : State) :
    (faultFound s).pcu = s.pcu := by unfold faultFound; split <;> simp

@[simp] theorem faultFound_dtu (s : State) :
    (faultFound s).dtu = s.dtu := by unfold faultFound; split <;> simp

@[simp] theorem faultFound_smn (s : State) :
    (faultFound s).smn = s.smn := by unfold faultFound; split <;> simp

@[simp] theorem faultFound_rbu (s : State) :
    (faultFound s).rbu = s.rbu := by unfold faultFound; split <;> simp

@[simp] theorem faultFound_draws (s : State) :
    (faultFound s).draws = s.draws := by unfold faultFound; split <;> simp

@[simp] theorem faultFound_pending (s : State) :
    (faultFound s).pending = s.pending := by unfold faultFound; split <;> simp

@[simp] theorem examineRequests_clock (s : State) :
    (examineRequests s).clock = s.clock := by unfold examineRequests; split <;> [rfl; rfl; rfl; skip]; split <;> simp

@[simp] theorem examineRequests_held (s : State) :
    (examineRequests s).held = s.held := by unfold examineRequests; split <;> [rfl; rfl; rfl; skip]; split <;> simp

@[simp] theorem examineRequests_wheels (s : State) :
    (examineRequests s).wheels = s.wheels := by unfold examineRequests; split <;> [rfl; rfl; rfl; skip]; split <;> simp

@[simp] theorem examineRequests_reg (s : State) :
    (examineRequests s).reg = s.reg := by unfold examineRequests; split <;> [rfl; rfl; rfl; skip]; split <;> simp

@[simp] theorem examineRequests_channels (s : State) :
    (examineRequests s).channels = s.channels := by unfold examineRequests; split <;> [rfl; rfl; rfl; skip]; split <;> simp

@[simp] theorem examineRequests_pcu (s : State) :
    (examineRequests s).pcu = s.pcu := by unfold examineRequests; split <;> [rfl; rfl; rfl; skip]; split <;> simp

@[simp] theorem examineRequests_dtu (s : State) :
    (examineRequests s).dtu = s.dtu := by unfold examineRequests; split <;> [rfl; rfl; rfl; skip]; split <;> simp

@[simp] theorem examineRequests_smn (s : State) :
    (examineRequests s).smn = s.smn := by unfold examineRequests; split <;> [rfl; rfl; rfl; skip]; split <;> simp

@[simp] theorem examineRequests_rbu (s : State) :
    (examineRequests s).rbu = s.rbu := by unfold examineRequests; split <;> [rfl; rfl; rfl; skip]; split <;> simp

@[simp] theorem examineRequests_draws (s : State) :
    (examineRequests s).draws = s.draws := by unfold examineRequests; split <;> [rfl; rfl; rfl; skip]; split <;> simp

@[simp] theorem examineRequests_pending (s : State) :
    (examineRequests s).pending = s.pending := by unfold examineRequests; split <;> [rfl; rfl; rfl; skip]; split <;> simp

@[simp] theorem countTake_clock (s : State) :
    (countTake s).clock = s.clock := by simp [countTake]

@[simp] theorem countTake_held (s : State) :
    (countTake s).held = s.held := by simp [countTake]

@[simp] theorem countTake_wheels (s : State) :
    (countTake s).wheels = s.wheels := by simp [countTake]

@[simp] theorem countTake_reg (s : State) :
    (countTake s).reg = s.reg := by simp [countTake]

@[simp] theorem countTake_channels (s : State) :
    (countTake s).channels = s.channels := by simp [countTake]

@[simp] theorem countTake_pcu (s : State) :
    (countTake s).pcu = s.pcu := by simp [countTake]

@[simp] theorem countTake_dtu (s : State) :
    (countTake s).dtu = s.dtu := by simp [countTake]

@[simp] theorem countTake_smn (s : State) :
    (countTake s).smn = s.smn := by simp [countTake]

@[simp] theorem countTake_rbu (s : State) :
    (countTake s).rbu = s.rbu := by simp [countTake]

@[simp] theorem countTake_draws (s : State) :
    (countTake s).draws = s.draws := by simp [countTake]

@[simp] theorem countTake_pending (s : State) :
    (countTake s).pending = s.pending := by simp [countTake]

end Sys2Proof.Machine
end

