-- ==== Sys2Proof/Laws/Lanes.lean ====
section
/-! SUPPORT. What the shared operations do to the lanes and to the memory's form. -/

namespace Sys2Proof.Machine

/-! ### Report lanes -/

@[simp] theorem writeFrame_lane (r : ReportLane) (bytes : List Byte) (s : State) :
    (writeFrame r bytes s).lane r.lane
      = { s.lane r.lane with
          fill := followingOffset r.lane.size (s.lane r.lane).fill r.frameSize, posted := (s.lane r.lane).posted + 1 } := by
  simp [writeFrame]

/-- An event handed over: written behind the frames present, its gap count then 0, or skipped and counted (R181). -/
theorem raiseEvent_cases (kind : EventKind) (subject : Byte) (v1 v2 : Int) (s : State) :
    (writable .event s.lnc.event = true ∧
      raiseEvent kind subject v1 v2 s =
        { s with
          lnc := { s.lnc with
            event := { s.lnc.event with
              fill := followingOffset 2048 s.lnc.event.fill 16, posted := s.lnc.event.posted + 1 }
            eventGap := 0 }
          mem := s.mem.writeAll (0x1000 + s.lnc.event.fill.toNat)
            (eventFrame kind s.lnc.eventGap subject s.stamp v1 v2) }) ∨
    (writable .event s.lnc.event = false ∧
      raiseEvent kind subject v1 v2 s = { s with lnc := { s.lnc with eventGap := raiseGap s.lnc.eventGap } }) := by
  cases h : writable .event s.lnc.event
  · right; exact ⟨rfl, by simp only [raiseEvent, h, if_false, Bool.false_eq_true]⟩
  · left; exact ⟨rfl, by simp only [raiseEvent, h, if_true, writeFrame, ReportLane.lane, State.lane,
      LaneController.lane, State.setLane, LaneController.setLane, State.store, LaneId.base, LaneId.size,
      ReportLane.frameSize]⟩

/-- An episode record handed over: written behind the frames present, its gap count then 0, or skipped and counted
(R181, R183). -/
theorem raiseEpisode_cases (body : List Byte) (s : State) :
    (writable .episode s.lnc.episode = true ∧
      raiseEpisode body s =
        { s with
          lnc := { s.lnc with
            episode := { s.lnc.episode with
              fill := followingOffset 10240 s.lnc.episode.fill 32, posted := s.lnc.episode.posted + 1 }
            episodeGap := 0 }
          mem := s.mem.writeAll (0x1800 + s.lnc.episode.fill.toNat)
            ([8, 0x70, BitVec.ofNat 8 s.lnc.episodeGap, 0] ++ body) }) ∨
    (writable .episode s.lnc.episode = false ∧
      raiseEpisode body s = { s with lnc := { s.lnc with episodeGap := raiseGap s.lnc.episodeGap } }) := by
  cases h : writable .episode s.lnc.episode
  · right; exact ⟨rfl, by rw [raiseEpisode, h]; rfl⟩
  · left; exact ⟨rfl, by rw [raiseEpisode, h]; rfl⟩

/-- A response handed over: written, or kept whole at the tail of the holdback (R178, R179). -/
theorem respond_cases (kind tag : Byte) (status : Status) (result : List Byte) (s : State) :
    (writable .response s.lnc.response = true ∧
      respond kind tag status result s = writeResponse (responseFrame kind tag status result) s) ∨
    (writable .response s.lnc.response = false ∧
      respond kind tag status result s =
        { s with lnc := { s.lnc with holdback := s.lnc.holdback ++ [responseFrame kind tag status result] } }) := by
  cases h : writable .response s.lnc.response
  · right; exact ⟨rfl, by rw [respond, h]; rfl⟩
  · left; exact ⟨rfl, by rw [respond, h]; rfl⟩

/-- A changed owed count changes nothing else of the lanes. -/
@[simp] theorem setOwed_lnc (n : Nat) (s : State) : (setOwed n s).lnc = { s.lnc with owed := n } := by simp [setOwed]

/-- A written response moves the response lane's fill and posted count and lowers the owed count (R165, R178). -/
@[simp] theorem writeResponse_lnc (bytes : List Byte) (s : State) :
    (writeResponse bytes s).lnc =
      { s.lnc with
        response := { s.lnc.response with
          fill := followingOffset 1024 s.lnc.response.fill 16, posted := s.lnc.response.posted + 1 }
        owed := s.lnc.owed - 1 } := by
  simp only [writeResponse, setOwed_lnc]; rfl

/-- A faulted lane holds its code, whatever becomes of the report of it (R167). -/
theorem faultLane_lane (id : LaneId) (code : LaneFault) (offset : Word) (s : State) :
    ((faultLane id code offset s).lane id).fault = some code := by
  unfold faultLane
  rcases raiseEvent_cases .laneFault (laneCode id) code.code.toNat offset.toNat
    (s.setLane id { s.lane id with fault := some code }) with h | h <;> rw [h.2] <;> cases id <;> rfl

/-- The take of a frame moves the request lane's drain and taken count and raises the owed count (R164, R175). -/
@[simp] theorem countTake_lnc (s : State) :
    (countTake s).lnc =
      { s.lnc with
        request := { s.lnc.request with
          drain := followingOffset 2048 s.lnc.request.drain (4 * (s.requestByte 0).toNat)
          taken := s.lnc.request.taken + 1 }
        owed := s.lnc.owed + 1 } := by
  simp only [countTake, setOwed_lnc]; rfl

/-! ### What a report leaves unchanged of the lanes -/

@[simp] theorem raiseEvent_lnc_request (kind : EventKind) (subject : Byte) (v1 v2 : Int) (s : State) :
    (raiseEvent kind subject v1 v2 s).lnc.request = s.lnc.request := by
  rcases raiseEvent_cases kind subject v1 v2 s with h | h <;> rw [h.2]

@[simp] theorem raiseEvent_lnc_response (kind : EventKind) (subject : Byte) (v1 v2 : Int) (s : State) :
    (raiseEvent kind subject v1 v2 s).lnc.response = s.lnc.response := by
  rcases raiseEvent_cases kind subject v1 v2 s with h | h <;> rw [h.2]

@[simp] theorem raiseEvent_lnc_episode (kind : EventKind) (subject : Byte) (v1 v2 : Int) (s : State) :
    (raiseEvent kind subject v1 v2 s).lnc.episode = s.lnc.episode := by
  rcases raiseEvent_cases kind subject v1 v2 s with h | h <;> rw [h.2]

@[simp] theorem raiseEvent_lnc_owed (kind : EventKind) (subject : Byte) (v1 v2 : Int) (s : State) :
    (raiseEvent kind subject v1 v2 s).lnc.owed = s.lnc.owed := by
  rcases raiseEvent_cases kind subject v1 v2 s with h | h <;> rw [h.2]

@[simp] theorem raiseEvent_lnc_holdback (kind : EventKind) (subject : Byte) (v1 v2 : Int) (s : State) :
    (raiseEvent kind subject v1 v2 s).lnc.holdback = s.lnc.holdback := by
  rcases raiseEvent_cases kind subject v1 v2 s with h | h <;> rw [h.2]

@[simp] theorem raiseEvent_lnc_episodeGap (kind : EventKind) (subject : Byte) (v1 v2 : Int) (s : State) :
    (raiseEvent kind subject v1 v2 s).lnc.episodeGap = s.lnc.episodeGap := by
  rcases raiseEvent_cases kind subject v1 v2 s with h | h <;> rw [h.2]

@[simp] theorem raiseEvent_lnc_collision (kind : EventKind) (subject : Byte) (v1 v2 : Int) (s : State) :
    (raiseEvent kind subject v1 v2 s).lnc.collision = s.lnc.collision := by
  rcases raiseEvent_cases kind subject v1 v2 s with h | h <;> rw [h.2]

@[simp] theorem raiseEvent_lnc_enables (kind : EventKind) (subject : Byte) (v1 v2 : Int) (s : State) :
    (raiseEvent kind subject v1 v2 s).lnc.enables = s.lnc.enables := by
  rcases raiseEvent_cases kind subject v1 v2 s with h | h <;> rw [h.2]

@[simp] theorem raiseEvent_lnc_cause (kind : EventKind) (subject : Byte) (v1 v2 : Int) (s : State) :
    (raiseEvent kind subject v1 v2 s).lnc.cause = s.lnc.cause := by
  rcases raiseEvent_cases kind subject v1 v2 s with h | h <;> rw [h.2]

@[simp] theorem raiseEpisode_lnc_request (body : List Byte) (s : State) :
    (raiseEpisode body s).lnc.request = s.lnc.request := by
  rcases raiseEpisode_cases body s with h | h <;> rw [h.2]

@[simp] theorem raiseEpisode_lnc_response (body : List Byte) (s : State) :
    (raiseEpisode body s).lnc.response = s.lnc.response := by
  rcases raiseEpisode_cases body s with h | h <;> rw [h.2]

@[simp] theorem raiseEpisode_lnc_event (body : List Byte) (s : State) :
    (raiseEpisode body s).lnc.event = s.lnc.event := by
  rcases raiseEpisode_cases body s with h | h <;> rw [h.2]

@[simp] theorem raiseEpisode_lnc_owed (body : List Byte) (s : State) :
    (raiseEpisode body s).lnc.owed = s.lnc.owed := by
  rcases raiseEpisode_cases body s with h | h <;> rw [h.2]

@[simp] theorem raiseEpisode_lnc_holdback (body : List Byte) (s : State) :
    (raiseEpisode body s).lnc.holdback = s.lnc.holdback := by
  rcases raiseEpisode_cases body s with h | h <;> rw [h.2]

@[simp] theorem raiseEpisode_lnc_eventGap (body : List Byte) (s : State) :
    (raiseEpisode body s).lnc.eventGap = s.lnc.eventGap := by
  rcases raiseEpisode_cases body s with h | h <;> rw [h.2]

@[simp] theorem raiseEpisode_lnc_collision (body : List Byte) (s : State) :
    (raiseEpisode body s).lnc.collision = s.lnc.collision := by
  rcases raiseEpisode_cases body s with h | h <;> rw [h.2]

@[simp] theorem raiseEpisode_lnc_enables (body : List Byte) (s : State) :
    (raiseEpisode body s).lnc.enables = s.lnc.enables := by
  rcases raiseEpisode_cases body s with h | h <;> rw [h.2]

@[simp] theorem raiseEpisode_lnc_cause (body : List Byte) (s : State) :
    (raiseEpisode body s).lnc.cause = s.lnc.cause := by
  rcases raiseEpisode_cases body s with h | h <;> rw [h.2]

@[simp] theorem respond_lnc_request (kind tag : Byte) (status : Status) (result : List Byte) (s : State) :
    (respond kind tag status result s).lnc.request = s.lnc.request := by
  rcases respond_cases kind tag status result s with h | h <;> rw [h.2]; simp

@[simp] theorem respond_lnc_event (kind tag : Byte) (status : Status) (result : List Byte) (s : State) :
    (respond kind tag status result s).lnc.event = s.lnc.event := by
  rcases respond_cases kind tag status result s with h | h <;> rw [h.2]; simp

@[simp] theorem respond_lnc_episode (kind tag : Byte) (status : Status) (result : List Byte) (s : State) :
    (respond kind tag status result s).lnc.episode = s.lnc.episode := by
  rcases respond_cases kind tag status result s with h | h <;> rw [h.2]; simp

@[simp] theorem respond_lnc_eventGap (kind tag : Byte) (status : Status) (result : List Byte) (s : State) :
    (respond kind tag status result s).lnc.eventGap = s.lnc.eventGap := by
  rcases respond_cases kind tag status result s with h | h <;> rw [h.2]; simp

@[simp] theorem respond_lnc_episodeGap (kind tag : Byte) (status : Status) (result : List Byte) (s : State) :
    (respond kind tag status result s).lnc.episodeGap = s.lnc.episodeGap := by
  rcases respond_cases kind tag status result s with h | h <;> rw [h.2]; simp

@[simp] theorem respond_lnc_collision (kind tag : Byte) (status : Status) (result : List Byte) (s : State) :
    (respond kind tag status result s).lnc.collision = s.lnc.collision := by
  rcases respond_cases kind tag status result s with h | h <;> rw [h.2]; simp

@[simp] theorem respond_lnc_enables (kind tag : Byte) (status : Status) (result : List Byte) (s : State) :
    (respond kind tag status result s).lnc.enables = s.lnc.enables := by
  rcases respond_cases kind tag status result s with h | h <;> rw [h.2]; simp

@[simp] theorem respond_lnc_cause (kind tag : Byte) (status : Status) (result : List Byte) (s : State) :
    (respond kind tag status result s).lnc.cause = s.lnc.cause := by
  rcases respond_cases kind tag status result s with h | h <;> rw [h.2]; simp

/-! ### The canonical form of the memory under the shared operations -/

theorem writeFrame_wf (r : ReportLane) (bytes : List Byte) {s : State} (h : s.mem.wf = true) :
    (writeFrame r bytes s).mem.wf = true := Memory.writeAll_wf h

theorem rewriteStatus_wf (fields : List (Nat × List Byte)) {s : State} (h : s.mem.wf = true) :
    (rewriteStatus fields s).mem.wf = true := rewrite_wf h

theorem raiseEvent_wf (kind : EventKind) (subject : Byte) (v1 v2 : Int) {s : State} (h : s.mem.wf = true) :
    (raiseEvent kind subject v1 v2 s).mem.wf = true := by
  rcases raiseEvent_cases kind subject v1 v2 s with e | e <;> rw [e.2]
  · exact Memory.writeAll_wf h
  · exact h

theorem raiseEpisode_wf (body : List Byte) {s : State} (h : s.mem.wf = true) :
    (raiseEpisode body s).mem.wf = true := by
  rcases raiseEpisode_cases body s with e | e <;> rw [e.2]
  · exact Memory.writeAll_wf h
  · exact h

theorem setOwed_wf (n : Nat) {s : State} (h : s.mem.wf = true) :
    (setOwed n s).mem.wf = true := rewrite_wf h

theorem writeResponse_wf (bytes : List Byte) {s : State} (h : s.mem.wf = true) :
    (writeResponse bytes s).mem.wf = true := setOwed_wf _ (writeFrame_wf _ _ h)

theorem respond_wf (kind tag : Byte) (status : Status) (result : List Byte) {s : State} (h : s.mem.wf = true) :
    (respond kind tag status result s).mem.wf = true := by
  rcases respond_cases kind tag status result s with e | e <;> rw [e.2]
  · exact writeResponse_wf _ h
  · exact h

theorem faultLane_wf (id : LaneId) (code : LaneFault) (offset : Word) {s : State} (h : s.mem.wf = true) :
    (faultLane id code offset s).mem.wf = true := raiseEvent_wf _ _ _ _ h

theorem faultFound_wf {s : State} (h : s.mem.wf = true) :
    (faultFound s).mem.wf = true := by
  unfold faultFound
  split
  · exact faultLane_wf _ _ _ h
  all_goals exact h

theorem examineRequests_wf {s : State} (h : s.mem.wf = true) :
    (examineRequests s).mem.wf = true := by
  unfold examineRequests
  split <;> [exact h; exact h; exact h; skip]
  split
  · exact faultFound_wf h
  all_goals exact faultFound_wf h

theorem countTake_wf {s : State} (h : s.mem.wf = true) :
    (countTake s).mem.wf = true := setOwed_wf _ h

end Sys2Proof.Machine
end

