-- ==== Sys2Proof/Laws/Answers.lean ====
section
/-! SUPPORT. What an answered take leaves: the lanes, the response frame, and the status block. -/

namespace Sys2Proof.Machine

/-- A word whose two bytes are those of a value reads as the value. -/
theorem Memory.word_of_reads {m : Memory} {a : Nat} {v : Word} (h0 : m.read a = v.extractLsb' 0 8)
    (h1 : m.read (a + 1) = v.extractLsb' 8 8) : m.word a = v := by
  simp only [Memory.word, rd16, Nat.add_zero, Nat.zero_add, h0, h1]
  ext i hi
  simp only [BitVec.getElem_append, BitVec.getElem_extractLsb']
  split
  · simp [BitVec.getLsbD_eq_getElem, hi]
  · have : 8 + (i - 8) = i := by omega
    simp [this, BitVec.getLsbD_eq_getElem, hi]

/-- A status rewrite raises the edition by 2, where its fields lie above the edition word (R170). -/
theorem rewriteStatus_edition (fields : List (Nat × List Byte)) {s : State} (hm : s.mem.wf = true)
    (h : ∀ f ∈ fields, 2 ≤ f.1) : (rewriteStatus fields s).mem.word 0x40 = s.mem.word 0x40 + 2 := by
  have key : ∀ x, x = 0x40 ∨ x = 0x41 → (rewriteStatus fields s).mem.read x =
      (le16 (s.mem.word 0x40 + 2)).getD (x - 0x40) 0 := by
    intro x hx
    rw [rewriteStatus, rewrite, State.storeFields_outside (State.store_wf hm)]
    · show (s.mem.writeAll 0x40 _).read x = _
      rw [Memory.read_writeAll hm, if_pos]
      · rfl
      · simp [le16]; omega
    · intro f hf
      simp only [List.mem_append, List.mem_singleton] at hf
      rcases hf with hf | rfl
      · have := h f hf; simp only [statusBase]; omega
      · simp only [statusBase]; omega
  exact Memory.word_of_reads (key 0x40 (by omega)) (key 0x41 (by omega))

/-- The owed count's change in the status block: the edition, the count and the stamp, and nothing else (R171, R174). -/
theorem setOwed_stored (n : Nat) {s : State} (hm : s.mem.wf = true) :
    (setOwed n s).mem.word 0x40 = s.mem.word 0x40 + 2 ∧ HoldsAt (setOwed n s).mem 0x62 (le16 (BitVec.ofNat 16 n)) ∧
      HoldsAt (setOwed n s).mem 0x64 (le32 s.stamp) ∧ KeepsOutside [(0x40, 2), (0x62, 6)] s.mem (setOwed n s).mem := by
  have hm' : ({ s with lnc := { s.lnc with owed := n } } : State).mem.wf = true := hm
  refine ⟨?_, ?_, ?_, ?_⟩
  · exact rewriteStatus_edition _ hm' (by simp)
  · intro k hk
    simp only [setOwed, rewriteStatus, rewrite, statusBase, List.cons_append, List.nil_append, State.storeFields]
    simp only [le16, List.length_cons, List.length_nil] at hk
    simp only [State.store]
    rw [Memory.read_writeAll_outside (Memory.writeAll_wf (Memory.writeAll_wf hm)) (by omega),
      Memory.read_writeAll (Memory.writeAll_wf hm), if_pos (by simp [le16]; omega)]
    congr 1; omega
  · intro k hk
    simp only [setOwed, rewriteStatus, rewrite, statusBase, List.cons_append, List.nil_append, State.storeFields]
    simp only [le32, List.length_cons, List.length_nil] at hk
    simp only [State.store]
    rw [Memory.read_writeAll (Memory.writeAll_wf (Memory.writeAll_wf hm)), if_pos (by simp [le32]; omega)]
    simp only [State.stamp]
    congr 1; omega
  · intro a ha
    have h1 := ha (0x40, 2) (by simp); have h2 := ha (0x62, 6) (by simp)
    simp only at h1 h2
    simp only [setOwed, rewriteStatus, rewrite, statusBase, List.cons_append, List.nil_append, State.storeFields,
      State.store]
    rw [Memory.read_writeAll_outside (Memory.writeAll_wf (Memory.writeAll_wf hm)) (by simp [le32]; omega),
      Memory.read_writeAll_outside (Memory.writeAll_wf hm) (by simp [le16]; omega),
      Memory.read_writeAll_outside hm (by simp [le16]; omega)]

/-- While the condition is TAKING, the response lane is RUNNING and has room (R176). -/
theorem taking_writable {l : LaneController} (h : l.taking = .taking) : writable .response l.response = true := by
  unfold LaneController.taking at h
  split at h
  · cases h
  · split at h
    · cases h
    · split at h
      · rename_i h1 _ h3
        simp only [Bool.or_eq_true, not_or, Bool.not_eq_true] at h1
        simp only [writable, h1.2, Bool.not_false, Bool.true_and, hasRoom, framesPresent, ReportLane.lane, LaneId.size,
          ReportLane.frameSize, ReportLane.slots]
        simp only [LaneController.freeSlots] at h3
        apply decide_eq_true
        omega
      · cases h

theorem ready_writable {i : Instr} {s : State} (h : Ready i s) : writable .response s.lnc.response = true := by
  have h := h.2
  unfold State.readyRequest at h
  split at h
  · exact taking_writable ‹_›
  · cases h

/-- The examination changes nothing where a frame stands ready (R164 order 8). -/
theorem examineRequests_of_ready {i : Instr} {s : State} (h : s.readyRequest = some i) : examineRequests s = s := by
  unfold State.readyRequest at h
  split at h
  · rename_i ht hw
    simp only [examineRequests, ht, hw, faultFound]
  · cases h

theorem countTake_eq (s : State) : countTake s = { s with lnc := (countTake s).lnc, mem := (countTake s).mem } := by
  simp only [countTake, setOwed]
  rw [rewriteStatus_eq]
  rfl

theorem setOwed_eq (n : Nat) (s : State) :
    setOwed n s = { s with lnc := (setOwed n s).lnc, mem := (setOwed n s).mem } := by
  simp only [setOwed]
  rw [rewriteStatus_eq]

theorem writeFrame_eq (r : ReportLane) (bytes : List Byte) (s : State) :
    writeFrame r bytes s = { s with lnc := (writeFrame r bytes s).lnc, mem := (writeFrame r bytes s).mem } := rfl

theorem writeResponse_eq (bytes : List Byte) (s : State) :
    writeResponse bytes s = { s with lnc := (writeResponse bytes s).lnc, mem := (writeResponse bytes s).mem } := by
  simp only [writeResponse]
  rw [setOwed_eq, writeFrame_eq]

/-- What an answer of 16 bytes leaves in the memory after a take and a body that keeps the memory. -/
theorem answer_stored {frame : List Byte} {s b : State} (hf : frame.length = 16) (hm : s.mem.wf = true)
    (hc : b.clock = s.clock) (hl : b.lnc = (countTake s).lnc) (hmem : b.mem = (countTake s).mem) :
    AnswerStored frame s (writeResponse frame b).mem ∧ (writeResponse frame b).lnc = answeredLanes s := by
  have hl' := countTake_lnc s
  have hst : b.stamp = s.stamp := by simp [State.stamp, hc]
  constructor
  swap
  · rw [writeResponse_lnc, hl, hl']; rfl
  obtain ⟨e1, o1, st1, k1⟩ := setOwed_stored (s.lnc.owed + 1) (s := s.setLane .request
    { s.lnc.request with
      drain := followingOffset (LaneId.size .request) s.lnc.request.drain (4 * (s.requestByte 0).toNat)
      taken := s.lnc.request.taken + 1 }) hm
  have hct : b.mem = (setOwed (s.lnc.owed + 1) (s.setLane .request
    { s.lnc.request with
      drain := followingOffset (LaneId.size .request) s.lnc.request.drain (4 * (s.requestByte 0).toNat)
      taken := s.lnc.request.taken + 1 })).mem := hmem
  rw [← hct] at e1 o1 st1 k1
  have hbm : b.mem.wf = true := by rw [hmem]; exact countTake_wf hm
  have hslot : 0x0C00 + b.lnc.response.fill.toNat = responseSlot s := by rw [hl, hl']; rfl
  -- the frame's write
  have hw : (writeFrame .response frame b).mem = b.mem.writeAll (responseSlot s) frame := by rw [← hslot]; rfl
  have hwm : (writeFrame .response frame b).mem.wf = true := writeFrame_wf _ _ hbm
  have hwo : (writeFrame .response frame b).lnc.owed = s.lnc.owed + 1 := by
    show b.lnc.owed = _; rw [hl, hl']
  have hr : 0x0C00 ≤ responseSlot s := Nat.le_add_right _ _
  obtain ⟨e2, o2, st2, k2⟩ := setOwed_stored ((writeFrame .response frame b).lnc.owed - 1) hwm
  have hres : (writeResponse frame b) = setOwed ((writeFrame .response frame b).lnc.owed - 1) (writeFrame .response frame b) := rfl
  rw [← hres] at e2 o2 st2 k2
  have keepw : ∀ a, a < responseSlot s ∨ responseSlot s + 16 ≤ a → (writeFrame .response frame b).mem.read a = b.mem.read a := by
    intro a ha; rw [hw]; exact Memory.read_writeAll_outside hbm (by rw [hf]; exact ha)
  refine ⟨?_, ?_, ?_, ?_, ?_⟩
  · intro k hk
    rw [k2 _ (by intro x hx; simp at hx; rcases hx with rfl | rfl <;> simp <;> omega), hw,
      Memory.read_writeAll hbm, if_pos (by omega)]
    congr 1; omega
  · rw [e2]
    have : (writeFrame .response frame b).mem.word 0x40 = b.mem.word 0x40 := by
      simp only [Memory.word, rd16]
      rw [keepw _ (by omega), keepw _ (by omega)]
    rw [this, e1, BitVec.add_assoc]; rfl
  · have h0 := o2 0 (by simp [le16]); have h1 := o2 1 (by simp [le16])
    refine Memory.word_of_reads (h0.trans ?_) (h1.trans ?_) <;> rw [hwo] <;> rfl
  · have : (writeFrame .response frame b).stamp = s.stamp := by rw [← hst]; simp [State.stamp]
    rw [this] at st2; exact st2
  · intro a ha
    have h0 := ha (responseSlot s, 16) (by simp); have h1 := ha (0x40, 2) (by simp); have h2 := ha (0x62, 6) (by simp)
    rw [k2 a (by intro x hx; simp at hx; rcases hx with rfl | rfl <;> assumption), keepw a h0,
      k1 a (by intro x hx; simp at hx; rcases hx with rfl | rfl <;> assumption)]
    rfl

theorem responseFrame_length (kind tag : Byte) (status : Status) (result : List Byte) :
    (responseFrame kind tag status result).length = 16 := by
  simp only [responseFrame, padTo, List.length_append, List.length_take, List.length_replicate, List.length_cons,
    List.length_nil]
  omega

/-- A request whose body changes its blocks as `b` has them and answers at once (R175, R177, R178). -/
theorem answered {i : Instr} {body : State → State} {s b : State} {kind tag : Byte} {status : Status}
    {result : List Byte} (he : exec i s = take i body s) (hm : s.mem.wf = true) (hr : Ready i s)
    (hc : b.clock = s.clock)
    (hb : body (countTake s) =
      respond kind tag status result { b with lnc := (countTake s).lnc, mem := (countTake s).mem }) :
    AnsweredAtOnce i s b kind tag status result := by
  have hw : writable .response (countTake s).lnc.response = true := by
    rw [countTake_lnc]; exact ready_writable hr
  have h : exec i s = .next (writeResponse (responseFrame kind tag status result)
      { b with lnc := (countTake s).lnc, mem := (countTake s).mem }) := by
    rw [he, take, State.whenRunning]
    simp only [hr.1, Option.isSome_none, Bool.false_eq_true, if_false, examineRequests_of_ready hr.2, hr.2, if_true]
    rw [makeTake, hb, respond]
    simp only [hw, if_true]
  have hs := answer_stored (frame := responseFrame kind tag status result)
    (b := { b with lnc := (countTake s).lnc, mem := (countTake s).mem }) (responseFrame_length ..) hm hc rfl rfl
  refine ⟨_, ?_, hs.1⟩
  rw [h]
  rw [← hs.2, writeResponse_eq]

/-! ### Takes (R175) -/

/-- Every request is carried out by one take of its own frame. -/
theorem exec_eq_take {i : Instr} (h : i.isRequest = true) (s : State) : exec i s = take i (carryRequest i) s := by
  cases i <;> first | rfl | exact absurd h Bool.false_ne_true

/-- A request whose frame stands ready is taken (R175). -/
theorem exec_of_ready {i : Instr} {s : State} (hi : i.isRequest = true) (h : Ready i s) :
    exec i s = .next (makeTake (carryRequest i) s) := by
  rw [exec_eq_take hi, take, State.whenRunning]
  simp only [h.1, Option.isSome_none, Bool.false_eq_true, if_false, examineRequests_of_ready h.2, h.2, if_true]

/-- The first take: the examination alone, or, where it leaves a whole frame at the drain, the take of its request. -/
theorem firstTake_cases (s : State) :
    ((examineRequests s).readyRequest = none ∧ firstTake s = examineRequests s) ∨
      ∃ i, (examineRequests s).readyRequest = some i ∧ firstTake s = makeTake (carryRequest i) (examineRequests s) := by
  unfold firstTake
  cases h : (examineRequests s).readyRequest with
  | none => exact .inl ⟨rfl, by simp only [h]⟩
  | some i => exact .inr ⟨i, rfl, by simp only [h]⟩

/-- The condition formed again makes the first take unless it was TAKING before the event. -/
theorem formTaking_cases (before s : State) :
    (before.lnc.taking = .taking ∧ formTaking before s = s) ∨
      (before.lnc.taking ≠ .taking ∧ formTaking before s = firstTake s) := by
  unfold formTaking
  by_cases h : before.lnc.taking = .taking
  · exact .inl ⟨h, if_pos h⟩
  · exact .inr ⟨h, if_neg h⟩

/-- A property that the examination and every carried-out take keep, the first take keeps. -/
theorem firstTake_of {P : State → Prop} (he : ∀ u, P u → P (examineRequests u))
    (ht : ∀ i u, P u → P (makeTake (carryRequest i) u)) {s : State} (h : P s) : P (firstTake s) := by
  rcases firstTake_cases s with ⟨_, e⟩ | ⟨i, _, e⟩ <;> rw [e]
  · exact he _ h
  · exact ht _ _ (he _ h)

end Sys2Proof.Machine
end

