-- ==== Sys2Proof/Laws/Blocks.lean ====
section
/-! SUPPORT. What each block's operations leave unchanged, field by field, and that they keep the memory's form. -/

namespace Sys2Proof.Machine

/-! ### An operation on each of the six in turn -/

/-- What every step of a pass over the six keeps, the pass keeps. -/
theorem forEach_induction {P : State → Prop} {f : Fin 6 → State → State} (h : ∀ i s, P s → P (f i s)) {s : State}
    (hs : P s) : P (forEach f s) := by
  have key : ∀ l : List (Fin 6), ∀ s, P s → P (l.foldl (fun s i => f i s) s) := by
    intro l
    induction l with
    | nil => exact fun s hs => hs
    | cons i l ih => exact fun s hs => ih _ (h i s hs)
  exact key indices s hs

/-- A value every step of a pass over the six keeps is kept by the pass. -/
theorem forEach_keeps {α : Type} (g : State → α) {f : Fin 6 → State → State} (h : ∀ i s, g (f i s) = g s) (s : State) :
    g (forEach f s) = g s :=
  forEach_induction (P := fun t => g t = g s) (fun i t ht => (h i t).trans ht) rfl

/-! ### The retarder -/

@[simp] theorem moveOutput_clock (s : State) :
    (moveOutput s).clock = s.clock := by unfold moveOutput; dsimp only; split_ifs <;> rfl

@[simp] theorem moveOutput_held (s : State) :
    (moveOutput s).held = s.held := by unfold moveOutput; dsimp only; split_ifs <;> rfl

@[simp] theorem moveOutput_wheels (s : State) :
    (moveOutput s).wheels = s.wheels := by unfold moveOutput; dsimp only; split_ifs <;> rfl

@[simp] theorem moveOutput_reg (s : State) :
    (moveOutput s).reg = s.reg := by unfold moveOutput; dsimp only; split_ifs <;> rfl

@[simp] theorem moveOutput_channels (s : State) :
    (moveOutput s).channels = s.channels := by unfold moveOutput; dsimp only; split_ifs <;> rfl

@[simp] theorem moveOutput_pcu (s : State) :
    (moveOutput s).pcu = s.pcu := by unfold moveOutput; dsimp only; split_ifs <;> rfl

@[simp] theorem moveOutput_dtu (s : State) :
    (moveOutput s).dtu = s.dtu := by unfold moveOutput; dsimp only; split_ifs <;> rfl

@[simp] theorem moveOutput_smn (s : State) :
    (moveOutput s).smn = s.smn := by unfold moveOutput; dsimp only; split_ifs <;> rfl

@[simp] theorem moveOutput_draws (s : State) :
    (moveOutput s).draws = s.draws := by unfold moveOutput; dsimp only; split_ifs <;> rfl

@[simp] theorem moveOutput_pending (s : State) :
    (moveOutput s).pending = s.pending := by unfold moveOutput; dsimp only; split_ifs <;> rfl

@[simp] theorem moveOutput_lnc (s : State) : (moveOutput s).lnc = s.lnc := by unfold moveOutput; dsimp only; split_ifs <;> rfl

@[simp] theorem moveOutput_mem (s : State) : (moveOutput s).mem = s.mem := by unfold moveOutput; dsimp only; split_ifs <;> rfl

@[simp] theorem formAllowed_clock (s : State) :
    (formAllowed s).clock = s.clock := by simp [formAllowed]

@[simp] theorem formAllowed_held (s : State) :
    (formAllowed s).held = s.held := by simp [formAllowed]

@[simp] theorem formAllowed_wheels (s : State) :
    (formAllowed s).wheels = s.wheels := by simp [formAllowed]

@[simp] theorem formAllowed_reg (s : State) :
    (formAllowed s).reg = s.reg := by simp [formAllowed]

@[simp] theorem formAllowed_channels (s : State) :
    (formAllowed s).channels = s.channels := by simp [formAllowed]

@[simp] theorem formAllowed_pcu (s : State) :
    (formAllowed s).pcu = s.pcu := by simp [formAllowed]

@[simp] theorem formAllowed_dtu (s : State) :
    (formAllowed s).dtu = s.dtu := by simp [formAllowed]

@[simp] theorem formAllowed_smn (s : State) :
    (formAllowed s).smn = s.smn := by simp [formAllowed]

@[simp] theorem formAllowed_draws (s : State) :
    (formAllowed s).draws = s.draws := by simp [formAllowed]

@[simp] theorem formAllowed_pending (s : State) :
    (formAllowed s).pending = s.pending := by simp [formAllowed]

@[simp] theorem formAllowed_lnc (s : State) :
    (formAllowed s).lnc = s.lnc := by simp [formAllowed]

@[simp] theorem formAllowed_mem (s : State) :
    (formAllowed s).mem = s.mem := by simp [formAllowed]

@[simp] theorem raiseCut_clock (s : State) :
    (raiseCut s).clock = s.clock := by unfold raiseCut; dsimp only; split_ifs <;> simp

@[simp] theorem raiseCut_held (s : State) :
    (raiseCut s).held = s.held := by unfold raiseCut; dsimp only; split_ifs <;> simp

@[simp] theorem raiseCut_wheels (s : State) :
    (raiseCut s).wheels = s.wheels := by unfold raiseCut; dsimp only; split_ifs <;> simp

@[simp] theorem raiseCut_reg (s : State) :
    (raiseCut s).reg = s.reg := by unfold raiseCut; dsimp only; split_ifs <;> simp

@[simp] theorem raiseCut_channels (s : State) :
    (raiseCut s).channels = s.channels := by unfold raiseCut; dsimp only; split_ifs <;> simp

@[simp] theorem raiseCut_pcu (s : State) :
    (raiseCut s).pcu = s.pcu := by unfold raiseCut; dsimp only; split_ifs <;> simp

@[simp] theorem raiseCut_dtu (s : State) :
    (raiseCut s).dtu = s.dtu := by unfold raiseCut; dsimp only; split_ifs <;> simp

@[simp] theorem raiseCut_smn (s : State) :
    (raiseCut s).smn = s.smn := by unfold raiseCut; dsimp only; split_ifs <;> simp

@[simp] theorem raiseCut_draws (s : State) :
    (raiseCut s).draws = s.draws := by unfold raiseCut; dsimp only; split_ifs <;> simp

@[simp] theorem raiseCut_pending (s : State) :
    (raiseCut s).pending = s.pending := by unfold raiseCut; dsimp only; split_ifs <;> simp

@[simp] theorem dropCut_clock (s : State) :
    (dropCut s).clock = s.clock := by simp [dropCut]

@[simp] theorem dropCut_held (s : State) :
    (dropCut s).held = s.held := by simp [dropCut]

@[simp] theorem dropCut_wheels (s : State) :
    (dropCut s).wheels = s.wheels := by simp [dropCut]

@[simp] theorem dropCut_reg (s : State) :
    (dropCut s).reg = s.reg := by simp [dropCut]

@[simp] theorem dropCut_channels (s : State) :
    (dropCut s).channels = s.channels := by simp [dropCut]

@[simp] theorem dropCut_pcu (s : State) :
    (dropCut s).pcu = s.pcu := by simp [dropCut]

@[simp] theorem dropCut_dtu (s : State) :
    (dropCut s).dtu = s.dtu := by simp [dropCut]

@[simp] theorem dropCut_smn (s : State) :
    (dropCut s).smn = s.smn := by simp [dropCut]

@[simp] theorem dropCut_draws (s : State) :
    (dropCut s).draws = s.draws := by simp [dropCut]

@[simp] theorem dropCut_pending (s : State) :
    (dropCut s).pending = s.pending := by simp [dropCut]

@[simp] theorem dropCut_lnc (s : State) :
    (dropCut s).lnc = s.lnc := by simp [dropCut]

@[simp] theorem dropCut_mem (s : State) :
    (dropCut s).mem = s.mem := by simp [dropCut]

@[simp] theorem formCut_clock (s : State) :
    (formCut s).clock = s.clock := by unfold formCut; dsimp only; split_ifs <;> simp

@[simp] theorem formCut_held (s : State) :
    (formCut s).held = s.held := by unfold formCut; dsimp only; split_ifs <;> simp

@[simp] theorem formCut_wheels (s : State) :
    (formCut s).wheels = s.wheels := by unfold formCut; dsimp only; split_ifs <;> simp

@[simp] theorem formCut_reg (s : State) :
    (formCut s).reg = s.reg := by unfold formCut; dsimp only; split_ifs <;> simp

@[simp] theorem formCut_channels (s : State) :
    (formCut s).channels = s.channels := by unfold formCut; dsimp only; split_ifs <;> simp

@[simp] theorem formCut_pcu (s : State) :
    (formCut s).pcu = s.pcu := by unfold formCut; dsimp only; split_ifs <;> simp

@[simp] theorem formCut_dtu (s : State) :
    (formCut s).dtu = s.dtu := by unfold formCut; dsimp only; split_ifs <;> simp

@[simp] theorem formCut_smn (s : State) :
    (formCut s).smn = s.smn := by unfold formCut; dsimp only; split_ifs <;> simp

@[simp] theorem formCut_draws (s : State) :
    (formCut s).draws = s.draws := by unfold formCut; dsimp only; split_ifs <;> simp

@[simp] theorem formCut_pending (s : State) :
    (formCut s).pending = s.pending := by unfold formCut; dsimp only; split_ifs <;> simp

theorem raiseCut_wf {s : State} (h : s.mem.wf = true) :
    (raiseCut s).mem.wf = true := by
  unfold raiseCut; dsimp only
  split_ifs <;> simp only [formAllowed_mem]
  · exact h
  · exact raiseEvent_wf _ _ _ _ h

theorem formCut_wf {s : State} (h : s.mem.wf = true) :
    (formCut s).mem.wf = true := by
  unfold formCut; dsimp only
  split_ifs
  · exact raiseCut_wf h
  · simpa using h
  · exact h

@[simp] theorem retarderEvent_clock (f : State → State) (s : State) :
    (retarderEvent f s).clock = (f s).clock := by
  unfold retarderEvent; dsimp only; split_ifs <;> simp

@[simp] theorem retarderEvent_held (f : State → State) (s : State) :
    (retarderEvent f s).held = (f s).held := by
  unfold retarderEvent; dsimp only; split_ifs <;> simp

@[simp] theorem retarderEvent_wheels (f : State → State) (s : State) :
    (retarderEvent f s).wheels = (f s).wheels := by
  unfold retarderEvent; dsimp only; split_ifs <;> simp

@[simp] theorem retarderEvent_reg (f : State → State) (s : State) :
    (retarderEvent f s).reg = (f s).reg := by
  unfold retarderEvent; dsimp only; split_ifs <;> simp

@[simp] theorem retarderEvent_channels (f : State → State) (s : State) :
    (retarderEvent f s).channels = (f s).channels := by
  unfold retarderEvent; dsimp only; split_ifs <;> simp

@[simp] theorem retarderEvent_pcu (f : State → State) (s : State) :
    (retarderEvent f s).pcu = (f s).pcu := by
  unfold retarderEvent; dsimp only; split_ifs <;> simp

@[simp] theorem retarderEvent_dtu (f : State → State) (s : State) :
    (retarderEvent f s).dtu = (f s).dtu := by
  unfold retarderEvent; dsimp only; split_ifs <;> simp

@[simp] theorem retarderEvent_smn (f : State → State) (s : State) :
    (retarderEvent f s).smn = (f s).smn := by
  unfold retarderEvent; dsimp only; split_ifs <;> simp

@[simp] theorem retarderEvent_draws (f : State → State) (s : State) :
    (retarderEvent f s).draws = (f s).draws := by
  unfold retarderEvent; dsimp only; split_ifs <;> simp

@[simp] theorem retarderEvent_pending (f : State → State) (s : State) :
    (retarderEvent f s).pending = (f s).pending := by
  unfold retarderEvent; dsimp only; split_ifs <;> simp

@[simp] theorem retarderEvent_rbu (f : State → State) (s : State) :
    (retarderEvent f s).rbu = (f s).rbu := by
  unfold retarderEvent; dsimp only; split_ifs <;> simp

@[simp] theorem retarderEvent_lnc (f : State → State) (s : State) :
    (retarderEvent f s).lnc = (f s).lnc := by
  unfold retarderEvent; dsimp only; split_ifs <;> simp

/-- A retarder event keeps the memory's form where its change does. -/
theorem retarderEvent_wf {f : State → State} {s : State} (h : (f s).mem.wf = true) :
    (retarderEvent f s).mem.wf = true := by
  simp only [retarderEvent]
  split_ifs
  · exact h
  · exact rewriteStatus_wf _ h

/-- An event in which only the retarder changes: the channels and every other block's state are the change's own. -/
theorem endHoldOff_wf (x : HoldOff) {s : State} (h : s.mem.wf = true) : (endHoldOff x s).mem.wf = true := by
  unfold endHoldOff; exact raiseEvent_wf _ _ _ _ (by simpa using h)

/-! ### The channels -/

@[simp] theorem closeEpisode_clock (c : Fin 6) (reason : CloseReason) (s : State) :
    (closeEpisode c reason s).clock = s.clock := by
  unfold closeEpisode; dsimp only; split <;> simp

@[simp] theorem closeEpisode_held (c : Fin 6) (reason : CloseReason) (s : State) :
    (closeEpisode c reason s).held = s.held := by
  unfold closeEpisode; dsimp only; split <;> simp

@[simp] theorem closeEpisode_wheels (c : Fin 6) (reason : CloseReason) (s : State) :
    (closeEpisode c reason s).wheels = s.wheels := by
  unfold closeEpisode; dsimp only; split <;> simp

@[simp] theorem closeEpisode_reg (c : Fin 6) (reason : CloseReason) (s : State) :
    (closeEpisode c reason s).reg = s.reg := by
  unfold closeEpisode; dsimp only; split <;> simp

@[simp] theorem closeEpisode_pcu (c : Fin 6) (reason : CloseReason) (s : State) :
    (closeEpisode c reason s).pcu = s.pcu := by
  unfold closeEpisode; dsimp only; split <;> simp

@[simp] theorem closeEpisode_dtu (c : Fin 6) (reason : CloseReason) (s : State) :
    (closeEpisode c reason s).dtu = s.dtu := by
  unfold closeEpisode; dsimp only; split <;> simp

@[simp] theorem closeEpisode_smn (c : Fin 6) (reason : CloseReason) (s : State) :
    (closeEpisode c reason s).smn = s.smn := by
  unfold closeEpisode; dsimp only; split <;> simp

@[simp] theorem closeEpisode_rbu (c : Fin 6) (reason : CloseReason) (s : State) :
    (closeEpisode c reason s).rbu = s.rbu := by
  unfold closeEpisode; dsimp only; split <;> simp

@[simp] theorem closeEpisode_draws (c : Fin 6) (reason : CloseReason) (s : State) :
    (closeEpisode c reason s).draws = s.draws := by
  unfold closeEpisode; dsimp only; split <;> simp

@[simp] theorem closeEpisode_pending (c : Fin 6) (reason : CloseReason) (s : State) :
    (closeEpisode c reason s).pending = s.pending := by
  unfold closeEpisode; dsimp only; split <;> simp

@[simp] theorem applyStaged_clock (c : Fin 6) (s : State) :
    (applyStaged c s).clock = s.clock := by
  unfold applyStaged; dsimp only; split <;> simp

@[simp] theorem applyStaged_held (c : Fin 6) (s : State) :
    (applyStaged c s).held = s.held := by
  unfold applyStaged; dsimp only; split <;> simp

@[simp] theorem applyStaged_wheels (c : Fin 6) (s : State) :
    (applyStaged c s).wheels = s.wheels := by
  unfold applyStaged; dsimp only; split <;> simp

@[simp] theorem applyStaged_reg (c : Fin 6) (s : State) :
    (applyStaged c s).reg = s.reg := by
  unfold applyStaged; dsimp only; split <;> simp

@[simp] theorem applyStaged_pcu (c : Fin 6) (s : State) :
    (applyStaged c s).pcu = s.pcu := by
  unfold applyStaged; dsimp only; split <;> simp

@[simp] theorem applyStaged_dtu (c : Fin 6) (s : State) :
    (applyStaged c s).dtu = s.dtu := by
  unfold applyStaged; dsimp only; split <;> simp

@[simp] theorem applyStaged_smn (c : Fin 6) (s : State) :
    (applyStaged c s).smn = s.smn := by
  unfold applyStaged; dsimp only; split <;> simp

@[simp] theorem applyStaged_rbu (c : Fin 6) (s : State) :
    (applyStaged c s).rbu = s.rbu := by
  unfold applyStaged; dsimp only; split <;> simp

@[simp] theorem applyStaged_draws (c : Fin 6) (s : State) :
    (applyStaged c s).draws = s.draws := by
  unfold applyStaged; dsimp only; split <;> simp

@[simp] theorem applyStaged_pending (c : Fin 6) (s : State) :
    (applyStaged c s).pending = s.pending := by
  unfold applyStaged; dsimp only; split <;> simp

@[simp] theorem enter_clock (c : Fin 6) (new : ChannelState) (s : State) :
    (enter c new s).clock = s.clock := by
  unfold enter; cases new <;> simp

@[simp] theorem enter_held (c : Fin 6) (new : ChannelState) (s : State) :
    (enter c new s).held = s.held := by
  unfold enter; cases new <;> simp

@[simp] theorem enter_wheels (c : Fin 6) (new : ChannelState) (s : State) :
    (enter c new s).wheels = s.wheels := by
  unfold enter; cases new <;> simp

@[simp] theorem enter_reg (c : Fin 6) (new : ChannelState) (s : State) :
    (enter c new s).reg = s.reg := by
  unfold enter; cases new <;> simp

@[simp] theorem enter_pcu (c : Fin 6) (new : ChannelState) (s : State) :
    (enter c new s).pcu = s.pcu := by
  unfold enter; cases new <;> simp

@[simp] theorem enter_dtu (c : Fin 6) (new : ChannelState) (s : State) :
    (enter c new s).dtu = s.dtu := by
  unfold enter; cases new <;> simp

@[simp] theorem enter_smn (c : Fin 6) (new : ChannelState) (s : State) :
    (enter c new s).smn = s.smn := by
  unfold enter; cases new <;> simp

@[simp] theorem enter_rbu (c : Fin 6) (new : ChannelState) (s : State) :
    (enter c new s).rbu = s.rbu := by
  unfold enter; cases new <;> simp

@[simp] theorem enter_draws (c : Fin 6) (new : ChannelState) (s : State) :
    (enter c new s).draws = s.draws := by
  unfold enter; cases new <;> simp

@[simp] theorem enter_pending (c : Fin 6) (new : ChannelState) (s : State) :
    (enter c new s).pending = s.pending := by
  unfold enter; cases new <;> simp

@[simp] theorem endTest_clock (c : Fin 6) (status : Status) (s : State) :
    (endTest c status s).clock = s.clock := by
  unfold endTest; dsimp only; split <;> simp

@[simp] theorem endTest_held (c : Fin 6) (status : Status) (s : State) :
    (endTest c status s).held = s.held := by
  unfold endTest; dsimp only; split <;> simp

@[simp] theorem endTest_wheels (c : Fin 6) (status : Status) (s : State) :
    (endTest c status s).wheels = s.wheels := by
  unfold endTest; dsimp only; split <;> simp

@[simp] theorem endTest_reg (c : Fin 6) (status : Status) (s : State) :
    (endTest c status s).reg = s.reg := by
  unfold endTest; dsimp only; split <;> simp

@[simp] theorem endTest_pcu (c : Fin 6) (status : Status) (s : State) :
    (endTest c status s).pcu = s.pcu := by
  unfold endTest; dsimp only; split <;> simp

@[simp] theorem endTest_dtu (c : Fin 6) (status : Status) (s : State) :
    (endTest c status s).dtu = s.dtu := by
  unfold endTest; dsimp only; split <;> simp

@[simp] theorem endTest_smn (c : Fin 6) (status : Status) (s : State) :
    (endTest c status s).smn = s.smn := by
  unfold endTest; dsimp only; split <;> simp

@[simp] theorem endTest_rbu (c : Fin 6) (status : Status) (s : State) :
    (endTest c status s).rbu = s.rbu := by
  unfold endTest; dsimp only; split <;> simp

@[simp] theorem endTest_draws (c : Fin 6) (status : Status) (s : State) :
    (endTest c status s).draws = s.draws := by
  unfold endTest; dsimp only; split <;> simp

@[simp] theorem endTest_pending (c : Fin 6) (status : Status) (s : State) :
    (endTest c status s).pending = s.pending := by
  unfold endTest; dsimp only; split <;> simp

@[simp] theorem abortFault_clock (c : Fin 6) (cause : LockoutCause) (sol : Solenoid) (a : Activity) (s : State) :
    (abortFault c cause sol a s).clock = s.clock := by
  unfold abortFault; split <;> simp

@[simp] theorem abortFault_held (c : Fin 6) (cause : LockoutCause) (sol : Solenoid) (a : Activity) (s : State) :
    (abortFault c cause sol a s).held = s.held := by
  unfold abortFault; split <;> simp

@[simp] theorem abortFault_wheels (c : Fin 6) (cause : LockoutCause) (sol : Solenoid) (a : Activity) (s : State) :
    (abortFault c cause sol a s).wheels = s.wheels := by
  unfold abortFault; split <;> simp

@[simp] theorem abortFault_reg (c : Fin 6) (cause : LockoutCause) (sol : Solenoid) (a : Activity) (s : State) :
    (abortFault c cause sol a s).reg = s.reg := by
  unfold abortFault; split <;> simp

@[simp] theorem abortFault_pcu (c : Fin 6) (cause : LockoutCause) (sol : Solenoid) (a : Activity) (s : State) :
    (abortFault c cause sol a s).pcu = s.pcu := by
  unfold abortFault; split <;> simp

@[simp] theorem abortFault_dtu (c : Fin 6) (cause : LockoutCause) (sol : Solenoid) (a : Activity) (s : State) :
    (abortFault c cause sol a s).dtu = s.dtu := by
  unfold abortFault; split <;> simp

@[simp] theorem abortFault_smn (c : Fin 6) (cause : LockoutCause) (sol : Solenoid) (a : Activity) (s : State) :
    (abortFault c cause sol a s).smn = s.smn := by
  unfold abortFault; split <;> simp

@[simp] theorem abortFault_rbu (c : Fin 6) (cause : LockoutCause) (sol : Solenoid) (a : Activity) (s : State) :
    (abortFault c cause sol a s).rbu = s.rbu := by
  unfold abortFault; split <;> simp

@[simp] theorem abortFault_draws (c : Fin 6) (cause : LockoutCause) (sol : Solenoid) (a : Activity) (s : State) :
    (abortFault c cause sol a s).draws = s.draws := by
  unfold abortFault; split <;> simp

@[simp] theorem abortFault_pending (c : Fin 6) (cause : LockoutCause) (sol : Solenoid) (a : Activity) (s : State) :
    (abortFault c cause sol a s).pending = s.pending := by
  unfold abortFault; split <;> simp

@[simp] theorem lockOut_clock (c : Fin 6) (cause : LockoutCause) (sol : Solenoid) (s : State) :
    (lockOut c cause sol s).clock = s.clock := by
  simp [lockOut]

@[simp] theorem lockOut_held (c : Fin 6) (cause : LockoutCause) (sol : Solenoid) (s : State) :
    (lockOut c cause sol s).held = s.held := by
  simp [lockOut]

@[simp] theorem lockOut_wheels (c : Fin 6) (cause : LockoutCause) (sol : Solenoid) (s : State) :
    (lockOut c cause sol s).wheels = s.wheels := by
  simp [lockOut]

@[simp] theorem lockOut_reg (c : Fin 6) (cause : LockoutCause) (sol : Solenoid) (s : State) :
    (lockOut c cause sol s).reg = s.reg := by
  simp [lockOut]

@[simp] theorem lockOut_pcu (c : Fin 6) (cause : LockoutCause) (sol : Solenoid) (s : State) :
    (lockOut c cause sol s).pcu = s.pcu := by
  simp [lockOut]

@[simp] theorem lockOut_dtu (c : Fin 6) (cause : LockoutCause) (sol : Solenoid) (s : State) :
    (lockOut c cause sol s).dtu = s.dtu := by
  simp [lockOut]

@[simp] theorem lockOut_smn (c : Fin 6) (cause : LockoutCause) (sol : Solenoid) (s : State) :
    (lockOut c cause sol s).smn = s.smn := by
  simp [lockOut]

@[simp] theorem lockOut_rbu (c : Fin 6) (cause : LockoutCause) (sol : Solenoid) (s : State) :
    (lockOut c cause sol s).rbu = s.rbu := by
  simp [lockOut]

@[simp] theorem lockOut_draws (c : Fin 6) (cause : LockoutCause) (sol : Solenoid) (s : State) :
    (lockOut c cause sol s).draws = s.draws := by
  simp [lockOut]

@[simp] theorem lockOut_pending (c : Fin 6) (cause : LockoutCause) (sol : Solenoid) (s : State) :
    (lockOut c cause sol s).pending = s.pending := by
  simp [lockOut]

@[simp] theorem takeToIdle_clock (c : Fin 6) (s : State) :
    (takeToIdle c s).clock = s.clock := by
  unfold takeToIdle; split_ifs <;> simp

@[simp] theorem takeToIdle_held (c : Fin 6) (s : State) :
    (takeToIdle c s).held = s.held := by
  unfold takeToIdle; split_ifs <;> simp

@[simp] theorem takeToIdle_wheels (c : Fin 6) (s : State) :
    (takeToIdle c s).wheels = s.wheels := by
  unfold takeToIdle; split_ifs <;> simp

@[simp] theorem takeToIdle_reg (c : Fin 6) (s : State) :
    (takeToIdle c s).reg = s.reg := by
  unfold takeToIdle; split_ifs <;> simp

@[simp] theorem takeToIdle_pcu (c : Fin 6) (s : State) :
    (takeToIdle c s).pcu = s.pcu := by
  unfold takeToIdle; split_ifs <;> simp

@[simp] theorem takeToIdle_dtu (c : Fin 6) (s : State) :
    (takeToIdle c s).dtu = s.dtu := by
  unfold takeToIdle; split_ifs <;> simp

@[simp] theorem takeToIdle_smn (c : Fin 6) (s : State) :
    (takeToIdle c s).smn = s.smn := by
  unfold takeToIdle; split_ifs <;> simp

@[simp] theorem takeToIdle_rbu (c : Fin 6) (s : State) :
    (takeToIdle c s).rbu = s.rbu := by
  unfold takeToIdle; split_ifs <;> simp

@[simp] theorem takeToIdle_draws (c : Fin 6) (s : State) :
    (takeToIdle c s).draws = s.draws := by
  unfold takeToIdle; split_ifs <;> simp

@[simp] theorem takeToIdle_pending (c : Fin 6) (s : State) :
    (takeToIdle c s).pending = s.pending := by
  unfold takeToIdle; split_ifs <;> simp

@[simp] theorem brakingAbsent_clock (c : Fin 6) (cause : AbsenceCause) (s : State) :
    (brakingAbsent c cause s).clock = s.clock := by
  unfold brakingAbsent; dsimp only; split_ifs <;> simp

@[simp] theorem brakingAbsent_held (c : Fin 6) (cause : AbsenceCause) (s : State) :
    (brakingAbsent c cause s).held = s.held := by
  unfold brakingAbsent; dsimp only; split_ifs <;> simp

@[simp] theorem brakingAbsent_wheels (c : Fin 6) (cause : AbsenceCause) (s : State) :
    (brakingAbsent c cause s).wheels = s.wheels := by
  unfold brakingAbsent; dsimp only; split_ifs <;> simp

@[simp] theorem brakingAbsent_reg (c : Fin 6) (cause : AbsenceCause) (s : State) :
    (brakingAbsent c cause s).reg = s.reg := by
  unfold brakingAbsent; dsimp only; split_ifs <;> simp

@[simp] theorem brakingAbsent_pcu (c : Fin 6) (cause : AbsenceCause) (s : State) :
    (brakingAbsent c cause s).pcu = s.pcu := by
  unfold brakingAbsent; dsimp only; split_ifs <;> simp

@[simp] theorem brakingAbsent_dtu (c : Fin 6) (cause : AbsenceCause) (s : State) :
    (brakingAbsent c cause s).dtu = s.dtu := by
  unfold brakingAbsent; dsimp only; split_ifs <;> simp

@[simp] theorem brakingAbsent_smn (c : Fin 6) (cause : AbsenceCause) (s : State) :
    (brakingAbsent c cause s).smn = s.smn := by
  unfold brakingAbsent; dsimp only; split_ifs <;> simp

@[simp] theorem brakingAbsent_rbu (c : Fin 6) (cause : AbsenceCause) (s : State) :
    (brakingAbsent c cause s).rbu = s.rbu := by
  unfold brakingAbsent; dsimp only; split_ifs <;> simp

@[simp] theorem brakingAbsent_draws (c : Fin 6) (cause : AbsenceCause) (s : State) :
    (brakingAbsent c cause s).draws = s.draws := by
  unfold brakingAbsent; dsimp only; split_ifs <;> simp

@[simp] theorem brakingAbsent_pending (c : Fin 6) (cause : AbsenceCause) (s : State) :
    (brakingAbsent c cause s).pending = s.pending := by
  unfold brakingAbsent; dsimp only; split_ifs <;> simp

@[simp] theorem brakingPresent_clock (c : Fin 6) (p : Profile) (s : State) :
    (brakingPresent c p s).clock = s.clock := by
  unfold brakingPresent; dsimp only; split_ifs <;> simp

@[simp] theorem brakingPresent_held (c : Fin 6) (p : Profile) (s : State) :
    (brakingPresent c p s).held = s.held := by
  unfold brakingPresent; dsimp only; split_ifs <;> simp

@[simp] theorem brakingPresent_wheels (c : Fin 6) (p : Profile) (s : State) :
    (brakingPresent c p s).wheels = s.wheels := by
  unfold brakingPresent; dsimp only; split_ifs <;> simp

@[simp] theorem brakingPresent_reg (c : Fin 6) (p : Profile) (s : State) :
    (brakingPresent c p s).reg = s.reg := by
  unfold brakingPresent; dsimp only; split_ifs <;> simp

@[simp] theorem brakingPresent_pcu (c : Fin 6) (p : Profile) (s : State) :
    (brakingPresent c p s).pcu = s.pcu := by
  unfold brakingPresent; dsimp only; split_ifs <;> simp

@[simp] theorem brakingPresent_dtu (c : Fin 6) (p : Profile) (s : State) :
    (brakingPresent c p s).dtu = s.dtu := by
  unfold brakingPresent; dsimp only; split_ifs <;> simp

@[simp] theorem brakingPresent_smn (c : Fin 6) (p : Profile) (s : State) :
    (brakingPresent c p s).smn = s.smn := by
  unfold brakingPresent; dsimp only; split_ifs <;> simp

@[simp] theorem brakingPresent_rbu (c : Fin 6) (p : Profile) (s : State) :
    (brakingPresent c p s).rbu = s.rbu := by
  unfold brakingPresent; dsimp only; split_ifs <;> simp

@[simp] theorem brakingPresent_draws (c : Fin 6) (p : Profile) (s : State) :
    (brakingPresent c p s).draws = s.draws := by
  unfold brakingPresent; dsimp only; split_ifs <;> simp

@[simp] theorem brakingPresent_pending (c : Fin 6) (p : Profile) (s : State) :
    (brakingPresent c p s).pending = s.pending := by
  unfold brakingPresent; dsimp only; split_ifs <;> simp

@[simp] theorem notePeak_clock (c : Fin 6) (s : State) :
    (notePeak c s).clock = s.clock := by
  simp [notePeak]

@[simp] theorem notePeak_held (c : Fin 6) (s : State) :
    (notePeak c s).held = s.held := by
  simp [notePeak]

@[simp] theorem notePeak_wheels (c : Fin 6) (s : State) :
    (notePeak c s).wheels = s.wheels := by
  simp [notePeak]

@[simp] theorem notePeak_reg (c : Fin 6) (s : State) :
    (notePeak c s).reg = s.reg := by
  simp [notePeak]

@[simp] theorem notePeak_pcu (c : Fin 6) (s : State) :
    (notePeak c s).pcu = s.pcu := by
  simp [notePeak]

@[simp] theorem notePeak_dtu (c : Fin 6) (s : State) :
    (notePeak c s).dtu = s.dtu := by
  simp [notePeak]

@[simp] theorem notePeak_smn (c : Fin 6) (s : State) :
    (notePeak c s).smn = s.smn := by
  simp [notePeak]

@[simp] theorem notePeak_rbu (c : Fin 6) (s : State) :
    (notePeak c s).rbu = s.rbu := by
  simp [notePeak]

@[simp] theorem notePeak_draws (c : Fin 6) (s : State) :
    (notePeak c s).draws = s.draws := by
  simp [notePeak]

@[simp] theorem notePeak_pending (c : Fin 6) (s : State) :
    (notePeak c s).pending = s.pending := by
  simp [notePeak]

@[simp] theorem notePeak_lnc (c : Fin 6) (s : State) :
    (notePeak c s).lnc = s.lnc := by
  simp [notePeak]

@[simp] theorem notePeak_mem (c : Fin 6) (s : State) :
    (notePeak c s).mem = s.mem := by
  simp [notePeak]

@[simp] theorem checkChannel_clock (c : Fin 6) (s : State) :
    (checkChannel c s).clock = s.clock := by
  unfold checkChannel; dsimp only; (repeat' split) <;> simp

@[simp] theorem checkChannel_held (c : Fin 6) (s : State) :
    (checkChannel c s).held = s.held := by
  unfold checkChannel; dsimp only; (repeat' split) <;> simp

@[simp] theorem checkChannel_wheels (c : Fin 6) (s : State) :
    (checkChannel c s).wheels = s.wheels := by
  unfold checkChannel; dsimp only; (repeat' split) <;> simp

@[simp] theorem checkChannel_reg (c : Fin 6) (s : State) :
    (checkChannel c s).reg = s.reg := by
  unfold checkChannel; dsimp only; (repeat' split) <;> simp

@[simp] theorem checkChannel_pcu (c : Fin 6) (s : State) :
    (checkChannel c s).pcu = s.pcu := by
  unfold checkChannel; dsimp only; (repeat' split) <;> simp

@[simp] theorem checkChannel_dtu (c : Fin 6) (s : State) :
    (checkChannel c s).dtu = s.dtu := by
  unfold checkChannel; dsimp only; (repeat' split) <;> simp

@[simp] theorem checkChannel_smn (c : Fin 6) (s : State) :
    (checkChannel c s).smn = s.smn := by
  unfold checkChannel; dsimp only; (repeat' split) <;> simp

@[simp] theorem checkChannel_rbu (c : Fin 6) (s : State) :
    (checkChannel c s).rbu = s.rbu := by
  unfold checkChannel; dsimp only; (repeat' split) <;> simp

@[simp] theorem checkChannel_draws (c : Fin 6) (s : State) :
    (checkChannel c s).draws = s.draws := by
  unfold checkChannel; dsimp only; (repeat' split) <;> simp

@[simp] theorem checkChannel_pending (c : Fin 6) (s : State) :
    (checkChannel c s).pending = s.pending := by
  unfold checkChannel; dsimp only; (repeat' split) <;> simp

@[simp] theorem disarmChannel_clock (c : Fin 6) (s : State) :
    (disarmChannel c s).clock = s.clock := by
  unfold disarmChannel; split <;> simp

@[simp] theorem disarmChannel_held (c : Fin 6) (s : State) :
    (disarmChannel c s).held = s.held := by
  unfold disarmChannel; split <;> simp

@[simp] theorem disarmChannel_wheels (c : Fin 6) (s : State) :
    (disarmChannel c s).wheels = s.wheels := by
  unfold disarmChannel; split <;> simp

@[simp] theorem disarmChannel_reg (c : Fin 6) (s : State) :
    (disarmChannel c s).reg = s.reg := by
  unfold disarmChannel; split <;> simp

@[simp] theorem disarmChannel_pcu (c : Fin 6) (s : State) :
    (disarmChannel c s).pcu = s.pcu := by
  unfold disarmChannel; split <;> simp

@[simp] theorem disarmChannel_dtu (c : Fin 6) (s : State) :
    (disarmChannel c s).dtu = s.dtu := by
  unfold disarmChannel; split <;> simp

@[simp] theorem disarmChannel_smn (c : Fin 6) (s : State) :
    (disarmChannel c s).smn = s.smn := by
  unfold disarmChannel; split <;> simp

@[simp] theorem disarmChannel_rbu (c : Fin 6) (s : State) :
    (disarmChannel c s).rbu = s.rbu := by
  unfold disarmChannel; split <;> simp

@[simp] theorem disarmChannel_draws (c : Fin 6) (s : State) :
    (disarmChannel c s).draws = s.draws := by
  unfold disarmChannel; split <;> simp

@[simp] theorem disarmChannel_pending (c : Fin 6) (s : State) :
    (disarmChannel c s).pending = s.pending := by
  unfold disarmChannel; split <;> simp

@[simp] theorem channelCritical_clock (c : Fin 6) (s : State) :
    (channelCritical c s).clock = s.clock := by
  unfold channelCritical; split <;> simp

@[simp] theorem channelCritical_held (c : Fin 6) (s : State) :
    (channelCritical c s).held = s.held := by
  unfold channelCritical; split <;> simp

@[simp] theorem channelCritical_wheels (c : Fin 6) (s : State) :
    (channelCritical c s).wheels = s.wheels := by
  unfold channelCritical; split <;> simp

@[simp] theorem channelCritical_reg (c : Fin 6) (s : State) :
    (channelCritical c s).reg = s.reg := by
  unfold channelCritical; split <;> simp

@[simp] theorem channelCritical_pcu (c : Fin 6) (s : State) :
    (channelCritical c s).pcu = s.pcu := by
  unfold channelCritical; split <;> simp

@[simp] theorem channelCritical_dtu (c : Fin 6) (s : State) :
    (channelCritical c s).dtu = s.dtu := by
  unfold channelCritical; split <;> simp

@[simp] theorem channelCritical_smn (c : Fin 6) (s : State) :
    (channelCritical c s).smn = s.smn := by
  unfold channelCritical; split <;> simp

@[simp] theorem channelCritical_rbu (c : Fin 6) (s : State) :
    (channelCritical c s).rbu = s.rbu := by
  unfold channelCritical; split <;> simp

@[simp] theorem channelCritical_draws (c : Fin 6) (s : State) :
    (channelCritical c s).draws = s.draws := by
  unfold channelCritical; split <;> simp

@[simp] theorem channelCritical_pending (c : Fin 6) (s : State) :
    (channelCritical c s).pending = s.pending := by
  unfold channelCritical; split <;> simp

@[simp] theorem countVentStrike_clock (c : Fin 6) (s : State) :
    (countVentStrike c s).clock = s.clock := by
  simp [countVentStrike]

@[simp] theorem countVentStrike_held (c : Fin 6) (s : State) :
    (countVentStrike c s).held = s.held := by
  simp [countVentStrike]

@[simp] theorem countVentStrike_wheels (c : Fin 6) (s : State) :
    (countVentStrike c s).wheels = s.wheels := by
  simp [countVentStrike]

@[simp] theorem countVentStrike_reg (c : Fin 6) (s : State) :
    (countVentStrike c s).reg = s.reg := by
  simp [countVentStrike]

@[simp] theorem countVentStrike_pcu (c : Fin 6) (s : State) :
    (countVentStrike c s).pcu = s.pcu := by
  simp [countVentStrike]

@[simp] theorem countVentStrike_dtu (c : Fin 6) (s : State) :
    (countVentStrike c s).dtu = s.dtu := by
  simp [countVentStrike]

@[simp] theorem countVentStrike_smn (c : Fin 6) (s : State) :
    (countVentStrike c s).smn = s.smn := by
  simp [countVentStrike]

@[simp] theorem countVentStrike_rbu (c : Fin 6) (s : State) :
    (countVentStrike c s).rbu = s.rbu := by
  simp [countVentStrike]

@[simp] theorem countVentStrike_draws (c : Fin 6) (s : State) :
    (countVentStrike c s).draws = s.draws := by
  simp [countVentStrike]

@[simp] theorem countVentStrike_pending (c : Fin 6) (s : State) :
    (countVentStrike c s).pending = s.pending := by
  simp [countVentStrike]

theorem closeEpisode_wf (c : Fin 6) (reason : CloseReason) {s : State} (h : s.mem.wf = true) :
    (closeEpisode c reason s).mem.wf = true := by
  unfold closeEpisode; dsimp only; split
  · exact h
  · exact raiseEpisode_wf _ h

theorem applyStaged_wf (c : Fin 6) {s : State} (h : s.mem.wf = true) :
    (applyStaged c s).mem.wf = true := by
  unfold applyStaged; dsimp only; split
  · exact h
  · exact raiseEvent_wf _ _ _ _ h

theorem enter_wf (c : Fin 6) (new : ChannelState) {s : State} (h : s.mem.wf = true) :
    (enter c new s).mem.wf = true := by
  unfold enter; cases new <;> first | exact h | exact applyStaged_wf _ h

theorem endTest_wf (c : Fin 6) (status : Status) {s : State} (h : s.mem.wf = true) :
    (endTest c status s).mem.wf = true := by
  unfold endTest; dsimp only; split
  · exact respond_wf _ _ _ _ (enter_wf _ _ h)
  all_goals exact enter_wf _ _ h

theorem abortFault_wf (c : Fin 6) (cause : LockoutCause) (sol : Solenoid) (a : Activity) {s : State} (h : s.mem.wf = true) :
    (abortFault c cause sol a s).mem.wf = true := by
  unfold abortFault; split
  · exact respond_wf _ _ _ _ h
  all_goals exact h

theorem lockOut_wf (c : Fin 6) (cause : LockoutCause) (sol : Solenoid) {s : State} (h : s.mem.wf = true) :
    (lockOut c cause sol s).mem.wf = true := by
  unfold lockOut
  exact applyStaged_wf _ (raiseEvent_wf _ _ _ _ (closeEpisode_wf _ _ (abortFault_wf _ _ _ _ h)))

theorem takeToIdle_wf (c : Fin 6) {s : State} (h : s.mem.wf = true) :
    (takeToIdle c s).mem.wf = true := by
  unfold takeToIdle; split_ifs
  · exact h
  all_goals exact enter_wf _ _ (closeEpisode_wf _ _ h)

theorem brakingAbsent_wf (c : Fin 6) (cause : AbsenceCause) {s : State} (h : s.mem.wf = true) :
    (brakingAbsent c cause s).mem.wf = true := by
  unfold brakingAbsent; dsimp only; split_ifs
  · exact enter_wf _ _ (closeEpisode_wf _ _ h)
  · exact closeEpisode_wf _ _ h

theorem brakingPresent_wf (c : Fin 6) (p : Profile) {s : State} (h : s.mem.wf = true) :
    (brakingPresent c p s).mem.wf = true := by
  unfold brakingPresent; dsimp only; split_ifs
  · exact h
  all_goals exact enter_wf _ _ h

theorem checkChannel_wf (c : Fin 6) {s : State} (h : s.mem.wf = true) :
    (checkChannel c s).mem.wf = true := by
  have hn : (notePeak c s).mem.wf = true := by simpa using h
  unfold checkChannel; dsimp only; generalize notePeak c s = u at hn ⊢; repeat' split
  all_goals with_reducible first
    | exact hn | exact endTest_wf _ _ hn | exact takeToIdle_wf _ hn | exact lockOut_wf _ _ _ hn | exact enter_wf _ _ hn
    | exact brakingAbsent_wf _ _ hn | exact brakingPresent_wf _ _ hn

theorem disarmChannel_wf (c : Fin 6) {s : State} (h : s.mem.wf = true) :
    (disarmChannel c s).mem.wf = true := by
  unfold disarmChannel; split
  all_goals first | exact h | exact enter_wf _ _ (closeEpisode_wf _ _ h)

theorem channelCritical_wf (c : Fin 6) {s : State} (h : s.mem.wf = true) :
    (channelCritical c s).mem.wf = true := by
  unfold channelCritical; split
  all_goals first
    | exact h | exact enter_wf _ _ (closeEpisode_wf _ _ h) | exact closeEpisode_wf _ _ h | exact endTest_wf _ _ h

theorem countVentStrike_wf (c : Fin 6) {s : State} (h : s.mem.wf = true) :
    (countVentStrike c s).mem.wf = true := raiseEvent_wf _ _ _ _ h

/-! ### The drums -/

@[simp] theorem rewriteDrum_clock (d : Fin 6) (s : State) :
    (rewriteDrum d s).clock = s.clock := by
  simp [rewriteDrum]

@[simp] theorem rewriteDrum_held (d : Fin 6) (s : State) :
    (rewriteDrum d s).held = s.held := by
  simp [rewriteDrum]

@[simp] theorem rewriteDrum_wheels (d : Fin 6) (s : State) :
    (rewriteDrum d s).wheels = s.wheels := by
  simp [rewriteDrum]

@[simp] theorem rewriteDrum_reg (d : Fin 6) (s : State) :
    (rewriteDrum d s).reg = s.reg := by
  simp [rewriteDrum]

@[simp] theorem rewriteDrum_channels (d : Fin 6) (s : State) :
    (rewriteDrum d s).channels = s.channels := by
  simp [rewriteDrum]

@[simp] theorem rewriteDrum_pcu (d : Fin 6) (s : State) :
    (rewriteDrum d s).pcu = s.pcu := by
  simp [rewriteDrum]

@[simp] theorem rewriteDrum_smn (d : Fin 6) (s : State) :
    (rewriteDrum d s).smn = s.smn := by
  simp [rewriteDrum]

@[simp] theorem rewriteDrum_rbu (d : Fin 6) (s : State) :
    (rewriteDrum d s).rbu = s.rbu := by
  simp [rewriteDrum]

@[simp] theorem rewriteDrum_draws (d : Fin 6) (s : State) :
    (rewriteDrum d s).draws = s.draws := by
  simp [rewriteDrum]

@[simp] theorem rewriteDrum_pending (d : Fin 6) (s : State) :
    (rewriteDrum d s).pending = s.pending := by
  simp [rewriteDrum]

@[simp] theorem rewriteDrum_dtu (d : Fin 6) (s : State) :
    (rewriteDrum d s).dtu = s.dtu := by
  simp [rewriteDrum]

@[simp] theorem rewriteDrum_lnc (d : Fin 6) (s : State) :
    (rewriteDrum d s).lnc = s.lnc := by
  simp [rewriteDrum]

@[simp] theorem rewriteDrums_clock (s : State) :
    (rewriteDrums s).clock = s.clock := by
  exact forEach_keeps State.clock (fun i t => rewriteDrum_clock i t) s

@[simp] theorem rewriteDrums_held (s : State) :
    (rewriteDrums s).held = s.held := by
  exact forEach_keeps State.held (fun i t => rewriteDrum_held i t) s

@[simp] theorem rewriteDrums_wheels (s : State) :
    (rewriteDrums s).wheels = s.wheels := by
  exact forEach_keeps State.wheels (fun i t => rewriteDrum_wheels i t) s

@[simp] theorem rewriteDrums_reg (s : State) :
    (rewriteDrums s).reg = s.reg := by
  exact forEach_keeps State.reg (fun i t => rewriteDrum_reg i t) s

@[simp] theorem rewriteDrums_channels (s : State) :
    (rewriteDrums s).channels = s.channels := by
  exact forEach_keeps State.channels (fun i t => rewriteDrum_channels i t) s

@[simp] theorem rewriteDrums_pcu (s : State) :
    (rewriteDrums s).pcu = s.pcu := by
  exact forEach_keeps State.pcu (fun i t => rewriteDrum_pcu i t) s

@[simp] theorem rewriteDrums_smn (s : State) :
    (rewriteDrums s).smn = s.smn := by
  exact forEach_keeps State.smn (fun i t => rewriteDrum_smn i t) s

@[simp] theorem rewriteDrums_rbu (s : State) :
    (rewriteDrums s).rbu = s.rbu := by
  exact forEach_keeps State.rbu (fun i t => rewriteDrum_rbu i t) s

@[simp] theorem rewriteDrums_draws (s : State) :
    (rewriteDrums s).draws = s.draws := by
  exact forEach_keeps State.draws (fun i t => rewriteDrum_draws i t) s

@[simp] theorem rewriteDrums_pending (s : State) :
    (rewriteDrums s).pending = s.pending := by
  exact forEach_keeps State.pending (fun i t => rewriteDrum_pending i t) s

@[simp] theorem rewriteDrums_dtu (s : State) :
    (rewriteDrums s).dtu = s.dtu := by
  exact forEach_keeps State.dtu (fun i t => rewriteDrum_dtu i t) s

@[simp] theorem rewriteDrums_lnc (s : State) :
    (rewriteDrums s).lnc = s.lnc := by
  exact forEach_keeps State.lnc (fun i t => rewriteDrum_lnc i t) s

@[simp] theorem beginMeasurement_clock (e : QueueEntry) (rest : List QueueEntry) (s : State) :
    (beginMeasurement e rest s).clock = s.clock := by
  simp [beginMeasurement]

@[simp] theorem beginMeasurement_held (e : QueueEntry) (rest : List QueueEntry) (s : State) :
    (beginMeasurement e rest s).held = s.held := by
  simp [beginMeasurement]

@[simp] theorem beginMeasurement_wheels (e : QueueEntry) (rest : List QueueEntry) (s : State) :
    (beginMeasurement e rest s).wheels = s.wheels := by
  simp [beginMeasurement]

@[simp] theorem beginMeasurement_reg (e : QueueEntry) (rest : List QueueEntry) (s : State) :
    (beginMeasurement e rest s).reg = s.reg := by
  simp [beginMeasurement]

@[simp] theorem beginMeasurement_channels (e : QueueEntry) (rest : List QueueEntry) (s : State) :
    (beginMeasurement e rest s).channels = s.channels := by
  simp [beginMeasurement]

@[simp] theorem beginMeasurement_pcu (e : QueueEntry) (rest : List QueueEntry) (s : State) :
    (beginMeasurement e rest s).pcu = s.pcu := by
  simp [beginMeasurement]

@[simp] theorem beginMeasurement_smn (e : QueueEntry) (rest : List QueueEntry) (s : State) :
    (beginMeasurement e rest s).smn = s.smn := by
  simp [beginMeasurement]

@[simp] theorem beginMeasurement_rbu (e : QueueEntry) (rest : List QueueEntry) (s : State) :
    (beginMeasurement e rest s).rbu = s.rbu := by
  simp [beginMeasurement]

@[simp] theorem beginMeasurement_draws (e : QueueEntry) (rest : List QueueEntry) (s : State) :
    (beginMeasurement e rest s).draws = s.draws := by
  simp [beginMeasurement]

@[simp] theorem beginMeasurement_pending (e : QueueEntry) (rest : List QueueEntry) (s : State) :
    (beginMeasurement e rest s).pending = s.pending := by
  simp [beginMeasurement]

@[simp] theorem beginMeasurement_lnc (e : QueueEntry) (rest : List QueueEntry) (s : State) :
    (beginMeasurement e rest s).lnc = s.lnc := by
  simp [beginMeasurement]

@[simp] theorem startIfAllowed_clock (s : State) :
    (startIfAllowed s).clock = s.clock := by
  unfold startIfAllowed; split <;> [split_ifs; skip; skip] <;> simp

@[simp] theorem startIfAllowed_held (s : State) :
    (startIfAllowed s).held = s.held := by
  unfold startIfAllowed; split <;> [split_ifs; skip; skip] <;> simp

@[simp] theorem startIfAllowed_wheels (s : State) :
    (startIfAllowed s).wheels = s.wheels := by
  unfold startIfAllowed; split <;> [split_ifs; skip; skip] <;> simp

@[simp] theorem startIfAllowed_reg (s : State) :
    (startIfAllowed s).reg = s.reg := by
  unfold startIfAllowed; split <;> [split_ifs; skip; skip] <;> simp

@[simp] theorem startIfAllowed_channels (s : State) :
    (startIfAllowed s).channels = s.channels := by
  unfold startIfAllowed; split <;> [split_ifs; skip; skip] <;> simp

@[simp] theorem startIfAllowed_pcu (s : State) :
    (startIfAllowed s).pcu = s.pcu := by
  unfold startIfAllowed; split <;> [split_ifs; skip; skip] <;> simp

@[simp] theorem startIfAllowed_smn (s : State) :
    (startIfAllowed s).smn = s.smn := by
  unfold startIfAllowed; split <;> [split_ifs; skip; skip] <;> simp

@[simp] theorem startIfAllowed_rbu (s : State) :
    (startIfAllowed s).rbu = s.rbu := by
  unfold startIfAllowed; split <;> [split_ifs; skip; skip] <;> simp

@[simp] theorem startIfAllowed_draws (s : State) :
    (startIfAllowed s).draws = s.draws := by
  unfold startIfAllowed; split <;> [split_ifs; skip; skip] <;> simp

@[simp] theorem startIfAllowed_pending (s : State) :
    (startIfAllowed s).pending = s.pending := by
  unfold startIfAllowed; split <;> [split_ifs; skip; skip] <;> simp

@[simp] theorem startIfAllowed_lnc (s : State) :
    (startIfAllowed s).lnc = s.lnc := by
  unfold startIfAllowed; split <;> [split_ifs; skip; skip] <;> simp

theorem rewriteDrum_wf (d : Fin 6) {s : State} (h : s.mem.wf = true) :
    (rewriteDrum d s).mem.wf = true := rewrite_wf h

theorem rewriteDrums_wf {s : State} (h : s.mem.wf = true) :
    (rewriteDrums s).mem.wf = true := forEach_induction (P := fun t => t.mem.wf = true) (fun i _ ht => rewriteDrum_wf i ht) h

theorem beginMeasurement_wf (e : QueueEntry) (rest : List QueueEntry) {s : State} (h : s.mem.wf = true) :
    (beginMeasurement e rest s).mem.wf = true := 
  rewriteDrum_wf _ h

theorem startIfAllowed_wf {s : State} (h : s.mem.wf = true) :
    (startIfAllowed s).mem.wf = true := by
  unfold startIfAllowed; split <;> [split_ifs; skip; skip]
  all_goals with_reducible first | exact h | exact beginMeasurement_wf _ _ h

/-- Answering a list of tags leaves every block but the lanes unchanged. -/
theorem answerTags_keeps {α : Type} (g : State → α)
    (h : ∀ kind tag status result t, g (respond kind tag status result t) = g t)
    (status : Status) (result : List Byte) (tags : List Byte) (s : State) :
    g (answerTags status result tags s) = g s := by
  unfold answerTags
  induction tags generalizing s with
  | nil => rfl
  | cons t ts ih => simp only [List.foldl_cons, ih, h]

/-- Answering a list of tags keeps the memory's form. -/
theorem answerTags_wf (status : Status) (result : List Byte) (tags : List Byte) {s : State} (h : s.mem.wf = true) :
    (answerTags status result tags s).mem.wf = true := by
  unfold answerTags
  induction tags generalizing s with
  | nil => exact h
  | cons t ts ih => exact ih (respond_wf _ _ _ _ h)

/-- A completion keeps the memory's form. -/
theorem completeMeasurement_wf (m : Measurement) (result : DrumResult) (resistance : Nat) (t : Option Int) (nSens : Nat)
    {s : State} (h : s.mem.wf = true) : (completeMeasurement m result resistance t nSens s).mem.wf = true := by
  unfold completeMeasurement
  refine startIfAllowed_wf (rewriteDrum_wf _ (answerTags_wf _ _ _ ?_))
  unfold hotEvent sensorEvent
  split_ifs <;> (try apply raiseEvent_wf) <;> (try apply raiseEvent_wf) <;> exact h

end Sys2Proof.Machine
end

