-- ==== Sys2Proof/Laws/PerInstr.lean ====
section
/-! SUPPORT. Per command: a well-formed request is read back from its frame (11.3, 11.4). -/

namespace Sys2Proof.Laws

/-- A word is its high byte and its low byte. -/
theorem word_bytes (w : Word) : w.extractLsb' 8 8 ++ w.extractLsb' 0 8 = w := by
  ext i hi
  simp only [BitVec.getElem_append, BitVec.getElem_extractLsb']
  split <;> simp_all [BitVec.getLsbD_eq_getElem]

/-- A 32-bit field is its four bytes, read as two words. -/
theorem long_bytes (w : Long) :
    (w.extractLsb' 24 8 ++ w.extractLsb' 16 8) ++ (w.extractLsb' 8 8 ++ w.extractLsb' 0 8) = w := by
  ext i hi
  simp only [BitVec.getElem_append, BitVec.getElem_extractLsb']
  repeat' split
  all_goals simp_all [BitVec.getLsbD_eq_getElem]
  rw [show 24 + (i - 16 - 8) = i by omega, BitVec.getLsbD_eq_getElem]

/-- The two bytes of a word joined again. -/
def join16 (w : Word) : Word := w.extractLsb' 8 8 ++ w.extractLsb' 0 8

/-- The four bytes of a 32-bit field joined again. -/
def join32 (w : Long) : Long :=
  (w.extractLsb' 24 8 ++ w.extractLsb' 16 8) ++ (w.extractLsb' 8 8 ++ w.extractLsb' 0 8)

theorem join16_eq (w : Word) : join16 w = w := word_bytes w

theorem join32_eq (w : Long) : join32 w = w := long_bytes w

namespace FrameRoundTrip

/-- A well-formed request is read back from its frame, which is as long as its head says. -/
def Statement (i : Instr) : Prop :=
  i.isRequest = true → WellFormed i = true →
    decodeFrame (frameByte (encodeFrame i)) = i ∧
      ((∀ k n t, i ≠ .unknownKind k n t) → (encodeFrame i).length = 4 * (frameByte (encodeFrame i) 0).toNat)

/-- A command that is no request has no frame to read back. -/
theorem of_notRequest {i : Instr} (h : i.isRequest = false) : Statement i := fun hr => absurd hr (by simp [h])

theorem toothEdge (wheel : Fin 6) : Statement (.toothEdge wheel) := of_notRequest rfl
theorem standstillExpiry (wheel : Fin 6) : Statement (.standstillExpiry wheel) := of_notRequest rfl
theorem regulationPeriod : Statement (.regulationPeriod) := of_notRequest rfl
theorem holdLimitExpiry (channel : Fin 6) : Statement (.holdLimitExpiry channel) := of_notRequest rfl
theorem ventLimitExpiry (channel : Fin 6) : Statement (.ventLimitExpiry channel) := of_notRequest rfl
theorem outputProved (channel : Fin 6) (solenoid : Solenoid) : Statement (.outputProved channel solenoid) := of_notRequest rfl
theorem outputOpen (channel : Fin 6) (solenoid : Solenoid) : Statement (.outputOpen channel solenoid) := of_notRequest rfl
theorem outputShort (channel : Fin 6) (solenoid : Solenoid) : Statement (.outputShort channel solenoid) := of_notRequest rfl
theorem applyExpiry (channel : Fin 6) : Statement (.applyExpiry channel) := of_notRequest rfl
theorem holdIntervalExpiry (channel : Fin 6) : Statement (.holdIntervalExpiry channel) := of_notRequest rfl
theorem onExpiry (channel : Fin 6) : Statement (.onExpiry channel) := of_notRequest rfl
theorem offExpiry (channel : Fin 6) : Statement (.offExpiry channel) := of_notRequest rfl
theorem scanTimerExpiry : Statement (.scanTimerExpiry) := of_notRequest rfl
theorem entryConversionCompletion (code : BitVec 12) : Statement (.entryConversionCompletion code) := of_notRequest rfl
theorem sampleTimerExpiry : Statement (.sampleTimerExpiry) := of_notRequest rfl
theorem sampleCompletion (code : BitVec 12) : Statement (.sampleCompletion code) := of_notRequest rfl
theorem referenceOverflow : Statement (.referenceOverflow) := of_notRequest rfl
theorem referenceTimeout : Statement (.referenceTimeout) := of_notRequest rfl
theorem sensorPhaseEnd (count : BitVec 20) : Statement (.sensorPhaseEnd count) := of_notRequest rfl
theorem sensorOverflow : Statement (.sensorOverflow) := of_notRequest rfl
theorem drumScanExpiry : Statement (.drumScanExpiry) := of_notRequest rfl
theorem ageRefresh : Statement (.ageRefresh) := of_notRequest rfl
theorem leverInputChange (input1 input2 : Contact) : Statement (.leverInputChange input1 input2) := of_notRequest rfl
theorem leverSettleExpiry : Statement (.leverSettleExpiry) := of_notRequest rfl
theorem holdOffExpiry : Statement (.holdOffExpiry) := of_notRequest rfl
theorem rampExpiry : Statement (.rampExpiry) := of_notRequest rfl
theorem postEvent (posted : Word) : Statement (.postEvent posted) := of_notRequest rfl
theorem giveBack (lane : ReportLane) (taken : Word) : Statement (.giveBack lane taken) := of_notRequest rfl
theorem thresholdWrite (lane : LaneId) (threshold : Word) : Statement (.thresholdWrite lane threshold) := of_notRequest rfl
theorem laneRestart (lanes : BitVec 4) : Statement (.laneRestart lanes) := of_notRequest rfl
theorem softReset : Statement (.softReset) := of_notRequest rfl
theorem collisionClear : Statement (.collisionClear) := of_notRequest rfl
theorem attentionEnableWrite (enables : Word) : Statement (.attentionEnableWrite enables) := of_notRequest rfl
theorem hostWordWrite (address value : Word) : Statement (.hostWordWrite address value) := of_notRequest rfl
theorem powerOnReset : Statement (.powerOnReset) := of_notRequest rfl
theorem resetPin : Statement (.resetPin) := of_notRequest rfl
theorem resetRelease : Statement (.resetRelease) := of_notRequest rfl
theorem identify (tag : Byte) : Statement (.identify tag) := fun _ _ => ⟨rfl, fun _ => rfl⟩

theorem unknownKind (kind length tag : Byte) : Statement (.unknownKind kind length tag) := by
  intro _ h
  have hne : ¬requiredLength kind = some length.toNat := by simpa [WellFormed] using h
  exact ⟨if_neg fun e => hne e, fun h => absurd rfl (h kind length tag)⟩

theorem arm (tag : Byte) : Statement (.arm tag) := fun _ _ => ⟨rfl, fun _ => rfl⟩
theorem disarm (tag : Byte) : Statement (.disarm tag) := fun _ _ => ⟨rfl, fun _ => rfl⟩

theorem setReference (tag : Byte) (mode floor down up demand reservoir : Word) :
    Statement (.setReference tag mode floor down up demand reservoir) := by
  refine fun _ _ => ⟨(show decodeFrame _ =
    Instr.setReference tag (join16 mode) (join16 floor) (join16 down) (join16 up) (join16 demand) (join16 reservoir)
      from rfl).trans ?_, fun _ => rfl⟩
  simp only [join16_eq]

theorem installWheel (tag wheel channel eligible : Byte) (teeth circumference window : Word) :
    Statement (.installWheel tag wheel channel eligible teeth circumference window) := by
  refine fun _ _ => ⟨(show decodeFrame _ =
    Instr.installWheel tag wheel channel eligible (join16 teeth) (join16 circumference) (join16 window)
      from rfl).trans ?_, fun _ => rfl⟩
  simp only [join16_eq]

theorem removeWheel (tag wheel : Byte) : Statement (.removeWheel tag wheel) := fun _ _ => ⟨rfl, fun _ => rfl⟩
theorem clearWheel (tag wheel : Byte) : Statement (.clearWheel tag wheel) := fun _ _ => ⟨rfl, fun _ => rfl⟩

theorem installChannel (tag : Byte) (fields : ProfileFields) : Statement (.installChannel tag fields) := by
  refine fun _ _ => ⟨(show decodeFrame _ = Instr.installChannel tag
    { fields with
      slipEntry := join16 fields.slipEntry, slipExit := join16 fields.slipExit
      holdDecel := join16 fields.holdDecel, reaccel := join16 fields.reaccel, ventLimit := join16 fields.ventLimit
      holdLimit := join16 fields.holdLimit, applyPulse := join16 fields.applyPulse
      holdInterval := join16 fields.holdInterval } from rfl).trans ?_, fun _ => ?_⟩
  · simp only [join16_eq]
  · simp [encodeFrame, frameHead, le16, frameByte]

theorem clearChannel (tag channel : Byte) : Statement (.clearChannel tag channel) := fun _ _ => ⟨rfl, fun _ => rfl⟩

theorem valveTest (tag channel solenoids repeatCount continuous : Byte) (onTime offTime : Word) :
    Statement (.valveTest tag channel solenoids repeatCount continuous onTime offTime) := by
  refine fun _ _ => ⟨(show decodeFrame _ =
    Instr.valveTest tag channel solenoids repeatCount continuous (join16 onTime) (join16 offTime)
      from rfl).trans ?_, fun _ => rfl⟩
  simp only [join16_eq]

theorem stopTest (tag channel : Byte) : Statement (.stopTest tag channel) := fun _ _ => ⟨rfl, fun _ => rfl⟩

theorem setScan (tag length : Byte) (entries : Vector Byte 8) : Statement (.setScan tag length entries) := by
  obtain ⟨⟨l⟩, h⟩ := entries
  match l, h with
  | [_, _, _, _, _, _, _, _], _ => exact fun _ _ => ⟨rfl, fun _ => rfl⟩

theorem setCalibration (tag input role : Byte) (zero full : Word) :
    Statement (.setCalibration tag input role zero full) := by
  refine fun _ _ => ⟨(show decodeFrame _ =
    Instr.setCalibration tag input role (join16 zero) (join16 full)
      from rfl).trans ?_, fun _ => rfl⟩
  simp only [join16_eq]

theorem setDrumConfig (tag : Byte) (rRef : Long) (nRef interval hot : Word) (enable : Byte) :
    Statement (.setDrumConfig tag rRef nRef interval hot enable) := by
  refine fun _ _ => ⟨(show decodeFrame _ =
    Instr.setDrumConfig tag (join32 rRef) (join16 nRef) (join16 interval) (join16 hot) enable
      from rfl).trans ?_, fun _ => rfl⟩
  simp only [join16_eq, join32_eq]

/-- A curve point whose fields are joined again. -/
def joinPoint (p : PointFields) : PointFields := ⟨join32 p.resistance, join16 p.temperature⟩

theorem joinPoint_eq (p : PointFields) : joinPoint p = p := by simp only [joinPoint, join32_eq, join16_eq]

theorem setCurve (tag presence : Byte) (points : Vector PointFields 9) : Statement (.setCurve tag presence points) := by
  obtain ⟨⟨l⟩, h⟩ := points
  match l, h with
  | [a, b, c, d, e, f, g, j, k], h =>
    refine fun _ _ => ⟨(show decodeFrame _ = Instr.setCurve tag presence
      #v[joinPoint a, joinPoint b, joinPoint c, joinPoint d, joinPoint e, joinPoint f, joinPoint g, joinPoint j,
        joinPoint k]
      from rfl).trans ?_, fun _ => rfl⟩
    simp only [joinPoint_eq]

theorem measureDrum (tag drum : Byte) : Statement (.measureDrum tag drum) := fun _ _ => ⟨rfl, fun _ => rfl⟩

theorem setSupplyCriteria (tag : Byte) (low critical : Word) :
    Statement (.setSupplyCriteria tag low critical) := by
  refine fun _ _ => ⟨(show decodeFrame _ =
    Instr.setSupplyCriteria tag (join16 low) (join16 critical)
      from rfl).trans ?_, fun _ => rfl⟩
  simp only [join16_eq]

theorem setBlend (tag : Byte) (holdOff : Word) (enabled stage : Byte) (temperature demand : Word) :
    Statement (.setBlend tag holdOff enabled stage temperature demand) := by
  refine fun _ _ => ⟨(show decodeFrame _ =
    Instr.setBlend tag (join16 holdOff) enabled stage (join16 temperature) (join16 demand)
      from rfl).trans ?_, fun _ => rfl⟩
  simp only [join16_eq]

end FrameRoundTrip

end Sys2Proof.Laws
end

