-- ==== Sys2Proof/Laws/Sound.lean ====
section
/-! SUPPORT. Every invariant as the conjunction of its clauses, in a form that can be decided. -/

namespace Sys2Proof.Machine

theorem Wheel.sound_iff (x : Wheel) :
    x.Sound ↔
      (x.state = .off ↔ x.record = none) ∧
      (∀ r ∈ x.record, 30 ≤ r.teeth ∧ r.teeth ≤ 120 ∧ 1500 ≤ r.circumference ∧ r.circumference ≤ 4000 ∧
          100 ≤ r.window ∧ r.window ≤ 1000 ∧ r.k = (360000 * r.circumference + r.teeth / 2) / r.teeth) ∧
      (x.state = .off ∨ x.state = .stopped → x.capture = {}) ∧
      (x.state = .starting → x.capture = { lastTooth := x.capture.lastTooth, standstill := x.capture.standstill }) ∧
      (x.capture.teeth < x.capture.divisor.toNat) ∧
      (x.capture.strikes ≤ 3 ∧ (x.capture.strikes = 3 ↔ x.state = .suspect)) ∧
      (x.capture.standstill.isSome = true ↔ x.state = .starting ∨ x.state = .rolling) ∧
      (x.state = .starting ∨ x.state = .rolling → x.capture.lastTooth.isSome = true) ∧
      (x.state = .rolling → x.capture.lastCapture.isSome = true) ∧
      (x.capture.vCap ≤ 65535) :=
  ⟨fun h => ⟨h.off, h.record, h.cleared, h.starting, h.teeth, h.strikes, h.timer, h.lastTooth, h.lastCapture, h.speed⟩,
    fun ⟨h0, h1, h2, h3, h4, h5, h6, h7, h8, h9⟩ => ⟨h0, h1, h2, h3, h4, h5, h6, h7, h8, h9⟩⟩

theorem Channel.sound_iff (x : Channel) :
    x.Sound ↔
      ((x.inlet.energised, x.vent.energised) = x.pattern) ∧
      ((x.inlet.energised = false → x.inlet.watch = none) ∧ (x.vent.energised = false → x.vent.watch = none)) ∧
      (x.cause.isSome = true ↔ x.state = .lockout) ∧
      (x.activityFits = true) ∧
      (x.holdTimer.isSome = true ↔ x.state = .hold) ∧
      (x.ventTimer.isSome = true ↔ x.state = .vent) ∧
      (x.ventEntry.isSome = true ↔ x.state = .vent) ∧
      (x.state.regulating = true → x.profile.isSome = true ∧ x.episode.isSome = true) ∧
      (x.staged.isSome = true → x.state.regulating = true) :=
  ⟨fun h => ⟨h.outputs, h.monitors, h.cause, h.activity, h.holdTimer, h.ventTimer, h.ventEntry, h.regulating,
      h.staged⟩,
    fun ⟨h0, h1, h2, h3, h4, h5, h6, h7, h8⟩ => ⟨h0, h1, h2, h3, h4, h5, h6, h7, h8⟩⟩

theorem engagement_iff (s : State) :
    Engagement s ↔
      (s.smn.cls = .critical → ∀ c : Fin 6, s.channels[c].state.regulating = false ∧ s.channels[c].state ≠ .test) ∧
      (s.smn.cls = .critical → s.reg.absence ≠ none) ∧
      (s.reg.armed = false → s.reg.absence = some .disarmed ∧
      ∀ c : Fin 6, s.channels[c].state.regulating = false ∧ s.channels[c].state ≠ .pass) ∧
      (∀ c : Fin 6, s.channels[c].state = .test → s.reg.vref = 0) :=
  ⟨fun h => ⟨h.critical, h.supply, h.disarmed, h.motion⟩,
    fun ⟨h0, h1, h2, h3⟩ => ⟨h0, h1, h2, h3⟩⟩

theorem retarderSafe_iff (s : State) :
    RetarderSafe s ↔
      (s.rbu.cut = true ↔
      ∃ c : Fin 6, s.channels[c].state.regulating = true ∧ s.channels[c].profile.any (·.driveAxle) = true) ∧
      (s.rbu.leverStage ≤ 3 ∧ s.rbu.settings.assistStage ≤ 3 ∧ s.rbu.allowed ≤ 3) ∧
      (s.rbu.output ≤ s.rbu.allowed) ∧
      (s.rbu.cut = true ∨ s.rbu.holdOff.isSome = true → s.rbu.allowed = 0) ∧
      (s.smn.cls = .low → s.rbu.allowed ≤ 1) ∧
      (s.smn.cls = .critical → s.rbu.allowed = 0) :=
  ⟨fun h => ⟨h.cut, h.stages, h.output, h.withheld, h.low, h.critical⟩,
    fun ⟨h0, h1, h2, h3, h4, h5⟩ => ⟨h0, h1, h2, h3, h4, h5⟩⟩

theorem pressureSound_iff (s : State) :
    PressureSound s ↔
      (∀ i : Fin 4, s.pcu.inputs[i].Sound) ∧
      (∀ i j : Fin 4, s.pcu.inputs[i].role = s.pcu.inputs[j].role → i = j) ∧
      (∀ i : Fin 4, s.pcu.inputs[i].validity = .unused ↔ i ∉ s.pcu.scanList) ∧
      (1 ≤ s.pcu.scanList.length ∧ s.pcu.scanList.length ≤ 8) ∧
      (∀ l ∈ s.pcu.pendingList, 1 ≤ l.length ∧ l.length ≤ 8) :=
  ⟨fun h => ⟨h.inputs, h.roles, h.unused, h.list, h.waiting⟩,
    fun ⟨h0, h1, h2, h3, h4⟩ => ⟨h0, h1, h2, h3, h4⟩⟩

theorem drumsSound_iff (s : State) :
    DrumsSound s ↔
      ((s.dtu.queue.map (·.drum)).Nodup) ∧
      (∀ m ∈ s.dtu.inFlight, (∀ e ∈ s.dtu.queue, e.drum ≠ m.drum) ∧ m.tags.length ≤ 4 ∧
      s.dtu.config.enabled[m.drum] = true) ∧
      (∀ e ∈ s.dtu.queue, e.tags.length ≤ 4 ∧ (e.origin = .scan → e.tags = []) ∧ s.dtu.config.enabled[e.drum] = true) ∧
      (∀ d : Fin 6, s.dtu.drums[d].result = .unknown →
      s.dtu.drums[d].resistance = 0 ∧ s.dtu.drums[d].nSens = 0 ∧ s.dtu.drums[d].temperature = none ∧
        s.dtu.drums[d].hot = false) ∧
      (s.dtu.hottest = hottestOf s.dtu.drums) :=
  ⟨fun h => ⟨h.once, h.flying, h.entries, h.unknown, h.hottest⟩,
    fun ⟨h0, h1, h2, h3, h4⟩ => ⟨h0, h1, h2, h3, h4⟩⟩

theorem reservationSound_iff (s : State) :
    ReservationSound s ↔
      (s.lnc.owed = outstanding s + s.lnc.holdback.length) ∧
      (s.lnc.owed ≤ 63) ∧
      (s.lnc.owed ≤ s.lnc.freeSlots + s.lnc.holdback.length) ∧
      (s.lnc.response.fault = none → s.lnc.holdback = []) ∧
      (s.lnc.response.fill.toNat % 16 = 0 ∧ s.lnc.response.fill.toNat < 1024) ∧
      (s.lnc.response.accDrain.toNat % 16 = 0 ∧ s.lnc.response.accDrain.toNat < 1024) ∧
      ((s.lnc.response.posted - s.lnc.response.accTaken).toNat = framesPresent .response s.lnc.response) :=
  ⟨fun h => ⟨h.owed, h.bound, h.reserved, h.running, h.fill, h.drain, h.frames⟩,
    fun ⟨h0, h1, h2, h3, h4, h5, h6⟩ => ⟨h0, h1, h2, h3, h4, h5, h6⟩⟩

theorem Input.sound_iff (x : Input) :
    x.Sound ↔
      x.zero + 1000 ≤ x.full ∧ x.full ≤ 4095 ∧ x.held ≤ 1000 ∧
        (x.validity = .valid → x.bad = 0 ∧ x.good = 0) ∧
        (x.validity = .holding → (x.bad = 1 ∨ x.bad = 2) ∧ x.good = 0) ∧
        (x.validity = .faulty → x.bad = 3 ∧ x.good < 5) ∧
        (x.validity = .unused → x.bad = 0 ∧ x.good = 0 ∧ x.held = 0) := by
  unfold Input.Sound
  cases h : x.validity <;> simp

end Sys2Proof.Machine
end

