-- ==== Sys2Proof/Tests/Slice0.lean ====
section
/-! SUPPORT. Named tests: the refusals of WellFormed, the manual's worked figures, request frames written out byte by byte,
single steps, and for every obligation with hypotheses a state and operands that meet them. -/

namespace Sys2Proof.Tests

open Machine

/-! ### WellFormed refuses -/

theorem test_wellFormed_oddAddress : WellFormed (.hostWordWrite 0x0401 0) = false := by decide

theorem test_wellFormed_aboveMap : WellFormed (.hostWordWrite 0x4008 0) = false := by decide

theorem test_wellFormed_wordWithOwnRow :
    ([0x0002, 0x0016, 0x0026, 0x0036, 0x000E, 0x001E, 0x002E, 0x003E, 0x4002, 0x4004, 0x4006] : List Word).any
      (fun a => WellFormed (.hostWordWrite a 0)) = false := by decide

theorem test_wellFormed_noLane : WellFormed (.laneRestart 0) = false := by decide

theorem test_wellFormed_lengthAgrees : WellFormed (.unknownKind 0x20 7 0) = false := by decide

theorem test_wellFormed_accepts :
    WellFormed (.hostWordWrite 0x4000 0) ∧ WellFormed (.laneRestart 8) ∧ WellFormed (.unknownKind 0x20 6 0) ∧
      WellFormed (.unknownKind 0x05 1 0) := by decide

/-! ### Request frames written out from 11.3 and 11.4 -/

/-- The request a list of bytes spells. -/
def reads (bytes : List Byte) : Instr := decodeFrame (frameByte bytes)

theorem test_frame_arm : reads [1, 0x02, 0x5A, 0xFF] = .arm 0x5A := by decide

theorem test_frame_setReference :
    reads [4, 0x04, 7, 0, 1, 0, 0xF4, 0x01, 14, 0, 9, 0, 30, 0, 0x26, 0x02] = .setReference 7 1 500 14 9 30 550 := by
  decide

theorem test_frame_installWheel :
    reads [4, 0x10, 9, 0, 5, 2, 1, 0, 60, 0, 0x08, 0x0C, 0x2C, 0x01, 0, 0] = .installWheel 9 5 2 1 60 3080 300 := by
  decide

theorem test_frame_installChannel :
    reads [7, 0x20, 1, 0, 3, 1, 0, 0, 1, 2, 150, 0, 80, 0, 0xC4, 0xFF, 40, 0, 0xB0, 0x04, 0x90, 0x01, 15, 0, 40, 0, 0, 0]
      = .installChannel 1
          { channel := 3, enabled := 1, combine := 0, continuous := 0, driveAxle := 1, repeatCount := 2, slipEntry := 150
            slipExit := 80, holdDecel := -60, reaccel := 40, ventLimit := 1200, holdLimit := 400, applyPulse := 15
            holdInterval := 40 } := by decide

theorem test_frame_valveTest :
    reads [3, 0x28, 2, 0, 4, 1, 3, 0, 50, 0, 0xE8, 0x03] = .valveTest 2 4 1 3 0 50 1000 := by decide

theorem test_frame_setScan :
    reads [4, 0x30, 2, 0, 6, 0, 0, 0, 0, 1, 0, 2, 3, 0, 9, 9] = .setScan 2 6 #v[0, 1, 0, 2, 3, 0, 9, 9] := by decide

theorem test_frame_setDrumConfig :
    reads [4, 0x40, 2, 0, 0xD0, 0x07, 0, 0, 0x00, 0x10, 0xF4, 0x01, 0x5E, 0x01, 0x0F, 0]
      = .setDrumConfig 2 2000 4096 500 350 0x0F := by decide

theorem test_frame_setSupplyCriteria :
    reads [2, 0x50, 3, 0, 0xF0, 0x55, 0x08, 0x52] = .setSupplyCriteria 3 22000 21000 := by decide

theorem test_frame_badLength : reads [2, 0x02, 7, 0, 0, 0, 0, 0] = .unknownKind 0x02 2 7 := by decide

theorem test_noTableBits : decodeTableWord 16 0x1234 = none := by decide

/-! ### The manual's worked figures -/

/-- K of the wheel of 1.12. -/
theorem test_distanceConstant : distanceConstant 60 3080 = 18480000 := by decide

/-- The captures of 1.12 and of 12.1. -/
theorem test_captureSpeed :
    captureSpeed 18480000 4 18480 = 4000 ∧ captureSpeed 18480000 1 5435 = 3400 ∧ captureSpeed 18480000 1 10800 = 1711 ∧
      captureSpeed 18480000 1 7000 = 2640 ∧ captureSpeed 48000000 16 10000 = 65535 := by decide

/-- The reference speed over three periods (2.10). -/
theorem test_newVref :
    newVref {} 4000 3950 = 3986 ∧ newVref {} 3986 3980 = 3980 ∧ newVref {} 3980 4300 = 3989 := by decide

/-- Slip and acceleration of a locking wheel (2.10) and of 12.1. -/
theorem test_slip_accel :
    slipOf {} 4000 (some 2053) = 486 ∧ accelOf (some 2870) (some 2053) = -1000 ∧
      slipOf {} 3995 (some 3900) = 23 ∧ accelOf (some 3990) (some 3900) = -500 ∧
      slipOf {} 3985 (some 2053) = 484 ∧ accelOf (some 3850) (some 3932) = 455 := by decide

/-- One code, and the six codes of a duplicated entry (5.8). -/
theorem test_pressures :
    pressureOf { role := .demandFront } 2048 = 500 ∧ pressureOf { role := .demandFront } ((2048 + 2050 + 2051) / 3) = 500 ∧
      pressureOf { role := .demandRear } 1470 = 323 ∧ pressureOf { role := .reservoirFront } 2765 = 718 ∧
      pressureOf { role := .reservoirRear } 2801 = 729 := by decide

/-- The first bad passes of a parted connector (5.8). -/
theorem test_inputFaults :
    let bad := fun x => moveInput x (.bad 4095)
    (bad (bad (bad { role := .demandFront, held := 500 }))).validity = .faulty ∧
      (bad (bad { role := .demandFront, held := 500 })).held = 500 := by decide

/-- The measurement of 6.9 and of 12.2, and the drum outside the curve. -/
theorem test_resistance :
    resistanceOf 2000 4096 3413 = 2400 ∧ resistanceOf 2000 4096 3100 = 2643 ∧ resistanceOf 2000 4096 5120 = 1600 := by
  decide

theorem test_interpolate :
    interpolate ⟨2310, 350⟩ ⟨2490, 400⟩ 2400 = 375 ∧ interpolate ⟨1500, 80⟩ ⟨1700, 130⟩ 1600 = 105 ∧
      interpolate ⟨100, 50⟩ ⟨107, 0⟩ 101 = 43 := by decide

/-- The hysteresis of the hot mark (6.9). -/
theorem test_hotMark :
    hotAfter false 350 .valid (some 375) = true ∧ hotAfter true 350 .valid (some 331) = true ∧
      hotAfter true 350 .valid (some 330) = false := by decide

/-- The samples of 7.8. -/
theorem test_samples :
    sampleOf 2458 = 24003 ∧ sampleOf 2100 = 20507 ∧ sampleOf 2455 = 23974 ∧ sampleOf 4095 = 39990 := by decide

/-- The boundary values of R137's table at the default criteria. -/
theorem test_classes :
    classAfter {} .normal 20507 = .low ∧ classAfter {} .normal 17999 = .critical ∧ classAfter {} .low 21499 = .low ∧
      classAfter {} .low 21500 = .normal ∧ classAfter {} .critical 18499 = .critical ∧
      classAfter {} .critical 18500 = .low ∧ classAfter {} .critical 21500 = .normal := by decide

/-- The free slots of 12.3. -/
theorem test_freeSlots :
    LaneController.freeSlots { response := { fill := 960 } } = 3 ∧
      LaneController.freeSlots { response := { fill := 976, accDrain := 160 } } = 12 := by decide

/-! ### States for single steps -/

/-- The state an outcome leads to; the empty state where it leads to none. -/
def after (o : Host.Outcome State Fault Refusal) : State :=
  match o with
  | .next t => t
  | .fault _ | .refused _ => {}

/-- The wheel of 1.12. -/
def wheel60 : WheelRecord :=
  { teeth := 60, circumference := 3080, channel := 0, eligible := true, window := 300, k := 18480000 }

/-- The profile of 12.1. -/
def profile : Profile :=
  { enabled := true, combine := .selectLow, slipEntry := 150, slipExit := 80, holdDecel := -60, reaccel := 40
    ventLimit := 1200, holdLimit := 400, applyPulse := 15, holdInterval := 40, repeatCount := 2, continuous := false
    driveAxle := true }

/-- An open episode. -/
def episode : Episode :=
  { openStamp := 995, vrefAtOpen := 3995, governing := some 0, peakSlip := 23, reservoir := some 760, hottest := some 96 }

/-- One second after a reset: armed, braking present, the class NORMAL. -/
def road : State :=
  { clock := 4000000
    reg := { armed := true, absence := none, vref := 3990, periodDue := 4000000 }
    smn := { cls := .normal, firstClose := false, sampleDue := 4000000 }
    pcu := { scanDue := 4004000, demand := some 180, reservoir := some 760 } }

/-- The road with wheel 0 as given. -/
def withWheel (x : Wheel) : State := { road with wheels := road.wheels.set 0 x }

/-- The road with channel 0 as given, the retarder cut where it regulates. -/
def withChannel (x : Channel) : State :=
  { road with channels := road.channels.set 0 x, rbu := { road.rbu with cut := x.cuts } }

def starting : Wheel :=
  { record := some wheel60, state := .starting, capture := { lastTooth := some 999950, standstill := some 4000000 } }

def rolling : Wheel :=
  { record := some wheel60, state := .rolling
    capture := { lastTooth := some 999950, lastCapture := some 995000, pAcc := 5000, vCap := 3696
                 standstill := some 4000001 } }

def holding : Channel :=
  { profile := some profile, state := .hold, holdTimer := some 4000000, episode := some episode
    inlet := { energised := true, watch := some 4000000 } }

def venting : Channel :=
  { profile := some profile, state := .vent, ventTimer := some 4000000, ventEntry := some 900, episode := some episode
    inlet := { energised := true }, vent := { energised := true } }

/-- A channel in a train, in a phase with pulses delivered. -/
def training (phase : TrainPhase) (pulses : Nat) : Channel :=
  { profile := some profile, state := .reapply, episode := some episode
    inlet := { energised := phase == .hold }
    activity := .train phase 4000000
      { applyPulse := 15, holdInterval := 40, repeatCount := 2, continuous := false } pulses }

/-- A channel in a test of both solenoids, in a phase with pulses delivered. -/
def testing (phase : TestPhase) (pulses : Nat) : Channel :=
  { profile := some profile, state := .test
    inlet := { energised := phase == .on }, vent := { energised := phase == .on }
    activity := .test phase 4000000
      { solenoids := .inletAndVent, onTime := 50, offTime := 100, repeatCount := 0, continuous := false } pulses 0x11 }

def locked : Channel := { profile := some profile, state := .lockout, cause := some .ventLimit }

/-- The road with a measurement of drum 0 in a phase, drums 0 to 3 enabled, drum 1 queued. -/
def measuring (phase : MeasurePhase) (timeBase : BitVec 20) (tags : List Byte) : State :=
  { road with dtu := { road.dtu with
    config := { rRef := 2000, interval := 500, enabled := 0x0F }
    queue := [{ drum := 1, origin := .request, tags := [1, 2, 3, 4] }, { drum := 2, origin := .scan, tags := [] }]
    inFlight := some { drum := 0, origin := .scan, tags := tags, phase := phase, rRef := 2000, nRef := 4096, since := 0 }
    scanTimer := some 4000000, ageDue := 4000000, timeBase := timeBase } }

/-- A curve with the segments of 6.9 and 12.2. -/
def curve : Vector CurvePoint 9 :=
  #v[⟨500, 0⟩, ⟨800, 30⟩, ⟨1100, 50⟩, ⟨1500, 80⟩, ⟨1700, 130⟩, ⟨2000, 250⟩, ⟨2310, 350⟩, ⟨2490, 400⟩, ⟨2600, 450⟩]

/-! ### Single steps -/

/-- 12.1, stamp 70,005: HOLD is entered and the cut raised. -/
theorem test_holdEntered :
    let x : Wheel := { rolling with capture := { rolling.capture with vCap := 3900, lastTooth := some 1000000 } }
    let s := { withWheel x with
      channels := road.channels.set 0 { profile := some profile, state := .pass }
      reg := { road.reg with
        vref := 4000, wheels := road.reg.wheels.set 0 { previous := some 3990 }, settings := { downLimit := 5 } } }
    let t := after (exec .regulationPeriod s)
    (t.reg.vref, t.reg.wheels[0].accel, t.channels[0].state, t.rbu.cut) = (3995, -500, .hold, true) := by decide

/-- 12.1, stamp 70,195: the train ends in PASS with its episode open, and the cut falls. -/
theorem test_trainEnds :
    let t := after (exec (.holdIntervalExpiry 0) (withChannel (training .hold 3)))
    (t.channels[0].state, t.channels[0].episode.isSome, t.rbu.cut, t.rbu.holdOff) =
      (.pass, true, false, some { due := 6000000, length := 500 }) := by decide

/-- 6.9: 3,413 cycles give 375 °C, a hot drum and DRUM_HOT. -/
theorem test_measurement :
    let s := measuring .sensor 0 []
    let t := after (exec (.sensorPhaseEnd 3413) { s with dtu := { s.dtu with curve := some curve } })
    (t.dtu.drums[0].temperature, t.dtu.drums[0].hot, t.lnc.event.posted, t.dtu.inFlight.map (·.drum)) =
      (some 375, true, 1, some 1) := by decide

/-- 12.3: the take after a wrap marker. -/
theorem test_wrap :
    let s := { road with
      lnc := { road.lnc with request := { drain := 2012, accFill := 92, fill := 92, posted := 40, taken := 38 } }
      mem := Memory.writeAll [] 0x400 [1, 0x02, 9, 0] }
    (examineRequests s).lnc.request.drain = 0 ∧ (examineRequests s).readyRequest = some (.arm 9) := by decide

/-- A power-on reset of a running part, released, is the part after reset (R184). -/
theorem test_powerOn : after (exec .resetRelease (after (exec .powerOnReset road))) = State.reset := by decide

/-- An address off the map stops the model (log 13). -/
theorem test_noSuchWord : exec (.hostWordWrite 0x0401 0) road = .fault .noSuchWord := rfl

theorem test_core_reset : Sys2Proof.core.reset = State.reset := rfl

/-! ### States and operands that meet the hypotheses of the obligations -/

/-- The frame of `i`, as long as its first byte says, posted at offset 0 of the request lane. -/
def waiting (i : Instr) (s : State) : State :=
  let size := BitVec.ofNat 16 (4 * (frameByte (encodeFrame i) 0).toNat)
  { s with
    lnc := { s.lnc with request := { fill := size, accFill := size, posted := 1 } }
    mem := Memory.writeAll [] 0x400 (encodeFrame i) }

/-- Whether the invariants of the channels, the retarder and the drums hold in a running part over a memory in its
canonical form. -/
def fits (s : State) : Bool :=
  decide (s.held = none) && s.mem.wf &&
    decide (∀ c : Fin 6, @decide _ (decidable_of_iff _ (Channel.sound_iff s.channels[c]).symm) = true) &&
    @decide _ (decidable_of_iff _ (retarderSafe_iff s).symm) && @decide _ (decidable_of_iff _ (drumsSound_iff s).symm)

theorem fits_spec {s : State} (h : fits s = true) :
    s.held = none ∧ s.mem.wf = true ∧ ChannelsSound s ∧ RetarderSafe s ∧ DrumsSound s := by
  simp only [fits, Bool.and_eq_true, decide_eq_true_eq] at h
  exact ⟨h.1.1.1.1, h.1.1.1.2, h.1.1.2, h.1.2, h.2⟩

/-- Whether `i` waits ready in a state that fits. -/
def takes (i : Instr) (s : State) : Bool := fits (waiting i s) && decide (Ready i (waiting i s))

theorem takes_spec {i : Instr} {s : State} (h : takes i s = true) :
    Ready i (waiting i s) ∧ (waiting i s).mem.wf = true ∧ ChannelsSound (waiting i s) ∧ RetarderSafe (waiting i s) ∧
      DrumsSound (waiting i s) := by
  simp only [takes, Bool.and_eq_true, decide_eq_true_eq] at h
  exact ⟨h.2, (fits_spec h.1).2⟩

/-- Whether each request waits ready in its state. -/
def takesAll (l : List (Instr × State)) : Bool := l.all fun p => takes p.1 p.2

theorem witness_EmptyQueue :
    (waiting (.identify 1) road).readyRequest = some (.identify 1) ∧
      (let s := { road with lnc := { road.lnc with request := { accFill := 4, posted := 1 } } }
       s.lnc.taking = .taking ∧ s.readyRequest = none) ∧
      road.lnc.taking ≠ .taking ∧ road.pending = [] ∧
      (let s := measuring .reference 1 []
       s.held = none ∧ s.lnc.taking ≠ .taking ∧ (ticked 1 s.dtu).timeBase = 0 ∧
         (ticked 1 { s.dtu with counter := 1048575 }).counter = 0 ∧ 1048576 ≤ (1048575 : BitVec 20).toNat + 1) :=
  by decide

theorem witness_TurnedAway :
    ({ road with held := some .pin } : State).held ≠ none ∧ isBusWord 0x4000 = true ∧
      (Instr.arm 1).isRequest = true ∧ road.held = none ∧ road.readyRequest ≠ some (.arm 1) :=
  by decide

/-- Of BlankedEdge and FirstEdge. -/
theorem witness_edges :
    (withWheel starting).timeBase = 1000000 ∧ road.held = none ∧
      ((withWheel starting).timeBase - 999950).toNat = 50 ∧ ((withWheel starting).timeBase - 999951).toNat = 49 ∧
      (withWheel starting).wheels[0].state = .starting ∧ starting.capture.lastTooth = some 999950 ∧
      (withWheel { record := some wheel60, state := .stopped }).wheels[0].state = .stopped ∧
      (withWheel { rolling with state := .suspect }).wheels[0].state = .suspect ∧ road.wheels[0].state = .off :=
  by decide

theorem witness_MovingEdges :
    (withWheel starting).wheels[0].record = some wheel60 ∧ (withWheel rolling).wheels[0] = rolling ∧
      rolling.capture.lastCapture = some 995000 ∧
      (let c := { rolling.capture with divisor := Divisor.four, teeth := 2 }
       c.teeth + 1 < c.divisor.toNat ∧ c.divisor.toNat ≤ c.teeth + 2) ∧
      ((1000000 : Long) - 995000).toNat = 5000 ∧ (2500 ≤ 2 * 5000 ∧ 5000 ≤ 2 * 2500) ∧ ¬(2499 ≤ 2 * 5000 ∧ 5000 ≤ 2 * 2499) ∧
      1 + 1 < 3 ∧ 3 ≤ 2 + 1 :=
  by decide

theorem witness_Standstill :
    starting.capture.standstill = some 4000000 ∧ 4000000 ≤ (withWheel starting).clock ∧
      rolling.capture.standstill = some 4000001 ∧ (withWheel rolling).clock < 4000001 ∧ road.wheels[0].capture.standstill = none :=
  by decide

theorem witness_InstallWheel :
    takesAll
      [(.installWheel 1 6 0 1 60 3080 0, road), (.installWheel 1 0 0 2 60 3080 0, road),
       (.installWheel 1 0 0 1 29 3080 0, road), (.installWheel 1 0 0 1 60 4001 0, road),
       (.installWheel 1 0 0 1 60 3080 105, road), (.installWheel 1 0 0 1 30 1500 100, withChannel holding),
       (.installWheel 1 5 5 1 120 4000 1000, road)] = true ∧
      (withChannel holding).reg.mode = .direct ∧ (withChannel holding).channels[0].state.regulating = true ∧
      road.channels[5].state = .idle :=
  by decide

theorem witness_RemoveAndClearWheel :
    takesAll
      [(.removeWheel 1 6, road), (.removeWheel 1 0, { withChannel holding with wheels := (withWheel rolling).wheels }),
       (.removeWheel 1 5, withWheel rolling), (.clearWheel 1 6, road), (.clearWheel 1 0, withWheel rolling),
       (.clearWheel 1 0, withWheel { rolling with state := .suspect })] = true :=
  by decide

theorem witness_ArmRequest :
    takesAll
      [(.arm 1, road), (.arm 1, { road with reg := { road.reg with armed := false, absence := some .disarmed } }),
       (.arm 1, { withWheel rolling with
          channels := road.channels.set 0 { profile := some profile }
          reg := { road.reg with armed := false, absence := some .disarmed } })] = true ∧
      (road.channels.set 0 { profile := some profile })[0].profile.any (·.enabled) = true ∧
      (withWheel rolling).wheels[0].state ≠ .off ∧ (withWheel rolling).wheels[0].record = some wheel60 :=
  by decide

theorem witness_SetReference :
    takesAll
      [(.setReference 1 2 500 14 9 30 550, road), (.setReference 1 0 199 14 9 30 550, road),
       (.setReference 1 1 200 1 1 10 300, road), (.setReference 1 0 1500 200 200 200 900, road),
       (.setReference 1 1 200 1 1 10 300, { road with reg := { road.reg with armed := false } })] = true ∧
      road.reg.armed = true ∧ road.reg.mode = .direct :=
  by decide

theorem witness_PeriodFigures :
    road.held = none ∧ road.reg.periodDue ≤ road.clock ∧ standing road = {} ∧
      ∀ w : Fin 6, road.wheels[w].state = .off :=
  by decide

theorem witness_PeriodFigures_rolling :
    (withWheel rolling).wheels[0].state = .rolling ∧
      ∃ r t, (withWheel rolling).wheels[0].record = some r ∧ (withWheel rolling).wheels[0].capture.lastTooth = some t ∧
        some 3696 = some (min rolling.capture.vCap (r.k / max 1 ((withWheel rolling).timeBase - t).toNat)) :=
  ⟨by decide, wheel60, 999950, by decide, by decide, by decide⟩

theorem witness_PeriodAssignment :
    (withWheel rolling).reg.mode = .direct ∧ (withWheel rolling).wheels[0].record = some wheel60 ∧
      (withWheel rolling).wheels[0].state = .rolling ∧ (withWheel rolling).wheels[1].state = .off ∧
      (withWheel { rolling with state := .suspect }).wheels[0].state = .suspect :=
  by decide

/-- Of PeriodJudgement, PeriodEntries, PeriodRetarder and PeriodRows. -/
theorem witness_PeriodChannels :
    [withChannel holding, withChannel venting, withChannel (training .apply 0), withChannel (testing .on 0),
      withChannel locked, withChannel { profile := some profile, state := .pass, episode := some episode }].all
      (fun s => fits s && decide (s.reg.periodDue ≤ s.clock)) = true ∧
      (let s := { withWheel { rolling with capture := { rolling.capture with vCap := 100 } } with
        channels := (withChannel { profile := some profile, state := .pass }).channels }
       fits s = true ∧ (after (exec .regulationPeriod s)).channels[0].state = .vent) ∧
      (let s := { withWheel { rolling with capture := { rolling.capture with vCap := 3980 } } with
        channels := (withChannel holding).channels, rbu := (withChannel holding).rbu
        reg := { road.reg with wheels := road.reg.wheels.set 0 { previous := some 3980 } } }
       fits s = true ∧ (after (exec .regulationPeriod s)).channels[0].state = .reapply) ∧
      (let s := { withWheel { rolling with capture := { rolling.capture with vCap := 3980 } } with
        channels := (withChannel venting).channels, rbu := (withChannel venting).rbu }
       fits s = true ∧ (after (exec .regulationPeriod s)).channels[0].state = .hold) :=
  by decide

/-- Of the frames of PeriodRows: a test aborted by motion, a lockout for want of sensors with an open episode, and a
channel without a wheel that leaves HOLD with a staged profile; the cut of test_holdEntered rises over a retarder that is not withheld. -/
theorem witness_PeriodFrames :
    (let t := after (exec .regulationPeriod (withChannel (testing .on 0)))
     (t.channels[0].state, t.lnc.response.posted) = (.pass, 1)) ∧
      (let s := { withWheel { rolling with state := .suspect } with
        channels := (withChannel holding).channels, rbu := (withChannel holding).rbu }
       let t := after (exec .regulationPeriod s)
       fits s = true ∧ (t.channels[0].state, t.lnc.episode.posted, t.lnc.event.posted) = (.lockout, 1, 1)) ∧
      (let s := withChannel { holding with staged := some profile }
       let t := after (exec .regulationPeriod s)
       fits s = true ∧ (t.channels[0].state, t.lnc.episode.posted, t.lnc.event.posted) = (.idle, 1, 1)) ∧
      road.rbu.cut = false ∧ road.rbu.holdOff = none :=
  by decide

theorem witness_LimitExpiries :
    fits (withChannel holding) = true ∧ holding.holdTimer = some 4000000 ∧ 4000000 ≤ road.clock ∧
      fits (withChannel { holding with holdTimer := some 4000001 }) = true ∧ road.clock < 4000001 ∧
      fits (withChannel venting) = true ∧ venting.ventTimer = some 4000000 ∧ episode.strikes = 0 ∧
      fits (withChannel { venting with episode := some { episode with strikes := 1 } }) = true ∧
      fits (withChannel { venting with ventTimer := some 4000001 }) = true :=
  by decide

theorem witness_Outputs :
    (withChannel holding).held = none ∧ holding.inlet = { energised := true, watch := some 4000000 } ∧
      4000000 ≤ road.clock ∧ (testing .on 0).vent.energised = true ∧ holding.vent.energised = false :=
  by decide

/-- The fields of the profile of 12.1, defaults left to be selected. -/
def fields (channel : Byte) (applyPulse : Word) : ProfileFields :=
  { channel := channel, enabled := 1, combine := 0, continuous := 0, driveAxle := 1, repeatCount := 2, slipEntry := 0
    slipExit := 0, holdDecel := 0, reaccel := 0, ventLimit := 0, holdLimit := 0, applyPulse := applyPulse
    holdInterval := 5 }

theorem witness_Profiles :
    takesAll [(.installChannel 1 (fields 6 5), road), (.installChannel 1 (fields 0 51), road),
      (.installChannel 1 (fields 0 50), withChannel holding), (.installChannel 1 (fields 5 5), road)] = true ∧
      holding.state.regulating = true ∧ road.channels[5].state.regulating = false ∧
      (withChannel { holding with staged := some profile }).channels[0].staged = some profile :=
  by decide

theorem witness_ProfileInRange :
    ¬ProfileInRange (fields 0 51) ∧ ProfileInRange (fields 0 50) ∧ ProfileInRange (fields 5 5) := by
  unfold ProfileInRange
  refine ⟨by decide, by decide, by decide⟩

theorem witness_ClearChannel :
    takesAll
      [(.clearChannel 1 6, road), (.clearChannel 1 5, road), (.clearChannel 1 0, withChannel locked),
       (.clearChannel 1 0, { withChannel locked with reg := { road.reg with vref := 499 } })] = true ∧
      road.reg.settings.floor ≤ road.reg.vref ∧ 499 < road.reg.settings.floor :=
  by decide

theorem witness_Train :
    [withChannel (training .apply 0), withChannel (training .hold 2), withChannel (training .hold 3)].all fits = true ∧
      4000000 ≤ road.clock ∧ 2 < 2 + 1 ∧ 2 + 1 ≤ 3 :=
  by decide

theorem witness_TestPhases :
    [withChannel (testing .on 0), withChannel (testing .off 0), withChannel (testing .off 1)].all fits = true ∧
      4000000 ≤ road.clock ∧ 0 < 0 + 1 ∧ 0 + 1 ≤ 1 :=
  by decide

theorem witness_ValveTest :
    (let still := { road with reg := { road.reg with vref := 0 } }
     takesAll
      [(.valveTest 1 6 0 0 0 10 10, road), (.valveTest 1 0 2 0 0 10 10, road), (.valveTest 1 0 0 0 0 9 10, road),
       (.valveTest 1 0 0 0 0 200 2001, road), (.valveTest 1 0 0 0 0 10 10, withChannel (testing .on 0)),
       (.valveTest 1 0 0 0 0 10 10, withChannel holding), (.valveTest 1 0 0 0 0 10 10, road),
       (.valveTest 1 0 0 0 0 10 10, { still with smn := {} }),
       (.valveTest 1 0 0 0 0 10 10, { still with pcu := { still.pcu with lowMark := true } }),
       (.valveTest 1 5 1 255 1 200 2000, still)] = true) ∧ road.reg.vref ≠ 0 :=
  by decide

theorem witness_StopTest :
    takesAll
      [(.stopTest 1 6, road), (.stopTest 1 5, road), (.stopTest 1 0, withChannel (testing .off 1))] = true ∧
      (withChannel (testing .off 1)).channels[0].state = .test :=
  by decide

theorem witness_Disarm :
    takesAll
      [(.disarm 1, withChannel holding), (.disarm 1, withChannel { holding with staged := some profile }),
       (.disarm 1, { road with reg := { road.reg with armed := false, absence := some .disarmed } })] = true :=
  by decide

theorem witness_ConverterTimers :
    road.held = none ∧ road.clock < road.pcu.scanDue ∧
      ({ road with pcu := { road.pcu with scanDue := 4000000, pendingList := some [1] } } : State).pcu.scanDue ≤ road.clock ∧
      road.smn.sampleDue ≤ road.clock ∧ State.reset.clock < State.reset.smn.sampleDue ∧ State.reset.held = none :=
  by decide

/-- The road with a conversion of a claim complete, a pass of one input in progress, and nine samples taken. -/
def converting (claim : Claim) (codes : List (BitVec 12)) : State :=
  { road with
    pcu := { road.pcu with converter := .converting claim 4000000, pass := some codes }
    smn := { road.smn with count := 9, minimum := some 20000 } }

theorem witness_ConversionRecorded :
    (converting .entry [1, 2]).held = none ∧ 4000000 ≤ road.clock ∧ [1, 2].length + 1 < road.pcu.scanList.length ∧
      road.pcu.converter = .idle ∧ road.smn.count + 1 < 10 ∧
      ({ converting .supply [] with smn := { road.smn with count := 8 } } : State).smn.count + 1 < 10 :=
  by decide

/-- Of PassFigures and PassReports. -/
theorem witness_PassFigures_and_PassReports :
    (converting .entry [1, 2, 3]).held = none ∧ (converting .entry [1, 2, 3]).mem.wf = true ∧
      (converting .entry [1, 2, 3]).pcu.converter = .converting .entry 4000000 ∧ 4000000 ≤ road.clock ∧
      road.pcu.scanList.length ≤ [1, 2, 3].length + 1 ∧
      exec (.entryConversionCompletion 4095) (converting .entry [1, 2, 3]) =
        .next (after (exec (.entryConversionCompletion 4095) (converting .entry [1, 2, 3]))) :=
  ⟨by decide, by decide, by decide, by decide, by decide, rfl⟩

theorem witness_PressureRequests :
    takesAll
      [(.setScan 1 0 #v[0, 0, 0, 0, 0, 0, 0, 0], road), (.setScan 1 9 #v[0, 0, 0, 0, 0, 0, 0, 0], road),
       (.setScan 1 8 #v[0, 0, 0, 0, 0, 0, 0, 4], road), (.setScan 1 8 #v[3, 3, 3, 3, 0, 0, 0, 3], road),
       (.setScan 1 1 #v[3, 9, 9, 9, 9, 9, 9, 9], road), (.setCalibration 1 4 0 0 1000, road),
       (.setCalibration 1 0 5 0 1000, road), (.setCalibration 1 0 0 0 999, road), (.setCalibration 1 0 1 0 1000, road),
       (.setCalibration 1 3 4 3095 4095, road)] = true ∧
      road.pcu.inputs[1].role = .demandRear ∧ (∀ j : Fin 4, j ≠ 3 → road.pcu.inputs[j].role ≠ .aux) :=
  by decide

theorem witness_WindowClose :
    (converting .supply []).held = none ∧ (converting .supply []).mem.wf = true ∧
      (converting .supply []).pcu.converter = .converting .supply 4000000 ∧ 9 ≤ (converting .supply []).smn.count ∧
      ({ converting .supply [] with smn := { (converting .supply []).smn with firstClose := true } } : State).smn.firstClose
        = true := by
  decide

/-- A window that closes the class to CRITICAL over a regulating and a testing channel at standstill. -/
def collapsing : State :=
  { converting .supply [] with
    smn := { (converting .supply []).smn with minimum := some 17999 }
    reg := { road.reg with vref := 0 }
    channels := (road.channels.set 0 holding).set 1 (testing .on 0)
    rbu := (withChannel holding).rbu }

theorem witness_CriticalClose :
    fits collapsing = true ∧ collapsing.lnc.event.fill.toNat + 16 ≤ 2048 ∧
      exec (.sampleCompletion 4095) collapsing = .next (after (exec (.sampleCompletion 4095) collapsing)) ∧
      collapsing.smn.cls ≠ .critical ∧ (after (exec (.sampleCompletion 4095) collapsing)).smn.cls = .critical ∧
      collapsing.lnc.event.fault = none ∧ framesPresent .event collapsing.lnc.event < 127 :=
  ⟨by decide, by decide, rfl, by decide, by decide, by decide, by decide⟩

theorem witness_BetterClose :
    let s := { converting .supply [] with smn := { (converting .supply []).smn with cls := .critical } }
    exec (.sampleCompletion 4095) s = .next (after (exec (.sampleCompletion 4095) s)) ∧
      (after (exec (.sampleCompletion 4095) s)).smn.cls = .low :=
  ⟨rfl, by decide⟩

theorem witness_CriteriaAndCurve :
    (let point := fun (n : Nat) (t : Word) => (⟨BitVec.ofNat 32 n, t⟩ : PointFields)
     let rising := #v[point 100 (-40), point 101 0, point 102 0, point 103 0, point 104 0, point 105 0, point 106 0,
       point 107 0, point 200000 700]
     takesAll
      [(.setSupplyCriteria 1 11750 12000, road), (.setSupplyCriteria 1 22000 21250, road),
       (.setSupplyCriteria 1 28000 27000, road), (.setCurve 1 0 rising, road), (.setCurve 1 2 rising, road),
       (.setCurve 1 1 (rising.set 1 (point 100 0)), road), (.setCurve 1 1 rising, road)] = true) :=
  by decide

theorem witness_ReferencePhase :
    [measuring .reference 1 [9], measuring .reference 0 [9], measuring .sensor 0 [9], road].all fits = true ∧
      (measuring .reference 0 []).dtu.inFlight.map (·.since) = some 0 ∧ 0 < road.clock ∧
      ({ measuring .reference 0 [] with clock := 0 } : State).clock ≤ 0 :=
  by decide

theorem witness_SensorPhase :
    [measuring .reference 0 [], measuring .sensor 1 [], measuring .sensor 0 [9]].all fits = true ∧
      (15 : BitVec 20).toNat < 16 ∧ 16 ≤ (16 : BitVec 20).toNat ∧ (3413 : BitVec 20).toNat = 3413 ∧
      .sensorOverflow ∉ road.pending ∧ .sensorOverflow ∈ [Instr.ageRefresh, .sensorOverflow] ∧
      ((2000 * 4096 + 3413 / 2) / 3413 = 2400 ∧ curve[6].resistance ≤ 2400 ∧ 2400 ≤ curve[7].resistance) ∧
      ((2000 * 4096 + 16500 / 2) / 16500 < curve[0].resistance) ∧
      (curve[8].resistance < (2000 * 4096 + 3100 / 2) / 3100) :=
  by decide

theorem witness_MeasureDrum :
    takesAll
      [(.measureDrum 9 6, road), (.measureDrum 9 5, measuring .sensor 0 []),
       (.measureDrum 9 0, measuring .sensor 0 [1, 2, 3]), (.measureDrum 9 0, measuring .sensor 0 [1, 2, 3, 4]),
       (.measureDrum 9 1, measuring .sensor 0 []), (.measureDrum 9 2, measuring .sensor 0 []),
       (.measureDrum 9 3, measuring .sensor 0 [])] = true :=
  by decide

theorem witness_DrumTimers :
    [measuring .sensor 0 [], road].all fits = true ∧ (measuring .sensor 0 []).dtu.scanTimer = some 4000000 ∧
      road.dtu.scanTimer = none ∧ road.dtu.config.enabled = 0 ∧ (measuring .sensor 0 []).dtu.config.enabled[(0 : Fin 6)] = true ∧
      ({ measuring .sensor 0 [] with dtu := { (measuring .sensor 0 []).dtu with rotation := 3 } } : State).dtu.rotation + 0 = 3 ∧
      (measuring .sensor 0 []).dtu.ageDue ≤ road.clock ∧ State.reset.clock < State.reset.dtu.ageDue :=
  by decide

theorem witness_SetDrumConfig :
    takesAll
      [(.setDrumConfig 1 999 4096 0 350 0, road), (.setDrumConfig 1 1000 256 249 350 0, road),
       (.setDrumConfig 1 1000 256 250 100 64, road), (.setDrumConfig 1 100000 32768 5000 600 63, measuring .sensor 0 [9]),
       (.setDrumConfig 1 1000 256 0 100 0, measuring .sensor 0 [9])] = true :=
  by decide

theorem witness_LeverAndTimers :
    ({ road with rbu := { road.rbu with settle := some 4000000, input1 := .closed } } : State).held = none ∧
      road.rbu.leverStage = 0 ∧ 4000000 ≤ road.clock ∧ road.rbu.holdOff = none ∧ road.rbu.ramp = none ∧
      ({ road.rbu with ramp := some 4000000, allowed := 2, output := 1 } : RetarderUnit).output < 2 :=
  by decide

theorem witness_SetBlend :
    takesAll
      [(.setBlend 1 99 0 0 0 0, road), (.setBlend 1 0 2 0 0 0, road), (.setBlend 1 0 1 0 300 100, road),
       (.setBlend 1 100 1 3 601 500, road), (.setBlend 1 2000 1 3 600 500, road), (.setBlend 1 0 0 9 9 9, road)] = true :=
  by decide

theorem witness_SignallingWrites :
    road.held = none ∧ road.lnc.request.fault = none ∧ (2044 % 4 = 0 ∧ 2044 ≤ 2044) ∧
      ({ road.lnc.event with drain := 2032, posted := 127, fault := none } : Lane).drain.toNat % 16 = 0 ∧ 2032 + 16 ≤ 2048 ∧
      2032 = (0 + 127 * 16) % 2048 ∧ (5 : Word) - 0 = 5 ∧
      (let q := (waiting (.identify 9) road).lnc.request
       let before := { waiting (.identify 9) road with lnc := { road.lnc with request := { q with accFill := 0, posted := 0 } } }
       before.lnc.taking ≠ .taking ∧
         (examineRequests (waiting (.identify 9) road)).readyRequest = some (.identify 9)) ∧
      (waiting (.identify 9) road).lnc.taking = .taking :=
  by decide

/-- A post event that brings the condition to TAKING makes the first take, and the request is answered (R175). -/
theorem test_postTakes :
    let s := waiting (.identify 9) road
    let unposted := { s with lnc := { s.lnc with request := { s.lnc.request with accFill := 0, posted := 0 } } }
    let t := after (exec (.postEvent 1) unposted)
    (t.lnc.request.taken, t.lnc.response.posted, t.lnc.owed) = (1, 1, 0) := by decide

/-- A post event between two takes comes before the examination of the second (R173): the new accepted fill is used. Without it
the second take's examination finds the lane empty. -/
theorem test_postBeforeExamination :
    let s := waiting (.identify 9) road
    let two := { s with
      lnc := { s.lnc with request := { s.lnc.request with accFill := 0, posted := 0 } }
      mem := s.mem.writeAll 0x404 [1, 0x01, 8, 0] }
    let first := after (exec (.postEvent 2) two)
    let posted := after (exec (.postEvent 2) (after (exec (.hostWordWrite 0 8) first)))
    (first.lnc.request.taken, first.lnc.request.fault, (after (step first)).lnc.request.fault) =
        (1, none, some .countMismatch) ∧
      (posted.lnc.request.fault, (after (step posted)).pending) = (none, [.identify 8]) := by decide

/-- A take moves past a wrap marker at its examination (R164 order 4, R175 step 1). -/
theorem test_takePastMarker :
    let s := { road with
      lnc := { road.lnc with request := { drain := 2012, accFill := 92, fill := 92, posted := 40, taken := 38 } }
      mem := Memory.writeAll [] 0x400 [1, 0x01, 9, 0] }
    let t := after (exec (.identify 9) s)
    (t.lnc.request.drain, t.lnc.request.taken, t.lnc.response.posted) = (4, 39, 1) := by decide

/-- A restart of the response and the event lane: the condition is formed again before the event lane is restarted, so the
LANE_FAULT it finds is emptied with that lane (R159, R179). -/
theorem test_restartOrder :
    let s := { road with lnc := { road.lnc with request := { posted := 1 }, response := { fault := some .badOffset } } }
    let t := after (exec (.laneRestart 6) s)
    let u := after (exec (.laneRestart 2) s)
    (t.lnc.request.fault, t.lnc.event.posted, u.lnc.request.fault, u.lnc.event.posted) =
      (some .countMismatch, 0, some .countMismatch, 1) := by decide

/-- The counter of a measurement rises by the oscillator's cycles, and an overflow decides the SENSOR phase at the tick at
which the time base reaches 0 as well (R117, R118). -/
theorem test_counter :
    let s := measuring .sensor 0 []
    stepCounter 7 s.dtu = 7 ∧ counterOverflows 1 { s.dtu with counter := 1048575 } = true ∧
      (after (exec (.sensorPhaseEnd 100) { s with pending := [.sensorOverflow] })).dtu.drums[0].result = .short ∧
      (after (exec (.sensorPhaseEnd 15) s)).dtu.drums[0].result = .opened ∧ measurementEnd true s = [.sensorOverflow] ∧ measurementEnd false s = [.sensorPhaseEnd s.dtu.counter] ∧
      measurementEnd true (measuring .reference 1 []) = [.referenceOverflow] := by decide

theorem witness_Examination :
    (let s := fun (drain fill : Word) (bytes : List Byte) => { road with
       lnc := { road.lnc with request := { drain := drain, accFill := fill, posted := 1 } }
       mem := Memory.writeAll [] (0x400 + drain.toNat) bytes }
     [s 4 4 [], s 0 4 [0, 0], s 4 8 [0, 1], s 2044 0 [0, 0], s 2044 0 [2, 2], s 0 4 [2, 2], s 2044 0 [1, 2]].all
      (fun t => decide (t.lnc.taking = .taking)) = true) ∧ road.lnc.response.accDrain.toNat < 1024 :=
  by decide

theorem witness_LaneRestart :
    fits road = true ∧ (0b1101 : BitVec 4)[1] = false ∧ (0b0010 : BitVec 4)[1] = true ∧
      (let s := { road with lnc := { road.lnc with
         request := { posted := 1, accFill := 4 }, response := { fault := some .badOffset }, owed := 3
         holdback := List.replicate 2 (responseFrame 0x42 1 .done []) } }
       fits s = true ∧ (∀ f ∈ s.lnc.holdback, f.length = 16) ∧ s.lnc.holdback.length ≤ 63 ∧ s.lnc.taking ≠ .taking ∧
         (after (exec (.laneRestart 2) s)).lnc.response.posted = 2) :=
  by decide

theorem witness_HostWordWrite :
    fits road = true ∧ (0x0401 : Word).toNat % 2 = 1 ∧ 0x4006 < (0x4008 : Word).toNat ∧
      (0x0BFE : Word).toNat % 2 = 0 ∧ (0x8000 : Word)[15] = true ∧ (0x0008 : Word).extractLsb' 0 4 ≠ 0 :=
  by decide

theorem witness_IdentifyAndJudgement :
    takesAll
      [(.identify 1, road), (.unknownKind 0x05 1 1, road), (.unknownKind 0xFF 63 1, road), (.unknownKind 0x02 2 1, road)]
      = true :=
  by decide

theorem witness_FramesHandedOver :
    fits road = true ∧ road.lnc.event.accDrain.toNat < 2048 ∧ (List.replicate 28 (0 : Byte)).length = 28 ∧
      ({ road.lnc.event with fault := some .badOffset } : Lane).fault ≠ none :=
  by decide

/-- Of Registers: an unlisted word, the last listed ones and a header word at the ends of their ranges. -/
theorem witness_Registers :
    road.held = none ∧ road.hostRead 0x1C0 = 0 ∧ road.hostRead 0x3FE = 0 ∧ road.hostRead 0x3FFE = 0 ∧
      road.hostRead 0x3E = 1 ∧ (LaneId.episode, 3, 10240) ∈
        [(LaneId.request, 0, 2048), (.response, 1, 1024), (.event, 2, 2048), (.episode, 3, 10240)] :=
  by decide

/-- Of Resets. -/
theorem witness_Resets :
    road.held = none ∧ ({ road with held := some .pin } : State).held = some .pin :=
  by decide

theorem witness_FrameRoundTrip :
    (Instr.setScan 1 8 #v[0, 1, 2, 3, 255, 0, 0, 0]).isRequest = true ∧ WellFormed (.unknownKind 0x20 6 1) = true :=
  by decide

/-- Whether every invariant holds. -/
def soundAll (s : State) : Bool :=
  fits s && decide (∀ w : Fin 6, @decide _ (decidable_of_iff _ (Wheel.sound_iff s.wheels[w]).symm) = true) &&
    @decide _ (decidable_of_iff _ (engagement_iff s).symm) && @decide _ (decidable_of_iff _ (reservationSound_iff s).symm)

/-- Of MemoryForm, WheelsKept, ChannelsKept, EngagementKept, RetarderKept, DrumsKept and ReservationKept. -/
theorem witness_invariants :
    let s := { withWheel rolling with
      channels := (withChannel holding).channels, rbu := (withChannel holding).rbu, pending := [.regulationPeriod] }
    soundAll s = true ∧ step s = .next (after (step s)) :=
  ⟨by decide, rfl⟩

theorem witness_PressureKept :
    (∀ i : Fin 4, road.pcu.inputs[i].Sound) ∧ (∀ i j : Fin 4, road.pcu.inputs[i].role = road.pcu.inputs[j].role → i = j) ∧
      (∀ i : Fin 4, road.pcu.inputs[i].validity = .unused ↔ i ∉ road.pcu.scanList) ∧
      (1 ≤ road.pcu.scanList.length ∧ road.pcu.scanList.length ≤ 8) ∧ road.pcu.pendingList = none :=
  ⟨fun i => (Input.sound_iff _).2 (by revert i; decide), by decide, by decide, by decide, by decide⟩

end Sys2Proof.Tests
end

