-- ==== Sys2Proof/Proofs/Invariants.lean ====
section
/-! SUPPORT. Invariants of the blocks: a property that no lane and no byte of the memory takes part in is kept by every step
where the requests, the events of the blocks, a tick and a reset keep it. -/

namespace Sys2Proof

/-- Whether a command comes over the host's bus or from a reset pin: it acts on the lanes, the registers or the whole part,
and on a block only through the request that is taken. -/
def Instr.isBusCommand : Instr → Bool
  | .postEvent _ | .giveBack _ _ | .thresholdWrite _ _ | .laneRestart _ | .softReset | .collisionClear
  | .attentionEnableWrite _ | .hostWordWrite _ _ | .powerOnReset | .resetPin | .resetRelease => true
  | _ => false

end Sys2Proof

namespace Sys2Proof.Machine

/-! ### Operations that change the lanes and the memory alone -/

/-- A state that agrees with another on every block but the lanes differs from it in the lanes and the memory alone. -/
theorem State.eq_with_lanes {s t : State} (clock : t.clock = s.clock) (held : t.held = s.held)
    (wheels : t.wheels = s.wheels) (reg : t.reg = s.reg) (channels : t.channels = s.channels) (pcu : t.pcu = s.pcu)
    (dtu : t.dtu = s.dtu) (smn : t.smn = s.smn) (rbu : t.rbu = s.rbu) (draws : t.draws = s.draws)
    (pending : t.pending = s.pending) : t = { s with lnc := t.lnc, mem := t.mem } := by
  cases t; cases s; simp_all

theorem raiseEvent_eq (kind : EventKind) (subject : Byte) (v1 v2 : Int) (s : State) :
    raiseEvent kind subject v1 v2 s =
      { s with lnc := (raiseEvent kind subject v1 v2 s).lnc, mem := (raiseEvent kind subject v1 v2 s).mem } := by
  apply State.eq_with_lanes <;> simp

theorem faultLane_eq (id : LaneId) (code : LaneFault) (offset : Word) (s : State) :
    faultLane id code offset s =
      { s with lnc := (faultLane id code offset s).lnc, mem := (faultLane id code offset s).mem } := by
  apply State.eq_with_lanes <;> simp

theorem examineRequests_eq (s : State) :
    examineRequests s = { s with lnc := (examineRequests s).lnc, mem := (examineRequests s).mem } := by
  apply State.eq_with_lanes <;> simp

/-! ### Block invariants -/

/-- A property that the lanes, the memory and the queue take no part in, and that every event and request of the blocks, every
tick and every reset keeps. -/
structure BlockInvariant (P : State → Prop) : Prop where
  lanes : ∀ s l m, P s → P { s with lnc := l, mem := m }
  pending : ∀ s q, P s → P { s with pending := q }
  unheld : ∀ s, P s → P { s with held := none }
  tick : ∀ s, P s → P (tick s)
  reset : ∀ cause s, P (enterReset cause s)
  request : ∀ i s, P s → P (carryRequest i s)
  event : ∀ i s t, i.isRequest = false → i.isBusCommand = false → P s → exec i s = .next t → P t

namespace BlockInvariant

variable {P : State → Prop}

theorem setLane (h : BlockInvariant P) (id : LaneId) (x : Lane) {s : State} (hs : P s) : P (s.setLane id x) :=
  h.lanes s _ s.mem hs

theorem lnc (h : BlockInvariant P) (l : LaneController) {s : State} (hs : P s) : P { s with lnc := l } :=
  h.lanes s l s.mem hs

theorem faultLane (h : BlockInvariant P) (id : LaneId) (code : LaneFault) (offset : Word) {s : State} (hs : P s) :
    P (faultLane id code offset s) := by
  rw [faultLane_eq]; exact h.lanes _ _ _ hs

theorem examineRequests (h : BlockInvariant P) {s : State} (hs : P s) : P (examineRequests s) := by
  rw [examineRequests_eq]; exact h.lanes _ _ _ hs

theorem makeTake (h : BlockInvariant P) (i : Instr) {s : State} (hs : P s) : P (makeTake (carryRequest i) s) := by
  refine h.request _ _ ?_
  rw [countTake_eq]; exact h.lanes _ _ _ hs

theorem formTaking (h : BlockInvariant P) (before : State) {s : State} (hs : P s) : P (formTaking before s) := by
  rcases formTaking_cases before s with ⟨-, e⟩ | ⟨-, e⟩ <;> rw [e]
  · exact hs
  · exact firstTake_of (P := P) (fun _ hu => h.examineRequests hu) (fun i _ hu => h.makeTake i hu) hs

/-- A command that acts only while no reset is held keeps the property where its action does. -/
theorem whenRunning {f : State → State} {s t : State} (hf : P s → P (f s)) (hs : P s) (ht : s.whenRunning f = .next t) :
    P t := by
  simp only [State.whenRunning, Host.Outcome.next.injEq] at ht
  subst ht
  split_ifs
  · exact hs
  · exact hf hs

theorem take (h : BlockInvariant P) (i : Instr) {s t : State} (hs : P s)
    (ht : take i (carryRequest i) s = .next t) : P t := by
  refine whenRunning (fun hs => ?_) hs ht
  dsimp only
  split_ifs
  · exact h.makeTake i (h.examineRequests hs)
  · exact hs

theorem postEvent (h : BlockInvariant P) (posted : Word) {s : State} (hs : P s) : P (postEvent posted s) := by
  simp only [Machine.postEvent]
  split_ifs
  · exact h.setLane _ _ hs
  · exact h.formTaking s (h.setLane _ _ hs)
  · exact h.faultLane _ _ _ (h.setLane _ _ hs)

theorem giveBack (h : BlockInvariant P) (r : ReportLane) (taken : Word) {s : State} (hs : P s) :
    P (giveBack r taken s) := by
  simp only [Machine.giveBack]
  split_ifs
  · exact h.setLane _ _ hs
  · split
    · exact h.faultLane _ _ _ (h.setLane _ _ hs)
    · cases r
      · exact h.formTaking s (h.setLane _ _ hs)
      all_goals exact h.setLane _ _ hs

theorem writeHoldback (h : BlockInvariant P) {s : State} (hs : P s) : P (writeHoldback s) := by
  have key : ∀ (l : List (List Byte)) (u : State), P u → P (l.foldl (fun s bytes => writeResponse bytes s) u) := by
    intro l
    induction l with
    | nil => exact fun u hu => hu
    | cons bytes l ih =>
      intro u hu
      refine ih _ ?_
      dsimp only
      rw [writeResponse_eq]
      exact h.lanes u _ _ hu
  unfold Machine.writeHoldback
  exact key _ _ (h.lnc _ hs)

theorem restartLane (h : BlockInvariant P) (id : LaneId) {s : State} (hs : P s) : P (restartLane id s) := by
  have hl : P (clearGap id (s.setLane id (restartedLane (s.lane id)))) := by
    unfold clearGap
    split
    · exact h.lnc _ (h.setLane _ _ hs)
    · exact h.lnc _ (h.setLane _ _ hs)
    all_goals exact h.setLane _ _ hs
  unfold Machine.restartLane
  cases id
  case response => exact h.formTaking s (h.writeHoldback hl)
  all_goals exact hl

theorem restartLanes (h : BlockInvariant P) (lanes : BitVec 4) {s : State} (hs : P s) : P (restartLanes lanes s) := by
  unfold Machine.restartLanes
  induction restartOrder generalizing s with
  | nil => exact hs
  | cons e l ih =>
    refine ih ?_
    dsimp only
    split_ifs
    · exact h.restartLane _ hs
    · exact hs

theorem leaveReset (h : BlockInvariant P) {s : State} (hs : P s) : P (leaveReset s) := by
  unfold Machine.leaveReset
  split
  · exact hs
  · rw [raiseEvent_eq]; exact h.lanes _ _ _ (h.unheld _ hs)

theorem resetOf (h : BlockInvariant P) (cause : ResetCause) {s : State} (hs : P s) : P (Machine.reset cause s) := by
  unfold Machine.reset
  split_ifs
  · exact hs
  · exact h.reset cause s

theorem softReset (h : BlockInvariant P) {s : State} (hs : P s) : P (softReset s) := by
  unfold Machine.softReset
  split_ifs
  · exact hs
  · exact h.leaveReset (h.reset _ _)

theorem writeReportHeader (h : BlockInvariant P) (r : ReportLane) (o : Nat) (v : Word) {s : State} (hs : P s) :
    P (writeHeader.writeReportHeader r o v s) := by
  unfold writeHeader.writeReportHeader
  split_ifs
  · exact h.setLane _ _ hs
  · exact h.giveBack _ _ hs
  · exact h.lnc _ hs

theorem writeHeader (h : BlockInvariant P) (a : Nat) (v : Word) {s : State} (hs : P s) : P (writeHeader a v s) := by
  simp only [Machine.writeHeader]
  by_cases ht : a % 16 = 14
  · rw [if_pos ht]; exact h.setLane _ _ hs
  · rw [if_neg ht]
    cases headerLane a
    · dsimp only
      split_ifs
      · exact h.setLane _ _ hs
      · exact h.postEvent _ hs
      · exact h.lnc _ hs
    all_goals exact h.writeReportHeader _ _ _ hs

theorem hostWrite (h : BlockInvariant P) (a : Nat) (v : Word) {s : State} (hs : P s) : P (hostWrite a v s) := by
  unfold Machine.hostWrite writeRunControl
  split_ifs
  · exact h.writeHeader _ _ hs
  · exact h.lnc _ hs
  · exact hs
  · exact h.lanes s _ _ hs
  · exact h.lnc _ hs
  · exact h.softReset hs
  · exact h.restartLanes _ hs
  · exact h.lnc _ hs
  · exact hs
  · exact h.lnc _ hs
  · exact hs

/-- Every bus command keeps a block invariant. -/
theorem busCommand (h : BlockInvariant P) {i : Instr} {s t : State} (hi : i.isBusCommand = true) (hs : P s)
    (ht : exec i s = .next t) : P t := by
  cases i <;> first | exact absurd hi Bool.false_ne_true | skip
  case postEvent posted =>
    exact whenRunning (f := Machine.postEvent posted) (fun hs => h.postEvent posted hs) hs ht
  case giveBack r taken =>
    exact whenRunning (f := Machine.giveBack r taken) (fun hs => h.giveBack r taken hs) hs ht
  case thresholdWrite id x => exact whenRunning (f := writeThreshold id x) (fun hs => h.setLane _ _ hs) hs ht
  case laneRestart lanes =>
    exact whenRunning (f := Machine.restartLanes lanes) (fun hs => h.restartLanes lanes hs) hs ht
  case softReset => cases ht; exact h.softReset hs
  case collisionClear => exact whenRunning (f := clearCollision) (fun hs => h.lnc _ hs) hs ht
  case attentionEnableWrite v => exact whenRunning (f := writeEnables v) (fun hs => h.lnc _ hs) hs ht
  case hostWordWrite a v =>
    simp only [exec, execHostWordWrite] at ht
    split_ifs at ht
    exact whenRunning (f := Machine.hostWrite a.toNat v) (fun hs => h.hostWrite a.toNat v hs) hs ht
  case powerOnReset => cases ht; exact h.resetOf _ hs
  case resetPin => cases ht; exact h.resetOf _ hs
  case resetRelease => cases ht; exact h.leaveReset hs

/-- Every command keeps a block invariant. -/
theorem exec (h : BlockInvariant P) {i : Instr} {s t : State} (hs : P s) (ht : exec i s = .next t) : P t := by
  by_cases hb : i.isBusCommand = true
  · exact h.busCommand hb hs ht
  by_cases hr : i.isRequest = true
  · rw [exec_eq_take hr] at ht; exact h.take i hs ht
  · exact h.event i s t (by simpa using hr) (by simpa using hb) hs ht

/-- What the part does on an empty queue keeps a block invariant. -/
theorem idle (h : BlockInvariant P) {s : State} (hs : P s) : P (idle s) := by
  unfold Machine.idle
  split_ifs
  · exact hs
  split
  · exact h.tick s hs
  · exact h.tick s hs
  · exact h.tick s hs
  · dsimp only
    split
    · exact h.pending _ _ hs
    · exact h.examineRequests hs

/-- Every step keeps a block invariant. -/
theorem step (h : BlockInvariant P) {s t : State} (hs : P s) (ht : step s = .next t) : P t := by
  unfold Machine.step at ht
  split at ht
  · exact h.exec (h.pending _ _ hs) ht
  · cases ht; exact h.idle hs

end BlockInvariant

end Sys2Proof.Machine
end

