-- ==== Sys2Proof/Proofs/Wheels.lean ====
section
/-! SUPPORT. The wheels: what a tooth edge and a standstill expiry do, case by case, which commands leave the wheels alone, and
that every step keeps their entries whole (R1, R9 to R19). -/

namespace Sys2Proof.Machine

/-! ### Commands while no reset is held -/

theorem whenRunning_of_not_held {s : State} (h : s.held = none) (f : State → State) :
    s.whenRunning f = .next (f s) := by
  simp [State.whenRunning, h]

/-! ### One tooth edge (R3, R9 to R11) -/

theorem exec_toothEdge {w : Fin 6} {s : State} (h : s.held = none) : exec (.toothEdge w) s = .next (toothEdge w s) :=
  whenRunning_of_not_held h _

/-- An edge is ignored in OFF and in SUSPECT (R9). -/
theorem toothEdge_ignored {w : Fin 6} {s : State} (h : s.wheels[w].state = .off ∨ s.wheels[w].state = .suspect) :
    toothEdge w s = s := by
  rcases h with h | h <;> simp only [toothEdge, h]

/-- An edge less than 50 µs after the last tooth time is blanked (R3). -/
theorem toothEdge_blanked {w : Fin 6} {s : State} {t : Long}
    (h : s.wheels[w].state = .starting ∨ s.wheels[w].state = .rolling) (ht : s.wheels[w].capture.lastTooth = some t)
    (hp : (s.timeBase - t).toNat < 50) : toothEdge w s = s := by
  cases hr : s.wheels[w].record <;> rcases h with h | h <;> simp only [toothEdge, h, hr, ht, hp, if_true]

theorem toothEdge_stopped {w : Fin 6} {s : State} {r : WheelRecord} (h : s.wheels[w].state = .stopped)
    (hr : s.wheels[w].record = some r) : toothEdge w s = s.setWheel w (edgeStopped r s s.wheels[w]) := by
  simp only [toothEdge, h, hr]

theorem toothEdge_starting {w : Fin 6} {s : State} {r : WheelRecord} {t : Long} (h : s.wheels[w].state = .starting)
    (hr : s.wheels[w].record = some r) (ht : s.wheels[w].capture.lastTooth = some t)
    (hp : 50 ≤ (s.timeBase - t).toNat) :
    toothEdge w s = s.setWheel w (edgeStarting r (s.timeBase - t).toNat s s.wheels[w]) := by
  simp only [toothEdge, h, hr, ht, Nat.not_lt.2 hp, if_false]

theorem toothEdge_rolling {w : Fin 6} {s : State} {r : WheelRecord} {t : Long} (h : s.wheels[w].state = .rolling)
    (hr : s.wheels[w].record = some r) (ht : s.wheels[w].capture.lastTooth = some t)
    (hp : 50 ≤ (s.timeBase - t).toNat) : toothEdge w s = edgeRolling w r s.wheels[w] s := by
  simp only [toothEdge, h, hr, ht, Nat.not_lt.2 hp, if_false]

/-- A tooth edge leaves no trace, or is the first of a STOPPED wheel, gives a STARTING wheel its first period, or is taken on
a ROLLING wheel. -/
theorem toothEdge_cases (w : Fin 6) (s : State) :
    toothEdge w s = s ∨
    (∃ r, s.wheels[w].state = .stopped ∧ s.wheels[w].record = some r ∧
      toothEdge w s = s.setWheel w (edgeStopped r s s.wheels[w])) ∨
    (∃ r p, s.wheels[w].state = .starting ∧ s.wheels[w].record = some r ∧
      toothEdge w s = s.setWheel w (edgeStarting r p s s.wheels[w])) ∨
    ∃ r, s.wheels[w].state = .rolling ∧ s.wheels[w].record = some r ∧
      toothEdge w s = edgeRolling w r s.wheels[w] s := by
  unfold toothEdge
  dsimp only
  split
  · next hx hr => exact .inr (.inl ⟨_, hx, hr, rfl⟩)
  · next r last hx hr _ =>
    split_ifs
    · exact .inl rfl
    · exact .inr (.inr (.inl ⟨r, _, hx, hr, rfl⟩))
  · next r last hx hr _ =>
    split_ifs
    · exact .inl rfl
    · exact .inr (.inr (.inr ⟨r, hx, hr, rfl⟩))
  · exact .inl rfl

/-! ### An edge taken on a ROLLING wheel (R11 to R17) -/

/-- The capture state in which a ROLLING wheel's edge has been counted (R11 steps 1 and 2). -/
def countedCapture (r : WheelRecord) (c : Capture) (s : State) : Capture :=
  { c with teeth := c.teeth + 1, lastTooth := some s.timeBase, standstill := standstillAfter r s }

/-- The same at a capture: the counter is 0 again and the edge's time is the last capture time (R11 steps 3 and 4). -/
def capturedCapture (r : WheelRecord) (c : Capture) (s : State) : Capture :=
  { countedCapture r c s with teeth := 0, lastCapture := some s.timeBase }

/-- Below D an edge is only counted (R11). -/
theorem edgeRolling_counts {w : Fin 6} {r : WheelRecord} {x : Wheel} {s : State}
    (h : x.capture.teeth + 1 < x.capture.divisor.toNat) :
    edgeRolling w r x s = s.setWheel w { x with capture := countedCapture r x.capture s } := by
  simp [edgeRolling, h, countedCapture]

theorem edgeRolling_captures {w : Fin 6} {r : WheelRecord} {x : Wheel} {s : State} {last : Long}
    (h : x.capture.divisor.toNat ≤ x.capture.teeth + 1) (hl : x.capture.lastCapture = some last) :
    edgeRolling w r x s = capture w r last (countedCapture r x.capture s) x s := by
  simp [edgeRolling, Nat.not_lt.2 h, hl, countedCapture]

/-- A capture whose per-tooth period is accepted (R12 to R14, R17). -/
theorem capture_accepted {w : Fin 6} {r : WheelRecord} {last : Long} {c : Capture} {x : Wheel} {s : State} {p pt : Nat}
    (hp : p = (s.timeBase - last).toNat) (hpt : pt = p / c.divisor.toNat) (h : accepts c pt = true) :
    capture w r last (countedCapture r c s) x s =
      s.setWheel w { x with
        capture := acceptCapture (capturedCapture r c s) p pt (captureSpeed r.k c.divisor.toNat p) } := by
  subst hp hpt
  exact if_pos h

/-- A strike that is not the third (R15). -/
theorem capture_struck {w : Fin 6} {r : WheelRecord} {last : Long} {c : Capture} {x : Wheel} {s : State} {pt : Nat}
    (hpt : pt = (s.timeBase - last).toNat / c.divisor.toNat) (h : accepts c pt = false) (h3 : c.strikes + 1 < 3) :
    capture w r last (countedCapture r c s) x s =
      s.setWheel w { x with capture := strikeCapture (capturedCapture r c s) pt } := by
  subst hpt
  exact (if_neg (Bool.eq_false_iff.1 h)).trans (if_pos h3)

/-- The third strike (R16). -/
theorem capture_suspect {w : Fin 6} {r : WheelRecord} {last : Long} {c : Capture} {x : Wheel} {s : State} {pt : Nat}
    (hpt : pt = (s.timeBase - last).toNat / c.divisor.toNat) (h : accepts c pt = false) (h3 : 3 ≤ c.strikes + 1) :
    capture w r last (countedCapture r c s) x s =
      raiseEvent .wheelSuspect (BitVec.ofNat 8 w) pt c.pAcc
        (s.setWheel w { x with
          state := .suspect, capture := { strikeCapture (capturedCapture r c s) pt with standstill := none } }) := by
  subst hpt
  exact (if_neg (Bool.eq_false_iff.1 h)).trans (if_neg (Nat.not_lt.2 h3))

/-! ### The wheels after an operation on one of them -/

theorem WheelsSound.of_wheels_eq {s t : State} (hs : WheelsSound s) (h : t.wheels = s.wheels) : WheelsSound t := by
  intro w; rw [h]; exact hs w

theorem WheelsSound.of_wheels_set {s t : State} {w : Fin 6} {x : Wheel} (hs : WheelsSound s)
    (h : t.wheels = (s.setWheel w x).wheels) (hx : x.Sound) : WheelsSound t := by
  intro v
  rw [h, State.setWheel_get]
  split_ifs
  · exact hx
  · exact hs v

theorem Divisor.toNat_pos (d : Divisor) : 0 < d.toNat := by cases d <;> decide

theorem captureSpeed_le (k d p : Nat) : captureSpeed k d p ≤ 65535 := Nat.min_le_left _ _

/-- A wheel without record (R1, R7). -/
theorem Wheel.removed_sound : ({} : Wheel).Sound := (Wheel.sound_iff _).2 (by decide)

/-- A wheel in STOPPED with a record in its ranges and a cleared capture state (R4, R8, R19). -/
theorem Wheel.stopped_sound {r : WheelRecord} (hr : r.Sound) :
    ({ record := some r, state := .stopped, capture := {} } : Wheel).Sound := by
  refine (Wheel.sound_iff _).2 ⟨by simp, ?_, by simp, by simp, Divisor.toNat_pos .one, by simp, by simp,
    by simp, by simp, by simp⟩
  rintro _ ⟨⟩
  exact hr

theorem Wheel.Sound.edgeStopped {x : Wheel} {r : WheelRecord} (hx : x.Sound) (h : x.state = .stopped)
    (hr : x.record = some r) (s : State) : (edgeStopped r s x).Sound := by
  have hc : x.capture = {} := hx.cleared (.inr h)
  refine (Wheel.sound_iff _).2 ?_
  simp only [Machine.edgeStopped, hc, hr, standstillAfter]
  exact ⟨by simp, fun r' h' => hx.record r' (hr.trans h'), by simp, by simp, by decide, by simp, by simp, by simp,
    by simp, by simp⟩

theorem Wheel.Sound.edgeStarting {x : Wheel} {r : WheelRecord} (hx : x.Sound) (h : x.state = .starting)
    (hr : x.record = some r) (p : Nat) (s : State) : (edgeStarting r p s x).Sound := by
  have hc := hx.starting h
  have hstrikes : x.capture.strikes = 0 := by rw [hc]
  have hteeth : x.capture.teeth = 0 := by rw [hc]
  refine (Wheel.sound_iff _).2 ?_
  simp only [Machine.edgeStarting, hr, hstrikes, hteeth, standstillAfter]
  exact ⟨by simp, fun r' h' => hx.record r' (hr.trans h'), by simp, by simp, Divisor.toNat_pos _, by simp, by simp,
    by simp, by simp, captureSpeed_le _ _ _⟩

/-- A ROLLING wheel goes on whole with any capture state that counts below its divisor, has fewer than three strikes, a running
standstill timer, both times and a speed that fits. -/
theorem Wheel.Sound.rolling {x : Wheel} (hx : x.Sound) (h : x.state = .rolling) {c : Capture}
    (teeth : c.teeth < c.divisor.toNat) (strikes : c.strikes < 3) (timer : c.standstill.isSome = true)
    (lastTooth : c.lastTooth.isSome = true) (lastCapture : c.lastCapture.isSome = true) (speed : c.vCap ≤ 65535) :
    ({ x with capture := c } : Wheel).Sound := by
  refine (Wheel.sound_iff _).2 ⟨hx.off, hx.record, ?_, ?_, teeth, ⟨strikes.le, ?_⟩, ?_, fun _ => lastTooth,
    fun _ => lastCapture, speed⟩ <;> simp only [h]
  · simp
  · simp
  · simpa using strikes.ne
  · simpa using timer

theorem Wheel.Sound.strikes_lt {x : Wheel} (hx : x.Sound) (h : x.state = .rolling) : x.capture.strikes < 3 := by
  have hne : x.capture.strikes ≠ 3 := fun e => by simpa [h] using hx.strikes.2.1 e
  exact lt_of_le_of_ne hx.strikes.1 hne

/-- The third strike leaves the wheel whole in SUSPECT, its timer stopped (R16). -/
theorem Wheel.Sound.suspect {x : Wheel} {r : WheelRecord} (hx : x.Sound) (h : x.state = .rolling) (pt : Nat) (s : State)
    (h3 : 3 ≤ x.capture.strikes + 1) :
    ({ x with
        state := .suspect
        capture := { strikeCapture (capturedCapture r x.capture s) pt with standstill := none } } : Wheel).Sound := by
  have hstrikes : x.capture.strikes + 1 = 3 := by have := hx.strikes_lt h; omega
  have hrecord : x.record ≠ none := fun e => by simpa [h] using hx.off.2 e
  refine (Wheel.sound_iff _).2 ?_
  simp only [strikeCapture, capturedCapture, countedCapture, hstrikes]
  exact ⟨by simpa using hrecord, hx.record, by simp, by simp, Divisor.toNat_pos _, by simp, by simp, by simp, by simp,
    hx.speed⟩

/-- An edge taken on a ROLLING wheel leaves all wheels whole. -/
theorem edgeRolling_sound {w : Fin 6} {r : WheelRecord} {s : State} (hs : WheelsSound s)
    (h : s.wheels[w].state = .rolling) : WheelsSound (edgeRolling w r s.wheels[w] s) := by
  have hx := hs w
  have hstrikes := hx.strikes_lt h
  obtain ⟨last, hlast⟩ := Option.isSome_iff_exists.1 (hx.lastCapture h)
  by_cases hcount : s.wheels[w].capture.teeth + 1 < s.wheels[w].capture.divisor.toNat
  · rw [edgeRolling_counts hcount]
    exact hs.of_wheels_set rfl (hx.rolling h hcount hstrikes rfl rfl (hx.lastCapture h) hx.speed)
  rw [edgeRolling_captures (Nat.not_lt.1 hcount) hlast]
  cases hacc : accepts s.wheels[w].capture ((s.timeBase - last).toNat / s.wheels[w].capture.divisor.toNat)
  case true =>
    rw [capture_accepted rfl rfl hacc]
    exact hs.of_wheels_set rfl
      (hx.rolling h (Divisor.toNat_pos _) (Nat.zero_lt_succ 2) rfl rfl rfl (captureSpeed_le _ _ _))
  case false =>
    by_cases h3 : s.wheels[w].capture.strikes + 1 < 3
    · rw [capture_struck rfl hacc h3]
      exact hs.of_wheels_set rfl (hx.rolling h (Divisor.toNat_pos _) h3 rfl rfl rfl hx.speed)
    · rw [capture_suspect rfl hacc (Nat.not_lt.1 h3)]
      exact hs.of_wheels_set (raiseEvent_wheels ..) (hx.suspect h _ s (Nat.not_lt.1 h3))

/-- A tooth edge leaves all wheels whole. -/
theorem toothEdge_sound (w : Fin 6) {s : State} (hs : WheelsSound s) : WheelsSound (toothEdge w s) := by
  rcases toothEdge_cases w s with e | ⟨r, hx, hr, e⟩ | ⟨r, p, hx, hr, e⟩ | ⟨r, hx, hr, e⟩ <;> rw [e]
  · exact hs
  · exact hs.of_wheels_set rfl ((hs w).edgeStopped hx hr s)
  · exact hs.of_wheels_set rfl ((hs w).edgeStarting hx hr p s)
  · exact edgeRolling_sound hs hx

/-- A wheel that is not OFF is whole when it is stopped with a cleared capture state (R8, R19). -/
theorem Wheel.Sound.stopWheel {x : Wheel} (hx : x.Sound) (h : x.state ≠ .off) : (stopWheel x).Sound := by
  obtain ⟨r, hr⟩ := Option.ne_none_iff_exists'.1 fun e => h (hx.off.2 e)
  have : Machine.stopWheel x = { record := some r, state := .stopped, capture := {} } := by simp [Machine.stopWheel, hr]
  rw [this]
  exact Wheel.stopped_sound (hx.record r hr)

/-! ### The wheel requests (R4 to R8) -/

theorem windowOf_range {n win : Nat} (h : windowOf n = some win) : 100 ≤ win ∧ win ≤ 1000 := by
  unfold windowOf at h
  split_ifs at h with h0 h1
  · cases h; decide
  · cases h
    simp only [within, Bool.and_eq_true, decide_eq_true_eq] at h1
    exact h1.1

/-- The record an INSTALL-WHEEL describes lies in the ranges of R4 and carries the K of R5. -/
theorem wheelFields_sound {wheel channel eligible : Byte} {teeth circumference window : Word} {w : Fin 6}
    {r : WheelRecord} (h : wheelFields wheel channel eligible teeth circumference window = some (w, r)) : r.Sound := by
  simp only [wheelFields, Option.bind_eq_bind, Option.bind_eq_some_iff] at h
  obtain ⟨v, -, c, -, e, -, win, hwin, h⟩ := h
  split_ifs at h with hr
  cases h
  simp only [within, Bool.and_eq_true, decide_eq_true_eq] at hr
  obtain ⟨⟨ht, ht'⟩, hc, hc'⟩ := hr
  obtain ⟨hw, hw'⟩ := windowOf_range hwin
  exact ⟨ht, ht', hc, hc', hw, hw', rfl⟩

theorem carryInstallWheel_sound {tag wheel : Byte} {fields : Option (Fin 6 × WheelRecord)}
    (hf : ∀ w r, fields = some (w, r) → r.Sound) {s : State} (hs : WheelsSound s) :
    WheelsSound (carryInstallWheel tag wheel fields s) := by
  unfold carryInstallWheel
  split
  · exact hs.of_wheels_eq (respond_wheels ..)
  · next w r =>
    dsimp only
    split_ifs
    · exact hs.of_wheels_eq (respond_wheels ..)
    · exact hs.of_wheels_set (respond_wheels ..) (Wheel.stopped_sound (hf w r rfl))

theorem carryRemoveWheel_sound (tag wheel : Byte) {s : State} (hs : WheelsSound s) :
    WheelsSound (carryRemoveWheel tag wheel s) := by
  unfold carryRemoveWheel
  split
  · exact hs.of_wheels_eq (respond_wheels ..)
  · dsimp only
    split_ifs
    · exact hs.of_wheels_eq (respond_wheels ..)
    · exact hs.of_wheels_set (respond_wheels ..) Wheel.removed_sound

theorem carryClearWheel_sound (tag wheel : Byte) {s : State} (hs : WheelsSound s) :
    WheelsSound (carryClearWheel tag wheel s) := by
  unfold carryClearWheel
  split
  · exact hs.of_wheels_eq (respond_wheels ..)
  · next w _ =>
    dsimp only
    split_ifs with h
    · exact hs.of_wheels_set (respond_wheels ..) ((hs w).stopWheel (by rw [h]; decide))
    · exact hs.of_wheels_eq (respond_wheels ..)

end Sys2Proof.Machine
end

