-- ==== Sys2Proof/Proofs/WheelsKept.lean ====
section
/-! SUPPORT. Every command but the five that concern a wheel leaves the wheels alone; so every step keeps them whole. -/

namespace Sys2Proof

/-- Whether a command is an event of a wheel or a wheel request. -/
def Instr.ofWheels : Instr → Bool
  | .toothEdge _ | .standstillExpiry _ | .installWheel _ _ _ _ _ _ _ | .removeWheel _ _ | .clearWheel _ _ => true
  | _ => false

end Sys2Proof

namespace Sys2Proof.Machine

/-! ### A value the shared operations keep -/

/-- What a pass over a list keeps where each of its steps does. -/
theorem foldl_keeps {α β γ : Type} (g : β → γ) {f : β → α → β} (h : ∀ b a, g (f b a) = g b) (l : List α) (b : β) :
    g (l.foldl f b) = g b := by
  induction l generalizing b with
  | nil => rfl
  | cons a l ih => exact (ih _).trans (h b a)

/-! ### The drums -/

@[simp] theorem answerTags_wheels (status : Status) (result tags : List Byte) (s : State) :
    (answerTags status result tags s).wheels = s.wheels :=
  answerTags_keeps State.wheels (fun _ _ _ _ _ => respond_wheels ..) ..

@[simp] theorem hotEvent_wheels (d : Fin 6) (old new : Bool) (t : Option Int) (hot : Int) (s : State) :
    (hotEvent d old new t hot s).wheels = s.wheels := by
  unfold hotEvent; split_ifs <;> simp

@[simp] theorem sensorEvent_wheels (d : Fin 6) (old new : DrumResult) (n : Nat) (s : State) :
    (sensorEvent d old new n s).wheels = s.wheels := by
  unfold sensorEvent; split_ifs <;> simp

@[simp] theorem completeMeasurement_wheels (m : Measurement) (result : DrumResult) (resistance : Nat) (t : Option Int)
    (n : Nat) (s : State) : (completeMeasurement m result resistance t n s).wheels = s.wheels := by
  simp [completeMeasurement]

@[simp] theorem endSensor_wheels (m : Measurement) (s : State) : (endSensor m s).wheels = s.wheels := by
  simp only [endSensor, endShort, completeFault]; split_ifs <;> simp

@[simp] theorem overflowReference_wheels (m : Measurement) (s : State) : (overflowReference m s).wheels = s.wheels := by
  unfold overflowReference completeFault; split_ifs <;> simp

theorem drumEvent_wheels {f : State → State} (h : ∀ s, (f s).wheels = s.wheels) (s : State) :
    (drumEvent f s).wheels = s.wheels := by
  simp only [drumEvent]; split_ifs <;> simp [h]

@[simp] theorem offerScan_wheels (s : State) : (offerScan s).wheels = s.wheels := by
  unfold offerScan; split
  · rfl
  · dsimp only; split_ifs <;> simp [joinQueue]

@[simp] theorem abandonInFlight_wheels (s : State) : (abandonInFlight s).wheels = s.wheels := by
  unfold abandonInFlight; split <;> simp [abandonTags]

@[simp] theorem removeEntries_wheels (s : State) : (removeEntries s).wheels = s.wheels :=
  foldl_keeps State.wheels (fun _ _ => answerTags_wheels ..) _ _

@[simp] theorem reconfigure_wheels (new : DrumConfig) (s : State) : (reconfigure new s).wheels = s.wheels := by
  simp [reconfigure]

theorem measureQueued_wheels (tag : Byte) (d : Fin 6) (s : State) : (measureQueued tag d s).wheels = s.wheels := by
  unfold measureQueued
  split
  · split_ifs
    · rfl
    · exact respond_wheels ..
  · exact drumEvent_wheels (fun s => by simp [joinQueue]) s

@[simp] theorem measureEnabled_wheels (tag : Byte) (d : Fin 6) (s : State) :
    (measureEnabled tag d s).wheels = s.wheels := by
  unfold measureEnabled
  split
  · exact measureQueued_wheels ..
  · split_ifs
    · rfl
    · exact respond_wheels ..
    · exact measureQueued_wheels ..

/-! ### The pressure inputs and the supply -/

@[simp] theorem grant_wheels (s : State) : (grant s).wheels = s.wheels := by
  simp only [grant]; split <;> [rfl; split_ifs <;> rfl]

@[simp] theorem inputEvent_wheels (i : Fin 4) (old new : Input) (r : Option PassResult) (s : State) :
    (inputEvent i old new r s).wheels = s.wheels := by
  unfold inputEvent; split <;> [rfl; split_ifs <;> simp]

@[simp] theorem demandEvent_wheels (old new : Option Nat) (s : State) : (demandEvent old new s).wheels = s.wheels := by
  unfold demandEvent; split <;> simp

@[simp] theorem markEvent_wheels (old new : Bool) (reservoir : Option Nat) (threshold : Nat) (s : State) :
    (markEvent old new reservoir threshold s).wheels = s.wheels := by
  unfold markEvent; split_ifs <;> simp

@[simp] theorem completePass_wheels (codes : List (BitVec 12)) (s : State) :
    (completePass codes s).wheels = s.wheels := by
  have hrows := fun results => foldl_keeps State.wheels (f := fun s i => rewriteInput results i s)
    (fun _ _ => rewrite_wheels ..) inputIndices
  simp only [completePass]
  split_ifs
  · rw [hrows, markEvent_wheels, demandEvent_wheels]
    exact foldl_keeps State.wheels (fun _ _ => inputEvent_wheels ..) _ _
  · rw [rewriteStatus_wheels, hrows, markEvent_wheels, demandEvent_wheels]
    exact foldl_keeps State.wheels (fun _ _ => inputEvent_wheels ..) _ _

@[simp] theorem recordCode_wheels (code : BitVec 12) (codes : List (BitVec 12)) (s : State) :
    (recordCode code codes s).wheels = s.wheels := by
  simp only [recordCode]; split_ifs <;> simp

@[simp] theorem regulatorStatus_wheels (s : State) : (regulatorStatus s).wheels = s.wheels := rewriteStatus_wheels ..

@[simp] theorem reactCritical_wheels (s : State) : (reactCritical s).wheels = s.wheels := by
  unfold reactCritical
  rw [formCut_wheels, forEach_keeps State.wheels channelCritical_wheels]
  unfold regulatorCritical
  split_ifs <;> simp

@[simp] theorem changeClass_wheels (new : SupplyClass) (m : Nat) (s : State) :
    (changeClass new m s).wheels = s.wheels := by
  simp only [changeClass]; split_ifs <;> simp

@[simp] theorem takeSample_wheels (mV : Nat) (s : State) : (takeSample mV s).wheels = s.wheels := by
  simp only [takeSample, closeWindow, supplyStatus]; split_ifs <;> simp

/-! ### The regulation period and the retarder -/

@[simp] theorem actOnPeriod_wheels (s : State) : (actOnPeriod s).wheels = s.wheels := by
  simp [actOnPeriod, forEach_keeps State.wheels checkChannel_wheels]

@[simp] theorem writePeriodRows_wheels (speeds : Vector (Option Nat) 6) (s : State) :
    (writePeriodRows speeds s).wheels = s.wheels := by
  simp only [writePeriodRows, regulatorStatus_wheels]
  rw [forEach_keeps State.wheels fun _ _ => rewrite_wheels .., forEach_keeps State.wheels fun _ _ => rewrite_wheels ..]

@[simp] theorem regulationPeriod_wheels (s : State) : (regulationPeriod s).wheels = s.wheels := by
  simp [regulationPeriod, nextPeriod]

@[simp] theorem disarmPart_wheels (s : State) : (disarmPart s).wheels = s.wheels := by
  simp [disarmPart, forEach_keeps State.wheels disarmChannel_wheels]

@[simp] theorem ventLimit_wheels (c : Fin 6) (s : State) : (ventLimit c s).wheels = s.wheels := by
  simp only [ventLimit, formCut_wheels]; split_ifs <;> simp

@[simp] theorem endHoldInterval_wheels (c : Fin 6) (par : TrainParams) (n : Nat) (s : State) :
    (endHoldInterval c par n s).wheels = s.wheels := by
  unfold endHoldInterval; split_ifs <;> simp

@[simp] theorem endOffTime_wheels (c : Fin 6) (par : TestParams) (n : Nat) (tag : Byte) (s : State) :
    (endOffTime c par n tag s).wheels = s.wheels := by
  unfold endOffTime; split_ifs <;> simp

@[simp] theorem settleLever_wheels (s : State) : (settleLever s).wheels = s.wheels := by
  simp only [settleLever]; split_ifs <;> simp

/-! ### Requests and events -/

/-- A request that is none of the three wheel requests leaves the wheels alone. -/
theorem carryRequest_wheels {i : Instr} (h : i.ofWheels = false) (s : State) :
    (carryRequest i s).wheels = s.wheels := by
  cases i <;> first | rfl | exact absurd h.symm Bool.false_ne_true | skip
  case identify tag => exact respond_wheels ..
  case unknownKind => exact respond_wheels ..
  case arm tag => simp only [carryRequest, carryArm]; split_ifs <;> simp
  case disarm tag => simp only [carryRequest, carryDisarm]; split_ifs <;> simp
  case setReference => simp only [carryRequest, carrySetReference]; split <;> [skip; split_ifs] <;> simp
  case installChannel => simp only [carryRequest, carryInstallChannel]; split <;> [skip; split_ifs] <;> simp
  case clearChannel => simp only [carryRequest, carryClearChannel]; split <;> [skip; split_ifs] <;> simp
  case valveTest =>
    simp only [carryRequest, carryValveTest]; split <;> [skip; split] <;> simp [startTest]
  case stopTest => simp only [carryRequest, carryStopTest]; split <;> [skip; split_ifs] <;> simp
  case setScan => simp only [carryRequest, carrySetScan]; split <;> simp
  case setCalibration => simp only [carryRequest, carrySetCalibration]; split <;> [skip; split] <;> simp
  case setDrumConfig =>
    simp only [carryRequest, carrySetDrumConfig]
    split
    · simp
    · exact drumEvent_wheels (fun s => by simp) s
  case setCurve => simp only [carryRequest, carrySetCurve]; split <;> simp
  case measureDrum => simp only [carryRequest, carryMeasureDrum]; split <;> [skip; split_ifs] <;> simp [refuseMeasure]
  case setSupplyCriteria => simp only [carryRequest, carrySetSupplyCriteria]; split <;> simp
  case setBlend => simp only [carryRequest, carrySetBlend]; split <;> simp

/-- A command that acts only while no reset is held leaves alone what its action leaves alone. -/
theorem whenRunning_keeps {α : Type} (g : State → α) {f : State → State} {s t : State} (hf : g (f s) = g s)
    (ht : s.whenRunning f = .next t) : g t = g s :=
  BlockInvariant.whenRunning (P := fun u => g u = g s) (fun _ => hf) rfl ht

/-- An event of the blocks other than a tooth edge and a standstill expiry leaves the wheels alone. -/
theorem exec_event_wheels {i : Instr} {s t : State} (hr : i.isRequest = false) (hb : i.isBusCommand = false)
    (h : i.ofWheels = false) (ht : exec i s = .next t) : t.wheels = s.wheels := by
  cases i <;> first | exact absurd hb.symm Bool.false_ne_true | exact absurd h.symm Bool.false_ne_true |
    exact absurd hr.symm Bool.false_ne_true | skip
  case leverInputChange => cases ht; rfl
  all_goals
    simp only [exec, execRegulationPeriod, execHoldLimitExpiry, execVentLimitExpiry, execOutputProved, execOutputOpen,
      execOutputShort, execApplyExpiry, execHoldIntervalExpiry, execOnExpiry, execOffExpiry, execScanTimerExpiry,
      execEntryConversionCompletion, execSampleTimerExpiry, execSampleCompletion, execReferenceOverflow,
      execReferenceTimeout, execSensorPhaseEnd, execSensorOverflow, execDrumScanExpiry, execAgeRefresh,
      execLeverSettleExpiry, execHoldOffExpiry, execRampExpiry] at ht
    refine whenRunning_keeps State.wheels ?_ ht
  case regulationPeriod => split_ifs <;> simp
  case holdLimitExpiry => split_ifs <;> simp
  case ventLimitExpiry => split_ifs <;> simp
  case outputProved => rfl
  case outputOpen => split_ifs <;> simp [outputFault]
  case outputShort => split_ifs <;> simp [outputFault]
  case applyExpiry => split <;> [split_ifs; skip; skip; skip] <;> simp [endApply]
  case holdIntervalExpiry => split <;> [split_ifs; skip; skip; skip] <;> simp
  case onExpiry => split <;> [split_ifs; skip; skip; skip] <;> simp
  case offExpiry => split <;> [split_ifs; skip; skip; skip] <;> simp
  case scanTimerExpiry => unfold grantScan; split_ifs <;> simp
  case entryConversionCompletion => split_ifs <;> [split; skip] <;> simp
  case sampleTimerExpiry => split_ifs <;> simp
  case sampleCompletion => split_ifs <;> simp
  case referenceOverflow => split <;> [skip; split_ifs] <;> simp
  case referenceTimeout => split <;> [skip; split_ifs] <;> simp [completeFault]
  case sensorPhaseEnd => split <;> [skip; split_ifs] <;> simp
  case sensorOverflow => split <;> [skip; split_ifs] <;> simp [endShort, completeFault]
  case drumScanExpiry =>
    split
    · rfl
    · split_ifs
      · exact drumEvent_wheels (fun s => by simp [restartScan]) s
      · rfl
  case ageRefresh => split_ifs <;> simp
  case leverSettleExpiry => split_ifs <;> simp
  case holdOffExpiry => split <;> [skip; split_ifs] <;> simp [endHoldOff]
  case rampExpiry => split_ifs <;> simp [endRamp]

/-! ### Every step keeps the wheels whole -/

theorem carryRequest_wheelsSound (i : Instr) {s : State} (hs : WheelsSound s) : WheelsSound (carryRequest i s) := by
  cases h : i.ofWheels
  case false => exact hs.of_wheels_eq (carryRequest_wheels h s)
  case true =>
    cases i <;> first | exact absurd h Bool.false_ne_true | skip
    case toothEdge => exact hs
    case standstillExpiry => exact hs
    case installWheel => exact carryInstallWheel_sound (fun _ _ => wheelFields_sound) hs
    case removeWheel => exact carryRemoveWheel_sound _ _ hs
    case clearWheel => exact carryClearWheel_sound _ _ hs

theorem execStandstillExpiry_sound (w : Fin 6) {s t : State} (hs : WheelsSound s)
    (ht : execStandstillExpiry w s = .next t) : WheelsSound t := by
  refine BlockInvariant.whenRunning (fun hs => ?_) hs ht
  split_ifs with h
  · refine hs.of_wheels_set rfl ((hs w).stopWheel fun e => ?_)
    simp only [standstillDue, e, Bool.false_eq_true] at h
  · exact hs

theorem exec_event_wheelsSound {i : Instr} {s t : State} (hr : i.isRequest = false) (hb : i.isBusCommand = false)
    (hs : WheelsSound s) (ht : exec i s = .next t) : WheelsSound t := by
  cases h : i.ofWheels
  case false => exact hs.of_wheels_eq (exec_event_wheels hr hb h ht)
  case true =>
    cases i <;> first | exact absurd h Bool.false_ne_true | exact absurd hr.symm Bool.false_ne_true | skip
    case toothEdge w => exact BlockInvariant.whenRunning (f := toothEdge w) (toothEdge_sound w) hs ht
    case standstillExpiry w => exact execStandstillExpiry_sound w hs ht

/-- What a reset leaves of the wheels: every wheel without record, in OFF (R24). -/
theorem wheelsSound_of_replicate {s : State} (h : s.wheels = Vector.replicate 6 {}) : WheelsSound s := by
  intro w
  rw [h]
  simpa using Wheel.removed_sound

theorem wheelsSound_invariant : BlockInvariant WheelsSound where
  lanes _ _ _ hs := hs
  pending _ _ hs := hs
  unheld _ hs := hs
  tick _ hs := hs
  reset _ _ := wheelsSound_of_replicate rfl
  request i _ hs := carryRequest_wheelsSound i hs
  event _ _ _ hr hb hs ht := exec_event_wheelsSound hr hb hs ht

/-- Settles O53: of every command, only the edges, expiries and requests of a wheel change one, and each leaves it whole. -/
theorem wheelsKept : Obligations.WheelsKept :=
  fun _ _ hs ht => wheelsSound_invariant.step hs ht

end Sys2Proof.Machine
end

