-- ==== Sys2Proof/Proofs/Edges.lean ====
section
/-! SUPPORT. The statements about edges and the standstill timer: blanking, the first edge, moving wheels and the expiry. -/

namespace Sys2Proof.Machine

/-! ### What an edge taken on a ROLLING wheel leaves -/

/-- An edge taken on a ROLLING wheel becomes its last tooth time, whatever else it does (R11 step 2). -/
theorem edgeRolling_lastTooth (w : Fin 6) (r : WheelRecord) (x : Wheel) (s : State) :
    (edgeRolling w r x s).wheels[w].capture.lastTooth = some s.timeBase := by
  have hcapture (last : Long) (c : Capture) :
      (capture w r last (countedCapture r c s) x s).wheels[w].capture.lastTooth = some s.timeBase := by
    cases h : accepts c ((s.timeBase - last).toNat / c.divisor.toNat)
    case true => rw [capture_accepted rfl rfl h, State.setWheel_self]; rfl
    case false =>
      by_cases h3 : c.strikes + 1 < 3
      · rw [capture_struck rfl h h3, State.setWheel_self]; rfl
      · rw [capture_suspect rfl h (Nat.not_lt.1 h3), raiseEvent_wheels, State.setWheel_self]
        rfl
  by_cases hcount : x.capture.teeth + 1 < x.capture.divisor.toNat
  · rw [edgeRolling_counts hcount, State.setWheel_self]; rfl
  cases hlast : x.capture.lastCapture with
  | some last => rw [edgeRolling_captures (Nat.not_lt.1 hcount) hlast]; exact hcapture last _
  | none => simp [edgeRolling, hcount, hlast]

theorem nextDivisor_eq_steppedDivisor (d : Divisor) (p : Nat) : nextDivisor d p = steppedDivisor p d := by
  cases d <;> grind [nextDivisor, steppedDivisor, Divisor.up, Divisor.down]

/-- A per-tooth period is accepted where it is plausible against p_acc or against the candidate (R13, R14). -/
theorem accepts_iff (c : Capture) (pt : Nat) :
    accepts c pt = true ↔
      (c.pAcc ≤ 2 * pt ∧ pt ≤ 2 * c.pAcc) ∨ ∃ q, c.candidate = some q ∧ (q ≤ 2 * pt ∧ pt ≤ 2 * q) := by
  simp [accepts, plausible, Option.any_eq_true]

theorem captureSpeed_one (k p : Nat) : captureSpeed k 1 p = min 65535 ((k + p / 2) / p) := by
  rw [captureSpeed, Nat.mul_one, maxWord]

/-! ### The standstill expiry (R19) -/

theorem exec_standstillExpiry {w : Fin 6} {s : State} (h : s.held = none) :
    exec (.standstillExpiry w) s =
      .next (if standstillDue w s then s.setWheel w (stopWheel s.wheels[w]) else s) :=
  whenRunning_of_not_held h _

/-- A standstill timer that is stopped, or has not run out, is not due (R19). -/
theorem standstillDue_eq_false {w : Fin 6} {s : State} (h : s.due s.wheels[w].capture.standstill = false) :
    standstillDue w s = false := by
  unfold standstillDue
  split
  · exact h
  · exact h
  all_goals rfl

theorem standstillDue_eq_due {w : Fin 6} {s : State}
    (h : s.wheels[w].state = .starting ∨ s.wheels[w].state = .rolling) :
    standstillDue w s = s.due s.wheels[w].capture.standstill := by
  rcases h with h | h <;> simp only [standstillDue, h]

/-! ### The obligations -/

/-- Settles O4: the blanked edges and the taken ones, state by state. -/
theorem blankedEdge : Obligations.BlankedEdge := by
  intro w s hheld
  rw [exec_toothEdge hheld]
  refine ⟨fun h => ?_, fun t h ht hp => ?_, fun r t h hr ht hp => ⟨_, rfl, ?_⟩, fun r h hr => ⟨_, rfl, ?_⟩⟩
  · rw [toothEdge_ignored h]
  · rw [toothEdge_blanked h ht hp]
  · rcases h with h | h
    · rw [toothEdge_starting h hr ht hp, State.setWheel_self]; rfl
    · rw [toothEdge_rolling h hr ht hp]; exact edgeRolling_lastTooth ..
  · rw [toothEdge_stopped h hr, State.setWheel_self]; rfl

/-- Settles O5. -/
theorem firstEdge : Obligations.FirstEdge := by
  intro w s hheld
  rw [exec_toothEdge hheld]
  refine ⟨fun h => ?_, fun r h hr => ?_⟩
  · rw [toothEdge_ignored h]
  · rw [toothEdge_stopped h hr]; rfl

/-- An edge taken on a ROLLING wheel, clause by clause of R11 to R17. -/
theorem movingEdges_rolling {w : Fin 6} {s : State} {r : WheelRecord} {x : Wheel} {last : Long} {d p pt : Nat}
    (hlast : x.capture.lastCapture = some last) (hd : d = x.capture.divisor.toNat)
    (hp : p = (s.timeBase - last).toNat) (hpt : pt = p / d) :
    (x.capture.teeth + 1 < d →
      edgeRolling w r x s = s.setWheel w { x with capture := countedCapture r x.capture s }) ∧
    (d ≤ x.capture.teeth + 1 → accepts x.capture pt = true → edgeRolling w r x s = s.setWheel w
      { x with capture := acceptCapture (capturedCapture r x.capture s) p pt (captureSpeed r.k d p) }) ∧
    (d ≤ x.capture.teeth + 1 → accepts x.capture pt = false → x.capture.strikes + 1 < 3 →
      edgeRolling w r x s =
        s.setWheel w { x with capture := strikeCapture (capturedCapture r x.capture s) pt }) ∧
    (d ≤ x.capture.teeth + 1 → accepts x.capture pt = false → 3 ≤ x.capture.strikes + 1 →
      edgeRolling w r x s = raiseEvent .wheelSuspect (BitVec.ofNat 8 w) pt x.capture.pAcc
        (s.setWheel w { x with
          state := .suspect
          capture := { strikeCapture (capturedCapture r x.capture s) pt with standstill := none } })) := by
  subst hd hp hpt
  refine ⟨edgeRolling_counts, fun h ha => ?_, fun h ha h3 => ?_, fun h ha h3 => ?_⟩ <;>
    rw [edgeRolling_captures h hlast]
  · exact capture_accepted rfl rfl ha
  · exact capture_struck rfl ha h3
  · exact capture_suspect rfl ha h3

/-- Settles O6: the edge that gives a first period, and the four outcomes of an edge taken on a ROLLING wheel. -/
theorem movingEdges : Obligations.MovingEdges := by
  refine ⟨fun w s r t p hheld h hr ht hp h50 => ?_,
    fun w s r t last c d p pt hheld h hr hc ht h50 hlast hd hp hpt => ?_⟩
  · subst hp
    rw [exec_toothEdge hheld, toothEdge_starting h hr ht h50, edgeStarting, captureSpeed_one,
      nextDivisor_eq_steppedDivisor]
    rfl
  · subst hc
    obtain ⟨hcount, haccept, hstrike, hsuspect⟩ := movingEdges_rolling (w := w) (r := r) hlast hd hp hpt
    intro plausible accepted timed put
    have hacc : accepted ↔ accepts s.wheels[w].capture pt = true := (accepts_iff _ _).symm
    rw [exec_toothEdge hheld, toothEdge_rolling h hr ht h50, hacc, Bool.not_eq_true]
    refine ⟨fun hn => ?_, fun hn ha => ?_, fun hn ha h3 => ?_, fun hn ha h3 => ?_⟩
    · rw [hcount hn]; rfl
    · rw [haccept hn ha, acceptCapture, nextDivisor_eq_steppedDivisor]; rfl
    · rw [hstrike hn ha h3]; rfl
    · rw [hsuspect hn ha h3]; rfl

/-- Settles O7. -/
theorem standstill : Obligations.Standstill := by
  intro w s hheld
  rw [exec_standstillExpiry hheld]
  refine ⟨fun t h ht hdue => ?_, fun t ht hdue => ?_, fun ht => ?_⟩
  · rw [if_pos]
    · rfl
    · rw [standstillDue_eq_due h, ht]; exact decide_eq_true hdue
  · rw [standstillDue_eq_false (by rw [ht]; exact decide_eq_false (Nat.not_le.2 hdue))]; rfl
  · rw [standstillDue_eq_false (by rw [ht]; rfl)]; rfl

end Sys2Proof.Machine
end

