-- ==== Sys2Proof/Proofs/WheelRequests.lean ====
section
/-! SUPPORT. The wheel requests INSTALL-WHEEL, REMOVE-WHEEL and CLEAR-WHEEL: their fields, refusals and answers (R4 to R8). -/

namespace Sys2Proof.Machine

/-! ### Fields of a frame -/

theorem index6_of_val {b : Byte} {w : Fin 6} (h : w.val = b.toNat) : index6 b = some w := by
  have hlt : b.toNat < 6 := h ▸ w.isLt
  rw [index6, dif_pos hlt]
  exact congrArg some (Fin.ext h.symm)

theorem index6_eq_none {b : Byte} (h : 6 ≤ b.toNat) : index6 b = none := dif_neg (Nat.not_lt.2 h)

theorem index6_eq_some {b : Byte} {w : Fin 6} (h : index6 b = some w) : b.toNat < 6 := by
  unfold index6 at h
  split_ifs at h with hlt
  exact hlt

theorem flagOf_of_le {b : Byte} (h : b.toNat ≤ 1) : flagOf b = some (b == 1) := by
  have hb : b = 0 ∨ b = 1 := by bv_omega
  rcases hb with rfl | rfl <;> rfl

theorem flagOf_eq_some {b : Byte} {e : Bool} (h : flagOf b = some e) : b.toNat ≤ 1 := by
  unfold flagOf at h
  split_ifs at h with h0 h1
  · simp [h0]
  · simp [h1]

/-- A standstill window in its range (R4). -/
def WindowInRange (window : Word) : Prop :=
  window = 0 ∨ (100 ≤ window.toNat ∧ window.toNat ≤ 1000 ∧ window.toNat % 10 = 0)

theorem windowOf_of_inRange {window : Word} (h : WindowInRange window) :
    windowOf window.toNat = some (if window = 0 then 300 else window.toNat) := by
  by_cases h0 : window = 0
  · subst h0; rfl
  · have hne : window.toNat ≠ 0 := fun e => h0 (BitVec.eq_of_toNat_eq e)
    obtain ⟨hlo, hhi, hten⟩ := h.resolve_left h0
    rw [windowOf, if_neg hne, if_pos (by simp [within, hlo, hhi, hten]), if_neg h0]

theorem windowInRange_of_windowOf {window : Word} {win : Nat} (h : windowOf window.toNat = some win) :
    WindowInRange window := by
  unfold windowOf at h
  split_ifs at h with h0 h1
  · exact .inl (BitVec.eq_of_toNat_eq h0)
  · simp only [within, Bool.and_eq_true, decide_eq_true_eq, beq_iff_eq] at h1
    exact .inr ⟨h1.1.1, h1.1.2, h1.2⟩

/-- Every field of an INSTALL-WHEEL lies in its range (R4, R177). -/
def WheelInRange (wheel channel eligible : Byte) (teeth circumference window : Word) : Prop :=
  wheel.toNat < 6 ∧ channel.toNat < 6 ∧ eligible.toNat ≤ 1 ∧ (30 ≤ teeth.toNat ∧ teeth.toNat ≤ 120) ∧
    (1500 ≤ circumference.toNat ∧ circumference.toNat ≤ 4000) ∧ WindowInRange window

/-- The record an INSTALL-WHEEL in range gives, K included (R4, R5). -/
theorem wheelFields_of_inRange {wheel channel eligible : Byte} {teeth circumference window : Word} {w c : Fin 6}
    (h : WheelInRange wheel channel eligible teeth circumference window) (hw : w.val = wheel.toNat)
    (hc : c.val = channel.toNat) :
    wheelFields wheel channel eligible teeth circumference window = some (w,
      { teeth := teeth.toNat, circumference := circumference.toNat, channel := c, eligible := eligible == 1
        window := if window = 0 then 300 else window.toNat
        k := (360000 * circumference.toNat + teeth.toNat / 2) / teeth.toNat }) := by
  obtain ⟨-, -, he, ⟨ht, ht'⟩, ⟨hr, hr'⟩, hwin⟩ := h
  simp [wheelFields, index6_of_val hw, index6_of_val hc, flagOf_of_le he, windowOf_of_inRange hwin, within, ht, ht', hr,
    hr', distanceConstant]

theorem wheelFields_eq_none {wheel channel eligible : Byte} {teeth circumference window : Word}
    (h : ¬WheelInRange wheel channel eligible teeth circumference window) :
    wheelFields wheel channel eligible teeth circumference window = none := by
  rw [Option.eq_none_iff_forall_ne_some]
  intro f hf
  simp only [wheelFields, Option.bind_eq_bind, Option.bind_eq_some_iff] at hf
  obtain ⟨w, hw, c, hc, e, he, win, hwin, hf⟩ := hf
  split_ifs at hf with hr
  simp only [within, Bool.and_eq_true, decide_eq_true_eq] at hr
  exact h ⟨index6_eq_some hw, index6_eq_some hc, flagOf_eq_some he, hr.1, hr.2, windowInRange_of_windowOf hwin⟩

/-! ### Occupied channels (R6) -/

theorem busyChannel_iff (s : State) (c : Fin 6) : busyChannel s c = true ↔ Occupied s c := by
  simp [busyChannel, Occupied]

theorem currentBusy_iff (s : State) (w : Fin 6) :
    currentBusy s w = true ↔
      s.wheels[w].state ≠ .off ∧ ∃ r, s.wheels[w].record = some r ∧ Occupied s (channelOf s w r) := by
  simp only [currentBusy, Bool.and_eq_true, bne_iff_ne, Option.any_eq_true, busyChannel_iff]

/-! ### A wheel request's frame of result bytes -/

/-- A response depends on its result bytes as they are filled up with zeros (R178). -/
theorem respond_congr {result result' : List Byte} (h : padTo 12 result = padTo 12 result') (kind tag : Byte)
    (status : Status) (s : State) : respond kind tag status result s = respond kind tag status result' s := by
  simp only [respond, responseFrame, h]

theorem wheelResult_eq (wheel : Byte) (s : State) (k : Option Nat) :
    wheelResult wheel s k = [wheel, shownWheel s wheel, 0, 0] ++ le32 (BitVec.ofNat 32 (k.getD 0)) := by
  unfold wheelResult shownWheel index6
  split_ifs <;> rfl

theorem shownWheel_countTake (s : State) (wheel : Byte) : shownWheel (countTake s) wheel = shownWheel s wheel := by
  simp only [shownWheel, countTake_wheels]

theorem shownWheel_of_val {s : State} {wheel : Byte} {w : Fin 6} (h : w.val = wheel.toNat) :
    shownWheel s wheel = s.wheels[w].state.code := by
  have hlt : w.val < 6 := w.isLt
  simp only [shownWheel, ← h, dif_pos hlt]
  rfl

theorem shownWheel_out {s : State} {wheel : Byte} (h : 6 ≤ wheel.toNat) : shownWheel s wheel = 0 :=
  dif_neg (Nat.not_lt.2 h)

/-- The result bytes of a refused wheel request, the trailing zeros left away. -/
theorem padTo_wheelResult (wheel : Byte) (s : State) :
    padTo 12 (wheelResult wheel s none) = padTo 12 [wheel, shownWheel s wheel] := by
  rw [wheelResult_eq]; rfl

theorem currentBusy_countTake (s : State) (w : Fin 6) : currentBusy (countTake s) w = currentBusy s w := by
  simp only [currentBusy, busyChannel, channelOf, countTake_wheels, countTake_channels, countTake_reg]

theorem busyChannel_countTake (s : State) (w : Fin 6) (r : WheelRecord) :
    busyChannel (countTake s) (channelOf (countTake s) w r) = busyChannel s (channelOf s w r) := by
  simp only [busyChannel, channelOf, countTake_channels, countTake_reg]

/-- A response on the state after the take, a wheel set before it. -/
theorem setWheel_countTake (w : Fin 6) (x : Wheel) (s : State) :
    (countTake s).setWheel w x = { s.setWheel w x with lnc := (countTake s).lnc, mem := (countTake s).mem } := by
  rw [State.setWheel, countTake_eq]
  rfl

/-! ### INSTALL-WHEEL (R4 to R6) -/

section InstallWheel

variable {tag wheel channel eligible : Byte} {teeth circumference window : Word} {s : State}

theorem installWheel_outOfRange (hm : s.mem.wf = true)
    (hr : Ready (.installWheel tag wheel channel eligible teeth circumference window) s)
    (h : ¬WheelInRange wheel channel eligible teeth circumference window) :
    AnsweredAtOnce (.installWheel tag wheel channel eligible teeth circumference window) s s 0x10 tag .refusedRange
      [wheel, shownWheel s wheel, 0, 0, 0, 0, 0, 0] := by
  refine answered rfl hm hr rfl ?_
  rw [wheelFields_eq_none h, carryInstallWheel, wheelResult_eq, shownWheel_countTake, ← countTake_eq]
  rfl

variable {w : Fin 6} {r : WheelRecord}

theorem installWheel_busy (hm : s.mem.wf = true)
    (hr : Ready (.installWheel tag wheel channel eligible teeth circumference window) s)
    (hf : wheelFields wheel channel eligible teeth circumference window = some (w, r))
    (h : (currentBusy s w || busyChannel s (channelOf s w r)) = true) :
    AnsweredAtOnce (.installWheel tag wheel channel eligible teeth circumference window) s s 0x10 tag .refusedBusy
      [wheel, shownWheel s wheel, 0, 0, 0, 0, 0, 0] := by
  refine answered rfl hm hr rfl ?_
  rw [hf, carryInstallWheel, currentBusy_countTake, busyChannel_countTake, if_pos h, wheelResult_eq,
    shownWheel_countTake, ← countTake_eq]
  rfl

theorem installWheel_done (hm : s.mem.wf = true)
    (hr : Ready (.installWheel tag wheel channel eligible teeth circumference window) s)
    (hf : wheelFields wheel channel eligible teeth circumference window = some (w, r)) (hw : w.val = wheel.toNat)
    (h : ¬(currentBusy s w || busyChannel s (channelOf s w r)) = true) :
    AnsweredAtOnce (.installWheel tag wheel channel eligible teeth circumference window) s
      (s.setWheel w { record := some r, state := .stopped, capture := {} }) 0x10 tag .done
      ([wheel, 1, 0, 0] ++ le32 (BitVec.ofNat 32 r.k)) := by
  refine answered rfl hm hr rfl ?_
  rw [hf, carryInstallWheel, currentBusy_countTake, busyChannel_countTake, if_neg h]
  dsimp only
  rw [wheelResult_eq, shownWheel_of_val hw, State.setWheel_self, setWheel_countTake]
  rfl

end InstallWheel

/-- Settles O8. -/
theorem installWheel : Obligations.InstallWheel := by
  intro tag wheel channel eligible teeth circumference window s hm hr answer inRange
  refine ⟨installWheel_outOfRange hm hr, fun w c h hw hc => ?_⟩
  intro under busy k r
  have hf := wheelFields_of_inRange h hw hc
  have hbusy : (currentBusy s w || busyChannel s (channelOf s w r)) = true ↔ busy := by
    rw [Bool.or_eq_true, currentBusy_iff, busyChannel_iff]
    rfl
  exact ⟨fun hb => installWheel_busy hm hr hf (hbusy.2 hb),
    fun hb => installWheel_done hm hr hf hw (fun e => hb (hbusy.1 e))⟩

/-! ### REMOVE-WHEEL (R7) and CLEAR-WHEEL (R8) -/

section RemoveWheel

variable {tag wheel : Byte} {s : State}

theorem removeWheel_outOfRange (hm : s.mem.wf = true) (hr : Ready (.removeWheel tag wheel) s) (h : 6 ≤ wheel.toNat) :
    AnsweredAtOnce (.removeWheel tag wheel) s s 0x11 tag .refusedRange [wheel, 0] := by
  refine answered rfl hm hr rfl ?_
  rw [carryRemoveWheel, index6_eq_none h, ← countTake_eq]
  refine respond_congr ?_ ..
  rw [padTo_wheelResult, shownWheel_out h]

theorem removeWheel_busy (hm : s.mem.wf = true) (hr : Ready (.removeWheel tag wheel) s) {w : Fin 6}
    (hw : w.val = wheel.toNat) (h : currentBusy s w = true) :
    AnsweredAtOnce (.removeWheel tag wheel) s s 0x11 tag .refusedBusy [wheel, shownWheel s wheel] := by
  refine answered rfl hm hr rfl ?_
  simp only [carryRemoveWheel, index6_of_val hw, currentBusy_countTake, h, if_true]
  rw [← countTake_eq]
  refine respond_congr ?_ ..
  rw [padTo_wheelResult, shownWheel_countTake]

theorem removeWheel_done (hm : s.mem.wf = true) (hr : Ready (.removeWheel tag wheel) s) {w : Fin 6}
    (hw : w.val = wheel.toNat) (h : currentBusy s w = false) :
    AnsweredAtOnce (.removeWheel tag wheel) s (s.setWheel w {}) 0x11 tag .done [wheel, 0] := by
  refine answered rfl hm hr rfl ?_
  simp only [carryRemoveWheel, index6_of_val hw, currentBusy_countTake, h, Bool.false_eq_true, if_false]
  rw [← setWheel_countTake]
  refine respond_congr ?_ ..
  rw [padTo_wheelResult, shownWheel_of_val hw, State.setWheel_self]
  rfl

theorem clearWheel_outOfRange (hm : s.mem.wf = true) (hr : Ready (.clearWheel tag wheel) s) (h : 6 ≤ wheel.toNat) :
    AnsweredAtOnce (.clearWheel tag wheel) s s 0x12 tag .refusedRange [wheel, 0] := by
  refine answered rfl hm hr rfl ?_
  rw [carryClearWheel, index6_eq_none h, ← countTake_eq]
  refine respond_congr ?_ ..
  rw [padTo_wheelResult, shownWheel_out h]

theorem clearWheel_refused (hm : s.mem.wf = true) (hr : Ready (.clearWheel tag wheel) s) {w : Fin 6}
    (hw : w.val = wheel.toNat) (h : s.wheels[w].state ≠ .suspect) :
    AnsweredAtOnce (.clearWheel tag wheel) s s 0x12 tag .refusedState [wheel, shownWheel s wheel] := by
  refine answered rfl hm hr rfl ?_
  simp only [carryClearWheel, index6_of_val hw, countTake_wheels, h, if_false]
  rw [← countTake_eq]
  refine respond_congr ?_ ..
  rw [padTo_wheelResult, shownWheel_countTake]

theorem clearWheel_done (hm : s.mem.wf = true) (hr : Ready (.clearWheel tag wheel) s) {w : Fin 6}
    (hw : w.val = wheel.toNat) (h : s.wheels[w].state = .suspect) :
    AnsweredAtOnce (.clearWheel tag wheel) s (s.setWheel w (stopWheel s.wheels[w])) 0x12 tag .done [wheel, 1] := by
  refine answered rfl hm hr rfl ?_
  simp only [carryClearWheel, index6_of_val hw, countTake_wheels, h, if_true]
  rw [← setWheel_countTake]
  refine respond_congr ?_ ..
  rw [padTo_wheelResult, shownWheel_of_val hw, State.setWheel_self]
  rfl

end RemoveWheel

/-- Settles O9. -/
theorem removeAndClearWheel : Obligations.RemoveAndClearWheel := by
  intro tag wheel s hm
  refine ⟨fun hr => ⟨removeWheel_outOfRange hm hr, fun w hw => ?_⟩,
    fun hr => ⟨clearWheel_outOfRange hm hr, fun w hw => ⟨clearWheel_refused hm hr hw, clearWheel_done hm hr hw⟩⟩⟩
  intro busy
  have hbusy : currentBusy s w = true ↔ busy := currentBusy_iff s w
  exact ⟨fun hb => removeWheel_busy hm hr hw (hbusy.2 hb),
    fun hb => removeWheel_done hm hr hw (Bool.eq_false_iff.2 fun e => hb (hbusy.1 e))⟩

end Sys2Proof.Machine
end

