-- ==== Sys2Proof/Proofs/Resets.lean ====
section
/-! SUPPORT. The resets, their release and the state they leave (R143, R172, R184). -/

namespace Sys2Proof.Machine

/-! ### The memory a reset leaves -/

/-- The exchange memory as a reset with a cause leaves it: the status block at its reset values with the cause, 0
elsewhere. -/
def resetMemory (cause : ResetCause) : Memory := Memory.write [] (statusBase + 2) cause.code

/-- The status block after a reset, the cause's byte given (11.9). -/
def resetStatusBlock (code : Byte) : List Byte :=
  [0, 0, code, 0, 0, 0, 1, 0, 0, 0, 0xF4, 0x01, 14, 0, 9, 0, 30, 0, 0x26, 0x02, 0, 0, 0, 0, 0, 0, 2, 0, 0, 0, 0, 0,
    0, 0, 0, 0, 0, 0, 0, 0]

theorem resetMemory_wf (cause : ResetCause) : (resetMemory cause).wf = true := Memory.write_wf rfl

theorem resetMemory_statusBlock (cause : ResetCause) :
    HoldsAt (resetMemory cause) 0x40 (resetStatusBlock cause.code) := by
  have h : ∀ k < 40, (resetMemory cause).read (0x40 + k) = (resetStatusBlock cause.code).getD k 0 := by
    cases cause <;> decide
  exact h

/-- An address outside the status block reads 0 (the model's choice, log 7). -/
theorem resetMemory_elsewhere (cause : ResetCause) {a : Nat} (h : a < 0x40 ∨ 0x68 ≤ a) :
    (resetMemory cause).read a = 0 := by
  rw [resetMemory, Memory.read_write rfl, if_neg (by simp only [statusBase]; omega)]
  exact if_pos (by omega)

/-! ### STARTED -/

theorem leaveReset_of_not_held {s : State} (h : s.held = none) : leaveReset s = s := by
  simp only [leaveReset, h]

theorem leaveReset_of_held {s : State} {cause : ResetCause} (h : s.held = some cause) :
    leaveReset s = raiseEvent .started cause.code 0 0 { s with held := none } := by
  simp only [leaveReset, h]

/-- The STARTED event of a release at the clock's start with gap 0 (R182, R184). -/
def startedFrame (cause : ResetCause) : List Byte := [4, 1, 0, cause.code, 0, 0, 0, 0, 0, 0, 0, 0, 0, 0, 0, 0]

/-- A release right after a reset: STARTED stands first and alone in the event lane. -/
theorem leaveReset_enterReset (cause : ResetCause) (s : State) :
    leaveReset (enterReset cause s) =
      { rbu := { input1 := s.rbu.input1, input2 := s.rbu.input2 }
        lnc := { cause := cause, event := { fill := 16, posted := 1 } }
        mem := (resetMemory cause).writeAll 0x1000 (startedFrame cause)
        draws := s.draws
        pending := s.pending } := by
  have hroom : writable .event ({} : Lane) = true := by decide
  have hstamp : ({ enterReset cause s with held := none } : State).stamp = 0 := by
    show BitVec.ofNat 32 (0 / 4000) = 0
    decide
  have hframe : eventFrame .started 0 cause.code 0 0 0 = startedFrame cause := by cases cause <;> decide
  have hfill : followingOffset 2048 0 16 = 16 := by decide
  rw [leaveReset_of_held (cause := cause) rfl]
  rcases raiseEvent_cases .started cause.code 0 0 { enterReset cause s with held := none } with ⟨-, e⟩ | ⟨h, -⟩
  · rw [e, hstamp]
    simp only [enterReset, hframe, hfill]
    rfl
  · exact absurd (h.symm.trans hroom) Bool.false_ne_true

theorem startedMemory_read (cause : ResetCause) (a : Nat) :
    ((resetMemory cause).writeAll 0x1000 (startedFrame cause)).read a =
      if 0x1000 ≤ a ∧ a < 0x1010 then (startedFrame cause).getD (a - 0x1000) 0 else (resetMemory cause).read a :=
  Memory.read_writeAll (resetMemory_wf cause)

theorem startedMemory_outside (cause : ResetCause) {a : Nat} (h : a < 0x1000 ∨ 0x1010 ≤ a) :
    ((resetMemory cause).writeAll 0x1000 (startedFrame cause)).read a = (resetMemory cause).read a := by
  rw [startedMemory_read, if_neg (by omega)]

theorem startedMemory_frame (cause : ResetCause) :
    HoldsAt ((resetMemory cause).writeAll 0x1000 (startedFrame cause)) 0x1000 (startedFrame cause) := by
  intro k hk
  have hk' : k < 16 := hk
  rw [startedMemory_read, if_pos (by omega), Nat.add_sub_cancel_left]

theorem startedMemory_statusBlock (cause : ResetCause) :
    HoldsAt ((resetMemory cause).writeAll 0x1000 (startedFrame cause)) 0x40 (resetStatusBlock cause.code) := by
  intro k hk
  have hk' : k < 40 := hk
  rw [startedMemory_outside cause (by omega)]
  exact resetMemory_statusBlock cause k hk

/-! ### The commands -/

theorem reset_of_not_held {s : State} (h : s.held = none) (cause : ResetCause) :
    reset cause s = enterReset cause s := by
  simp [reset, h]

theorem reset_of_held {s : State} (h : s.held ≠ none) (cause : ResetCause) : reset cause s = s :=
  if_pos (Option.isSome_iff_ne_none.2 h)

theorem softReset_of_not_held {s : State} (h : s.held = none) : softReset s = leaveReset (enterReset .soft s) := by
  simp [softReset, h]

theorem softReset_of_held {s : State} (h : s.held ≠ none) : softReset s = s :=
  if_pos (Option.isSome_iff_ne_none.2 h)

/-- The memory `State.reset` holds is the one a power-on's release leaves (log 8). -/
theorem startedMemory_power :
    (resetMemory .power).writeAll 0x1000 (startedFrame .power) = State.reset.mem := by
  decide

theorem exec_powerOnReset (s : State) : exec .powerOnReset s = .next (reset .power s) := rfl
theorem exec_resetPin (s : State) : exec .resetPin s = .next (reset .pin s) := rfl
theorem exec_softReset (s : State) : exec .softReset s = .next (softReset s) := rfl
theorem exec_resetRelease (s : State) : exec .resetRelease s = .next (leaveReset s) := rfl

/-- Settles O50: entering, refusing and leaving a reset, and the memory each leaves. -/
theorem resets : Obligations.Resets := by
  intro s pins held block
  refine ⟨fun h c cause hc => ⟨resetMemory cause, ?_, resetMemory_wf cause, resetMemory_statusBlock cause,
      fun a => resetMemory_elsewhere cause⟩,
    fun h => ⟨(resetMemory .soft).writeAll 0x1000 (startedFrame .soft), ?_, startedMemory_statusBlock .soft,
      startedMemory_frame .soft, fun a ha => ?_⟩,
    fun h => ?_, fun h => ?_, fun cause h => ?_, fun h t ht => ?_⟩
  · simp only [List.mem_cons, Prod.mk.injEq, List.not_mem_nil, or_false] at hc
    rcases hc with ⟨rfl, rfl⟩ | ⟨rfl, rfl⟩
    · rw [exec_powerOnReset, reset_of_not_held h]; rfl
    · rw [exec_resetPin, reset_of_not_held h]; rfl
  · rw [exec_softReset, softReset_of_not_held h, leaveReset_enterReset]
  · rw [startedMemory_outside _ (by omega), resetMemory_elsewhere _ (by omega)]
  · rw [exec_powerOnReset, exec_resetPin, exec_softReset, reset_of_held h, reset_of_held h, softReset_of_held h]
    exact ⟨rfl, rfl, rfl⟩
  · rw [exec_resetRelease, leaveReset_of_not_held h]
  · rw [exec_resetRelease, leaveReset_of_held h]
  · rw [exec_powerOnReset, reset_of_not_held h] at ht
    cases ht
    rw [exec_resetRelease, leaveReset_enterReset, startedMemory_power]
    rfl

/-! ### The invariants after a power-on reset -/

theorem channelsSound_reset : ChannelsSound State.reset := by
  intro c
  refine (Channel.sound_iff _).2 ?_
  revert c
  decide

theorem pressureSound_reset : PressureSound State.reset := by
  refine (pressureSound_iff _).2 ⟨fun i => (Input.sound_iff _).2 ?_, by decide, by decide, by decide, by decide⟩
  revert i
  decide

/-- Settles O60: every block at its reset values meets the clauses of its invariant. -/
theorem invariantsAtReset : Obligations.InvariantsAtReset :=
  ⟨Memory.reset_wf, wheelsSound_of_replicate rfl, channelsSound_reset, (engagement_iff _).2 (by decide),
    (retarderSafe_iff _).2 (by decide), pressureSound_reset, (drumsSound_iff _).2 (by decide),
    (reservationSound_iff _).2 (by decide)⟩

end Sys2Proof.Machine
end

