-- ==== Sys2Proof/Proofs/PeriodFigures.lean ====
section
/-! SUPPORT. The regulation period: which blocks it changes, and the figures it forms from one read of the wheels (R20, R26 to
R32, R37, R38). -/

namespace Sys2Proof.Machine

/-! ### Six values -/

@[simp] theorem six_get {α : Type} (f : Fin 6 → α) (i : Fin 6) : (six f)[i] = f i := by
  fin_cases i <;> rfl

theorem mem_indices (i : Fin 6) : i ∈ indices := by
  revert i; decide

/-! ### What a period changes -/

/-- The Regulator a period forms (R26), its timer running on. -/
def periodRegulator (s : State) : Regulator :=
  { formFigures (readSpeeds s) s with periodDue := s.reg.periodDue + Config.regulationPeriodMs * Config.ticksPerMs }

/-- The part once the period's figures stand, before the channels act. -/
def figuredState (s : State) : State := { s with reg := periodRegulator s }

theorem regulationPeriod_eq_rows (s : State) :
    regulationPeriod s = writePeriodRows (readSpeeds s) (retarderEvent actOnPeriod (figuredState s)) := rfl

theorem exec_regulationPeriod {s : State} (hheld : s.held = none) (hdue : s.reg.periodDue ≤ s.clock) :
    exec .regulationPeriod s = .next (regulationPeriod s) :=
  (whenRunning_of_not_held hheld _).trans (congrArg _ (if_pos (decide_eq_true hdue)))

/-- The rows of a period change the memory alone. -/
theorem writePeriodRows_keeps {α : Type} (g : State → α)
    (h : ∀ base fields u, g (rewrite base fields u) = g u) (speeds : Vector (Option Nat) 6) (s : State) :
    g (writePeriodRows speeds s) = g s := by
  rw [writePeriodRows, regulatorStatus, rewriteStatus, h, forEach_keeps g fun _ _ => h .., forEach_keeps g fun _ _ => h ..]

/-- What neither the channels' checks nor the retarder change, a period leaves as its figures left it. -/
theorem regulationPeriod_keeps {α : Type} (g : State → α) (hrows : ∀ base fields u, g (rewrite base fields u) = g u)
    (hevent : ∀ u, g (retarderEvent actOnPeriod u) = g (actOnPeriod u)) (hform : ∀ u, g (formAllowed u) = g u)
    (hcut : ∀ u, g (formCut u) = g u) (hcheck : ∀ c u, g (checkChannel c u) = g u) (s : State) :
    g (regulationPeriod s) = g (figuredState s) := by
  rw [regulationPeriod_eq_rows, writePeriodRows_keeps g hrows, hevent, actOnPeriod, hform, hcut, forEach_keeps g hcheck]

@[simp] theorem regulationPeriod_reg (s : State) : (regulationPeriod s).reg = periodRegulator s :=
  regulationPeriod_keeps State.reg rewrite_reg (retarderEvent_reg _) formAllowed_reg formCut_reg checkChannel_reg s

/-- A period changes the Regulator, the channels, the retarder, the lanes and the memory alone (R26). -/
theorem regulationPeriod_eq (s : State) :
    regulationPeriod s =
      { s with
        reg := periodRegulator s
        channels := (regulationPeriod s).channels
        rbu := (regulationPeriod s).rbu
        lnc := (regulationPeriod s).lnc
        mem := (regulationPeriod s).mem } := by
  have hclock := regulationPeriod_keeps State.clock rewrite_clock (retarderEvent_clock _) formAllowed_clock formCut_clock
    checkChannel_clock s
  have hheld := regulationPeriod_keeps State.held rewrite_held (retarderEvent_held _) formAllowed_held formCut_held
    checkChannel_held s
  have hpcu := regulationPeriod_keeps State.pcu rewrite_pcu (retarderEvent_pcu _) formAllowed_pcu formCut_pcu
    checkChannel_pcu s
  have hdtu := regulationPeriod_keeps State.dtu rewrite_dtu (retarderEvent_dtu _) formAllowed_dtu formCut_dtu
    checkChannel_dtu s
  have hsmn := regulationPeriod_keeps State.smn rewrite_smn (retarderEvent_smn _) formAllowed_smn formCut_smn
    checkChannel_smn s
  have hdraws := regulationPeriod_keeps State.draws rewrite_draws (retarderEvent_draws _) formAllowed_draws formCut_draws
    checkChannel_draws s
  have hpending := regulationPeriod_keeps State.pending rewrite_pending (retarderEvent_pending _) formAllowed_pending
    formCut_pending checkChannel_pending s
  have hwheels := regulationPeriod_wheels s
  have hreg := regulationPeriod_reg s
  generalize regulationPeriod s = t at *
  cases t
  cases s
  simp_all [figuredState]

/-! ### The read of the wheels (R20, R21) -/

/-- The effective speed of a wheel, where a ROLLING wheel has its record and last tooth time (R20). -/
theorem effectiveSpeed_rolling {s : State} {x : Wheel} {r : WheelRecord} {t : Long} (h : x.state = .rolling)
    (hr : x.record = some r) (ht : x.capture.lastTooth = some t) :
    effectiveSpeed s x = some (min x.capture.vCap (r.k / max 1 (s.timeBase - t).toNat)) := by
  simp only [effectiveSpeed, h, hr, ht]

@[simp] theorem readSpeeds_get (s : State) (w : Fin 6) : (readSpeeds s)[w] = effectiveSpeed s s.wheels[w] := six_get _ w

/-! ### The figures (R28 to R32, R37, R38) -/

/-- The fold that forms the candidate speed: at least its start and every eligible wheel's speed, and equal to one of
them. -/
theorem candidateFold_spec (wheels : Vector Wheel 6) (speeds : Vector (Option Nat) 6) (l : List (Fin 6)) (m : Nat) :
    let top := l.foldl (fun m w => if eligibleWheel wheels[w] then max m (speeds[w].getD 0) else m) m
    m ≤ top ∧ (∀ w ∈ l, eligibleWheel wheels[w] = true → speeds[w].getD 0 ≤ top) ∧
      (top = m ∨ ∃ w ∈ l, eligibleWheel wheels[w] = true ∧ top = speeds[w].getD 0) := by
  induction l generalizing m with
  | nil => simp
  | cons w l ih =>
    obtain ⟨hstart, hall, hone⟩ := ih (if eligibleWheel wheels[w] then max m (speeds[w].getD 0) else m)
    simp only [List.foldl_cons]
    cases hw : eligibleWheel wheels[w]
    case false =>
      simp only [hw, Bool.false_eq_true, if_false] at hstart hall hone ⊢
      refine ⟨hstart, fun v hv he => ?_, hone.imp id fun ⟨v, hv, h⟩ => ⟨v, List.mem_cons_of_mem _ hv, h⟩⟩
      rcases List.mem_cons.1 hv with rfl | hv
      · exact absurd (hw.symm.trans he) Bool.false_ne_true
      · exact hall v hv he
    case true =>
      simp only [hw, if_true] at hstart hall hone ⊢
      refine ⟨(Nat.le_max_left _ _).trans hstart, fun v hv he => ?_, ?_⟩
      · rcases List.mem_cons.1 hv with rfl | hv
        · exact (Nat.le_max_right _ _).trans hstart
        · exact hall v hv he
      · rcases hone with h | ⟨v, hv, h⟩
        · rcases Nat.le_total (speeds[w].getD 0) m with hle | hle
          · exact .inl (h.trans (Nat.max_eq_left hle))
          · exact .inr ⟨w, List.mem_cons_self, hw, h.trans (Nat.max_eq_right hle)⟩
        · exact .inr ⟨v, List.mem_cons_of_mem _ hv, h⟩

theorem eligibleWheel_iff (x : Wheel) : eligibleWheel x = true ↔ ∃ r, x.record = some r ∧ r.eligible = true := by
  simp [eligibleWheel, Option.any_eq_true]

/-- The candidate speed is the highest effective speed among the reference-eligible wheels, or 0 (R28). -/
theorem candidateSpeed_spec (wheels : Vector Wheel 6) (speeds : Vector (Option Nat) 6) :
    (∀ (w : Fin 6) (x : WheelRecord) (v : Nat), wheels[w].record = some x → x.eligible = true → speeds[w] = some v → v ≤ candidateSpeed wheels speeds) ∧
      (candidateSpeed wheels speeds = 0 ∨ ∃ (w : Fin 6) (x : WheelRecord), wheels[w].record = some x ∧
        x.eligible = true ∧ speeds[w] = some (candidateSpeed wheels speeds)) := by
  obtain ⟨-, hall, hone⟩ := candidateFold_spec wheels speeds indices 0
  refine ⟨fun w x v hx he hv => ?_, ?_⟩
  · have := hall w (mem_indices w) ((eligibleWheel_iff _).2 ⟨x, hx, he⟩)
    rwa [hv] at this
  · rcases hone with h | ⟨w, -, he, h⟩
    · exact .inl h
    · obtain ⟨x, hx, he⟩ := (eligibleWheel_iff _).1 he
      cases hs : speeds[w] with
      | none => rw [hs] at h; exact .inl h
      | some v => rw [hs] at h; exact .inr ⟨w, x, hx, he, hs.trans (congrArg some h.symm)⟩

/-- Braking present as the first of R37's causes that does not apply, BLIND demand counting as met (R38). -/
theorem brakingVerdict_eq (armed : Bool) (cls : SupplyClass) (vref : Nat) (g : Settings) (demand : Option Nat) :
    brakingVerdict armed cls vref g demand =
      if armed = false then some .disarmed
      else if cls = .critical then some .supply
      else if vref < g.floor then some .lowSpeed
      else match demand with
        | some p => if p < g.demandThreshold then some .released else none
        | none => none := by
  cases demand <;> simp [brakingVerdict]

/-- A wheel's figures, by whether it has an effective speed (R30 to R32). -/
theorem wheelFigures_eq (g : Settings) (vref : Nat) (old : WheelFigures) (speed : Option Nat) :
    wheelFigures g vref old speed = match speed with
      | none => { slip := 0, accel := 0, previous := none }
      | some v =>
        { slip := if vref < g.floor then 0 else if v < vref then (vref - v) * 1000 / vref else 0
          accel := max (-1000) (min 1000 ((((v : Int) - (old.previous.getD 0 : Nat)) * 50).tdiv 9))
          previous := some v } := by
  cases speed <;> rfl

/-- Settles O12. -/
theorem periodFigures : Obligations.PeriodFigures := by
  intro s g speed hheld hdue hg hspeed
  have hread (w : Fin 6) : (readSpeeds s)[w] = speed w := by
    have h := hspeed w
    rw [readSpeeds_get]
    cases hx : s.wheels[w].state <;> simp only [hx] at h
    case rolling =>
      obtain ⟨r, t, hr, ht, h⟩ := h
      rw [effectiveSpeed_rolling hx hr ht, h]
    all_goals simp only [effectiveSpeed, hx, h]
  have hcandidate := candidateSpeed_spec s.wheels (readSpeeds s)
  simp only [hread] at hcandidate
  subst hg
  refine ⟨periodRegulator s, _, _, _, _, (exec_regulationPeriod hheld hdue).trans (congrArg _ (regulationPeriod_eq s)),
    rfl, rfl, rfl, rfl, rfl, ⟨_, hcandidate.1, hcandidate.2, rfl⟩, fun w => ?_, brakingVerdict_eq ..⟩
  refine (six_get _ w).trans ?_
  rw [hread]
  exact wheelFigures_eq ..

end Sys2Proof.Machine
end

