-- ==== Sys2Proof/Proofs/ChannelFrames.lean ====
section
/-! SUPPORT. The operations of a channel as sequences of channel updates and frames handed over: what each of those keeps, the
operation keeps; and which frames an operation hands over (R51 to R55, R65, R73, R87, R89). -/

namespace Sys2Proof.Machine

/-! ### What a channel's operations keep -/

/-- A property that frames handed over and updates of channel `c` keep. -/
structure ChannelInvariant (c : Fin 6) (P : State → Prop) : Prop where
  event : ∀ kind subject v1 v2 u, P u → P (raiseEvent kind subject v1 v2 u)
  episode : ∀ body u, P u → P (raiseEpisode body u)
  response : ∀ kind tag status result u, P u → P (respond kind tag status result u)
  channel : ∀ x u, P u → P (u.setChannel c x)

namespace ChannelInvariant

variable {c : Fin 6} {P : State → Prop}

theorem closeEpisode (h : ChannelInvariant c P) (reason : CloseReason) {u : State} (hu : P u) :
    P (closeEpisode c reason u) := by
  simp only [Machine.closeEpisode]
  split
  · exact hu
  · exact h.episode _ _ (h.channel _ _ hu)

theorem applyStaged (h : ChannelInvariant c P) {u : State} (hu : P u) : P (applyStaged c u) := by
  simp only [Machine.applyStaged]
  split
  · exact hu
  · exact h.event _ _ _ _ _ (h.channel _ _ hu)

theorem enter (h : ChannelInvariant c P) (new : ChannelState) {u : State} (hu : P u) : P (enter c new u) := by
  unfold Machine.enter
  cases new
  case idle => exact h.applyStaged (h.channel _ _ hu)
  case pass => exact h.applyStaged (h.channel _ _ hu)
  all_goals exact h.channel _ _ hu

theorem endTest (h : ChannelInvariant c P) (status : Status) {u : State} (hu : P u) : P (endTest c status u) := by
  simp only [Machine.endTest]
  split
  · exact h.response _ _ _ _ _ (h.enter _ hu)
  all_goals exact h.enter _ hu

theorem abortFault (h : ChannelInvariant c P) (cause : LockoutCause) (sol : Solenoid) (a : Activity) {u : State}
    (hu : P u) : P (abortFault c cause sol a u) := by
  unfold Machine.abortFault
  split
  · exact h.response _ _ _ _ _ hu
  all_goals exact hu

theorem lockOut (h : ChannelInvariant c P) (cause : LockoutCause) (sol : Solenoid) {u : State} (hu : P u) :
    P (lockOut c cause sol u) :=
  h.applyStaged (h.event _ _ _ _ _ (h.closeEpisode _ (h.abortFault _ _ _ (h.channel _ _ hu))))

theorem takeToIdle (h : ChannelInvariant c P) {u : State} (hu : P u) : P (takeToIdle c u) := by
  unfold Machine.takeToIdle
  split_ifs
  · exact hu
  all_goals exact h.enter _ (h.closeEpisode _ hu)

theorem brakingAbsent (h : ChannelInvariant c P) (cause : AbsenceCause) {u : State} (hu : P u) :
    P (brakingAbsent c cause u) := by
  simp only [Machine.brakingAbsent]
  split_ifs
  · exact h.enter _ (h.closeEpisode _ hu)
  · exact h.closeEpisode _ hu

theorem brakingPresent (h : ChannelInvariant c P) (p : Profile) {u : State} (hu : P u) : P (brakingPresent c p u) := by
  simp only [Machine.brakingPresent]
  split_ifs
  · exact hu
  · exact h.enter _ (h.channel _ _ hu)
  · exact h.enter _ hu

theorem checkChannel (h : ChannelInvariant c P) {u : State} (hu : P u) : P (checkChannel c u) := by
  have hn : P (notePeak c u) := h.channel _ _ hu
  simp only [Machine.checkChannel]
  split_ifs
  · exact h.endTest _ hn
  · exact hn
  · exact hn
  · exact h.takeToIdle hn
  · exact h.lockOut _ _ hn
  · exact h.enter _ hn
  · split
    · exact h.brakingAbsent _ hn
    · exact h.brakingPresent _ hn
    · exact hn

end ChannelInvariant

/-- A channel's checks at a period change no other channel. -/
theorem checkChannel_other {c d : Fin 6} (h : d ≠ c) (u : State) :
    (checkChannel c u).channels[d] = u.channels[d] := by
  have hinv : ChannelInvariant c (fun t => t.channels[d] = u.channels[d]) :=
    { event := fun kind subject v1 v2 t ht => by rw [raiseEvent_channels]; exact ht
      episode := fun body t ht => by rw [raiseEpisode_channels]; exact ht
      response := fun kind tag status result t ht => by rw [respond_channels]; exact ht
      channel := fun x t ht => by rw [State.setChannel_get, if_neg h]; exact ht }
  exact hinv.checkChannel rfl

/-! ### The retarder's operations -/

/-- A formation of the allowed stage changes the retarder alone (R147, R148). -/
theorem formAllowed_eq (s : State) : formAllowed s = { s with rbu := (formAllowed s).rbu } := by
  have hclock := formAllowed_clock s; have hheld := formAllowed_held s; have hwheels := formAllowed_wheels s
  have hreg := formAllowed_reg s; have hchannels := formAllowed_channels s; have hpcu := formAllowed_pcu s
  have hdtu := formAllowed_dtu s; have hsmn := formAllowed_smn s; have hlnc := formAllowed_lnc s
  have hmem := formAllowed_mem s; have hdraws := formAllowed_draws s; have hpending := formAllowed_pending s
  generalize formAllowed s = t at *
  cases t
  cases s
  simp_all

/-- The cut formed from the channels: RETARDER_CUT is handed over where it rises with the retarder not withheld, and else the
retarder alone changes (R70, R149, R150). -/
theorem formCut_cases (s : State) :
    ∃ q, formCut s = { (if s.channels.toList.any Channel.cuts = true ∧ s.rbu.cut = false ∧ s.rbu.holdOff = none
      then raiseEvent .retarderCut 0 s.rbu.output s.rbu.leverStage s else s) with rbu := q } := by
  cases hnow : s.channels.toList.any Channel.cuts <;> cases hcut : s.rbu.cut <;>
    simp only [formCut, hnow, hcut, Bool.not_true, Bool.not_false, Bool.and_true, Bool.and_false, if_true, if_false,
      Bool.false_eq_true, false_and, true_and, and_false, Bool.true_eq_false]
  · exact ⟨s.rbu, rfl⟩
  · exact ⟨_, formAllowed_eq _⟩
  · cases hoff : s.rbu.holdOff
    · simp only [raiseCut, RetarderUnit.withheld, hcut, hoff, Option.isSome_none, Bool.or_false, Bool.false_eq_true,
        if_false, if_true]
      exact ⟨_, formAllowed_eq _⟩
    · simp only [raiseCut, RetarderUnit.withheld, hcut, hoff, Option.isSome_some, Bool.or_true, if_true, reduceCtorEq,
        if_false]
      exact ⟨_, formAllowed_eq _⟩
  · exact ⟨s.rbu, rfl⟩

/-- A property kept by frames, by updates of every channel and by changes of the retarder is kept by what the channels and the
retarder do at a period. -/
theorem actOnPeriod_of {P : State → Prop} (h : ∀ c, ChannelInvariant c P) (hrbu : ∀ q u, P u → P { u with rbu := q })
    {u : State} (hu : P u) : P (actOnPeriod u) := by
  have hchannels : P (forEach checkChannel u) := forEach_induction (fun c _ ht => (h c).checkChannel ht) hu
  unfold actOnPeriod
  rw [formAllowed_eq]
  refine hrbu _ _ ?_
  obtain ⟨q, e⟩ := formCut_cases (forEach checkChannel u)
  rw [e]
  refine hrbu _ _ ?_
  split_ifs
  · exact (h 0).event _ _ _ _ _ hchannels
  · exact hchannels

/-! ### Frames handed over in two states alike -/

/-- Two states with the same clock, lanes and memory: a frame handed over leaves them alike. -/
structure Alike (u v : State) : Prop where
  clock : u.clock = v.clock
  lnc : u.lnc = v.lnc
  mem : u.mem = v.mem

namespace Alike

variable {u v : State}

theorem stamp (h : Alike u v) : u.stamp = v.stamp := by rw [State.stamp, h.clock]; rfl

theorem raiseEvent (h : Alike u v) (kind : EventKind) (subject : Byte) (v1 v2 : Int) :
    Alike (raiseEvent kind subject v1 v2 u) (raiseEvent kind subject v1 v2 v) := by
  obtain ⟨hclock, hlnc, hmem⟩ := h
  refine ⟨by simpa using hclock, ?_, ?_⟩ <;>
    simp only [Machine.raiseEvent, writeFrame, State.stamp, State.lane, hclock, hlnc] <;>
    split_ifs <;> simp only [State.setLane_lnc, State.setLane_mem, State.store_lnc, State.store_mem, hlnc, hmem]

theorem raiseEpisode (h : Alike u v) (body : List Byte) : Alike (raiseEpisode body u) (raiseEpisode body v) := by
  obtain ⟨hclock, hlnc, hmem⟩ := h
  refine ⟨by simpa using hclock, ?_, ?_⟩ <;>
    simp only [Machine.raiseEpisode, writeFrame, State.lane, hlnc] <;>
    split_ifs <;> simp only [State.setLane_lnc, State.setLane_mem, State.store_lnc, State.store_mem, hlnc, hmem]

theorem respond (h : Alike u v) (kind tag : Byte) (status : Status) (result : List Byte) :
    Alike (respond kind tag status result u) (respond kind tag status result v) := by
  obtain ⟨hclock, hlnc, hmem⟩ := h
  refine ⟨by simpa using hclock, ?_, ?_⟩ <;> simp only [Machine.respond, hlnc] <;> split_ifs
  · simp only [writeResponse_lnc, hlnc]
  · rfl
  · simp only [writeResponse, setOwed, rewriteStatus, rewrite, writeFrame, State.storeFields, State.stamp, State.store,
      State.setLane, State.lane, List.cons_append, List.nil_append, hclock, hlnc, hmem]
  · exact hmem

end Alike

end Sys2Proof.Machine
end

