-- ==== Sys2Proof/Proofs/EpisodeFrames.lean ====
section
/-! SUPPORT. The frames the six channels and the retarder hand over at a regulation period (R51 to R55, R65, R73, R89, R149). -/

namespace Sys2Proof.Machine

/-! ### What entering a state and ending a vent phase leave of a channel -/

theorem endVentPhase_staged (s : State) (x : Channel) : (x.endVentPhase s).staged = x.staged := by
  unfold Channel.endVentPhase; split <;> rfl

theorem entered_staged (new : ChannelState) (s : State) (x : Channel) : (entered new s x).staged = x.staged := by
  cases new <;> exact endVentPhase_staged s x

theorem entered_state (new : ChannelState) (s : State) (x : Channel) : (entered new s x).state = new := by
  cases new <;> rfl

theorem endVentPhase_ventEntry (s : State) (x : Channel) : (x.endVentPhase s).ventEntry = none := by
  unfold Channel.endVentPhase; split
  · assumption
  · rfl

/-- A channel without a vent phase in progress is left as it is by the end of one. -/
theorem endVentPhase_of_none {x : Channel} (h : x.ventEntry = none) (s : State) : x.endVentPhase s = x := by
  simp only [Channel.endVentPhase, h]

/-- The end of a vent phase reads nothing of the state but the stamp. -/
theorem endVentPhase_congr {u v : State} (h : u.stamp = v.stamp) (x : Channel) :
    x.endVentPhase u = x.endVentPhase v := by
  simp only [Channel.endVentPhase, State.since, h]

/-! ### Closing an episode (R73) -/

theorem episodeBody_eq (c : Fin 6) (reason : CloseReason) (ep : Episode) (s : State) :
    episodeBody c reason ep s = episodeRecord c reason ep s.stamp s.reg.vref := by
  obtain ⟨_, _, governing, _, reservoir, hottest, _, _, _, _, _, _⟩ := ep
  cases reason <;> cases governing <;> cases reservoir <;> cases hottest <;> rfl

theorem recordClosed_of_some {c : Fin 6} {reason : CloseReason} {x : Channel} {vref : Nat} {v : State} {ep : Episode}
    (h : (x.endVentPhase v).episode = some ep) :
    recordClosed c reason x vref v = raiseEpisode (episodeRecord c reason ep v.stamp vref) v := by
  unfold Channel.endVentPhase Channel.updateEpisode at h
  cases he : x.episode <;> cases hv : x.ventEntry <;> simp only [hv, he, Option.map_none, Option.map_some, reduceCtorEq,
    Option.some.injEq] at h
  all_goals
    subst h
    simp only [recordClosed, he, hv, maxWord, State.since]

theorem recordClosed_of_none {c : Fin 6} {reason : CloseReason} {x : Channel} {vref : Nat} {v : State}
    (h : (x.endVentPhase v).episode = none) : recordClosed c reason x vref v = v := by
  unfold Channel.endVentPhase Channel.updateEpisode at h
  cases he : x.episode <;> cases hv : x.ventEntry <;> simp only [hv, he, Option.map_some, reduceCtorEq] at h
  all_goals simp only [recordClosed, he]

section

variable {c : Fin 6} {u v : State} {x : Channel}

theorem Alike.setChannel (h : Alike u v) (c : Fin 6) (y : Channel) : Alike (u.setChannel c y) v :=
  ⟨h.clock, h.lnc, h.mem⟩

theorem closeEpisode_of_none (reason : CloseReason) (h : (u.channels[c].endVentPhase u).episode = none) :
    closeEpisode c reason u = u := by
  simp only [closeEpisode, h]

theorem closeEpisode_of_some (reason : CloseReason) {ep : Episode}
    (h : (u.channels[c].endVentPhase u).episode = some ep) :
    closeEpisode c reason u =
      raiseEpisode (episodeRecord c reason ep u.stamp u.reg.vref)
        (u.setChannel c { u.channels[c].endVentPhase u with episode := none }) := by
  rw [← episodeBody_eq]
  simp only [closeEpisode, h]

/-- The close of a channel's episode hands over the record of the episode, its vent phase ended. -/
theorem closeEpisode_alike (h : Alike u v) (reason : CloseReason)
    (he : (u.channels[c].endVentPhase u).episode = (x.endVentPhase u).episode) :
    Alike (closeEpisode c reason u) (recordClosed c reason x u.reg.vref v) := by
  rw [endVentPhase_congr h.stamp x] at he
  cases hep : (u.channels[c].endVentPhase u).episode with
  | none =>
    rw [recordClosed_of_none (he.symm.trans hep), closeEpisode_of_none reason hep]
    exact h
  | some ep =>
    rw [recordClosed_of_some (he.symm.trans hep), closeEpisode_of_some reason hep, ← h.stamp]
    exact (h.setChannel c _).raiseEpisode _

theorem closeEpisode_self (c : Fin 6) (reason : CloseReason) (u : State) :
    (closeEpisode c reason u).channels[c] = u.channels[c] ∨
      (closeEpisode c reason u).channels[c] = { u.channels[c].endVentPhase u with episode := none } := by
  cases hep : (u.channels[c].endVentPhase u).episode
  · rw [closeEpisode_of_none reason hep]
    exact .inl rfl
  · rw [closeEpisode_of_some reason hep, raiseEpisode_channels, State.setChannel_self]
    exact .inr rfl

theorem closeEpisode_staged (c : Fin 6) (reason : CloseReason) (u : State) :
    (closeEpisode c reason u).channels[c].staged = u.channels[c].staged := by
  rcases closeEpisode_self c reason u with e | e <;> rw [e]
  exact endVentPhase_staged _ _

theorem closeEpisode_state (c : Fin 6) (reason : CloseReason) (u : State) :
    (closeEpisode c reason u).channels[c].state = u.channels[c].state := by
  rcases closeEpisode_self c reason u with e | e <;> rw [e]
  unfold Channel.endVentPhase
  split <;> rfl

/-! ### Entries (R51, R65) -/

theorem reportApplied_of_none (h : x.staged = none) (n : Nat) (v : State) : reportApplied c x n v = v := if_pos h

theorem applyStaged_alike (h : Alike u v) (hx : u.channels[c].staged = x.staged) {n : Nat}
    (hn : u.channels[c].state.code.toNat = n) : Alike (applyStaged c u) (reportApplied c x n v) := by
  subst hn
  cases hs : u.channels[c].staged with
  | none =>
    rw [reportApplied_of_none (hx.symm.trans hs)]
    simp only [applyStaged, hs]
    exact h
  | some p =>
    rw [reportApplied, if_neg (by rw [← hx, hs]; exact Option.some_ne_none p)]
    simp only [applyStaged, hs]
    exact (h.setChannel c _).raiseEvent _ _ _ _

/-- An entry to IDLE or PASS hands over PROFILE_APPLIED where a profile is staged, any other entry nothing (R51). -/
theorem enter_alike_applied (h : Alike u v) {new : ChannelState} (hnew : new = .idle ∨ new = .pass)
    (hx : u.channels[c].staged = x.staged) : Alike (enter c new u) (reportApplied c x new.code.toNat v) := by
  have hself : (u.setChannel c (entered new u u.channels[c])).channels[c] = entered new u u.channels[c] :=
    State.setChannel_self ..
  have happlied := applyStaged_alike (c := c) (x := x) (n := new.code.toNat) (h.setChannel c (entered new u u.channels[c]))
    (by rw [hself, entered_staged, hx]) (by rw [hself, entered_state])
  rcases hnew with rfl | rfl <;> exact happlied

theorem enter_alike_regulating (h : Alike u v) {new : ChannelState} (hnew : new.regulating = true) :
    Alike (enter c new u) v := by
  cases new <;> first | exact absurd hnew Bool.false_ne_true | exact h.setChannel c _

/-- A channel that runs no test and is locked out for SENSORS hands over the record of its episode, CHANNEL_LOCKOUT and
PROFILE_APPLIED (R65). -/
theorem lockOut_alike (h : Alike u v) (htest : u.channels[c].owesTest = false) :
    Alike (lockOut c .sensors .inlet u)
      (reportApplied c u.channels[c] 6
        (raiseEvent .channelLockout (BitVec.ofNat 8 c) 1 0 (recordClosed c .lockout u.channels[c] u.reg.vref v))) := by
  have habort : abortFault c .sensors .inlet u.channels[c].activity = id := by
    funext t
    unfold Channel.owesTest at htest
    unfold abortFault
    split at htest
    · exact absurd htest.symm Bool.false_ne_true
    all_goals simp only [*, id]
  let y : Channel := { entered .lockout u u.channels[c] with cause := some .sensors }
  have hy : (u.setChannel c y).channels[c] = y := State.setChannel_self ..
  have hclosed : Alike (closeEpisode c .lockout (u.setChannel c y))
      (recordClosed c .lockout u.channels[c] u.reg.vref v) := by
    refine closeEpisode_alike (h.setChannel c y) .lockout ?_
    rw [hy, endVentPhase_of_none (x := y) (endVentPhase_ventEntry u u.channels[c])]
    rfl
  simp only [lockOut, habort, id]
  refine applyStaged_alike (hclosed.raiseEvent _ _ _ _) ?_ ?_
  · rw [raiseEvent_channels, closeEpisode_staged, hy]
    exact entered_staged _ _ _
  · rw [raiseEvent_channels, closeEpisode_state, hy]
    rfl

end

end Sys2Proof.Machine
end

