-- ==== Sys2Proof/Proofs/PeriodFrames.lean ====
section
/-! SUPPORT. Channel by channel, a regulation period hands over the frames of `periodFrames`. -/

namespace Sys2Proof.Machine

/-! ### A channel with its peak slip noted (R72) -/

/-- A channel whose open episode has noted the peak slip of the figures formed (R72). -/
def notedChannel (f : ChannelFigures) (x : Channel) : Channel :=
  { x with episode := x.episode.map fun ep : Episode => { ep with peakSlip := max ep.peakSlip f.slip } }

theorem notePeak_eq (c : Fin 6) (u : State) :
    notePeak c u = u.setChannel c (notedChannel u.reg.channels[c] u.channels[c]) := rfl

/-- The condition of check 3 of R52: disarmed, not enabled or UNASSIGNED. -/
theorem check3_iff (armed : Bool) (x : Channel) (f : ChannelFigures) :
    (!armed || !x.enabled || f.outcome == .unassigned) = true ↔
      armed = false ∨ x.enabled = false ∨ f.outcome = .unassigned := by
  simp only [Bool.or_eq_true, Bool.not_eq_true', beq_iff_eq, or_assoc]

/-! ### Where a channel goes (R52 to R59) -/

/-- PASS, HOLD, VENT and REAPPLY: the states of a channel that takes part in regulation. -/
def ChannelState.active : ChannelState → Bool
  | .pass | .hold | .vent | .reapply => true
  | .idle | .test | .lockout => false

section

variable {armed : Bool} {vref : Nat} {absence : Option AbsenceCause} {f : ChannelFigures} {x : Channel}

theorem judgedState_active (h : x.state.active = true) :
    judgedState armed vref absence f x =
      if armed = false ∨ x.enabled = false ∨ f.outcome = .unassigned then .idle
      else if f.outcome = .sensorless then .lockout
      else if absence.isSome then .pass
      else (x.profile.map fun p => regulated p f.slip f.accel x.state).getD x.state := by
  cases hx : x.state <;> simp only [hx, ChannelState.active, Bool.false_eq_true] at h <;>
    cases hp : x.profile <;> simp only [judgedState, hx, hp, Channel.enabled] <;> cases absence <;> rfl

theorem judgedState_idle (h : x.state = .idle) :
    judgedState armed vref absence f x =
      if armed = false ∨ x.enabled = false ∨ f.outcome = .unassigned then .idle
      else if f.outcome = .sensorless then .lockout
      else .pass := by
  simp only [judgedState, h]; rfl

theorem judgedState_test (h : x.state = .test) :
    judgedState armed vref absence f x = if 0 < vref then if armed then .pass else .idle else .test := by
  simp only [judgedState, h]

end

/-- An active channel under braking stays, or enters a regulating state (R56 to R59). -/
theorem regulated_eq_or_regulating (p : Profile) (slip : Nat) (accel : Int) (state : ChannelState) :
    regulated p slip accel state = state ∨ (regulated p slip accel state).regulating = true := by
  cases state
  case pass | hold | vent | reapply => simp only [regulated]; split_ifs <;> simp [ChannelState.regulating]
  all_goals exact .inl rfl

/-! ### The frames of one channel, by its state and the state it goes to -/

section

variable {r : Regulator} {s : State} {c : Fin 6} {v : State}

/-- The state channel `c` of `s` goes to at a period that forms the Regulator `r`. -/
def judgedIn (r : Regulator) (s : State) (c : Fin 6) : ChannelState :=
  judgedState r.armed r.vref r.absence r.channels[c] (notedChannel r.channels[c] s.channels[c])

theorem periodFrames_testEnded (hx : s.channels[c].state = .test)
    (hj : judgedIn r s c = .pass ∨ judgedIn r s c = .idle) :
    periodFrames r s c v =
      testEnded c (notedChannel r.channels[c] s.channels[c]) .abortedMotion r.armed v := by
  unfold periodFrames
  extract_lets f _ x new closed
  have hs : x.state = .test := hx
  have hn : new = .pass ∨ new = .idle := hj
  rcases hn with hn | hn <;> simp only [hs, hn] <;> rfl

theorem periodFrames_test (hx : s.channels[c].state = .test) (hj : judgedIn r s c = .test) :
    periodFrames r s c v = v := by
  unfold periodFrames
  extract_lets f _ x new closed
  have hs : x.state = .test := hx
  have hn : new = .test := hj
  simp only [hs, hn]

theorem periodFrames_lockedOut (hx : s.channels[c].state = .lockout) : periodFrames r s c v = v := by
  unfold periodFrames
  extract_lets f _ x new closed
  have hs : x.state = .lockout := hx
  simp only [hs]

theorem periodFrames_idle (hx : s.channels[c].state = .idle) (hj : judgedIn r s c = .idle ∨ judgedIn r s c = .pass) :
    periodFrames r s c v = v := by
  unfold periodFrames
  extract_lets f _ x new closed
  have hs : x.state = .idle := hx
  have hn : new = .idle ∨ new = .pass := hj
  rcases hn with hn | hn <;> simp only [hs, hn]

theorem periodFrames_lockOut (hx : s.channels[c].state = .idle ∨ s.channels[c].state.active = true)
    (hj : judgedIn r s c = .lockout) :
    periodFrames r s c v =
      reportApplied c (notedChannel r.channels[c] s.channels[c]) 6
        (raiseEvent .channelLockout (BitVec.ofNat 8 c) 1 0
          (recordClosed c .lockout (notedChannel r.channels[c] s.channels[c]) r.vref v)) := by
  unfold periodFrames
  extract_lets f _ x new closed
  have hx' : x.state = .idle ∨ x.state.active = true := hx
  have hn : new = .lockout := hj
  cases hs : x.state <;> simp only [hs, ChannelState.active, reduceCtorEq, Bool.false_eq_true, or_self] at hx' <;>
    simp only [hn] <;> rfl

theorem periodFrames_toIdle (hx : s.channels[c].state.active = true) (hj : judgedIn r s c = .idle) :
    periodFrames r s c v =
      reportApplied c (notedChannel r.channels[c] s.channels[c]) 0
        (recordClosed c (if r.armed then .released else .disarmed) (notedChannel r.channels[c] s.channels[c]) r.vref
          v) := by
  unfold periodFrames
  extract_lets f _ x new closed
  have hx' : x.state.active = true := hx
  have hn : new = .idle := hj
  cases hs : x.state <;> simp only [hs, ChannelState.active, Bool.false_eq_true] at hx' <;>
    simp only [hn] <;> rfl

theorem periodFrames_absent {cause : AbsenceCause} (hx : s.channels[c].state.active = true)
    (hj : judgedIn r s c = .pass) (ha : r.absence = some cause) :
    periodFrames r s c v =
      let closed := recordClosed c cause.reason (notedChannel r.channels[c] s.channels[c]) r.vref v
      if s.channels[c].state = .pass then closed
      else reportApplied c (notedChannel r.channels[c] s.channels[c]) 1 closed := by
  unfold periodFrames
  extract_lets f _ x new closed
  have hx' : x.state.active = true := hx
  have hn : new = .pass := hj
  have hss : s.channels[c].state = x.state := rfl
  rw [hss]
  cases hs : x.state <;> simp only [hs, ChannelState.active, Bool.false_eq_true] at hx' <;>
    simp only [hn, ha] <;> cases cause <;> rfl

theorem periodFrames_present (hx : s.channels[c].state.active = true) (ha : r.absence = none)
    (hj : judgedIn r s c = s.channels[c].state ∨ (judgedIn r s c).regulating = true) :
    periodFrames r s c v = v := by
  unfold periodFrames
  extract_lets f _ x new closed
  have hx' : x.state.active = true := hx
  have hn : new = x.state ∨ new.regulating = true := hj
  clear_value new
  cases hs : x.state <;> simp only [hs, ChannelState.active, Bool.false_eq_true] at hx' <;> cases new <;>
    simp only [hs, ChannelState.regulating, Bool.false_eq_true, reduceCtorEq, or_self] at hn <;>
    simp only [ha]

end

/-! ### The checks of one channel hand over its frames -/

section

variable {c : Fin 6} {r : Regulator} {s u v : State}

/-- The response of a test that ends, by the state the channel enters (R87). -/
theorem testEnded_of_test {x : Channel} {phase : TestPhase} {due : Nat} {par : TestParams} {pulses : Nat} {tag : Byte}
    (h : x.activity = .test phase due par pulses tag) (status : Status) (armed : Bool) (v : State) :
    testEnded c x status armed v =
      respond 0x28 tag status (testResult c pulses phase (if armed then .pass else .idle) none none) v := by
  simp only [testEnded, h]
  cases armed <;> cases phase <;> rfl

/-- A channel's test ended by motion hands over its response alone (R87, R89). -/
theorem endTest_alike {x : Channel} (h : Alike u v) (hx : u.channels[c] = x) (hs : x.Sound) (ht : x.state = .test) :
    Alike (endTest c .abortedMotion u) (testEnded c x .abortedMotion u.reg.armed v) := by
  subst hx
  have hstaged : u.channels[c].staged = none := by
    cases hp : u.channels[c].staged
    · rfl
    · have := hs.staged (by rw [hp]; rfl)
      rw [ht] at this
      exact absurd this Bool.false_ne_true
  have henter : Alike (enter c (afterTest u) u) v := by
    have := enter_alike_applied (c := c) (x := u.channels[c]) h (new := afterTest u)
      (by unfold afterTest; split_ifs <;> simp) rfl
    rwa [reportApplied_of_none hstaged] at this
  have hfits := hs.activity
  simp only [Channel.activityFits, ht] at hfits
  cases hact : u.channels[c].activity <;> simp only [hact, Bool.false_eq_true] at hfits
  case test phase due par pulses tag =>
    rw [testEnded_of_test hact]
    simp only [endTest, hact]
    exact henter.respond _ _ _ _

/-- A channel in a regulating state or in PASS that is taken to IDLE (R53). -/
theorem takeToIdle_alike (h : Alike u v) (hx : u.channels[c].state ≠ .idle) :
    Alike (takeToIdle c u)
      (reportApplied c u.channels[c] 0
        (recordClosed c (if u.reg.armed then .released else .disarmed) u.channels[c] u.reg.vref v)) := by
  rw [takeToIdle, if_neg hx]
  exact enter_alike_applied (closeEpisode_alike h _ rfl) (.inl rfl) (closeEpisode_staged ..)

/-- A channel at a period in which braking is absent (R55). -/
theorem brakingAbsent_alike (h : Alike u v) (cause : AbsenceCause) (hx : u.channels[c].state.active = true) :
    Alike (brakingAbsent c cause u)
      (let closed := recordClosed c cause.reason u.channels[c] u.reg.vref v
       if u.channels[c].state = .pass then closed else reportApplied c u.channels[c] 1 closed) := by
  have hclosed := closeEpisode_alike (c := c) (x := u.channels[c]) h cause.reason rfl
  have hentered := enter_alike_applied (c := c) (x := u.channels[c]) hclosed (new := .pass) (.inr rfl)
    (closeEpisode_staged ..)
  cases hs : u.channels[c].state <;> simp only [hs, ChannelState.active, Bool.false_eq_true] at hx <;>
    simp only [brakingAbsent, hs, ChannelState.regulating, Bool.false_eq_true, if_false, if_true, reduceCtorEq]
  · exact hclosed
  all_goals exact hentered

/-- A channel at a period in which braking is present hands nothing over (R56 to R59). -/
theorem brakingPresent_alike (h : Alike u v) (p : Profile) : Alike (brakingPresent c p u) v := by
  simp only [brakingPresent]
  split_ifs with hnew
  · exact h
  all_goals
    have hregulating := (regulated_eq_or_regulating p _ _ _).resolve_left hnew
  · exact enter_alike_regulating (h.setChannel c _) hregulating
  · exact enter_alike_regulating h hregulating

/-- A channel that is whole runs a test exactly in TEST (R77). -/
theorem Channel.Sound.owesTest {x : Channel} (hx : x.Sound) (h : x.state ≠ .test) : x.owesTest = false := by
  have hfits := hx.activity
  unfold Channel.owesTest
  cases hact : x.activity
  case test => cases hs : x.state <;> simp_all [Channel.activityFits]
  all_goals rfl

theorem notedChannel_sound {f : ChannelFigures} {x : Channel} (hx : x.Sound) : (notedChannel f x).Sound := by
  obtain ⟨houtputs, hmonitors, hcause, hactivity, hhold, hvent, hentry, hregulating, hstaged⟩ := hx
  refine ⟨houtputs, hmonitors, hcause, hactivity, hhold, hvent, hentry, fun h => ?_, hstaged⟩
  obtain ⟨hprofile, hepisode⟩ := hregulating h
  exact ⟨hprofile, by simpa [notedChannel] using hepisode⟩

theorem staged_of_not_regulating {x : Channel} (hx : x.Sound) (h : x.state.regulating = false) : x.staged = none := by
  cases hp : x.staged
  · rfl
  · exact absurd (h.symm.trans (hx.staged (by rw [hp]; rfl))) Bool.false_ne_true

end

/-! In the next lemmas channel `c` of `u` is channel `c` of `s` with its peak slip noted, and `u.reg` is the Regulator the
period forms. Each takes one branch of the checks. -/

section

variable {c : Fin 6} {s u v : State} (h : Alike u v)
  (hx : u.channels[c] = notedChannel u.reg.channels[c] s.channels[c])

include hx

theorem judgedIn_noted : judgedIn u.reg s c =
    judgedState u.reg.armed u.reg.vref u.reg.absence u.reg.channels[c] u.channels[c] := by
  rw [hx]; rfl

theorem state_noted : s.channels[c].state = u.channels[c].state := by
  rw [hx]; rfl

include h

theorem periodTest_alike (hs : u.channels[c].Sound) (htest : u.channels[c].state = .test) :
    Alike (if 0 < u.reg.vref then endTest c .abortedMotion u else u) (periodFrames u.reg s c v) := by
  have hstate := (state_noted hx).trans htest
  have hjudged := judgedIn_noted hx
  rw [judgedState_test htest] at hjudged
  split_ifs with hv
  · rw [if_pos hv] at hjudged
    rw [periodFrames_testEnded hstate (by rw [hjudged]; split_ifs <;> simp), ← hx]
    exact endTest_alike h rfl hs htest
  · rw [if_neg hv] at hjudged
    rwa [periodFrames_test hstate hjudged]

theorem periodIdle_alike (hrest : u.channels[c].state = .idle ∨ u.channels[c].state.active = true)
    (hgone : u.reg.armed = false ∨ u.channels[c].enabled = false ∨ u.reg.channels[c].outcome = .unassigned) :
    Alike (takeToIdle c u) (periodFrames u.reg s c v) := by
  have hstate := state_noted hx
  have hjudged := judgedIn_noted hx
  rcases hrest with hidle | hactive
  · rw [judgedState_idle hidle, if_pos hgone] at hjudged
    rwa [takeToIdle, if_pos hidle, periodFrames_idle (hstate.trans hidle) (.inl hjudged)]
  · rw [judgedState_active hactive, if_pos hgone] at hjudged
    rw [periodFrames_toIdle (hstate ▸ hactive) hjudged, ← hx]
    exact takeToIdle_alike h fun e => by rw [e] at hactive; exact absurd hactive Bool.false_ne_true

theorem periodLockOut_alike (hs : u.channels[c].Sound)
    (hrest : u.channels[c].state = .idle ∨ u.channels[c].state.active = true)
    (hstays : ¬(u.reg.armed = false ∨ u.channels[c].enabled = false ∨ u.reg.channels[c].outcome = .unassigned))
    (hsensorless : u.reg.channels[c].outcome = .sensorless) :
    Alike (lockOut c .sensors .inlet u) (periodFrames u.reg s c v) := by
  have hjudged : judgedIn u.reg s c = .lockout := by
    rw [judgedIn_noted hx]
    rcases hrest with hidle | hactive
    · rw [judgedState_idle hidle, if_neg hstays, if_pos hsensorless]
    · rw [judgedState_active hactive, if_neg hstays, if_pos hsensorless]
  have htest : u.channels[c].state ≠ .test := by
    rintro e
    rcases hrest with hidle | hactive
    · exact absurd (e.symm.trans hidle) (by decide)
    · rw [e] at hactive; exact absurd hactive Bool.false_ne_true
  rw [periodFrames_lockOut (state_noted hx ▸ hrest) hjudged, ← hx]
  exact lockOut_alike h (hs.owesTest htest)

theorem periodPass_alike (hs : u.channels[c].Sound) (hidle : u.channels[c].state = .idle)
    (hstays : ¬(u.reg.armed = false ∨ u.channels[c].enabled = false ∨ u.reg.channels[c].outcome = .unassigned))
    (hsensors : u.reg.channels[c].outcome ≠ .sensorless) :
    Alike (enter c .pass u) (periodFrames u.reg s c v) := by
  have hjudged := judgedIn_noted hx
  rw [judgedState_idle hidle, if_neg hstays, if_neg hsensors] at hjudged
  rw [periodFrames_idle ((state_noted hx).trans hidle) (.inr hjudged)]
  have hstaged : u.channels[c].staged = none := staged_of_not_regulating hs (by rw [hidle]; rfl)
  have henter := enter_alike_applied (c := c) (x := u.channels[c]) h (new := .pass) (.inr rfl) rfl
  rwa [reportApplied_of_none hstaged] at henter

section

variable (hactive : u.channels[c].state.active = true)
  (hstays : ¬(u.reg.armed = false ∨ u.channels[c].enabled = false ∨ u.reg.channels[c].outcome = .unassigned))
  (hsensors : u.reg.channels[c].outcome ≠ .sensorless)

include hactive hstays hsensors

theorem periodAbsent_alike {cause : AbsenceCause} (ha : u.reg.absence = some cause) :
    Alike (brakingAbsent c cause u) (periodFrames u.reg s c v) := by
  have hjudged := judgedIn_noted hx
  rw [judgedState_active hactive, if_neg hstays, if_neg hsensors, ha] at hjudged
  rw [periodFrames_absent (state_noted hx ▸ hactive) hjudged ha, ← hx, state_noted hx]
  exact brakingAbsent_alike h cause hactive

omit h in
/-- Braking is present, with or without a profile. -/
theorem periodPresent_alike (ha : u.reg.absence = none) {t : State} (ht : Alike t v) :
    Alike t (periodFrames u.reg s c v) := by
  have hjudged := judgedIn_noted hx
  rw [judgedState_active hactive, if_neg hstays, if_neg hsensors, ha] at hjudged
  have hstays' : judgedIn u.reg s c = s.channels[c].state ∨ (judgedIn u.reg s c).regulating = true := by
    rw [hjudged, state_noted hx]
    cases u.channels[c].profile with
    | none => exact .inl rfl
    | some p => exact regulated_eq_or_regulating ..
  rwa [periodFrames_present (state_noted hx ▸ hactive) ha hstays']

end

end

/-- At a regulation period the checks of a channel hand over its frames (R52 to R59). -/
theorem checkChannel_alike {c : Fin 6} {r : Regulator} {s u v : State} (h : Alike u v) (hreg : u.reg = r)
    (hx : u.channels[c] = s.channels[c]) (hs : s.channels[c].Sound) :
    Alike (checkChannel c u) (periodFrames r s c v) := by
  subst hreg
  unfold checkChannel
  extract_lets p x f
  have hp : Alike p v := h.setChannel c _
  have hxn : x = notedChannel p.reg.channels[c] s.channels[c] := by
    rw [← hx]; exact State.setChannel_self ..
  have hsound : x.Sound := hxn ▸ notedChannel_sound hs
  change Alike _ (periodFrames p.reg s c v)
  by_cases htest : x.state = .test
  · rw [if_pos htest]
    exact periodTest_alike hp hxn hsound htest
  rw [if_neg htest]
  by_cases hlock : x.state = .lockout
  · rwa [if_pos hlock, periodFrames_lockedOut ((state_noted hxn).trans hlock)]
  rw [if_neg hlock]
  have hrest : x.state = .idle ∨ x.state.active = true := by
    cases hs : x.state <;> simp_all [ChannelState.active]
  have hgone := check3_iff p.reg.armed x f
  by_cases h3 : (!p.reg.armed || !x.enabled || f.outcome == .unassigned) = true
  · rw [if_pos h3]
    exact periodIdle_alike hp hxn hrest (hgone.1 h3)
  rw [if_neg h3]
  rw [hgone] at h3
  by_cases hsensors : f.outcome = .sensorless
  · rw [if_pos hsensors]
    exact periodLockOut_alike hp hxn hsound hrest h3 hsensors
  rw [if_neg hsensors]
  by_cases hidle : x.state = .idle
  · rw [if_pos hidle]
    exact periodPass_alike hp hxn hsound hidle h3 hsensors
  rw [if_neg hidle]
  have hactive := hrest.resolve_left hidle
  split
  · next ha => exact periodAbsent_alike hp hxn hactive h3 hsensors ha
  · next ha _ => exact periodPresent_alike hxn hactive h3 hsensors ha (brakingPresent_alike hp _)
  · next ha _ => exact periodPresent_alike hxn hactive h3 hsensors ha hp

end Sys2Proof.Machine
end

