-- ==== Sys2Proof/Proofs/Rows.lean ====
section
/-! SUPPORT. Rows and status fields in the exchange memory: what a rewrite stores, row after row, and what it leaves (R170). -/

namespace Sys2Proof.Machine

/-! ### Bytes that stand in a memory -/

theorem HoldsAt.of_read_eq {m t : Memory} {a : Nat} {bytes : List Byte} (h : HoldsAt m a bytes)
    (hr : ∀ x, a ≤ x → x < a + bytes.length → t.read x = m.read x) : HoldsAt t a bytes :=
  fun k hk => (hr (a + k) (Nat.le_add_right a k) (Nat.add_lt_add_left hk a)).trans (h k hk)

theorem HoldsAt.append {m : Memory} {a : Nat} {xs ys : List Byte} (hx : HoldsAt m a xs)
    (hy : HoldsAt m (a + xs.length) ys) : HoldsAt m a (xs ++ ys) := by
  intro k hk
  rcases Nat.lt_or_ge k xs.length with h | h
  · rw [hx k h, List.getD_append _ _ _ _ h]
  · rw [List.length_append] at hk
    have hsum : a + k = a + xs.length + (k - xs.length) := by omega
    rw [hsum, hy _ (by omega), List.getD_append_right _ _ _ _ h]

theorem Memory.writeAll_holds {m : Memory} (hm : m.wf = true) (a : Nat) (bytes : List Byte) :
    HoldsAt (m.writeAll a bytes) a bytes := by
  intro k hk
  rw [read_writeAll hm, if_pos (by omega), Nat.add_sub_cancel_left]

/-- A word reads the same where its two bytes do. -/
theorem Memory.word_congr {m t : Memory} {a : Nat} (h0 : t.read a = m.read a) (h1 : t.read (a + 1) = m.read (a + 1)) :
    t.word a = m.word a := by
  simp only [Memory.word, rd16, Nat.add_zero, Nat.zero_add, h0, h1]

/-! ### Fields of a row -/

/-- Two fields of a row that share no byte. -/
def FieldsApart (f g : Nat × List Byte) : Prop := f.1 + f.2.length ≤ g.1 ∨ g.1 + g.2.length ≤ f.1

/-- Of fields that share no byte, each stands in the row once they are stored. -/
theorem State.storeFields_holds {base : Nat} {fields : List (Nat × List Byte)} (hp : fields.Pairwise FieldsApart)
    {s : State} (hm : s.mem.wf = true) {f : Nat × List Byte} (hf : f ∈ fields) :
    HoldsAt (s.storeFields base fields).mem (base + f.1) f.2 := by
  induction fields generalizing s with
  | nil => cases hf
  | cons g fs ih =>
    obtain ⟨hg, hfs⟩ := List.pairwise_cons.1 hp
    rcases List.mem_cons.1 hf with rfl | hf
    · refine (Memory.writeAll_holds hm _ _).of_read_eq fun x hlo hhi => ?_
      refine State.storeFields_outside (State.store_wf hm) fun h hh => ?_
      have := hg h hh
      unfold FieldsApart at this
      omega
    · exact ih hfs (State.store_wf hm) hf

/-- A row's rewrite raises the edition by 2, where its fields lie above the edition word (R170). -/
theorem rewrite_edition {base : Nat} {fields : List (Nat × List Byte)} (h2 : ∀ f ∈ fields, 2 ≤ f.1) {s : State}
    (hm : s.mem.wf = true) : HoldsAt (rewrite base fields s).mem base (le16 (s.mem.word base + 2)) := by
  refine (Memory.writeAll_holds hm _ _).of_read_eq fun x hlo hhi => ?_
  refine State.storeFields_outside (State.store_wf hm) fun f hf => ?_
  have := h2 f hf
  have hlen : (le16 (s.mem.word base + 2)).length = 2 := rfl
  omega

theorem rewrite_holds {base : Nat} {fields : List (Nat × List Byte)} (hp : fields.Pairwise FieldsApart) {s : State}
    (hm : s.mem.wf = true) {f : Nat × List Byte} (hf : f ∈ fields) :
    HoldsAt (rewrite base fields s).mem (base + f.1) f.2 :=
  State.storeFields_holds hp (State.store_wf hm) hf

/-! ### Six rows of 32 bytes -/

/-- The rows of a list of indices rewritten one after another, each of one field behind its edition word. -/
def rowPass (base : Nat) (row : Fin 6 → List Byte) (l : List (Fin 6)) (s : State) : State :=
  l.foldl (fun u (i : Fin 6) => rewrite (base + 32 * i.val) [(2, row i)] u) s

theorem rowPass_keeps {α : Type} (g : State → α) (h : ∀ base fields u, g (rewrite base fields u) = g u) (base : Nat)
    (row : Fin 6 → List Byte) (l : List (Fin 6)) (s : State) : g (rowPass base row l s) = g s :=
  foldl_keeps g (fun _ _ => h ..) l s

/-- A row outside the one rewritten keeps every byte. -/
theorem rewrite_row_outside {a x : Nat} {bytes : List Byte} (hlen : bytes.length = 30) {s : State}
    (hm : s.mem.wf = true) (h : x < a ∨ a + 32 ≤ x) : (rewrite a [(2, bytes)] s).mem.read x = s.mem.read x := by
  refine rewrite_outside hm (by omega) fun f hf => ?_
  rw [List.mem_singleton] at hf
  subst hf
  dsimp only
  omega

/-- A row rewritten holds its edition, raised by 2, and its bytes. -/
theorem rewrite_row_holds {a : Nat} {bytes : List Byte} {s : State} (hm : s.mem.wf = true) :
    HoldsAt (rewrite a [(2, bytes)] s).mem a (le16 (s.mem.word a + 2) ++ bytes) :=
  (rewrite_edition (by simp) hm).append
    (rewrite_holds (f := (2, bytes)) (List.pairwise_singleton ..) hm (List.mem_singleton_self _))

/-- The rows of different indices share no byte. -/
theorem rows_apart {base : Nat} {i j : Fin 6} (h : i ≠ j) {x : Nat} (hlo : base + 32 * j.val ≤ x)
    (hhi : x < base + 32 * j.val + 32) : x < base + 32 * i.val ∨ base + 32 * i.val + 32 ≤ x := by
  have : i.val ≠ j.val := fun e => h (Fin.ext e)
  omega

/-- After a pass over rows of different indices every row of the pass shows its bytes, its edition raised by 2, and every
byte outside the rows is kept. -/
theorem rowPass_stored (base : Nat) {row : Fin 6 → List Byte} (hlen : ∀ i, (row i).length = 30) {l : List (Fin 6)}
    (hl : l.Nodup) {s : State} (hm : s.mem.wf = true) :
    (rowPass base row l s).mem.wf = true ∧
      (∀ i ∈ l, HoldsAt (rowPass base row l s).mem (base + 32 * i) (le16 (s.mem.word (base + 32 * i) + 2) ++ row i)) ∧
      ∀ x, (∀ i ∈ l, x < base + 32 * i.val ∨ base + 32 * i.val + 32 ≤ x) →
        (rowPass base row l s).mem.read x = s.mem.read x := by
  induction l generalizing s with
  | nil => exact ⟨hm, by simp, fun _ _ => rfl⟩
  | cons i l ih =>
    obtain ⟨hi, hl⟩ := List.nodup_cons.1 hl
    have hone := fun x => rewrite_row_outside (a := base + 32 * i) (x := x) (hlen i) hm
    obtain ⟨hwf, hrows, hout⟩ := ih hl (rewrite_wf (base := base + 32 * i) (fields := [(2, row i)]) hm)
    refine ⟨hwf, fun j hj => ?_, fun x hx => ?_⟩
    · rcases List.mem_cons.1 hj with rfl | hj
      · refine (rewrite_row_holds hm).of_read_eq fun x hlo hhi => hout x fun j' hj' => ?_
        have hlen' : (le16 (s.mem.word (base + 32 * j.val) + 2) ++ row j).length = 32 := by
          rw [List.length_append, hlen]; rfl
        exact rows_apart (fun e : j' = j => hi (e ▸ hj')) hlo (by omega)
      · have hne : i ≠ j := fun e => hi (e ▸ hj)
        have hword := Memory.word_congr (hone (base + 32 * j) (rows_apart hne (le_refl _) (by omega)))
          (hone (base + 32 * j + 1) (rows_apart hne (by omega) (by omega)))
        rw [← hword]
        exact hrows j hj
    · exact (hout x fun j hj => hx j (List.mem_cons_of_mem _ hj)).trans (hone x (hx i List.mem_cons_self))

theorem indices_nodup : indices.Nodup := by decide

/-! ### The status block -/

/-- A field of the status block that is rewritten stands in it, and so does the stamp (R171). -/
theorem rewriteStatus_stored {fields : List (Nat × List Byte)}
    (hp : (fields ++ [(36, le32 0)]).Pairwise FieldsApart) {s : State} (hm : s.mem.wf = true) :
    (∀ f ∈ fields, HoldsAt (rewriteStatus fields s).mem (0x40 + f.1) f.2) ∧
      HoldsAt (rewriteStatus fields s).mem 0x64 (le32 s.stamp) := by
  have hp' : (fields ++ [(36, le32 s.stamp)]).Pairwise FieldsApart := by
    rw [List.pairwise_append] at hp ⊢
    obtain ⟨hfields, -, hstamp⟩ := hp
    refine ⟨hfields, List.pairwise_singleton .., fun f hf g hg => ?_⟩
    rw [List.mem_singleton] at hg
    subst hg
    exact hstamp f hf (36, le32 0) (List.mem_singleton_self _)
  exact ⟨fun f hf => rewrite_holds hp' hm (List.mem_append_left _ hf),
    rewrite_holds (f := (36, le32 s.stamp)) hp' hm (by simp)⟩

/-- Outside the edition, the fields and the stamp a rewrite of the status block keeps every byte. -/
theorem rewriteStatus_outside {fields : List (Nat × List Byte)} {s : State} {x : Nat} (hm : s.mem.wf = true)
    (he : x < 0x40 ∨ 0x42 ≤ x) (hst : x < 0x64 ∨ 0x68 ≤ x)
    (h : ∀ f ∈ fields, x < 0x40 + f.1 ∨ 0x40 + f.1 + f.2.length ≤ x) :
    (rewriteStatus fields s).mem.read x = s.mem.read x := by
  refine rewrite_outside hm he fun f hf => ?_
  rcases List.mem_append.1 hf with hf | hf
  · exact h f hf
  · rw [List.mem_singleton] at hf
    subst hf
    exact hst

/-! ### The Regulator's fields (R45) -/

theorem regulatorStatus_stored {s : State} (hm : s.mem.wf = true) :
    (regulatorStatus s).mem.wf = true ∧ ShowsRegulator s.reg (regulatorStatus s).mem ∧
      HoldsAt (regulatorStatus s).mem 0x64 (le32 s.stamp) ∧
      (regulatorStatus s).mem.word 0x40 = s.mem.word 0x40 + 2 ∧
      KeepsOutside [(0x40, 2), (0x43, 4), (0x48, 12), (0x64, 4)] s.mem (regulatorStatus s).mem := by
  have hp : (s.reg.statusFields ++ [(36, le32 0)]).Pairwise FieldsApart := by
    simp [Regulator.statusFields, FieldsApart, le16, le32]
  obtain ⟨hfields, hstamp⟩ := rewriteStatus_stored hp hm
  have hflags := hfields _ List.mem_cons_self
  have hfigures := hfields _ (List.mem_cons_of_mem _ List.mem_cons_self)
  refine ⟨rewriteStatus_wf _ hm, ⟨?_, hfigures⟩, hstamp, rewriteStatus_edition _ hm ?_, fun x hx => ?_⟩
  · refine Eq.mp (congrArg (HoldsAt _ 0x43) ?_) hflags
    cases s.reg.mode <;> rcases s.reg.absence with _ | _ | _ | _ | _ <;> rfl
  · simp [Regulator.statusFields]
  · have h0 := hx (0x40, 2) (by simp); have h1 := hx (0x43, 4) (by simp)
    have h2 := hx (0x48, 12) (by simp); have h3 := hx (0x64, 4) (by simp)
    refine rewriteStatus_outside hm h0 h3 fun f hf => ?_
    simp only [Regulator.statusFields, List.mem_cons, List.not_mem_nil, or_false] at hf
    rcases hf with rfl | rfl
    · exact h1
    · exact h2

/-! ### The retarder's fields (R154) -/

theorem retarderFields_eq (r : RetarderUnit) : r.statusFields = [(30, retarderBytes r)] := by
  unfold RetarderUnit.statusFields retarderBytes
  cases r.cut <;> cases r.holdOff <;> cases r.assist <;> simp [bit]

/-- What an event of the retarder leaves in the memory: its fields where one of them changes, else what its change left. -/
theorem retarderEvent_stored (f : State → State) {s : State} (hm : (f s).mem.wf = true) :
    (retarderBytes s.rbu ≠ retarderBytes (f s).rbu →
        HoldsAt (retarderEvent f s).mem 0x5E (retarderBytes (f s).rbu)) ∧
      (retarderBytes s.rbu = retarderBytes (f s).rbu → (retarderEvent f s).mem = (f s).mem) ∧
      (retarderEvent f s).mem.word 0x40 = (f s).mem.word 0x40 + retarderRise s.rbu (f s).rbu ∧
      KeepsOutside [(0x40, 2), (0x5E, 4), (0x64, 4)] (f s).mem (retarderEvent f s).mem := by
  by_cases h : retarderBytes s.rbu = retarderBytes (f s).rbu
  · have hevent : retarderEvent f s = f s := if_pos (by rw [retarderFields_eq, retarderFields_eq, h])
    rw [hevent, retarderRise, if_pos h]
    exact ⟨fun hne => absurd h hne, fun _ => rfl, (BitVec.add_zero _).symm, fun _ _ => rfl⟩
  · have hevent : retarderEvent f s = rewriteStatus [(30, retarderBytes (f s).rbu)] (f s) := by
      rw [← retarderFields_eq]
      refine if_neg fun e => h ?_
      simpa [retarderFields_eq] using e.symm
    have hp : ([(30, retarderBytes (f s).rbu)] ++ [(36, le32 0)]).Pairwise FieldsApart := by
      simp [FieldsApart, retarderBytes, le32]
    rw [hevent, retarderRise, if_neg h]
    refine ⟨fun _ => (rewriteStatus_stored hp hm).1 _ (List.mem_singleton_self _), fun e => absurd e h,
      rewriteStatus_edition _ hm (by simp), fun x hx => ?_⟩
    have h0 := hx (0x40, 2) (by simp); have h1 := hx (0x5E, 4) (by simp); have h2 := hx (0x64, 4) (by simp)
    refine rewriteStatus_outside hm h0 h2 fun g hg => ?_
    rw [List.mem_singleton] at hg
    subst hg
    exact h1

end Sys2Proof.Machine
end

