-- ==== Sys2Proof/Proofs/PeriodRowBytes.lean ====
section
/-! SUPPORT. What a regulation period leaves in the exchange memory and on the lanes (R23, R45, R75, R154, 11.8, 11.9). -/

namespace Sys2Proof.Machine

/-! ### The live rows of the wheels and channels (11.8) -/

/-- The 30 bytes behind the edition word of a wheel's live row (R23). -/
def wheelRowBytes (x : Wheel) (speed : Nat) (f : WheelFigures) : List Byte :=
  let c := x.capture
  let ofRecord := fun g : WheelRecord → Nat => (x.record.map g).getD 0
  [x.state.code, BitVec.ofNat 8 c.divisor.toNat, BitVec.ofNat 8 c.strikes,
      BitVec.ofNat 8 (ofRecord fun r => r.channel.val), BitVec.ofNat 8 (ofRecord fun r => if r.eligible then 1 else 0),
      BitVec.ofNat 8 (ofRecord (·.teeth))]
    ++ le16 (BitVec.ofNat 16 c.vCap) ++ le16 (BitVec.ofNat 16 speed)
    ++ le16 (BitVec.ofNat 16 f.slip) ++ le16 (BitVec.ofInt 16 f.accel)
    ++ le32 (BitVec.ofNat 32 c.pAcc) ++ le32 (BitVec.ofNat 32 (c.candidate.getD 0))
    ++ le32 (BitVec.ofNat 32 (ofRecord (·.k))) ++ le16 (BitVec.ofNat 16 (ofRecord (·.circumference)))
    ++ le16 (BitVec.ofNat 16 (ofRecord (·.window)))

theorem wheelRow_eq (x : Wheel) (speed : Option Nat) (f : WheelFigures) :
    wheelRow x speed f = [(2, wheelRowBytes x (speed.getD 0) f)] := by
  unfold wheelRow wheelRowBytes
  rcases x.record with _ | ⟨_, _, _, eligible, _, _⟩
  · rfl
  · cases eligible <;> rfl

/-- A flag's share of a flags byte. -/
def flagShare (n : Nat) (b : Bool) : Nat := if b then n else 0

/-- The 30 bytes behind the edition word of a channel's live row (R75). -/
def channelRowBytes (x : Channel) (f : ChannelFigures) : List Byte :=
  let ofProfile := fun g : Profile → Nat => le16 (BitVec.ofNat 16 ((x.profile.map g).getD 0))
  [x.state.code, (x.cause.map LockoutCause.code).getD 0, f.outcome.code,
      (f.governing.map fun w => BitVec.ofNat 8 w.val).getD 0xFF]
    ++ le16 (BitVec.ofNat 16 f.slip) ++ le16 (BitVec.ofInt 16 f.accel)
    ++ [BitVec.ofNat 8 (flagShare 1 x.inlet.energised + flagShare 2 x.vent.energised),
      BitVec.ofNat 8 (flagShare 1 x.episode.isSome + flagShare 2 x.staged.isSome + flagShare 4 x.profile.isSome
        + flagShare 8 (x.profile.any (·.enabled)) + flagShare 16 (x.profile.any (·.combine == .selectHigh))
        + flagShare 32 (x.profile.any (·.driveAxle))),
      BitVec.ofNat 8 ((x.episode.map (·.strikes)).getD 0), 0]
    ++ ofProfile (·.slipEntry) ++ ofProfile (·.slipExit) ++ ofProfile (·.ventLimit) ++ ofProfile (·.holdLimit)
    ++ List.replicate 10 0

theorem two_flags (a b : Bool) : bit 0 a ||| bit 1 b = BitVec.ofNat 8 (flagShare 1 a + flagShare 2 b) := by
  revert a b; decide

theorem six_flags (a b c d e f : Bool) :
    bit 0 a ||| bit 1 b ||| bit 2 c ||| bit 3 d ||| bit 4 e ||| bit 5 f =
      BitVec.ofNat 8 (flagShare 1 a + flagShare 2 b + flagShare 4 c + flagShare 8 d + flagShare 16 e + flagShare 32 f) := by
  revert a b c d e f; decide

theorem combine_selectHigh (x : Channel) : (x.combine == .selectHigh) = x.profile.any (·.combine == .selectHigh) := by
  unfold Channel.combine
  cases x.profile <;> rfl

theorem channelRow_eq (x : Channel) (f : ChannelFigures) : channelRow x f = [(2, channelRowBytes x f)] := by
  have hcause : codeOr LockoutCause.code x.cause = (x.cause.map LockoutCause.code).getD 0 := by cases x.cause <;> rfl
  have hgoverning : indexByte f.governing = (f.governing.map fun w => BitVec.ofNat 8 w.val).getD 0xFF := by
    cases f.governing <;> rfl
  simp only [channelRow, combine_selectHigh, hcause, hgoverning]
  rw [six_flags, two_flags]
  rfl

/-! ### The rows of a period -/

/-- A pass over the six may be read with any operation that agrees on the states it passes through. -/
theorem forEach_congr {P : State → Prop} {f g : Fin 6 → State → State} (hk : ∀ i u, P u → P (g i u))
    (h : ∀ i u, P u → f i u = g i u) {s : State} (hs : P s) : forEach f s = forEach g s := by
  unfold forEach
  induction indices generalizing s with
  | nil => rfl
  | cons i l ih => rw [List.foldl_cons, List.foldl_cons, h i s hs]; exact ih (hk i s hs)

/-- The bytes of the wheels' rows that a period writes. -/
def periodWheelBytes (speeds : Vector (Option Nat) 6) (s : State) (w : Fin 6) : List Byte :=
  wheelRowBytes s.wheels[w] (speeds[w].getD 0) s.reg.wheels[w]

/-- The bytes of the channels' rows that a period writes. -/
def periodChannelBytes (s : State) (c : Fin 6) : List Byte := channelRowBytes s.channels[c] s.reg.channels[c]

theorem writePeriodRows_eq (speeds : Vector (Option Nat) 6) (s : State) :
    writePeriodRows speeds s =
      regulatorStatus (rowPass 0x200 (periodChannelBytes s) indices
        (rowPass 0x100 (periodWheelBytes speeds s) indices s)) := by
  have hwheels : forEach (fun w u => rewrite (wheelRowBase w) (wheelRow u.wheels[w] speeds[w] u.reg.wheels[w]) u) s =
      rowPass 0x100 (periodWheelBytes speeds s) indices s := by
    refine forEach_congr (P := fun u => u.wheels = s.wheels ∧ u.reg = s.reg) (fun _ u hu => ?_) (fun w u hu => ?_)
      ⟨rfl, rfl⟩
    · rwa [rewrite_wheels, rewrite_reg]
    · rw [hu.1, hu.2, wheelRow_eq]; rfl
  have hchannels (u : State) (hu : u.channels = s.channels ∧ u.reg = s.reg) :
      forEach (fun c u => rewrite (channelRowBase c) (channelRow u.channels[c] u.reg.channels[c]) u) u =
        rowPass 0x200 (periodChannelBytes s) indices u := by
    refine forEach_congr (P := fun u => u.channels = s.channels ∧ u.reg = s.reg) (fun _ u hu => ?_) (fun w u hu => ?_) hu
    · rwa [rewrite_channels, rewrite_reg]
    · rw [hu.1, hu.2, channelRow_eq]; rfl
  rw [writePeriodRows, hwheels, hchannels]
  exact ⟨rowPass_keeps _ rewrite_channels .., rowPass_keeps _ rewrite_reg ..⟩

/-- An address outside the spans a period's rows and the Regulator's fields lie in. -/
def OutsideRows (a : Nat) : Prop :=
  (a < 0x40 ∨ 0x42 ≤ a) ∧ (a < 0x43 ∨ 0x47 ≤ a) ∧ (a < 0x48 ∨ 0x54 ≤ a) ∧ (a < 0x64 ∨ 0x68 ≤ a) ∧
    (a < 0x100 ∨ 0x1C0 ≤ a) ∧ (a < 0x200 ∨ 0x2C0 ≤ a)

/-- What the rows and the Regulator's fields of a period leave in the memory. -/
structure RowsStored (speeds : Vector (Option Nat) 6) (s : State) (m : Memory) : Prop where
  wheels : ∀ w : Fin 6,
    HoldsAt m (0x100 + 32 * w) (le16 (s.mem.word (0x100 + 32 * w) + 2) ++ periodWheelBytes speeds s w)
  channels : ∀ c : Fin 6,
    HoldsAt m (0x200 + 32 * c) (le16 (s.mem.word (0x200 + 32 * c) + 2) ++ periodChannelBytes s c)
  regulator : ShowsRegulator s.reg m
  stamp : HoldsAt m 0x64 (le32 s.stamp)
  edition : m.word 0x40 = s.mem.word 0x40 + 2
  elsewhere : ∀ a, OutsideRows a → m.read a = s.mem.read a

theorem writePeriodRows_stored (speeds : Vector (Option Nat) 6) {s : State} (hm : s.mem.wf = true) :
    RowsStored speeds s (writePeriodRows speeds s).mem := by
  have hlenw (w : Fin 6) : (periodWheelBytes speeds s w).length = 30 := rfl
  have hlenc (c : Fin 6) : (periodChannelBytes s c).length = 30 := rfl
  obtain ⟨hwf1, hw, hout1⟩ := rowPass_stored 0x100 hlenw indices_nodup hm
  obtain ⟨hwf2, hc, hout2⟩ := rowPass_stored 0x200 hlenc indices_nodup hwf1
  obtain ⟨-, hreg, hstamp, hedition, hkeep⟩ := regulatorStatus_stored hwf2
  rw [← writePeriodRows_eq] at hreg hstamp hedition hkeep
  have hreg' : (rowPass 0x200 (periodChannelBytes s) indices (rowPass 0x100 (periodWheelBytes speeds s) indices s)).reg
      = s.reg := by rw [rowPass_keeps _ rewrite_reg, rowPass_keeps _ rewrite_reg]
  have hstamp' : (rowPass 0x200 (periodChannelBytes s) indices
      (rowPass 0x100 (periodWheelBytes speeds s) indices s)).stamp = s.stamp := by
    simp only [State.stamp, rowPass_keeps State.clock rewrite_clock]
  have h1 (a : Nat) (ha : a < 0x100 ∨ 0x1C0 ≤ a) := hout1 a fun i _ => by have := i.isLt; omega
  have h2 (a : Nat) (ha : a < 0x200 ∨ 0x2C0 ≤ a) := hout2 a fun i _ => by have := i.isLt; omega
  have h3 (a : Nat) (ha : 0x100 ≤ a) := hkeep a (by simp only [List.mem_cons, List.not_mem_nil, or_false, forall_eq_or_imp, forall_eq]; omega)
  refine ⟨fun w => ?_, fun c => ?_, hreg' ▸ hreg, ?_, ?_, fun a ⟨ha0, ha1, ha2, ha3, ha4, ha5⟩ => ?_⟩
  · have hlt := w.isLt
    refine (hw w (mem_indices w)).of_read_eq fun x hlo hhi => ?_
    rw [List.length_append, hlenw] at hhi
    have hhi' : x < 0x100 + 32 * w + 32 := hhi
    rw [h3 x (by omega), h2 x (by omega)]
  · have hlt := c.isLt
    have hword := Memory.word_congr (h1 (0x200 + 32 * c) (by omega)) (h1 (0x200 + 32 * c + 1) (by omega))
    rw [← hword]
    exact (hc c (mem_indices c)).of_read_eq fun x hlo _ => h3 x (by omega)
  · rwa [hstamp'] at hstamp
  · rw [hedition, Memory.word_congr ((h2 0x40 (by omega)).trans (h1 0x40 (by omega)))
      ((h2 (0x40 + 1) (by omega)).trans (h1 (0x40 + 1) (by omega)))]
  · rw [hkeep a (by simp only [List.mem_cons, List.not_mem_nil, or_false, forall_eq_or_imp, forall_eq]; omega),
      h2 a ha5, h1 a ha4]

end Sys2Proof.Machine
end

