-- ==== Sys2Proof/Proofs/PeriodRows.lean ====
section
/-! SUPPORT. A regulation period's memory, rows and frames put together (R23, R45, R75, R149, R154). -/

namespace Sys2Proof.Machine

/-! ### Frames lie in the lanes' areas (R157) -/

theorem raiseEvent_read_below (kind : EventKind) (subject : Byte) (v1 v2 : Int) {s : State} (hm : s.mem.wf = true)
    {a : Nat} (ha : a < 0xC00) : (raiseEvent kind subject v1 v2 s).mem.read a = s.mem.read a := by
  rcases raiseEvent_cases kind subject v1 v2 s with ⟨-, e⟩ | ⟨-, e⟩ <;> rw [e]
  exact Memory.read_writeAll_outside hm (.inl (by omega))

theorem raiseEpisode_read_below (body : List Byte) {s : State} (hm : s.mem.wf = true) {a : Nat} (ha : a < 0xC00) :
    (raiseEpisode body s).mem.read a = s.mem.read a := by
  rcases raiseEpisode_cases body s with ⟨-, e⟩ | ⟨-, e⟩ <;> rw [e]
  exact Memory.read_writeAll_outside hm (.inl (by omega))

/-- Below the lanes a response changes the status block's edition, owed count and stamp alone (R174). -/
theorem respond_read_below (kind tag : Byte) (status : Status) (result : List Byte) {s : State} (hm : s.mem.wf = true)
    {a : Nat} (ha : a < 0xC00) (he : a < 0x40 ∨ 0x42 ≤ a) (ho : a < 0x62 ∨ 0x68 ≤ a) :
    (respond kind tag status result s).mem.read a = s.mem.read a := by
  rcases respond_cases kind tag status result s with ⟨-, e⟩ | ⟨-, e⟩ <;> rw [e]
  obtain ⟨-, -, -, hkeep⟩ := setOwed_stored
    ((writeFrame .response (responseFrame kind tag status result) s).lnc.owed - 1)
    (writeFrame_wf .response (responseFrame kind tag status result) hm)
  refine (hkeep a ?_).trans (Memory.read_writeAll_outside hm (.inl ?_))
  · simp only [List.mem_cons, List.not_mem_nil, or_false, forall_eq_or_imp, forall_eq]
    exact ⟨he, ho⟩
  · have hbase : LaneId.base ReportLane.response.lane = 0xC00 := rfl
    omega

/-- From `s` to `u` frames were handed over and nothing else was stored: below the lanes the status block's edition, owed
count and stamp alone may have changed. -/
structure FramesOnly (s u : State) : Prop where
  wf : u.mem.wf = true
  clock : u.clock = s.clock
  below : ∀ a, a < 0xC00 → (a < 0x40 ∨ 0x42 ≤ a) → (a < 0x62 ∨ 0x68 ≤ a) → u.mem.read a = s.mem.read a

/-- What the channels and the retarder do at a period stores frames alone. -/
theorem actOnPeriod_framesOnly {s : State} (hm : s.mem.wf = true) : FramesOnly s (actOnPeriod s) := by
  refine actOnPeriod_of (fun c => ⟨?_, ?_, ?_, ?_⟩) ?_ ⟨hm, rfl, fun _ _ _ _ => rfl⟩
  · intro kind subject v1 v2 u ⟨hwf, hclock, hbelow⟩
    exact ⟨raiseEvent_wf _ _ _ _ hwf, by rwa [raiseEvent_clock],
      fun a ha he ho => (raiseEvent_read_below _ _ _ _ hwf ha).trans (hbelow a ha he ho)⟩
  · intro body u ⟨hwf, hclock, hbelow⟩
    exact ⟨raiseEpisode_wf _ hwf, by rwa [raiseEpisode_clock],
      fun a ha he ho => (raiseEpisode_read_below _ hwf ha).trans (hbelow a ha he ho)⟩
  · intro kind tag status result u ⟨hwf, hclock, hbelow⟩
    exact ⟨respond_wf _ _ _ _ hwf, by rwa [respond_clock],
      fun a ha he ho => (respond_read_below _ _ _ _ hwf ha he ho).trans (hbelow a ha he ho)⟩
  · intro x u hu
    exact ⟨hu.wf, hu.clock, hu.below⟩
  · intro q u hu
    exact ⟨hu.wf, hu.clock, hu.below⟩

/-! ### The frames of the six channels in index order -/

/-- The checks of the channels of a list hand over the channels' frames in its order. -/
theorem foldl_checkChannel_alike {r : Regulator} {s : State} (hs : ChannelsSound s) {l : List (Fin 6)} (hl : l.Nodup)
    {u v : State} (h : Alike u v) (hreg : u.reg = r) (hx : ∀ c ∈ l, u.channels[c] = s.channels[c]) :
    Alike (l.foldl (fun u c => checkChannel c u) u) (l.foldl (fun v c => periodFrames r s c v) v) := by
  induction l generalizing u v with
  | nil => exact h
  | cons c l ih =>
    obtain ⟨hc, hl⟩ := List.nodup_cons.1 hl
    refine ih hl (checkChannel_alike h hreg (hx c List.mem_cons_self) (hs c)) ((checkChannel_reg c u).trans hreg)
      fun d hd => ?_
    rw [checkChannel_other fun e : d = c => hc (e ▸ hd)]
    exact hx d (List.mem_cons_of_mem c hd)

theorem forEach_checkChannel_alike {s u : State} (hs : ChannelsSound s) (h : Alike u s) (hx : u.channels = s.channels) :
    Alike (forEach checkChannel u) (overChannels (periodFrames u.reg s) s) :=
  foldl_checkChannel_alike hs indices_nodup h rfl fun c _ => by rw [hx]

/-! ### The cut (R70, R149) -/

theorem any_cuts_iff (s : State) : s.channels.toList.any Channel.cuts = true ↔ cutting s = true := by
  simp only [List.any_eq_true, Vector.mem_toList_iff, Vector.mem_iff_getElem, Channel.cuts, Bool.and_eq_true, cutting,
    decide_eq_true_eq]
  constructor
  · rintro ⟨x, ⟨i, hi, rfl⟩, h⟩
    exact ⟨⟨i, hi⟩, h⟩
  · rintro ⟨c, h⟩
    exact ⟨_, ⟨c.val, c.isLt, rfl⟩, h⟩

theorem Alike.trans {u v w : State} (h : Alike u v) (h' : Alike v w) : Alike u w :=
  ⟨h.clock.trans h'.clock, h.lnc.trans h'.lnc, h.mem.trans h'.mem⟩

theorem Alike.withRetarder {u v : State} (h : Alike u v) (q : RetarderUnit) : Alike { u with rbu := q } v :=
  ⟨h.clock, h.lnc, h.mem⟩

/-- After the channels' frames a period hands over RETARDER_CUT where the cut rises with the retarder not withheld. -/
theorem actOnPeriod_alike {u v : State} (h : Alike (forEach checkChannel u) v) :
    Alike (actOnPeriod u)
      (if cutting (actOnPeriod u) = true ∧ u.rbu.cut = false ∧ u.rbu.holdOff = none then
        raiseEvent .retarderCut 0 u.rbu.output u.rbu.leverStage v else v) := by
  have hchannels : (actOnPeriod u).channels = (forEach checkChannel u).channels := by
    rw [actOnPeriod, formAllowed_channels, formCut_channels]
  have hrbu : (forEach checkChannel u).rbu = u.rbu := forEach_keeps State.rbu checkChannel_rbu u
  have hcutting := any_cuts_iff (actOnPeriod u)
  have hformed : Alike (actOnPeriod u) (formCut (forEach checkChannel u)) :=
    ⟨formAllowed_clock _, formAllowed_lnc _, formAllowed_mem _⟩
  rw [hchannels] at hcutting
  obtain ⟨q, hcut⟩ := formCut_cases (forEach checkChannel u)
  rw [hcut, hrbu] at hformed
  generalize forEach checkChannel u = f at *
  generalize actOnPeriod u = t at *
  by_cases hrise : cutting t = true ∧ u.rbu.cut = false ∧ u.rbu.holdOff = none
  · rw [if_pos (by rwa [hcutting])] at hformed
    rw [if_pos hrise]
    exact hformed.trans ((h.raiseEvent .retarderCut 0 u.rbu.output u.rbu.leverStage).withRetarder q)
  · rw [if_neg (by rwa [hcutting])] at hformed
    rw [if_neg hrise]
    exact hformed.trans (h.withRetarder q)

/-! ### The period's state, block by block -/

/-- The part before a period's rows are written: channels and retarder have acted. -/
def actedState (s : State) : State := retarderEvent actOnPeriod (figuredState s)

theorem actedState_wheels (s : State) : (actedState s).wheels = s.wheels := by
  rw [actedState, retarderEvent_wheels, actOnPeriod_wheels]; rfl

theorem actedState_reg (s : State) : (actedState s).reg = periodRegulator s := by
  rw [actedState, retarderEvent_reg, actOnPeriod, formAllowed_reg, formCut_reg,
    forEach_keeps State.reg checkChannel_reg]
  rfl

theorem regulationPeriod_channels (s : State) : (regulationPeriod s).channels = (actedState s).channels :=
  writePeriodRows_keeps State.channels rewrite_channels _ _

theorem regulationPeriod_lnc (s : State) : (regulationPeriod s).lnc = (actOnPeriod (figuredState s)).lnc := by
  rw [regulationPeriod_eq_rows, writePeriodRows_keeps State.lnc rewrite_lnc, retarderEvent_lnc]

theorem regulationPeriod_rbu (s : State) : (regulationPeriod s).rbu = (actOnPeriod (figuredState s)).rbu := by
  rw [regulationPeriod_eq_rows, writePeriodRows_keeps State.rbu rewrite_rbu, retarderEvent_rbu]

theorem cutting_regulationPeriod (s : State) :
    cutting (regulationPeriod s) = cutting (actOnPeriod (figuredState s)) := by
  unfold cutting
  rw [regulationPeriod_channels, actedState, retarderEvent_channels]

/-- The previous effective speed a period leaves is the speed of its read (R32). -/
theorem periodRegulator_previous (s : State) (w : Fin 6) :
    (periodRegulator s).wheels[w].previous = (readSpeeds s)[w] :=
  congrArg WheelFigures.previous (six_get _ w)

/-! ### The period's memory -/

section

variable {s : State} (hm : s.mem.wf = true)

include hm

theorem figuredState_framesOnly : FramesOnly s (actOnPeriod (figuredState s)) := by
  obtain ⟨hwf, hclock, hbelow⟩ := actOnPeriod_framesOnly (s := figuredState s) hm
  exact ⟨hwf, hclock, hbelow⟩

theorem actedState_wf : (actedState s).mem.wf = true := retarderEvent_wf (figuredState_framesOnly hm).wf

theorem actedState_stamp : (actedState s).stamp = s.stamp := by
  simp only [State.stamp, actedState, retarderEvent_clock, (figuredState_framesOnly hm).clock]

theorem regulationPeriod_stored : RowsStored (readSpeeds s) (actedState s) (regulationPeriod s).mem := by
  rw [regulationPeriod_eq_rows]
  exact writePeriodRows_stored _ (actedState_wf hm)

theorem actedState_read {a : Nat} (h0 : a < 0x40 ∨ 0x42 ≤ a) (h1 : a < 0x5E ∨ 0x62 ≤ a) (h2 : a < 0x64 ∨ 0x68 ≤ a) :
    (actedState s).mem.read a = (actOnPeriod (figuredState s)).mem.read a := by
  obtain ⟨-, -, -, hkeep⟩ := retarderEvent_stored actOnPeriod (figuredState_framesOnly hm).wf
  refine hkeep a ?_
  simp only [List.mem_cons, List.not_mem_nil, or_false, forall_eq_or_imp, forall_eq]
  exact ⟨h0, h1, h2⟩

/-- Below the lanes and outside the status block the channels and the retarder store nothing at a period. -/
theorem actedState_read_below {a : Nat} (ha : a < 0xC00) (h0 : a < 0x40 ∨ 0x42 ≤ a) (h1 : a < 0x5E ∨ 0x68 ≤ a) :
    (actedState s).mem.read a = s.mem.read a :=
  (actedState_read hm h0 (by omega) (by omega)).trans
    ((figuredState_framesOnly hm).below a ha h0 (by omega))

theorem actedState_word {a : Nat} (h0 : 0x68 ≤ a) (h1 : a + 1 < 0xC00) :
    (actedState s).mem.word a = s.mem.word a :=
  Memory.word_congr (actedState_read_below hm (by omega) (by omega) (by omega))
    (actedState_read_below hm (by omega) (by omega) (by omega))

/-- The retarder's bytes after a period (R154). -/
theorem regulationPeriod_showsRetarder :
    ShowsRetarder s.rbu (regulationPeriod s).rbu s.mem (regulationPeriod s).mem := by
  obtain ⟨hchanged, hsame, -, -⟩ := retarderEvent_stored actOnPeriod (figuredState_framesOnly hm).wf
  have hrows (a : Nat) (h : 0x5E ≤ a) (h' : a < 0x62) : (regulationPeriod s).mem.read a = (actedState s).mem.read a :=
    (regulationPeriod_stored hm).elsewhere a (by unfold OutsideRows; omega)
  rw [regulationPeriod_rbu]
  refine ⟨fun hne => (hchanged hne).of_read_eq fun a hlo hhi => hrows a hlo ?_, fun heq a hlo hhi => ?_⟩
  · have hlen : (retarderBytes (actOnPeriod (figuredState s)).rbu).length = 4 := rfl
    omega
  · have hmem : (actedState s).mem = (actOnPeriod (figuredState s)).mem := hsame heq
    rw [hrows a hlo hhi, hmem]
    exact (figuredState_framesOnly hm).below a (by omega) (by omega) (by omega)

/-- The bytes a period leaves below the lanes (R170). -/
theorem regulationPeriod_elsewhere {a : Nat} (ha : a < 0xC00)
    (hout : ∀ x ∈ [(0x40, 2), (0x43, 4), (0x48, 12), (0x5E, 10), (0x100, 0xC0), (0x200, 0xC0)],
      a < x.1 ∨ x.1 + x.2 ≤ a) : (regulationPeriod s).mem.read a = s.mem.read a := by
  simp only [List.mem_cons, List.not_mem_nil, or_false, forall_eq_or_imp, forall_eq] at hout
  rw [(regulationPeriod_stored hm).elsewhere a (by unfold OutsideRows; omega)]
  exact actedState_read_below hm ha (by omega) (by omega)

/-- The status block's edition after a period: the frames' changes, the Regulator's rewrite and the retarder's. -/
theorem regulationPeriod_edition :
    (regulationPeriod s).mem.word 0x40 =
      (actOnPeriod (figuredState s)).mem.word 0x40 + 2 + retarderRise s.rbu (regulationPeriod s).rbu := by
  obtain ⟨-, -, hedition, -⟩ := retarderEvent_stored actOnPeriod (figuredState_framesOnly hm).wf
  have hacted : (actedState s).mem.word 0x40 =
      (actOnPeriod (figuredState s)).mem.word 0x40 + retarderRise s.rbu (regulationPeriod s).rbu := by
    rw [regulationPeriod_rbu]; exact hedition
  rw [(regulationPeriod_stored hm).edition, hacted, BitVec.add_assoc, BitVec.add_assoc, BitVec.add_comm 2]

/-- A wheel's live row after a period (R23). -/
theorem regulationPeriod_wheelRow (w : Fin 6) :
    HoldsAt (regulationPeriod s).mem (0x100 + 32 * w) (le16 (s.mem.word (0x100 + 32 * w) + 2) ++
      wheelRowBytes s.wheels[w] ((regulationPeriod s).reg.wheels[w].previous.getD 0) (regulationPeriod s).reg.wheels[w]) := by
  have hw := (regulationPeriod_stored hm).wheels w
  have hlt := w.isLt
  rwa [actedState_word hm (by omega) (by omega), periodWheelBytes, actedState_wheels, actedState_reg,
    ← periodRegulator_previous, ← regulationPeriod_reg] at hw

/-- A channel's live row after a period (R75). -/
theorem regulationPeriod_channelRow (c : Fin 6) :
    HoldsAt (regulationPeriod s).mem (0x200 + 32 * c) (le16 (s.mem.word (0x200 + 32 * c) + 2) ++
      channelRowBytes (regulationPeriod s).channels[c] (regulationPeriod s).reg.channels[c]) := by
  have hc := (regulationPeriod_stored hm).channels c
  have hlt := c.isLt
  rwa [actedState_word hm (by omega) (by omega), periodChannelBytes, ← regulationPeriod_channels, actedState_reg,
    ← regulationPeriod_reg] at hc

theorem regulationPeriod_showsRegulator : ShowsRegulator (regulationPeriod s).reg (regulationPeriod s).mem := by
  have h := (regulationPeriod_stored hm).regulator
  rwa [actedState_reg, ← regulationPeriod_reg] at h

theorem regulationPeriod_stamp : HoldsAt (regulationPeriod s).mem 0x64 (le32 s.stamp) := by
  have h := (regulationPeriod_stored hm).stamp
  rwa [actedState_stamp hm] at h

/-- The status block's owed count and the lanes hold what the frames handed over left there. -/
theorem regulationPeriod_read_frames {a : Nat} (ha : a = 0x62 ∨ a = 0x63 ∨ 0xC00 ≤ a) :
    (regulationPeriod s).mem.read a = (actOnPeriod (figuredState s)).mem.read a := by
  rw [(regulationPeriod_stored hm).elsewhere a (by unfold OutsideRows; omega)]
  exact actedState_read hm (by omega) (by omega) (by omega)

end

/-- The frames a period hands over: the channels' in index order, then RETARDER_CUT. -/
theorem regulationPeriod_handed (hs : ChannelsSound s) :
    Alike (actOnPeriod (figuredState s))
      (if cutting (regulationPeriod s) = true ∧ s.rbu.cut = false ∧ s.rbu.holdOff = none then
        raiseEvent .retarderCut 0 s.rbu.output s.rbu.leverStage
          (overChannels (periodFrames (regulationPeriod s).reg s) s)
      else overChannels (periodFrames (regulationPeriod s).reg s) s) := by
  rw [cutting_regulationPeriod, regulationPeriod_reg]
  exact actOnPeriod_alike (forEach_checkChannel_alike hs ⟨rfl, rfl, rfl⟩ rfl)

/-- Settles O17. -/
theorem periodRows : Obligations.PeriodRows := by
  intro s hheld hm hdue
  have hwheel := regulationPeriod_wheelRow hm
  have hchannel := regulationPeriod_channelRow hm
  have hregulator := regulationPeriod_showsRegulator hm
  have hretarder := regulationPeriod_showsRetarder hm
  have hstamp := regulationPeriod_stamp hm
  have helsewhere := @regulationPeriod_elsewhere s hm
  have hframes := @regulationPeriod_read_frames s hm
  have hedition := regulationPeriod_edition hm
  have hlanes := regulationPeriod_lnc s
  have hhanded := @regulationPeriod_handed s
  refine ⟨regulationPeriod s, exec_regulationPeriod hheld hdue, ?_⟩
  generalize regulationPeriod s = t at *
  refine ⟨fun w => ?_, fun c => ?_, hregulator, hretarder, hstamp, fun a ha hout => helsewhere ha hout, fun hs => ?_⟩
  · simpa only [wheelRowBytes, List.append_assoc] using hwheel w
  · simpa only [channelRowBytes, flagShare, List.append_assoc] using hchannel c
  · intro channels handed
    have hhanded : Alike (actOnPeriod (figuredState s)) handed := hhanded hs
    refine ⟨hlanes.trans hhanded.lnc, fun a ha => ?_, ?_⟩
    · rw [hframes ha, hhanded.mem]
    · rw [hedition, hhanded.mem]

end Sys2Proof.Machine
end

