-- ==== Sys2Proof/Proofs/Sensing.lean ====
section
/-! SUPPORT. Properties that the sensing blocks take no part in: the wheels, the pressure inputs, the drums and the supply
figures other than the class. Every request and every event of those blocks keeps such a property. -/

namespace Sys2Proof

/-- Whether a command may act on the Regulator, the channels, the retarder or the supply class. -/
def Instr.ofBraking : Instr → Bool
  | .regulationPeriod | .holdLimitExpiry _ | .ventLimitExpiry _ | .outputProved _ _ | .outputOpen _ _ | .outputShort _ _
  | .applyExpiry _ | .holdIntervalExpiry _ | .onExpiry _ | .offExpiry _ | .sampleCompletion _ | .leverInputChange _ _
  | .leverSettleExpiry | .holdOffExpiry | .rampExpiry | .arm _ | .disarm _ | .setReference _ _ _ _ _ _ _
  | .installChannel _ _ | .clearChannel _ _ | .valveTest _ _ _ _ _ _ _ | .stopTest _ _ | .setBlend _ _ _ _ _ _ => true
  | _ => false

end Sys2Proof

namespace Sys2Proof.Machine

/-! ### Operations that change the lanes and the memory alone -/

theorem raiseEpisode_eq (body : List Byte) (s : State) :
    raiseEpisode body s = { s with lnc := (raiseEpisode body s).lnc, mem := (raiseEpisode body s).mem } := by
  apply State.eq_with_lanes <;> simp

theorem respond_eq (kind tag : Byte) (status : Status) (result : List Byte) (s : State) :
    respond kind tag status result s =
      { s with lnc := (respond kind tag status result s).lnc, mem := (respond kind tag status result s).mem } := by
  apply State.eq_with_lanes <;> simp

/-! ### Sensing-free properties -/

/-- A property in which the lanes, the memory, the wheels, the pressure inputs and the drums take no part, and of the Supply
Monitor at most the class. -/
structure SensingFree (P : State → Prop) : Prop where
  lanes : ∀ s l m, P s → P { s with lnc := l, mem := m }
  wheels : ∀ s x, P s → P { s with wheels := x }
  inputs : ∀ s x, P s → P { s with pcu := x }
  drums : ∀ s x, P s → P { s with dtu := x }
  supply : ∀ s x, x.cls = s.smn.cls → P s → P { s with smn := x }

namespace SensingFree

variable {P : State → Prop}

theorem raiseEvent (h : SensingFree P) (kind : EventKind) (subject : Byte) (v1 v2 : Int) {s : State} (hs : P s) :
    P (raiseEvent kind subject v1 v2 s) := by
  rw [raiseEvent_eq]; exact h.lanes _ _ _ hs

theorem raiseEpisode (h : SensingFree P) (body : List Byte) {s : State} (hs : P s) : P (raiseEpisode body s) := by
  rw [raiseEpisode_eq]; exact h.lanes _ _ _ hs

theorem respond (h : SensingFree P) (kind tag : Byte) (status : Status) (result : List Byte) {s : State} (hs : P s) :
    P (respond kind tag status result s) := by
  rw [respond_eq]; exact h.lanes _ _ _ hs

theorem rewrite (h : SensingFree P) (base : Nat) (fields : List (Nat × List Byte)) {s : State} (hs : P s) :
    P (rewrite base fields s) := by
  rw [rewrite_eq]; exact h.lanes _ _ _ hs

theorem retarderEvent (h : SensingFree P) {f : State → State} {s : State} (hs : P (f s)) : P (retarderEvent f s) := by
  simp only [Machine.retarderEvent]
  split_ifs
  · exact hs
  · exact h.rewrite _ _ hs

/-- What a pass over a list keeps where each of its steps does. -/
theorem foldl {α : Type} {f : State → α → State} (hf : ∀ u a, P u → P (f u a)) (l : List α) {s : State} (hs : P s) :
    P (l.foldl f s) := by
  induction l generalizing s with
  | nil => exact hs
  | cons a l ih => exact ih (hf s a hs)

/-! ### The drums -/

theorem rewriteDrums (h : SensingFree P) {s : State} (hs : P s) : P (rewriteDrums s) :=
  forEach_induction (fun _ _ hu => h.rewrite _ _ hu) hs

theorem startIfAllowed (h : SensingFree P) {s : State} (hs : P s) : P (startIfAllowed s) := by
  unfold Machine.startIfAllowed
  split
  · split_ifs
    · exact hs
    · exact h.rewrite _ _ (h.drums _ _ hs)
  · exact hs
  · exact hs

theorem answerTags (h : SensingFree P) (status : Status) (result tags : List Byte) {s : State} (hs : P s) :
    P (answerTags status result tags s) :=
  foldl (fun _ _ hu => h.respond _ _ _ _ hu) tags hs

theorem sensorEvent (h : SensingFree P) (d : Fin 6) (old new : DrumResult) (n : Nat) {s : State} (hs : P s) :
    P (sensorEvent d old new n s) := by
  unfold Machine.sensorEvent
  split_ifs
  · exact h.raiseEvent _ _ _ _ hs
  · exact hs

theorem hotEvent (h : SensingFree P) (d : Fin 6) (old new : Bool) (t : Option Int) (hot : Int) {s : State} (hs : P s) :
    P (hotEvent d old new t hot s) := by
  unfold Machine.hotEvent
  split_ifs
  · exact h.raiseEvent _ _ _ _ hs
  · exact h.raiseEvent _ _ _ _ hs
  · exact hs

theorem completeMeasurement (h : SensingFree P) (m : Measurement) (result : DrumResult) (resistance : Nat)
    (t : Option Int) (n : Nat) {s : State} (hs : P s) : P (completeMeasurement m result resistance t n s) :=
  h.startIfAllowed (h.rewrite _ _ (h.drums _ _ (h.answerTags _ _ _
    (h.hotEvent _ _ _ _ _ (h.sensorEvent _ _ _ _ (h.drums _ _ (h.drums _ _ hs)))))))

theorem endShort (h : SensingFree P) (m : Measurement) {s : State} (hs : P s) : P (endShort m s) :=
  h.completeMeasurement _ _ _ _ _ (h.drums _ _ hs)

theorem endSensor (h : SensingFree P) (m : Measurement) {s : State} (hs : P s) : P (endSensor m s) := by
  simp only [Machine.endSensor]
  split_ifs
  · exact h.endShort m hs
  · exact h.completeMeasurement _ _ _ _ _ hs
  · exact h.completeMeasurement _ _ _ _ _ hs

theorem overflowReference (h : SensingFree P) (m : Measurement) {s : State} (hs : P s) : P (overflowReference m s) := by
  unfold Machine.overflowReference
  split_ifs
  · exact h.completeMeasurement _ _ _ _ _ hs
  · exact hs
  · exact h.drums _ _ hs

theorem drumEvent (h : SensingFree P) {f : State → State} {s : State} (hs : P (f s)) : P (drumEvent f s) := by
  simp only [Machine.drumEvent]
  split_ifs
  · exact hs
  · exact h.rewriteDrums hs

theorem offerScan (h : SensingFree P) {s : State} (hs : P s) : P (offerScan s) := by
  unfold Machine.offerScan
  split
  · exact hs
  · dsimp only
    split_ifs
    · exact h.drums _ _ hs
    · exact h.startIfAllowed (h.drums _ _ (h.drums _ _ hs))

theorem abandonInFlight (h : SensingFree P) {s : State} (hs : P s) : P (abandonInFlight s) := by
  unfold Machine.abandonInFlight
  split
  · exact hs
  · exact h.answerTags _ _ _ (h.drums _ _ hs)

theorem removeEntries (h : SensingFree P) {s : State} (hs : P s) : P (removeEntries s) :=
  foldl (fun _ _ hu => h.answerTags _ _ _ hu) _ (h.drums _ _ hs)

theorem reconfigure (h : SensingFree P) (new : DrumConfig) {s : State} (hs : P s) : P (reconfigure new s) :=
  h.drums _ _ (h.removeEntries (h.drums _ _ (h.abandonInFlight hs)))

theorem carrySetDrumConfig (h : SensingFree P) (tag : Byte) (fields : Option DrumConfig) {s : State} (hs : P s) :
    P (carrySetDrumConfig tag fields s) := by
  unfold Machine.carrySetDrumConfig
  split
  · exact h.respond _ _ _ _ hs
  · exact h.drumEvent (h.startIfAllowed (h.respond _ _ _ _ (h.reconfigure _ hs)))

theorem measureQueued (h : SensingFree P) (tag : Byte) (d : Fin 6) {s : State} (hs : P s) : P (measureQueued tag d s) := by
  unfold Machine.measureQueued
  split
  · split_ifs
    · exact h.drums _ _ hs
    · exact h.respond _ _ _ _ hs
  · exact h.drumEvent (h.startIfAllowed (h.drums _ _ hs))

theorem carryMeasureDrum (h : SensingFree P) (tag drum : Byte) {s : State} (hs : P s) : P (carryMeasureDrum tag drum s) := by
  unfold Machine.carryMeasureDrum measureEnabled
  split
  · exact h.respond _ _ _ _ hs
  · split_ifs
    · split
      · exact h.measureQueued _ _ hs
      · split_ifs
        · exact h.drums _ _ hs
        · exact h.respond _ _ _ _ hs
        · exact h.measureQueued _ _ hs
    · exact h.respond _ _ _ _ hs

/-! ### The pressure inputs -/

theorem grant (h : SensingFree P) {s : State} (hs : P s) : P (grant s) := by
  simp only [Machine.grant]
  split
  · exact hs
  · split_ifs
    · exact h.inputs _ _ hs
    · exact h.inputs _ _ hs
    · exact hs

theorem inputEvent (h : SensingFree P) (i : Fin 4) (old new : Input) (r : Option PassResult) {s : State} (hs : P s) :
    P (inputEvent i old new r s) := by
  unfold Machine.inputEvent
  split
  · exact hs
  · split_ifs
    · exact h.raiseEvent _ _ _ _ hs
    · exact h.raiseEvent _ _ _ _ hs
    · exact hs

theorem demandEvent (h : SensingFree P) (old new : Option Nat) {s : State} (hs : P s) : P (demandEvent old new s) := by
  unfold Machine.demandEvent
  split
  · exact h.raiseEvent _ _ _ _ hs
  · exact h.raiseEvent _ _ _ _ hs
  · exact hs
  · exact hs

theorem markEvent (h : SensingFree P) (old new : Bool) (reservoir : Option Nat) (threshold : Nat) {s : State} (hs : P s) :
    P (markEvent old new reservoir threshold s) := by
  unfold Machine.markEvent
  split_ifs
  · exact h.raiseEvent _ _ _ _ hs
  · exact h.raiseEvent _ _ _ _ hs
  · exact hs

theorem rewriteInputs (h : SensingFree P) (results : Vector (Option PassResult) 4) {s : State} (hs : P s) :
    P (inputIndices.foldl (fun s i => rewriteInput results i s) s) :=
  foldl (fun _ _ hu => h.rewrite _ _ hu) _ hs

theorem completePass (h : SensingFree P) (codes : List (BitVec 12)) {s : State} (hs : P s) : P (completePass codes s) := by
  unfold Machine.completePass
  extract_lets old results inputs demand reservoir threshold mark new u events blind marked rows
  have hevents : P events := foldl (fun _ _ hu => h.inputEvent _ _ _ _ hu) _ (h.inputs s new hs)
  have hrows : P rows := h.rewriteInputs _ (h.markEvent _ _ _ _ (h.demandEvent _ _ hevents))
  split_ifs
  · exact hrows
  · exact h.rewrite _ _ hrows

theorem recordCode (h : SensingFree P) (code : BitVec 12) (codes : List (BitVec 12)) {s : State} (hs : P s) :
    P (recordCode code codes s) := by
  simp only [Machine.recordCode]
  split_ifs
  · exact h.inputs _ _ hs
  · exact h.completePass _ hs

/-! ### The wheels -/

theorem setWheel (h : SensingFree P) (w : Fin 6) (x : Wheel) {s : State} (hs : P s) : P (s.setWheel w x) :=
  h.wheels _ _ hs

theorem edgeRolling (h : SensingFree P) (w : Fin 6) (r : WheelRecord) (x : Wheel) {s : State} (hs : P s) :
    P (edgeRolling w r x s) := by
  simp only [Machine.edgeRolling, capture]
  split_ifs
  · exact h.setWheel _ _ hs
  · split
    · exact h.setWheel _ _ hs
    · split_ifs
      · exact h.setWheel _ _ hs
      · exact h.setWheel _ _ hs
      · exact h.raiseEvent _ _ _ _ (h.setWheel _ _ hs)

theorem toothEdge (h : SensingFree P) (w : Fin 6) {s : State} (hs : P s) : P (toothEdge w s) := by
  simp only [Machine.toothEdge]
  split
  · exact h.setWheel _ _ hs
  · split_ifs
    · exact hs
    · exact h.setWheel _ _ hs
  · split_ifs
    · exact hs
    · exact h.edgeRolling _ _ _ hs
  · exact hs

/-! ### Requests and events of the sensing blocks -/

/-- A request of the sensing blocks keeps the property. -/
theorem carryRequest (h : SensingFree P) {i : Instr} (hi : i.ofBraking = false) {s : State} (hs : P s) :
    P (carryRequest i s) := by
  cases i <;> first | exact hs | exact absurd hi.symm Bool.false_ne_true | skip
  case identify => exact h.respond _ _ _ _ hs
  case unknownKind => exact h.respond _ _ _ _ hs
  case installWheel =>
    simp only [Machine.carryRequest, carryInstallWheel]
    split
    · exact h.respond _ _ _ _ hs
    · split_ifs
      · exact h.respond _ _ _ _ hs
      · exact h.respond _ _ _ _ (h.setWheel _ _ hs)
  case removeWheel =>
    simp only [Machine.carryRequest, carryRemoveWheel]
    split
    · exact h.respond _ _ _ _ hs
    · split_ifs
      · exact h.respond _ _ _ _ hs
      · exact h.respond _ _ _ _ (h.setWheel _ _ hs)
  case clearWheel =>
    simp only [Machine.carryRequest, carryClearWheel]
    split
    · exact h.respond _ _ _ _ hs
    · split_ifs
      · exact h.respond _ _ _ _ (h.setWheel _ _ hs)
      · exact h.respond _ _ _ _ hs
  case setScan =>
    simp only [Machine.carryRequest, carrySetScan]
    split
    · exact h.respond _ _ _ _ hs
    · exact h.respond _ _ _ _ (h.inputs _ _ hs)
  case setCalibration =>
    simp only [Machine.carryRequest, carrySetCalibration]
    split
    · exact h.respond _ _ _ _ hs
    · split
      · exact h.respond _ _ _ _ hs
      · exact h.respond _ _ _ _ (h.inputs _ _ hs)
  case setDrumConfig => exact h.carrySetDrumConfig _ _ hs
  case setCurve =>
    simp only [Machine.carryRequest, carrySetCurve]
    split
    · exact h.respond _ _ _ _ hs
    · exact h.respond _ _ _ _ (h.drums _ _ hs)
  case measureDrum => exact h.carryMeasureDrum _ _ hs
  case setSupplyCriteria =>
    simp only [Machine.carryRequest, carrySetSupplyCriteria]
    split
    · exact h.respond _ _ _ _ hs
    · exact h.respond _ _ _ _ (h.supply s { s.smn with pendingCriteria := _ } rfl hs)

/-- An event of the sensing blocks keeps the property. -/
theorem event (h : SensingFree P) {i : Instr} (hr : i.isRequest = false) (hb : i.isBusCommand = false)
    (hi : i.ofBraking = false) {s t : State} (hs : P s) (ht : exec i s = .next t) : P t := by
  cases i <;> first | exact absurd hb.symm Bool.false_ne_true | exact absurd hi.symm Bool.false_ne_true |
    exact absurd hr.symm Bool.false_ne_true | skip
  all_goals
    simp only [exec, execToothEdge, execStandstillExpiry, execScanTimerExpiry, execEntryConversionCompletion,
      execSampleTimerExpiry, execReferenceOverflow, execReferenceTimeout, execSensorPhaseEnd, execSensorOverflow,
      execDrumScanExpiry, execAgeRefresh] at ht
    refine BlockInvariant.whenRunning (fun hs => ?_) hs ht
  case toothEdge => exact h.toothEdge _ hs
  case standstillExpiry =>
    split_ifs
    · exact h.setWheel _ _ hs
    · exact hs
  case scanTimerExpiry =>
    split_ifs
    · unfold grantScan
      split_ifs
      · exact h.inputs _ _ hs
      · exact h.grant (h.inputs _ _ hs)
    · exact hs
  case entryConversionCompletion =>
    split_ifs
    · split
      · exact h.grant (h.inputs _ _ hs)
      · exact h.grant (h.recordCode _ _ (h.inputs _ _ hs))
    · exact hs
  case sampleTimerExpiry =>
    split_ifs
    · have hdue : P { s with smn := { s.smn with
          sampleDue := s.smn.sampleDue + Config.samplePeriodMs * Config.ticksPerMs } } := h.supply s _ rfl hs
      exact h.grant (h.inputs _ _ hdue)
    · exact hs
  case referenceOverflow =>
    split
    · exact hs
    · split_ifs
      · exact h.overflowReference _ hs
      · exact hs
  case referenceTimeout =>
    split
    · exact hs
    · split_ifs
      · exact h.completeMeasurement _ _ _ _ _ hs
      · exact hs
  case sensorPhaseEnd =>
    split
    · exact hs
    · split_ifs
      · exact h.endSensor _ (h.drums _ _ hs)
      · exact hs
  case sensorOverflow =>
    split
    · exact hs
    · split_ifs
      · exact h.endShort _ hs
      · exact hs
  case drumScanExpiry =>
    split
    · exact hs
    · split_ifs
      · exact h.drumEvent (h.offerScan (h.drums _ _ hs))
      · exact hs
  case ageRefresh =>
    split_ifs
    · exact h.rewriteDrums (h.drums _ _ hs)
    · exact hs

/-- A property that the sensing blocks take no part in is a block invariant where the other blocks' requests and events keep
it. -/
theorem blockInvariant (h : SensingFree P) (pending : ∀ s q, P s → P { s with pending := q })
    (unheld : ∀ s, P s → P { s with held := none }) (tick : ∀ s, P s → P (tick s))
    (reset : ∀ cause s, P (enterReset cause s))
    (request : ∀ i s, i.ofBraking = true → P s → P (Machine.carryRequest i s))
    (event : ∀ i s t, i.isRequest = false → i.ofBraking = true → P s → exec i s = .next t → P t) :
    BlockInvariant P where
  lanes := h.lanes
  pending := pending
  unheld := unheld
  tick := tick
  reset := reset
  request i s hs := by
    cases hi : i.ofBraking
    case false => exact h.carryRequest hi hs
    case true => exact request i s hi hs
  event i s t hr hb hs ht := by
    cases hi : i.ofBraking
    case false => exact h.event hr hb hi hs ht
    case true => exact event i s t hr hi hs ht

end SensingFree

end Sys2Proof.Machine
end

