-- ==== Sys2Proof/Proofs/ChannelUpdates.lean ====
section
/-! SUPPORT. What each operation of a channel leaves of the six channels: one update of that channel (R48, R51, R65, R73,
R87). -/

namespace Sys2Proof.Machine

/-! ### Updates of one channel -/

/-- A channel that starts afresh in a state: a staged profile is in force, and nothing else is left of it (R48, R51, R65). -/
def Channel.afresh (x : Channel) (state : ChannelState) : Channel :=
  { profile := if x.staged.isSome then x.staged else x.profile, state := state }

/-- A channel whose staged profile is applied (R51). -/
def Channel.applied (x : Channel) : Channel :=
  { x with profile := if x.staged.isSome then x.staged else x.profile, staged := none }

theorem Channel.applied_of_none {x : Channel} (h : x.staged = none) : x.applied = x := by
  cases x; simp_all [Channel.applied]

section

variable {c : Fin 6} {u : State}

/-- The channels after an update of one of them. -/
theorem channel_of_set {t : State} {y : Channel} (h : t.channels = u.channels.set c y) : t.channels[c] = y := by
  simp [h]

theorem channel_of_set_ne {t : State} {d : Fin 6} {y : Channel} (h : t.channels = u.channels.set c y) (hd : d ≠ c) :
    t.channels[d] = u.channels[d] := by
  have := State.setChannel_get c d y u
  rw [if_neg hd] at this
  simpa [h] using this

theorem set_channel_self : u.channels.set c u.channels[c] = u.channels := by
  simp

theorem setChannel_self_eq : u.setChannel c u.channels[c] = u := by
  rw [State.setChannel, set_channel_self]

@[simp] theorem setChannel_setChannel (x y : Channel) : (u.setChannel c x).setChannel c y = u.setChannel c y := by
  simp [State.setChannel]

theorem applyStaged_of_none (h : u.channels[c].staged = none) : applyStaged c u = u := by
  simp only [applyStaged, h]

theorem applyStaged_of_some {p : Profile} (h : u.channels[c].staged = some p) :
    applyStaged c u = raiseEvent .profileApplied (BitVec.ofNat 8 c) u.channels[c].state.code.toNat 0
      (u.setChannel c { u.channels[c] with profile := some p, staged := none }) := by
  simp only [applyStaged, h]

theorem applyStaged_channels (c : Fin 6) (u : State) :
    (applyStaged c u).channels = u.channels.set c u.channels[c].applied := by
  cases h : u.channels[c].staged with
  | none => rw [applyStaged_of_none h, Channel.applied_of_none h, set_channel_self]
  | some p =>
    rw [applyStaged_of_some h, raiseEvent_channels]
    simp only [State.setChannel_channels, Channel.applied, h, Option.isSome_some, if_true]

theorem entered_rest {new : ChannelState} (h : new = .idle ∨ new = .pass) (s : State) (x : Channel) :
    (entered new s x).applied = { x.afresh new with episode := (x.endVentPhase s).episode } := by
  obtain ⟨_, _, _, _, _, _, ventEntry, _, _, _, _⟩ := x
  rcases h with rfl | rfl <;> cases ventEntry <;> rfl

/-- An entry to IDLE or PASS: of the channel its profile and its episode are left (R48, R51). -/
theorem enter_rest_channels {new : ChannelState} (h : new = .idle ∨ new = .pass) (c : Fin 6) (u : State) :
    (enter c new u).channels =
      u.channels.set c { u.channels[c].afresh new with episode := (u.channels[c].endVentPhase u).episode } := by
  have happly : enter c new u = applyStaged c (u.setChannel c (entered new u u.channels[c])) := by
    rcases h with rfl | rfl <;> rfl
  rw [happly, applyStaged_channels, State.setChannel_self, entered_rest h]
  simp

/-- An entry to HOLD, VENT, REAPPLY or TEST is the update of the channel alone. -/
theorem enter_eq_setChannel {new : ChannelState} (h : new.regulating = true ∨ new = .test) (c : Fin 6) (u : State) :
    enter c new u = u.setChannel c (entered new u u.channels[c]) := by
  cases new <;> first | rfl | exact absurd h (by decide)

/-- The episode of a channel whose vent phase is ended is open where the channel's was. -/
theorem endVentPhase_episode_none {x : Channel} (s : State) :
    (x.endVentPhase s).episode = none ↔ x.episode = none := by
  obtain ⟨_, _, _, _, _, _, ventEntry, _, _, _, _⟩ := x
  cases ventEntry <;> simp [Channel.endVentPhase, Channel.updateEpisode]

theorem endVentPhase_profile (s : State) (x : Channel) : (x.endVentPhase s).profile = x.profile := by
  unfold Channel.endVentPhase; split <;> rfl

/-- A close of the episode: nothing where none is open, else the end of a vent phase and of the episode (R73). -/
theorem closeEpisode_channels (c : Fin 6) (reason : CloseReason) (u : State) :
    (closeEpisode c reason u).channels = u.channels.set c
      (if u.channels[c].episode = none then u.channels[c]
        else { u.channels[c].endVentPhase u with episode := none }) := by
  split_ifs with h
  · rw [closeEpisode_of_none reason ((endVentPhase_episode_none u).2 h), set_channel_self]
  · obtain ⟨ep, hep⟩ := Option.ne_none_iff_exists'.1 (mt (endVentPhase_episode_none u).1 h)
    rw [closeEpisode_of_some reason hep, raiseEpisode_channels, State.setChannel_channels]

theorem closeEpisode_episode (c : Fin 6) (reason : CloseReason) (u : State) :
    (closeEpisode c reason u).channels[c].episode = none := by
  simp only [closeEpisode_channels, Fin.getElem_fin, Vector.getElem_set_self]
  split_ifs with h
  · exact h
  · rfl

theorem closeEpisode_profile (c : Fin 6) (reason : CloseReason) (u : State) :
    (closeEpisode c reason u).channels[c].profile = u.channels[c].profile := by
  rcases closeEpisode_self c reason u with e | e <;> rw [e]
  exact endVentPhase_profile _ _

theorem closeEpisode_afresh (c : Fin 6) (reason : CloseReason) (u : State) (new : ChannelState) :
    (closeEpisode c reason u).channels[c].afresh new = u.channels[c].afresh new := by
  simp only [Channel.afresh, closeEpisode_staged, closeEpisode_profile]

/-- An entry to IDLE or PASS whose episode is closed leaves the profile alone (R53, R55, R67). -/
theorem closed_enter_channels {new : ChannelState} (h : new = .idle ∨ new = .pass) (c : Fin 6) (reason : CloseReason)
    (u : State) :
    (enter c new (closeEpisode c reason u)).channels = u.channels.set c (u.channels[c].afresh new) := by
  rw [enter_rest_channels h, (endVentPhase_episode_none _).2 (closeEpisode_episode c reason u), closeEpisode_afresh,
    closeEpisode_channels]
  simp [Channel.afresh]

theorem abortFault_channels (c : Fin 6) (cause : LockoutCause) (sol : Solenoid) (a : Activity) (u : State) :
    (abortFault c cause sol a u).channels = u.channels := by
  unfold abortFault; split <;> simp

/-- A lockout leaves of the channel its profile, with the cause (R65). -/
theorem lockOut_channels (c : Fin 6) (cause : LockoutCause) (sol : Solenoid) (u : State) :
    (lockOut c cause sol u).channels = u.channels.set c { u.channels[c].afresh .lockout with cause := some cause } := by
  let y : Channel := { entered .lockout u u.channels[c] with cause := some cause }
  have hy : (abortFault c cause sol u.channels[c].activity (u.setChannel c y)).channels = u.channels.set c y := by
    rw [abortFault_channels]; rfl
  have hself : (u.channels.set c y)[c] = y := Vector.getElem_set_self _
  have hclosed : (if y.episode = none then y else { y.endVentPhase
      (abortFault c cause sol u.channels[c].activity (u.setChannel c y)) with episode := none }) =
      { y with episode := none } := by
    rw [endVentPhase_of_none (x := y) (endVentPhase_ventEntry u u.channels[c])]
    split_ifs with h
    · rw [← h]
    · rfl
  simp only [lockOut]
  rw [applyStaged_channels, raiseEvent_channels, closeEpisode_channels, hy, hself, hclosed]
  simp only [Fin.getElem_fin, Vector.getElem_set_self, Vector.set_set]
  congr 1
  simp only [Channel.applied, y, entered, Channel.left, endVentPhase_staged, endVentPhase_profile,
    endVentPhase_ventEntry, Channel.afresh]
  rfl

/-- A test's end sends the channel on as an entry does; its response changes no channel (R87). -/
theorem endTest_channels (c : Fin 6) (status : Status) (u : State) :
    (endTest c status u).channels = (enter c (afterTest u) u).channels := by
  simp only [endTest]
  split <;> simp

theorem afterTest_rest (u : State) : afterTest u = .idle ∨ afterTest u = .pass := by
  unfold afterTest; split_ifs <;> simp

end

/-! ### Each of the six in turn -/

/-- Where an operation on each channel in turn changes no other channel, each channel ends as its own operation leaves it,
in a state that everything the operations keep holds of. -/
theorem forEach_channel {f : Fin 6 → State → State} {R : State → Prop} (hR : ∀ i u, R u → R (f i u))
    (hother : ∀ i d u, d ≠ i → (f i u).channels[d] = u.channels[d]) {s : State} (hs : R s) (c : Fin 6) :
    ∃ u, R u ∧ u.channels[c] = s.channels[c] ∧ (forEach f s).channels[c] = (f c u).channels[c] := by
  have hkeep : ∀ (l : List (Fin 6)) (u : State), c ∉ l → (l.foldl (fun s i => f i s) u).channels[c] = u.channels[c] := by
    intro l
    induction l with
    | nil => exact fun _ _ => rfl
    | cons i l ih =>
      intro u hc
      obtain ⟨hi, hl⟩ := not_or.1 (mt List.mem_cons.2 hc)
      exact (ih _ hl).trans (hother i c u hi)
  have hfold : ∀ (l : List (Fin 6)) (u : State), l.Nodup → c ∈ l → R u →
      ∃ v, R v ∧ v.channels[c] = u.channels[c] ∧ (l.foldl (fun s i => f i s) u).channels[c] = (f c v).channels[c] := by
    intro l
    induction l with
    | nil => exact fun _ _ hc => absurd hc List.not_mem_nil
    | cons i l ih =>
      intro u hl hc hu
      obtain ⟨hi, hl⟩ := List.nodup_cons.1 hl
      by_cases e : c = i
      · subst e
        exact ⟨u, hu, rfl, hkeep l _ hi⟩
      · obtain ⟨v, hv, hx, h⟩ := ih (f i u) hl (List.mem_of_ne_of_mem e hc) (hR i u hu)
        exact ⟨v, hv, hx.trans (hother i c u e), h⟩
  exact hfold indices s indices_nodup (mem_indices c) hs

end Sys2Proof.Machine
end

