-- ==== Sys2Proof/Proofs/PeriodChannels.lean ====
section
/-! SUPPORT. Each channel as a regulation period leaves it (R51 to R59, R65, R71, R72, R89). -/

namespace Sys2Proof.Machine

/-! ### The channel after its checks -/

/-- The state a channel standing as `x` goes to by the figures of a Regulator (R52 to R59). -/
def judgedOf (r : Regulator) (c : Fin 6) (x : Channel) : ChannelState :=
  judgedState r.armed r.vref r.absence r.channels[c] x

/-- A channel in PASS without an episode opens one as it departs (R71). -/
def openedChannel (c : Fin 6) (u : State) (x : Channel) : Channel :=
  if x.state = .pass ∧ x.episode = none then { x with episode := some (openedEpisode c u) } else x

/-- Channel `c`, standing as `x` with its peak slip noted, after its checks at a regulation period: it stays, enters a
regulating state, or starts afresh in the state it goes to. -/
def periodChannel (c : Fin 6) (u : State) (x : Channel) : Channel :=
  let new := judgedOf u.reg c x
  if new = x.state then if x.state = .pass ∧ u.reg.absence.isSome then { x with episode := none } else x
  else if new.regulating then entered new u (openedChannel c u x)
  else { x.afresh new with
    cause := if new = .lockout then some .sensors else none
    episode := if x.state = .idle ∧ new = .pass ∨ x.state = .test then x.episode else none }

section

variable {c : Fin 6} {u : State} {x : Channel} {new : ChannelState}

theorem periodChannel_stay (hj : judgedOf u.reg c x = x.state) (h : x.state ≠ .pass ∨ u.reg.absence = none) :
    periodChannel c u x = x := by
  rw [periodChannel, if_pos hj, if_neg]
  rintro ⟨hpass, ha⟩
  rcases h with h | h
  · exact h hpass
  · rw [h] at ha; exact absurd ha (by decide)

theorem periodChannel_absent (hj : judgedOf u.reg c x = x.state) (hpass : x.state = .pass)
    (ha : u.reg.absence ≠ none) : periodChannel c u x = { x with episode := none } := by
  rw [periodChannel, if_pos hj, if_pos ⟨hpass, Option.isSome_iff_ne_none.2 ha⟩]

theorem periodChannel_move (hj : judgedOf u.reg c x = new) (hne : new ≠ x.state) (hr : new.regulating = true) :
    periodChannel c u x = entered new u (openedChannel c u x) := by
  simp only [periodChannel, hj, if_neg hne, if_pos hr]

theorem periodChannel_leaves (hj : judgedOf u.reg c x = new) (hne : new ≠ x.state) (hr : new.regulating = false) :
    periodChannel c u x =
      { x.afresh new with
        cause := if new = .lockout then some .sensors else none
        episode := if x.state = .idle ∧ new = .pass ∨ x.state = .test then x.episode else none } := by
  simp only [periodChannel, hj, if_neg hne, hr, Bool.false_eq_true, if_false]

theorem periodChannel_locked (hj : judgedOf u.reg c x = .lockout) (hne : x.state ≠ .lockout) (htest : x.state ≠ .test) :
    periodChannel c u x = { x.afresh .lockout with cause := some .sensors } := by
  rw [periodChannel_leaves hj hne.symm rfl, if_pos rfl, if_neg (not_or.2 ⟨fun h => absurd h.2 (by decide), htest⟩)]
  rfl

theorem periodChannel_rest (hj : judgedOf u.reg c x = new) (hnew : new = .idle ∨ new = .pass) (hne : x.state ≠ new) :
    periodChannel c u x =
      { x.afresh new with
        episode := if x.state = .idle ∧ new = .pass ∨ x.state = .test then x.episode else none } := by
  rcases hnew with rfl | rfl <;> rw [periodChannel_leaves hj hne.symm rfl] <;> rfl

/-- The channel goes to the state judged. -/
theorem periodChannel_state (c : Fin 6) (u : State) (x : Channel) :
    (periodChannel c u x).state = judgedOf u.reg c x := by
  simp only [periodChannel]
  split_ifs with hj
  · exact hj.symm
  · exact hj.symm
  · exact entered_state ..
  all_goals rfl

/-- Entering a state reads of the part the clock alone. -/
theorem entered_congr {u v : State} (h : u.clock = v.clock) (new : ChannelState) (x : Channel) :
    entered new u x = entered new v x := by
  have hstamp : u.stamp = v.stamp := by simp only [State.stamp, h]
  have hafter (ms : Nat) : u.stampAfter ms = v.stampAfter ms := by simp only [State.stampAfter, h]
  have henergise (o : Output) : o.energise u = o.energise v := by simp only [Output.energise, State.after, h]
  cases new <;>
    simp only [entered, Channel.left, endVentPhase_congr hstamp, startedTrain, hstamp, hafter, henergise]

/-- A channel's checks read of the part the clock, the Regulator, the reservoir and the hottest drum. -/
theorem periodChannel_congr {u v : State} (hclock : u.clock = v.clock) (hreg : u.reg = v.reg) (hpcu : u.pcu = v.pcu)
    (hdtu : u.dtu = v.dtu) (c : Fin 6) (x : Channel) : periodChannel c u x = periodChannel c v x := by
  simp only [periodChannel, openedChannel, openedEpisode, State.stamp, hclock, hreg, hpcu, hdtu,
    entered_congr hclock]

/-! ### The branches of a channel's checks

Channel `c` of `u` has its peak slip noted. -/

/-- Outside VENT no vent phase is in progress. -/
theorem Channel.Sound.ventEntry_none (hx : x.Sound) (h : x.state ≠ .vent) : x.ventEntry = none := by
  cases he : x.ventEntry
  · rfl
  · exact absurd (hx.ventEntry.1 (by rw [he]; rfl)) h

/-- Outside LOCKOUT a channel has no cause. -/
theorem Channel.Sound.cause_none (hx : x.Sound) (h : x.state ≠ .lockout) : x.cause = none := by
  cases he : x.cause
  · rfl
  · exact absurd (hx.cause.1 (by rw [he]; rfl)) h

/-- A channel that is whole keeps its episode on entering IDLE or PASS from another state than VENT. -/
theorem enter_rest_of_sound (hnew : new = .idle ∨ new = .pass) (hs : u.channels[c].Sound)
    (hx : u.channels[c].state ≠ .vent) :
    (enter c new u).channels[c] = { u.channels[c].afresh new with episode := u.channels[c].episode } := by
  rw [channel_of_set (enter_rest_channels hnew c u), endVentPhase_of_none (hs.ventEntry_none hx)]

theorem periodTest_channel (hs : u.channels[c].Sound) (htest : u.channels[c].state = .test) :
    (if 0 < u.reg.vref then endTest c .abortedMotion u else u).channels[c] = periodChannel c u u.channels[c] := by
  have hj : judgedOf u.reg c u.channels[c] = if 0 < u.reg.vref then afterTest u else .test := judgedState_test htest
  have hnew := afterTest_rest u
  split_ifs with hv
  · rw [if_pos hv] at hj
    have hended := channel_of_set ((endTest_channels c .abortedMotion u).trans (enter_rest_channels hnew c u))
    rw [hended, endVentPhase_of_none (hs.ventEntry_none (by rw [htest]; decide)), periodChannel_rest hj hnew,
      if_pos (.inr htest)]
    rw [htest]
    rcases hnew with e | e <;> rw [e] <;> decide
  · rw [if_neg hv] at hj
    rw [periodChannel_stay (hj.trans htest.symm) (.inl (by rw [htest]; decide))]

/-- IDLE and TEST are none of the active states. -/
theorem ne_of_active {state : ChannelState} (h : state.active = true) : state ≠ .idle ∧ state ≠ .test ∧ state ≠ .lockout := by
  cases state <;> first | exact absurd h (by decide) | decide

theorem periodIdle_channel (hrest : u.channels[c].state = .idle ∨ u.channels[c].state.active = true)
    (hgone : u.reg.armed = false ∨ u.channels[c].enabled = false ∨ u.reg.channels[c].outcome = .unassigned) :
    (takeToIdle c u).channels[c] = periodChannel c u u.channels[c] := by
  rcases hrest with hidle | hactive
  · have hj : judgedOf u.reg c u.channels[c] = .idle := (judgedState_idle hidle).trans (if_pos hgone)
    rw [takeToIdle, if_pos hidle, periodChannel_stay (hj.trans hidle.symm) (.inl (by rw [hidle]; decide))]
  · have hj : judgedOf u.reg c u.channels[c] = .idle := (judgedState_active hactive).trans (if_pos hgone)
    obtain ⟨hidle, htest, -⟩ := ne_of_active hactive
    rw [takeToIdle, if_neg hidle, channel_of_set (closed_enter_channels (.inl rfl) c _ u),
      periodChannel_rest hj (.inl rfl) hidle, if_neg (not_or.2 ⟨fun h => hidle h.1, htest⟩)]
    rfl

theorem periodLockOut_channel (hrest : u.channels[c].state = .idle ∨ u.channels[c].state.active = true)
    (hstays : ¬(u.reg.armed = false ∨ u.channels[c].enabled = false ∨ u.reg.channels[c].outcome = .unassigned))
    (hsensorless : u.reg.channels[c].outcome = .sensorless) :
    (lockOut c .sensors .inlet u).channels[c] = periodChannel c u u.channels[c] := by
  have hj : judgedOf u.reg c u.channels[c] = .lockout := by
    rcases hrest with hidle | hactive
    · exact (judgedState_idle hidle).trans ((if_neg hstays).trans (if_pos hsensorless))
    · exact (judgedState_active hactive).trans ((if_neg hstays).trans (if_pos hsensorless))
  have hstate : u.channels[c].state ≠ .test ∧ u.channels[c].state ≠ .lockout := by
    rcases hrest with hidle | hactive
    · rw [hidle]; decide
    · exact (ne_of_active hactive).2
  rw [periodChannel_locked hj hstate.2 hstate.1]
  exact channel_of_set (lockOut_channels c .sensors .inlet u)

theorem periodPass_channel (hs : u.channels[c].Sound) (hidle : u.channels[c].state = .idle)
    (hstays : ¬(u.reg.armed = false ∨ u.channels[c].enabled = false ∨ u.reg.channels[c].outcome = .unassigned))
    (hsensors : u.reg.channels[c].outcome ≠ .sensorless) :
    (enter c .pass u).channels[c] = periodChannel c u u.channels[c] := by
  have hj : judgedOf u.reg c u.channels[c] = .pass :=
    (judgedState_idle hidle).trans ((if_neg hstays).trans (if_neg hsensors))
  rw [enter_rest_of_sound (.inr rfl) hs (by rw [hidle]; decide), periodChannel_rest hj (.inr rfl) (by rw [hidle]; decide),
    if_pos (.inl ⟨hidle, rfl⟩)]

theorem brakingPresent_stay {p : Profile}
    (h : regulated p u.reg.channels[c].slip u.reg.channels[c].accel u.channels[c].state = u.channels[c].state) :
    brakingPresent c p u = u :=
  if_pos h

/-- A channel that moves under braking enters its state with an episode open (R56 to R59, R71). -/
theorem brakingPresent_move {p : Profile}
    (h : regulated p u.reg.channels[c].slip u.reg.channels[c].accel u.channels[c].state ≠ u.channels[c].state) :
    brakingPresent c p u =
      enter c (regulated p u.reg.channels[c].slip u.reg.channels[c].accel u.channels[c].state)
        (u.setChannel c (openedChannel c u u.channels[c])) := by
  simp only [brakingPresent, if_neg h, openedChannel]
  split_ifs
  · rfl
  · rw [setChannel_self_eq]

section

variable (hactive : u.channels[c].state.active = true)
  (hstays : ¬(u.reg.armed = false ∨ u.channels[c].enabled = false ∨ u.reg.channels[c].outcome = .unassigned))
  (hsensors : u.reg.channels[c].outcome ≠ .sensorless)

include hactive hstays hsensors

theorem periodAbsent_channel (hs : u.channels[c].Sound) {cause : AbsenceCause} (ha : u.reg.absence = some cause) :
    (brakingAbsent c cause u).channels[c] = periodChannel c u u.channels[c] := by
  have hj : judgedOf u.reg c u.channels[c] = .pass :=
    (judgedState_active hactive).trans ((if_neg hstays).trans ((if_neg hsensors).trans (if_pos (by rw [ha]; rfl))))
  by_cases hpass : u.channels[c].state = .pass
  · have hclose : brakingAbsent c cause u = closeEpisode c cause.reason u := if_neg (by rw [hpass]; decide)
    rw [hclose, periodChannel_absent (hj.trans hpass.symm) hpass (by rw [ha]; simp),
      channel_of_set (closeEpisode_channels c _ u), endVentPhase_of_none (hs.ventEntry_none (by rw [hpass]; decide))]
    split_ifs with h
    · rw [← h]
    · rfl
  · obtain ⟨hidle, htest, -⟩ := ne_of_active hactive
    have hregulating : u.channels[c].state.regulating = true := by
      cases hx : u.channels[c].state <;> simp_all [ChannelState.active, ChannelState.regulating]
    have henter : brakingAbsent c cause u = enter c .pass (closeEpisode c cause.reason u) := if_pos hregulating
    rw [henter, channel_of_set (closed_enter_channels (.inr rfl) c _ u), periodChannel_rest hj (.inr rfl) hpass,
      if_neg (not_or.2 ⟨fun h => hidle h.1, htest⟩)]
    rfl

theorem periodPresent_channel (ha : u.reg.absence = none) {p : Profile} (hp : u.channels[c].profile = some p) :
    (brakingPresent c p u).channels[c] = periodChannel c u u.channels[c] := by
  have hj : judgedOf u.reg c u.channels[c] =
      regulated p u.reg.channels[c].slip u.reg.channels[c].accel u.channels[c].state := by
    rw [judgedOf, judgedState_active hactive, if_neg hstays, if_neg hsensors, ha, hp]
    rfl
  by_cases hnew : regulated p u.reg.channels[c].slip u.reg.channels[c].accel u.channels[c].state = u.channels[c].state
  · rw [periodChannel_stay (hj.trans hnew) (.inr ha), brakingPresent_stay hnew]
  · have hregulating := (regulated_eq_or_regulating p _ _ _).resolve_left hnew
    rw [periodChannel_move hj hnew hregulating, brakingPresent_move hnew, enter_eq_setChannel (.inl hregulating),
      State.setChannel_self, State.setChannel_self]
    exact entered_congr rfl ..

theorem periodUninstalled_channel (ha : u.reg.absence = none) (hp : u.channels[c].profile = none) :
    u.channels[c] = periodChannel c u u.channels[c] := by
  have hj : judgedOf u.reg c u.channels[c] = u.channels[c].state := by
    rw [judgedOf, judgedState_active hactive, if_neg hstays, if_neg hsensors, ha, hp]
    rfl
  exact (periodChannel_stay hj (.inr ha)).symm

end

/-- At a regulation period the checks of a channel that is whole leave it as `periodChannel` has it (R52 to R59). -/
theorem checkChannel_channel (hs : u.channels[c].Sound) :
    (checkChannel c u).channels[c] = periodChannel c u (notedChannel u.reg.channels[c] u.channels[c]) := by
  have hnoted : notedChannel u.reg.channels[c] u.channels[c] = (notePeak c u).channels[c] :=
    (State.setChannel_self ..).symm
  have hsound : (notePeak c u).channels[c].Sound := hnoted ▸ notedChannel_sound hs
  rw [hnoted, ← periodChannel_congr (u := notePeak c u) (notePeak_clock c u) (notePeak_reg c u) (notePeak_pcu c u)
    (notePeak_dtu c u)]
  unfold checkChannel
  extract_lets p x f
  change x.Sound at hsound
  change _ = periodChannel c p x
  by_cases htest : x.state = .test
  · rw [if_pos htest]
    exact periodTest_channel hsound htest
  rw [if_neg htest]
  by_cases hlock : x.state = .lockout
  · have hj : judgedOf p.reg c x = .lockout := by simp only [judgedOf, judgedState, hlock]
    rw [if_pos hlock, periodChannel_stay (hj.trans hlock.symm) (.inl (by rw [hlock]; decide))]
  rw [if_neg hlock]
  have hrest : x.state = .idle ∨ x.state.active = true := by
    cases hs : x.state <;> simp_all [ChannelState.active]
  have hgone := check3_iff p.reg.armed x f
  by_cases h3 : (!p.reg.armed || !x.enabled || f.outcome == .unassigned) = true
  · rw [if_pos h3]
    exact periodIdle_channel hrest (hgone.1 h3)
  rw [if_neg h3]
  rw [hgone] at h3
  by_cases hsensors : f.outcome = .sensorless
  · rw [if_pos hsensors]
    exact periodLockOut_channel hrest h3 hsensors
  rw [if_neg hsensors]
  by_cases hidle : x.state = .idle
  · rw [if_pos hidle]
    exact periodPass_channel hsound hidle h3 hsensors
  rw [if_neg hidle]
  have hactive := hrest.resolve_left hidle
  split
  · next ha => exact periodAbsent_channel hactive h3 hsensors hsound ha
  · next ha hp => exact periodPresent_channel hactive h3 hsensors ha hp
  · next ha hp => exact periodUninstalled_channel hactive h3 hsensors ha hp

end

/-- Each channel after a regulation period. -/
theorem regulationPeriod_channel {s : State} (hs : ChannelsSound s) (c : Fin 6) :
    (regulationPeriod s).channels[c] =
      periodChannel c (figuredState s) (notedChannel (periodRegulator s).channels[c] s.channels[c]) := by
  have hacted : (regulationPeriod s).channels = (forEach checkChannel (figuredState s)).channels := by
    rw [regulationPeriod_channels, actedState, retarderEvent_channels, actOnPeriod, formAllowed_channels,
      formCut_channels]
  let Same (u : State) : Prop :=
    u.clock = s.clock ∧ u.reg = periodRegulator s ∧ u.pcu = s.pcu ∧ u.dtu = s.dtu
  have hsame (i : Fin 6) (u : State) (hu : Same u) : Same (checkChannel i u) := by
    obtain ⟨hclock, hreg, hpcu, hdtu⟩ := hu
    exact ⟨(checkChannel_clock i u).trans hclock, (checkChannel_reg i u).trans hreg,
      (checkChannel_pcu i u).trans hpcu, (checkChannel_dtu i u).trans hdtu⟩
  obtain ⟨u, ⟨hclock, hreg, hpcu, hdtu⟩, hx, hcheck⟩ := forEach_channel (R := Same) hsame
    (fun i d u h => checkChannel_other h u) (s := figuredState s) ⟨rfl, rfl, rfl, rfl⟩ c
  change u.channels[c] = s.channels[c] at hx
  rw [hacted, hcheck, checkChannel_channel (hx ▸ hs c), hx, hreg]
  exact periodChannel_congr (v := figuredState s) hclock hreg hpcu hdtu ..

end Sys2Proof.Machine
end

