-- ==== Sys2Proof/Proofs/PeriodTransitions.lean ====
section
/-! SUPPORT. Where a regulation period sends every channel, and how it enters HOLD, VENT or REAPPLY (R48, R51 to R63, R71,
R72, R79). -/

namespace Sys2Proof.Machine

/-! ### Entries to a regulating state -/

section

variable {r : Regulator} {c : Fin 6} {x : Channel}

/-- A channel of no active state goes to no regulating state. -/
theorem judgedOf_inactive (h : x.state.active = false) : (judgedOf r c x).regulating = false := by
  have htest : (x.state = .test → (judgedOf r c x).regulating = false) := fun e => by
    rw [judgedOf, judgedState_test e]; split_ifs <;> rfl
  have hidle : (x.state = .idle → (judgedOf r c x).regulating = false) := fun e => by
    rw [judgedOf, judgedState_idle e]; split_ifs <;> rfl
  have hlock : (x.state = .lockout → (judgedOf r c x).regulating = false) := fun e => by
    simp only [judgedOf, judgedState, e]; rfl
  cases hx : x.state
  case idle => exact hidle hx
  case test => exact htest hx
  case lockout => exact hlock hx
  all_goals rw [hx] at h; exact absurd h (by decide)

/-- A channel that enters a regulating state is active, and its profile's judgement sends it there (R56 to R59). -/
theorem judgedOf_regulating (hne : judgedOf r c x ≠ x.state) (hr : (judgedOf r c x).regulating = true) :
    x.state.active = true ∧ ∃ p, x.profile = some p ∧
      judgedOf r c x = regulated p r.channels[c].slip r.channels[c].accel x.state := by
  have hactive : x.state.active = true := by
    by_contra hn
    exact absurd ((judgedOf_inactive (by simpa using hn)).symm.trans hr) (by decide)
  refine ⟨hactive, ?_⟩
  have hj : judgedOf r c x = _ := judgedState_active hactive
  split_ifs at hj
  · rw [hj] at hr; exact absurd hr (by decide)
  · rw [hj] at hr; exact absurd hr (by decide)
  · rw [hj] at hr; exact absurd hr (by decide)
  · cases hp : x.profile with
    | none => rw [hp] at hj; exact absurd hj hne
    | some p => rw [hp] at hj; exact ⟨p, rfl, hj⟩

/-- From VENT a channel goes to HOLD alone (R58). -/
theorem regulated_vent (p : Profile) (slip : Nat) (accel : Int) :
    regulated p slip accel .vent = .hold ∨ regulated p slip accel .vent = .vent := by
  simp only [regulated]; split_ifs <;> simp

end

/-- The episode that is open as a channel, standing as `x`, enters a regulating state: the open one with its peak slip noted,
or one opened at this period (R71, R72). -/
def episodeAtEntry (c : Fin 6) (u : State) (x : Channel) : Episode :=
  (x.episode.map fun ep : Episode => { ep with peakSlip := max ep.peakSlip u.reg.channels[c].slip }).getD
    (openedEpisode c u)

/-- An episode to whose vent time the phase that began at a VENT entry stamp is added (R58, R72). -/
def ventedEpisode (u : State) (entry : Option Long) (ep : Episode) : Episode :=
  (entry.map fun e => { ep with ventTime := min 65535 (ep.ventTime + (u.stamp - e).toNat) }).getD ep

section

variable {c : Fin 6} {u : State} {x : Channel}

/-- The channel as it departs: its episode is open, and only a channel that leaves VENT has a phase to end. -/
theorem openedChannel_noted (hx : x.Sound) (hactive : x.state.active = true) :
    openedChannel c u (notedChannel u.reg.channels[c] x) = { x with episode := some (episodeAtEntry c u x) } := by
  cases he : x.episode with
  | some ep => simp [openedChannel, notedChannel, episodeAtEntry, he]
  | none =>
    have hpass : x.state = .pass := by
      cases hs : x.state <;> simp only [hs, ChannelState.active, Bool.false_eq_true] at hactive
      case pass => rfl
      all_goals
        have := (hx.regulating (by rw [hs]; rfl)).2
        rw [he] at this
        exact absurd this (by decide)
    simp [openedChannel, notedChannel, episodeAtEntry, he, hpass]

/-- A channel enters HOLD from a state with its episode open (R48, R57, R58, R72). -/
theorem entered_hold {p : Profile} {ep : Episode} (hp : x.profile = some p) (hcause : x.cause = none) :
    entered .hold u { x with episode := some ep } =
      { x with
        state := .hold, holdTimer := some (stampTimer p.holdLimit u), ventTimer := none, ventEntry := none
        episode := some { ventedEpisode u x.ventEntry ep with holdPhases := min 255 (ep.holdPhases + 1) }
        inlet := driven u x.inlet, vent := {}, activity := .none } := by
  obtain ⟨profile, _, _, cause, _, _, ventEntry, _, _, _, _⟩ := x
  subst hp hcause
  cases ventEntry <;> rfl

theorem entered_vent {p : Profile} {ep : Episode} (hp : x.profile = some p) (hcause : x.cause = none)
    (hentry : x.ventEntry = none) :
    entered .vent u { x with episode := some ep } =
      { x with
        state := .vent, holdTimer := none, ventTimer := some (stampTimer p.ventLimit u), ventEntry := some u.stamp
        episode := some { ep with ventPhases := min 255 (ep.ventPhases + 1) }
        inlet := driven u x.inlet, vent := driven u x.vent, activity := .none } := by
  obtain ⟨profile, _, _, cause, _, _, ventEntry, _, _, _, _⟩ := x
  subst hp hcause hentry
  rfl

theorem entered_reapply {p : Profile} {ep : Episode} (hp : x.profile = some p) (hcause : x.cause = none)
    (hentry : x.ventEntry = none) :
    entered .reapply u { x with episode := some ep } =
      { x with
        state := .reapply, holdTimer := none, ventTimer := none
        episode := some { ep with trains := min 255 (ep.trains + 1) }
        inlet := {}, vent := {}
        activity := .train .apply (stampTimer p.applyPulse u)
          { applyPulse := p.applyPulse, holdInterval := p.holdInterval, repeatCount := p.repeatCount
            continuous := p.continuous } 0 } := by
  obtain ⟨profile, _, _, cause, _, _, ventEntry, _, _, _, _⟩ := x
  subst hp hcause hentry
  rfl

theorem judgedOf_noted (r : Regulator) (c : Fin 6) (f : ChannelFigures) (x : Channel) :
    judgedOf r c (notedChannel f x) = judgedOf r c x := rfl

/-- A channel that goes to a regulating state enters it with its episode open. -/
theorem periodChannel_regulating {new : ChannelState} (hx : x.Sound) (hj : judgedOf u.reg c x = new)
    (hne : new ≠ x.state) (hr : new.regulating = true) :
    periodChannel c u (notedChannel u.reg.channels[c] x) =
        entered new u { x with episode := some (episodeAtEntry c u x) } ∧
      x.cause = none ∧ (new ≠ .hold → x.ventEntry = none) := by
  subst hj
  obtain ⟨hactive, p, -, hj⟩ := judgedOf_regulating hne hr
  refine ⟨?_, hx.cause_none (ne_of_active hactive).2.2, fun hhold => hx.ventEntry_none fun hvent => ?_⟩
  · rw [← openedChannel_noted hx hactive]
    exact periodChannel_move rfl hne hr
  · rw [hvent] at hj hne
    rcases regulated_vent p u.reg.channels[c].slip u.reg.channels[c].accel with e | e
    · exact hhold (hj.trans e)
    · exact hne (hj.trans e)

end

/-! ### The obligations -/

/-- Settles O14: each clause is a branch of `periodChannel`. -/
theorem periodJudgement : Obligations.PeriodJudgement := by
  intro s hheld hdue hs
  have hchannel := regulationPeriod_channel hs
  have hreg : (regulationPeriod s).reg = (figuredState s).reg := regulationPeriod_reg s
  have harmed : (figuredState s).reg.armed = s.reg.armed := rfl
  refine ⟨regulationPeriod s, exec_regulationPeriod hheld hdue, fun c => ?_⟩
  specialize hchannel c
  change (regulationPeriod s).channels[c] =
    periodChannel c (figuredState s) (notedChannel (figuredState s).reg.channels[c] s.channels[c]) at hchannel
  generalize regulationPeriod s = t at *
  generalize figuredState s = u at *
  rw [hreg, ← harmed, hchannel, periodChannel_state, judgedOf_noted]
  intro x f noted
  refine ⟨rfl, fun hstay h => periodChannel_stay hstay h, fun hstay hpass ha => periodChannel_absent hstay hpass ha,
    fun hne hr => ?_⟩
  exact periodChannel_leaves rfl hne hr

/-- Settles O15. -/
theorem periodEntries : Obligations.PeriodEntries := by
  intro s hheld hdue hs
  have hchannel := regulationPeriod_channel hs
  have hreg : (regulationPeriod s).reg = (figuredState s).reg := regulationPeriod_reg s
  refine ⟨regulationPeriod s, exec_regulationPeriod hheld hdue, fun c p => ?_⟩
  specialize hchannel c
  change (regulationPeriod s).channels[c] =
    periodChannel c (figuredState s) (notedChannel (figuredState s).reg.channels[c] s.channels[c]) at hchannel
  generalize regulationPeriod s = t at *
  have hstate : judgedOf (figuredState s).reg c s.channels[c] = t.channels[c].state := by
    rw [hchannel, periodChannel_state, judgedOf_noted]
  have hentered (new : ChannelState) (hnew : t.channels[c].state = new) (hne : new ≠ s.channels[c].state)
      (hr : new.regulating = true) := periodChannel_regulating (hs c) (hstate.trans hnew) hne hr
  rw [← hchannel] at hentered
  rw [hreg]
  intro x f ep vented hp hne
  have hep : ep = episodeAtEntry c (figuredState s) x := by
    simp only [ep, episodeAtEntry]
    cases x.episode <;> rfl
  refine ⟨fun hvent => ?_, fun hhold => ?_, fun hreapply => ?_⟩
  · obtain ⟨e, hcause, hnone⟩ := hentered .vent hvent (hvent ▸ hne) rfl
    rw [e, entered_vent hp hcause (hnone (by decide)), hep]
    rfl
  · obtain ⟨e, hcause, -⟩ := hentered .hold hhold (hhold ▸ hne) rfl
    have hvented : ventedEpisode (figuredState s) x.ventEntry ep = vented := by
      simp only [vented, ventedEpisode]
      cases x.ventEntry <;> rfl
    rw [e, entered_hold hp hcause, ← hep, hvented]
    rfl
  · obtain ⟨e, hcause, hnone⟩ := hentered .reapply hreapply (hreapply ▸ hne) rfl
    rw [e, entered_reapply hp hcause (hnone (by decide)), hep]
    rfl

end Sys2Proof.Machine
end

