-- ==== Sys2Proof/Proofs/ChannelsKept.lean ====
section
/-! SUPPORT. Every update of a channel leaves it whole, and so every step keeps the six channels whole (R47, R48, R51, R60,
R71, R77, R82, R86, R87). -/

namespace Sys2Proof.Machine

/-! ### The channels after an operation on one of them -/

theorem ChannelsSound.of_channels_eq {s t : State} (hs : ChannelsSound s) (h : t.channels = s.channels) :
    ChannelsSound t := by
  intro c; rw [h]; exact hs c

theorem ChannelsSound.of_channels_set {s t : State} {c : Fin 6} {x : Channel} (hs : ChannelsSound s)
    (h : t.channels = s.channels.set c x) (hx : x.Sound) : ChannelsSound t := by
  intro d
  by_cases hd : d = c
  · subst hd; rw [channel_of_set h]; exact hx
  · rw [channel_of_set_ne h hd]; exact hs d

/-- Of two updates of a channel the second counts. -/
theorem ChannelsSound.of_channels_set_set {s t u : State} {c : Fin 6} {x y : Channel} (hs : ChannelsSound s)
    (hu : u.channels = s.channels.set c y) (ht : t.channels = u.channels.set c x) (hx : x.Sound) : ChannelsSound t :=
  hs.of_channels_set (by rw [ht, hu, Vector.set_set]) hx

/-! ### Channels that are whole -/

/-- A channel that starts afresh in IDLE or PASS is whole, with or without an episode. -/
theorem afresh_sound {new : ChannelState} (h : new = .idle ∨ new = .pass) (x : Channel) (ep : Option Episode) :
    ({ x.afresh new with episode := ep } : Channel).Sound := by
  rcases h with rfl | rfl <;> (rw [Channel.sound_iff]; simp [Channel.afresh, Channel.pattern, Channel.activityFits,
    ChannelState.regulating])

theorem locked_sound (x : Channel) (cause : LockoutCause) :
    ({ x.afresh .lockout with cause := some cause } : Channel).Sound := by
  rw [Channel.sound_iff]
  simp [Channel.afresh, Channel.pattern, Channel.activityFits, ChannelState.regulating]

theorem energise_energised (s : State) (o : Output) : (o.energise s).energised = true := by
  unfold Output.energise; split_ifs with h
  · exact h
  · rfl

/-- A channel with a profile and an episode enters HOLD, VENT or REAPPLY whole. -/
theorem entered_sound {new : ChannelState} {x : Channel} (s : State) (hnew : new.regulating = true)
    (hp : x.profile.isSome = true) (he : x.episode.isSome = true) : (entered new s x).Sound := by
  obtain ⟨p, hp⟩ := Option.isSome_iff_exists.1 hp
  obtain ⟨ep, he⟩ := Option.isSome_iff_exists.1 he
  obtain ⟨profile, _, _, _, _, _, ventEntry, episode, _, _, _⟩ := x
  subst hp he
  rw [Channel.sound_iff]
  cases new <;> first | exact absurd hnew (by decide) | skip
  all_goals
    cases ventEntry <;>
      simp [entered, Channel.left, Channel.endVentPhase, Channel.updateEpisode, Channel.pattern, Channel.activityFits,
        ChannelState.regulating, energise_energised, startedTrain, Output.off]

/-- A channel that is whole and is not regulating stays whole with another profile and episode, nothing staged. -/
theorem Channel.Sound.withProfile {x : Channel} (hx : x.Sound) (h : x.state.regulating = false) (p : Option Profile) :
    ({ x with profile := p, staged := none } : Channel).Sound := by
  obtain ⟨houtputs, hmonitors, hcause, hactivity, hhold, hvent, hentry, -, -⟩ := hx
  refine ⟨houtputs, hmonitors, hcause, hactivity, hhold, hvent, hentry, fun hr => ?_, fun hs => ?_⟩
  · exact absurd (h.symm.trans hr) Bool.false_ne_true
  · exact absurd hs Bool.false_ne_true

theorem Channel.Sound.withEpisode {x : Channel} (hx : x.Sound) (h : x.state.regulating = false) (ep : Option Episode) :
    ({ x with episode := ep } : Channel).Sound := by
  obtain ⟨houtputs, hmonitors, hcause, hactivity, hhold, hvent, hentry, -, hstaged⟩ := hx
  exact ⟨houtputs, hmonitors, hcause, hactivity, hhold, hvent, hentry,
    fun hr => absurd (h.symm.trans hr) Bool.false_ne_true, hstaged⟩

theorem Channel.Sound.stage {x : Channel} (hx : x.Sound) (h : x.state.regulating = true) (p : Profile) :
    ({ x with staged := some p } : Channel).Sound := by
  obtain ⟨houtputs, hmonitors, hcause, hactivity, hhold, hvent, hentry, hregulating, -⟩ := hx
  exact ⟨houtputs, hmonitors, hcause, hactivity, hhold, hvent, hentry, hregulating, fun _ => h⟩

/-- A watch that ends leaves the output as it is driven (R63). -/
theorem Channel.Sound.proved {x : Channel} (hx : x.Sound) (sol : Solenoid) :
    (x.setOutput sol { x.output sol with watch := none }).Sound := by
  obtain ⟨houtputs, ⟨hinlet, hvalve⟩, hcause, hactivity, hhold, hvent, hentry, hregulating, hstaged⟩ := hx
  cases sol
  · exact ⟨houtputs, ⟨fun _ => rfl, hvalve⟩, hcause, hactivity, hhold, hvent, hentry, hregulating, hstaged⟩
  · exact ⟨houtputs, ⟨hinlet, fun _ => rfl⟩, hcause, hactivity, hhold, hvent, hentry, hregulating, hstaged⟩

/-- A channel that runs a train is in REAPPLY, one that runs a test in TEST (R77). -/
theorem Channel.Sound.reapply_of_train {x : Channel} (hx : x.Sound) {phase : TrainPhase} {due pulses : Nat}
    {par : TrainParams} (h : x.activity = .train phase due par pulses) : x.state = .reapply := by
  have hfits := hx.activity
  cases hs : x.state <;> simp [Channel.activityFits, h, hs] at hfits ⊢

theorem Channel.Sound.test_of_test {x : Channel} (hx : x.Sound) {phase : TestPhase} {due pulses : Nat}
    {par : TestParams} {tag : Byte} (h : x.activity = .test phase due par pulses tag) : x.state = .test := by
  have hfits := hx.activity
  cases hs : x.state <;> simp [Channel.activityFits, h, hs] at hfits ⊢

/-- In REAPPLY the vent output is de-energised in either phase of the train (R48). -/
theorem Channel.Sound.reapply_vent {x : Channel} (hx : x.Sound) (h : x.state = .reapply) : x.vent.energised = false := by
  have hfits := hx.activity
  have houtputs := hx.outputs
  cases ha : x.activity with
  | none => simp [Channel.activityFits, h, ha] at hfits
  | test => simp [Channel.activityFits, h, ha] at hfits
  | train phase =>
    cases phase <;> simp only [Channel.pattern, h, ha, Prod.mk.injEq] at houtputs <;> exact houtputs.2

/-- The hold interval of a train, the inlet energised (R80). -/
theorem Channel.Sound.trainHold {x : Channel} (hx : x.Sound) (h : x.state = .reapply) (due pulses : Nat)
    (par : TrainParams) (s : State) (f : Episode → Episode) :
    ({ x with
      activity := .train .hold due par pulses, inlet := x.inlet.energise s, episode := x.episode.map f } : Channel).Sound := by
  have hclosed := hx.reapply_vent h
  obtain ⟨-, ⟨-, hvalve⟩, hcause, -, hhold, hvent, hentry, hregulating, hstaged⟩ := hx
  refine ⟨?_, ⟨fun hi => ?_, hvalve⟩, hcause, ?_, hhold, hvent, hentry, fun hr => ?_, hstaged⟩
  · simp only [Channel.pattern, h, energise_energised, hclosed]
  · exact absurd ((energise_energised s x.inlet).symm.trans hi) (by decide)
  · simp only [Channel.activityFits, h]
  · obtain ⟨hp, he⟩ := hregulating hr
    exact ⟨hp, by simpa using he⟩

/-- The apply interval of a train's next pulse, the inlet de-energised (R81). -/
theorem Channel.Sound.trainApply {x : Channel} (hx : x.Sound) (h : x.state = .reapply) (due pulses : Nat)
    (par : TrainParams) : ({ x with activity := .train .apply due par pulses, inlet := .off } : Channel).Sound := by
  have hclosed := hx.reapply_vent h
  obtain ⟨-, ⟨-, hvalve⟩, hcause, -, hhold, hvent, hentry, hregulating, hstaged⟩ := hx
  refine ⟨?_, ⟨fun _ => rfl, hvalve⟩, hcause, ?_, hhold, hvent, hentry, hregulating, hstaged⟩
  · simp only [Channel.pattern, h, hclosed, Output.off]
  · simp only [Channel.activityFits, h]

/-- No timer runs on a channel, nothing is staged for it and it has no cause. -/
structure Channel.Quiet (x : Channel) : Prop where
  cause : x.cause = none
  holdTimer : x.holdTimer = none
  ventTimer : x.ventTimer = none
  ventEntry : x.ventEntry = none
  staged : x.staged = none

theorem Channel.Sound.holdTimer_none {x : Channel} (hx : x.Sound) (h : x.state ≠ .hold) : x.holdTimer = none := by
  rw [← Option.not_isSome_iff_eq_none, hx.holdTimer]; exact h

theorem Channel.Sound.ventTimer_none {x : Channel} (hx : x.Sound) (h : x.state ≠ .vent) : x.ventTimer = none := by
  rw [← Option.not_isSome_iff_eq_none, hx.ventTimer]; exact h

/-- A channel that is whole is quiet in IDLE, PASS and TEST. -/
theorem Channel.Sound.quiet {x : Channel} (hx : x.Sound) (h : x.state = .idle ∨ x.state = .pass ∨ x.state = .test) :
    x.Quiet where
  cause := hx.cause_none (by rcases h with h | h | h <;> rw [h] <;> decide)
  holdTimer := hx.holdTimer_none (by rcases h with h | h | h <;> rw [h] <;> decide)
  ventTimer := hx.ventTimer_none (by rcases h with h | h | h <;> rw [h] <;> decide)
  ventEntry := hx.ventEntry_none (by rcases h with h | h | h <;> rw [h] <;> decide)
  staged := staged_of_not_regulating hx (by rcases h with h | h | h <;> rw [h] <;> rfl)

/-- A quiet channel in TEST is whole in the ON phase of a test (R86). -/
theorem Channel.Quiet.testOn {x : Channel} (hx : x.Quiet) (h : x.state = .test) (par : TestParams) (pulses : Nat)
    (tag : Byte) (s : State) : (testOn par pulses tag s x).Sound := by
  obtain ⟨hcause, hhold, hvent, hentry, hstaged⟩ := hx
  rw [Channel.sound_iff]
  cases hsol : par.solenoids <;>
    simp [Machine.testOn, Channel.pattern, Channel.activityFits, ChannelState.regulating, energise_energised, h, hcause,
      hhold, hvent, hentry, hstaged, hsol, Output.off]

/-- A quiet channel in TEST is whole in the OFF phase of a test (R86). -/
theorem Channel.Quiet.testOff {x : Channel} (hx : x.Quiet) (h : x.state = .test) (par : TestParams) (pulses : Nat)
    (tag : Byte) (s : State) : (testOff par pulses tag s x).Sound := by
  obtain ⟨hcause, hhold, hvent, hentry, hstaged⟩ := hx
  rw [Channel.sound_iff]
  simp [Machine.testOff, Channel.pattern, Channel.activityFits, ChannelState.regulating, h, hcause, hhold, hvent, hentry,
    hstaged, Output.off]

/-! ### A regulation period -/

/-- A channel goes to TEST from no other state. -/
theorem judgedOf_ne_test {r : Regulator} {c : Fin 6} {x : Channel} (h : x.state ≠ .test) : judgedOf r c x ≠ .test := by
  cases hx : x.state
  case test => exact absurd hx h
  case idle =>
    rw [judgedOf, judgedState_idle hx]
    split_ifs <;> decide
  case lockout => simp only [judgedOf, judgedState, hx]; decide
  all_goals
    rw [judgedOf, judgedState_active (by rw [hx]; rfl)]
    split_ifs <;> first | decide | skip
    cases x.profile with
    | none => exact h
    | some p =>
      rw [Option.map_some, Option.getD_some]
      rcases regulated_eq_or_regulating p r.channels[c].slip r.channels[c].accel x.state with e | e
      · rw [e]; exact h
      · intro htest
        rw [htest] at e
        exact absurd e (by decide)

theorem openedChannel_episode {c : Fin 6} {u : State} {x : Channel} (hx : x.Sound) (h : x.state.active = true) :
    (openedChannel c u x).profile = x.profile ∧ (openedChannel c u x).episode.isSome = true := by
  unfold openedChannel
  split_ifs with hopen
  · exact ⟨rfl, rfl⟩
  · refine ⟨rfl, ?_⟩
    by_cases hpass : x.state = .pass
    · exact Option.isSome_iff_ne_none.2 fun e => hopen ⟨hpass, e⟩
    · refine (hx.regulating ?_).2
      cases hs : x.state <;> simp_all [ChannelState.active, ChannelState.regulating]

/-- A channel that is whole is whole after its checks. -/
theorem periodChannel_sound (c : Fin 6) (u : State) {x : Channel} (hx : x.Sound) : (periodChannel c u x).Sound := by
  by_cases hstay : judgedOf u.reg c x = x.state
  · by_cases h : x.state = .pass ∧ u.reg.absence ≠ none
    · rw [periodChannel_absent hstay h.1 h.2]
      exact hx.withEpisode (by rw [h.1]; rfl) none
    · rw [periodChannel_stay hstay (by by_contra hn; simp only [not_or, not_not] at hn; exact h hn)]
      exact hx
  · cases hr : (judgedOf u.reg c x).regulating
    case true =>
      obtain ⟨hactive, p, hp, -⟩ := judgedOf_regulating hstay hr
      obtain ⟨hprofile, hepisode⟩ := openedChannel_episode (c := c) (u := u) hx hactive
      rw [periodChannel_move rfl hstay hr]
      exact entered_sound u hr (by rw [hprofile, hp]; rfl) hepisode
    case false =>
      have htest : judgedOf u.reg c x ≠ .test := fun e =>
        hstay (e.trans (not_not.1 (mt judgedOf_ne_test (not_not.2 e))).symm)
      rw [periodChannel_leaves rfl hstay hr]
      generalize judgedOf u.reg c x = new at *
      cases new
      case idle => exact afresh_sound (.inl rfl) x _
      case pass => exact afresh_sound (.inr rfl) x _
      case lockout => exact (locked_sound x .sensors).withEpisode rfl _
      all_goals first | exact absurd hr (by decide) | exact absurd rfl htest

/-! ### The channels' operations -/

section

variable {s : State} (hs : ChannelsSound s)

include hs

theorem ChannelsSound.setChannel {c : Fin 6} {x : Channel} (hx : x.Sound) : ChannelsSound (s.setChannel c x) :=
  hs.of_channels_set rfl hx

theorem ChannelsSound.enter_rest {new : ChannelState} (h : new = .idle ∨ new = .pass) (c : Fin 6) :
    ChannelsSound (enter c new s) :=
  hs.of_channels_set (enter_rest_channels h c s) (afresh_sound h _ _)

theorem ChannelsSound.closed_enter {new : ChannelState} (h : new = .idle ∨ new = .pass) (c : Fin 6)
    (reason : CloseReason) : ChannelsSound (enter c new (closeEpisode c reason s)) :=
  hs.of_channels_set (closed_enter_channels h c reason s) (afresh_sound h _ none)

theorem ChannelsSound.closeEpisode {c : Fin 6} (reason : CloseReason) (h : s.channels[c].state = .pass) :
    ChannelsSound (closeEpisode c reason s) := by
  refine hs.of_channels_set (closeEpisode_channels c reason s) ?_
  rw [endVentPhase_of_none ((hs c).ventEntry_none (by rw [h]; decide))]
  split_ifs
  · exact hs c
  · exact (hs c).withEpisode (by rw [h]; rfl) none

theorem ChannelsSound.lockOut (c : Fin 6) (cause : LockoutCause) (sol : Solenoid) :
    ChannelsSound (lockOut c cause sol s) :=
  hs.of_channels_set (lockOut_channels c cause sol s) (locked_sound _ cause)

theorem ChannelsSound.endTest (c : Fin 6) (status : Status) : ChannelsSound (endTest c status s) :=
  (hs.enter_rest (afterTest_rest s) c).of_channels_eq (endTest_channels c status s)

theorem ChannelsSound.checkChannel (c : Fin 6) : ChannelsSound (checkChannel c s) := by
  intro d
  by_cases hd : d = c
  · subst hd
    rw [checkChannel_channel (hs d)]
    exact periodChannel_sound d s (notedChannel_sound (hs d))
  · rw [checkChannel_other hd]
    exact hs d

theorem ChannelsSound.disarmChannel (c : Fin 6) : ChannelsSound (disarmChannel c s) := by
  unfold Machine.disarmChannel
  split
  all_goals first | exact hs | exact hs.closed_enter (.inl rfl) c .disarmed

theorem ChannelsSound.channelCritical (c : Fin 6) : ChannelsSound (channelCritical c s) := by
  unfold Machine.channelCritical
  split
  case h_4 h => exact hs.closeEpisode .supply h
  case h_5 => exact hs.endTest c .abortedSupply
  all_goals first | exact hs | exact hs.closed_enter (.inr rfl) c .supply

end

/-- A pass over the six channels that keeps them whole. -/
theorem ChannelsSound.forEach {f : Fin 6 → State → State} (hf : ∀ c u, ChannelsSound u → ChannelsSound (f c u)) {s : State}
    (hs : ChannelsSound s) : ChannelsSound (forEach f s) :=
  forEach_induction hf hs

/-! ### Requests and events -/

theorem channelsSound_sensingFree : SensingFree ChannelsSound where
  lanes _ _ _ hs := hs
  wheels _ _ hs := hs
  inputs _ _ hs := hs
  drums _ _ hs := hs
  supply _ _ _ hs := hs

theorem ChannelsSound.formCut {s : State} (hs : ChannelsSound s) : ChannelsSound (formCut s) :=
  hs.of_channels_eq (formCut_channels s)

/-- An event of the retarder keeps the channels whole where its change does. -/
theorem ChannelsSound.retarderEvent {f : State → State} {s : State} (hs : ChannelsSound (f s)) :
    ChannelsSound (retarderEvent f s) :=
  channelsSound_sensingFree.retarderEvent hs

theorem ChannelsSound.respond {kind tag : Byte} {status : Status} {result : List Byte} {s : State}
    (hs : ChannelsSound s) : ChannelsSound (respond kind tag status result s) :=
  channelsSound_sensingFree.respond kind tag status result hs

theorem ChannelsSound.disarmPart {s : State} (hs : ChannelsSound s) : ChannelsSound (disarmPart s) := by
  have hu : ChannelsSound { s with reg := { s.reg with armed := false, absence := some .disarmed } } := hs
  exact channelsSound_sensingFree.rewrite _ _
    (ChannelsSound.retarderEvent (ChannelsSound.forEach (fun c _ hv => hv.disarmChannel c) hu).formCut)

theorem ChannelsSound.carryInstallChannel {s : State} (hs : ChannelsSound s) (tag channel : Byte)
    (fields : Option (Fin 6 × Profile)) : ChannelsSound (carryInstallChannel tag channel fields s) := by
  unfold Machine.carryInstallChannel
  split
  · exact hs.respond
  · dsimp only
    split_ifs with h
    · exact (hs.setChannel ((hs _).stage h _)).respond
    · exact (hs.setChannel ((hs _).withProfile (by simpa using h) _)).respond

theorem ChannelsSound.carryClearChannel {s : State} (hs : ChannelsSound s) (tag channel : Byte) :
    ChannelsSound (carryClearChannel tag channel s) := by
  unfold Machine.carryClearChannel
  split
  · exact hs.respond
  · next c _ =>
    split_ifs with hrefused
    · exact hs.respond
    · have hentered : ChannelsSound (enter c (if eligible s c then .pass else .idle) s) :=
        hs.enter_rest (by cases eligible s c <;> simp) c
      exact ChannelsSound.respond (ChannelsSound.retarderEvent hentered.formCut)

/-- An admitted test starts on a channel in IDLE or PASS (R85, R86). -/
theorem testRefusal_none {c : Fin 6} {s : State} (h : testRefusal c s = none) :
    s.channels[c].state = .idle ∨ s.channels[c].state = .pass := by
  by_contra hn
  simp only [not_or] at hn
  simp only [testRefusal] at h
  rw [if_pos hn] at h
  split_ifs at h

/-- A channel that leaves IDLE or PASS for TEST is quiet (R86). -/
theorem entered_test_quiet {x : Channel} (hx : x.Sound) (h : x.state = .idle ∨ x.state = .pass) (s : State) :
    (entered .test s x).Quiet := by
  have hquiet := hx.quiet (h.imp_right .inl)
  refine ⟨rfl, rfl, rfl, endVentPhase_ventEntry s x, ?_⟩
  rw [entered_staged]
  exact hquiet.staged

/-- The start of a test updates its channel and forms the cut (R70, R86). -/
theorem startTest_eq (c : Fin 6) (par : TestParams) (tag : Byte) (s : State) :
    startTest c par tag s =
      formCut (s.setChannel c (testOn par 0 tag s (entered .test s s.channels[c]))) := by
  simp only [startTest, enter, State.setChannel_self, setChannel_setChannel]
  rfl

theorem ChannelsSound.startTest {s : State} (hs : ChannelsSound s) {c : Fin 6} (par : TestParams) (tag : Byte)
    (h : s.channels[c].state = .idle ∨ s.channels[c].state = .pass) : ChannelsSound (startTest c par tag s) := by
  rw [startTest_eq]
  exact (hs.setChannel ((entered_test_quiet (hs c) h s).testOn (entered_state ..) par 0 tag s)).formCut

theorem ChannelsSound.carryValveTest {s : State} (hs : ChannelsSound s) (tag channel : Byte)
    (fields : Option (Fin 6 × TestParams)) : ChannelsSound (carryValveTest tag channel fields s) := by
  unfold Machine.carryValveTest
  split
  · exact hs.respond
  · split
    · exact hs.respond
    · next h => exact ChannelsSound.retarderEvent (hs.startTest _ _ (testRefusal_none h))

theorem ChannelsSound.carryStopTest {s : State} (hs : ChannelsSound s) (tag channel : Byte) :
    ChannelsSound (carryStopTest tag channel s) := by
  unfold Machine.carryStopTest
  split
  · exact hs.respond
  · split_ifs
    · exact ChannelsSound.respond (ChannelsSound.retarderEvent (hs.endTest _ _).formCut)
    · exact hs.respond

/-- The requests of the Regulator, the channels and the retarder keep the channels whole. -/
theorem carryRequest_channelsSound {i : Instr} (hi : i.ofBraking = true) {s : State} (hs : ChannelsSound s) :
    ChannelsSound (carryRequest i s) := by
  cases i <;> first | exact absurd hi Bool.false_ne_true | exact hs | skip
  case arm =>
    simp only [carryRequest, carryArm]
    split_ifs
    · exact hs.respond
    · exact hs.respond
    · exact ChannelsSound.respond (channelsSound_sensingFree.rewrite _ _ hs)
  case disarm =>
    simp only [carryRequest, carryDisarm]
    split_ifs
    · exact hs.disarmPart.respond
    · exact hs.respond
  case setReference =>
    simp only [carryRequest, carrySetReference]
    split
    · exact hs.respond
    · split_ifs
      · exact hs.respond
      · exact ChannelsSound.respond hs
      · exact ChannelsSound.respond (channelsSound_sensingFree.rewrite _ _ hs)
  case installChannel => exact hs.carryInstallChannel _ _ _
  case clearChannel => exact hs.carryClearChannel _ _
  case valveTest => exact hs.carryValveTest _ _ _
  case stopTest => exact hs.carryStopTest _ _
  case setBlend =>
    simp only [carryRequest, carrySetBlend]
    split
    · exact hs.respond
    · exact ChannelsSound.respond (ChannelsSound.retarderEvent (hs.of_channels_eq (formAllowed_channels _)))

/-- What a regulation period does keeps the channels whole. -/
theorem ChannelsSound.regulationPeriod {s : State} (hs : ChannelsSound s) : ChannelsSound (regulationPeriod s) := by
  have hacted : ChannelsSound (actOnPeriod (figuredState s)) :=
    (ChannelsSound.forEach (fun c _ hu => hu.checkChannel c) (s := figuredState s) hs).formCut.of_channels_eq
      (formAllowed_channels _)
  exact (ChannelsSound.retarderEvent hacted).of_channels_eq (regulationPeriod_channels s)

/-- What a class change does keeps the channels whole (R68, R90, R139). -/
theorem ChannelsSound.changeClass {s : State} (hs : ChannelsSound s) (new : SupplyClass) (m : Nat) :
    ChannelsSound (changeClass new m s) := by
  have hcritical {u : State} (hu : ChannelsSound u) : ChannelsSound (reactCritical u) := by
    refine ChannelsSound.formCut (ChannelsSound.forEach (fun c _ hv => hv.channelCritical c) ?_)
    unfold regulatorCritical
    split_ifs
    · exact channelsSound_sensingFree.rewrite _ _ hu
    · exact hu
  unfold Machine.changeClass
  extract_lets before smn named raised reacted started
  have hnamed : ChannelsSound named := hs
  have hraised : ChannelsSound raised := channelsSound_sensingFree.raiseEvent _ _ _ _ hnamed
  have hreacted : ChannelsSound reacted := by
    unfold reacted
    split_ifs
    · exact hcritical hraised
    · exact hraised
  have hstarted : ChannelsSound started := by
    unfold started
    split_ifs
    · exact channelsSound_sensingFree.startIfAllowed hreacted
    · exact hreacted
  exact hstarted.of_channels_eq (formAllowed_channels _)

theorem ChannelsSound.closeWindow {s : State} (hs : ChannelsSound s) (m : Nat) : ChannelsSound (closeWindow m s) := by
  unfold Machine.closeWindow
  extract_lets u new closed after
  have hclosed : ChannelsSound closed := hs
  refine channelsSound_sensingFree.rewrite _ _ ?_
  unfold after
  split_ifs
  · exact hclosed
  · exact ChannelsSound.retarderEvent (hclosed.changeClass _ _)

theorem ChannelsSound.takeSample {s : State} (hs : ChannelsSound s) (mV : Nat) : ChannelsSound (takeSample mV s) := by
  unfold Machine.takeSample
  extract_lets m
  split_ifs
  · exact hs
  · exact hs.closeWindow m

theorem settleLever_channels (s : State) : (settleLever s).channels = s.channels := by
  unfold settleLever
  extract_lets r
  split_ifs <;> simp

/-- The first vent-limit expiry sends the channel to PASS, the second locks it out (R62). -/
theorem ChannelsSound.ventLimit {s : State} (hs : ChannelsSound s) (c : Fin 6) : ChannelsSound (ventLimit c s) := by
  have hcounted : (countVentStrike c s).channels = s.channels.set c (countVentStrike c s).channels[c] := by
    simp [countVentStrike]
  refine ChannelsSound.formCut ?_
  split_ifs
  · exact hs.of_channels_set_set hcounted (enter_rest_channels (.inr rfl) c _) (afresh_sound (.inr rfl) _ _)
  · exact hs.of_channels_set_set hcounted (lockOut_channels c .ventLimit .inlet _) (locked_sound _ .ventLimit)

/-- The events of the Regulator, the channels, the supply class and the retarder keep the channels whole. -/
theorem exec_event_channelsSound {i : Instr} {s t : State} (hr : i.isRequest = false) (hi : i.ofBraking = true)
    (hs : ChannelsSound s) (ht : exec i s = .next t) : ChannelsSound t := by
  cases i <;> first | exact absurd hr.symm Bool.false_ne_true |
    exact absurd hi Bool.false_ne_true | skip
  case leverInputChange => cases ht; exact hs
  all_goals
    simp only [exec, execRegulationPeriod, execHoldLimitExpiry, execVentLimitExpiry, execOutputProved, execOutputOpen,
      execOutputShort, execApplyExpiry, execHoldIntervalExpiry, execOnExpiry, execOffExpiry, execSampleCompletion,
      execLeverSettleExpiry, execHoldOffExpiry, execRampExpiry] at ht
    refine BlockInvariant.whenRunning (fun hs => ?_) hs ht
  case regulationPeriod =>
    split_ifs
    · exact hs.regulationPeriod
    · exact hs
  case holdLimitExpiry c =>
    split_ifs with h
    · obtain ⟨hp, he⟩ := (hs c).regulating (by rw [h.1]; rfl)
      exact ChannelsSound.retarderEvent (hs.setChannel (entered_sound s rfl hp he)).formCut
    · exact hs
  case ventLimitExpiry c =>
    split_ifs
    · exact ChannelsSound.retarderEvent (hs.ventLimit c)
    · exact hs
  case outputProved c sol => exact hs.setChannel ((hs c).proved sol)
  case outputOpen c sol =>
    split_ifs
    · exact ChannelsSound.retarderEvent (hs.lockOut c _ sol).formCut
    · exact hs
  case outputShort c sol =>
    split_ifs
    · exact ChannelsSound.retarderEvent (hs.lockOut c _ sol).formCut
    · exact hs
  case applyExpiry c =>
    split
    · next ha =>
      split_ifs
      · exact hs.setChannel ((hs c).trainHold ((hs c).reapply_of_train ha) _ _ _ s _)
      · exact hs
    all_goals exact hs
  case holdIntervalExpiry c =>
    split
    · next ha =>
      split_ifs
      · refine ChannelsSound.retarderEvent ?_
        unfold endHoldInterval
        split_ifs
        · exact hs.setChannel ((hs c).trainApply ((hs c).reapply_of_train ha) _ _ _)
        · exact (hs.enter_rest (.inr rfl) c).formCut
      · exact hs
    all_goals exact hs
  case onExpiry c =>
    split
    · next ha =>
      split_ifs
      · have htest := (hs c).test_of_test ha
        exact hs.setChannel (((hs c).quiet (.inr (.inr htest))).testOff htest _ _ _ s)
      · exact hs
    all_goals exact hs
  case offExpiry c =>
    split
    · next ha =>
      split_ifs
      · have htest := (hs c).test_of_test ha
        refine ChannelsSound.retarderEvent ?_
        unfold endOffTime
        split_ifs
        · exact hs.setChannel (((hs c).quiet (.inr (.inr htest))).testOn htest _ _ _ s)
        · exact (hs.endTest c .done).formCut
      · exact hs
    all_goals exact hs
  case sampleCompletion =>
    split_ifs
    · exact (channelsSound_sensingFree.grant (channelsSound_sensingFree.inputs _ _ hs)).takeSample _
    · exact hs
  case leverSettleExpiry =>
    split_ifs
    · exact ChannelsSound.retarderEvent (hs.of_channels_eq (settleLever_channels s))
    · exact hs
  case holdOffExpiry =>
    split
    · exact hs
    · split_ifs
      · exact ChannelsSound.retarderEvent (hs.of_channels_eq (by simp [endHoldOff]))
      · exact hs
  case rampExpiry =>
    split_ifs
    · exact ChannelsSound.retarderEvent (hs.of_channels_eq (by simp [endRamp]))
    · exact hs

/-- What a reset leaves of the channels: each in IDLE without profile (R76, R94). -/
theorem channelsSound_of_replicate {s : State} (h : s.channels = Vector.replicate 6 {}) : ChannelsSound s := by
  intro c
  rw [h, Fin.getElem_fin, Vector.getElem_replicate]
  exact afresh_sound (.inl rfl) {} none

theorem channelsSound_invariant : BlockInvariant ChannelsSound :=
  channelsSound_sensingFree.blockInvariant (fun _ _ hs => hs) (fun _ hs => hs) (fun _ hs => hs)
    (fun _ _ => channelsSound_of_replicate rfl) (fun _ _ hi hs => carryRequest_channelsSound hi hs)
    fun _ _ _ hr hi hs ht => exec_event_channelsSound hr hi hs ht

/-- Settles O54: every update of a channel leaves it whole, by the state it leaves it in. -/
theorem channelsKept : Obligations.ChannelsKept :=
  fun _ _ hs ht => channelsSound_invariant.step hs ht

end Sys2Proof.Machine
end

