-- ==== Sys2Proof/Proofs/PeriodRetarder.lean ====
section
/-! SUPPORT. The retarder's operations, each once: the formation of the allowed stage, the cut and the rewrite of its fields;
and what a regulation period leaves of it (R70, R147 to R150, R154). -/

namespace Sys2Proof.Machine

theorem withheld_iff (r : RetarderUnit) : r.withheld = true ↔ r.cut = true ∨ r.holdOff.isSome = true := by
  rw [RetarderUnit.withheld, Bool.or_eq_true]

theorem formed_eq_formedStage (s : State) : formed s = formedStage s := by
  by_cases h : s.rbu.withheld = true
  · rw [formed, if_pos h, formedStage, if_pos ((withheld_iff _).1 h)]
  · rw [formed, if_neg h, formedStage, if_neg (mt (withheld_iff _).2 h)]
    cases s.smn.cls <;> rfl

/-- While the retarder is withheld the allowed stage is 0 and the assist does not act (R147). -/
theorem formedStage_withheld {s : State} (h : s.rbu.cut = true ∨ s.rbu.holdOff.isSome = true) :
    formedStage s = (0, false) := by
  rw [formedStage, if_pos h]

theorem moveOutput_eq (s : State) :
    moveOutput s = { s with rbu := { s.rbu with
      output := (steppedOutput s.clock s.rbu.allowed s.rbu.output s.rbu.ramp).1
      ramp := (steppedOutput s.clock s.rbu.allowed s.rbu.output s.rbu.ramp).2 } } := by
  unfold moveOutput steppedOutput
  extract_lets r
  by_cases hfall : r.allowed < r.output
  · simp only [r] at hfall
    simp only [r, if_pos hfall]
  · by_cases hrise : r.output < r.allowed ∧ r.ramp = none
    · simp only [r] at hfall hrise
      simp only [r, if_neg hfall, if_pos hrise]
      rfl
    · simp only [r] at hfall hrise
      simp only [r, if_neg hfall, if_neg hrise]

/-- A formation of the allowed stage with the move of the output stage leaves the retarder that R147 and R148 give. -/
theorem formAllowed_eq_formed (s : State) : formAllowed s = { s with rbu := formedRetarder s } := by
  rw [formAllowed, moveOutput_eq, formed_eq_formedStage]
  rfl

theorem steppedOutput_zero (clock output : Nat) (ramp : Option Nat) :
    steppedOutput clock 0 output ramp = (0, ramp) := by
  unfold steppedOutput
  split_ifs with hfall hrise
  · rfl
  · exact absurd hrise.1 (Nat.not_lt_zero _)
  · rw [Nat.eq_zero_of_not_pos hfall]

/-- A formation while the retarder is withheld takes the allowed and the output stage to 0. -/
theorem formAllowed_withheld {s : State} (h : s.rbu.cut = true ∨ s.rbu.holdOff.isSome = true) :
    formAllowed s = { s with rbu := { s.rbu with allowed := 0, assist := false, output := 0 } } := by
  rw [formAllowed_eq_formed, formedRetarder, formedStage_withheld h]
  dsimp only
  rw [steppedOutput_zero]

/-- The cut formed from the channels: raised with RETARDER_CUT where the retarder was not withheld, fallen with the hold-off
started, or as it was (R70, R149, R150). -/
theorem formCut_eq_cutSettled (s : State) : formCut s = cutSettled s := by
  have hnow : s.channels.toList.any Channel.cuts = cutting s := by
    rw [Bool.eq_iff_iff]; exact any_cuts_iff s
  unfold formCut cutSettled cutRetarder
  extract_lets now t r
  cases hcutting : cutting s <;> cases hcut : s.rbu.cut <;>
    simp only [now, t, r, hnow, hcutting, hcut, Bool.not_true, Bool.not_false, Bool.and_true, Bool.and_false, if_true,
      if_false, Bool.false_eq_true, Bool.true_eq_false, false_and, true_and, and_false, and_true, and_self]
  case false.true => exact formAllowed_withheld (.inr rfl)
  case true.false =>
    rw [raiseCut]
    cases hoff : s.rbu.holdOff <;>
      simp only [RetarderUnit.withheld, hcut, hoff, Option.isSome_none, Option.isSome_some, Bool.or_false, Bool.or_true,
        Bool.false_eq_true, reduceCtorEq, if_true, if_false] <;>
      exact formAllowed_withheld (.inl rfl)

/-- An event of the retarder shows its fields where one of them changed (R154). -/
theorem retarderEvent_eq_shown (f : State → State) (s : State) : retarderEvent f s = retarderShown s.rbu (f s) := by
  have hfields : (f s).rbu.statusFields = s.rbu.statusFields ↔ retarderBytes s.rbu = retarderBytes (f s).rbu := by
    rw [retarderFields_eq, retarderFields_eq]
    simp [eq_comm]
  by_cases h : retarderBytes s.rbu = retarderBytes (f s).rbu
  · rw [retarderShown, if_pos h]
    exact if_pos (hfields.2 h)
  · rw [retarderShown, if_neg h, ← retarderFields_eq]
    exact if_neg (mt hfields.1 h)

@[simp] theorem cutSettled_rbu (s : State) : (cutSettled s).rbu = cutRetarder s := rfl

theorem cutting_congr {s t : State} (h : t.channels = s.channels) : cutting t = cutting s := by
  unfold cutting; rw [h]

/-- The cut and the retarder it leaves depend on the channels, the clock and the retarder alone. -/
theorem cutRetarder_congr {s t : State} (hchannels : t.channels = s.channels) (hclock : t.clock = s.clock)
    (hrbu : t.rbu = s.rbu) : cutRetarder t = cutRetarder s := by
  simp only [cutRetarder, cutting_congr hchannels, hclock, hrbu]

/-- What is formed depends on the clock, the retarder, the supply class, the demand and the hottest drum alone. -/
theorem formedRetarder_congr {s t : State} (hclock : t.clock = s.clock) (hrbu : t.rbu = s.rbu) (hcls : t.smn.cls = s.smn.cls)
    (hdemand : t.pcu.demand = s.pcu.demand) (hhottest : t.dtu.hottest = s.dtu.hottest) :
    formedRetarder t = formedRetarder s := by
  simp only [formedRetarder, formedStage, hclock, hrbu, hcls, hdemand, hhottest]

/-- A part of the state that the channels' checks and the whole period leave alone is the same after either. -/
theorem regulationPeriod_forEach_eq (s : State) {α : Type} (field : State → α)
    (hcheck : ∀ c u, field (checkChannel c u) = field u) (hfigured : field (figuredState s) = field s)
    (hperiod : field (regulationPeriod s) = field s) :
    field (regulationPeriod s) = field (forEach checkChannel (figuredState s)) := by
  rw [forEach_keeps field hcheck, hfigured, hperiod]

theorem actOnPeriod_rbu (u : State) :
    (actOnPeriod u).rbu =
      formedRetarder { forEach checkChannel u with rbu := cutRetarder (forEach checkChannel u) } := by
  rw [actOnPeriod, formAllowed_eq_formed, formCut_eq_cutSettled]
  refine formedRetarder_congr ?_ rfl ?_ ?_ ?_ <;> simp only [← formCut_eq_cutSettled, formCut_clock, formCut_smn,
    formCut_pcu, formCut_dtu]

theorem actOnPeriod_channels (u : State) : (actOnPeriod u).channels = (forEach checkChannel u).channels := by
  rw [actOnPeriod, formAllowed_channels, formCut_channels]

/-- Settles O16: the channels' checks leave the retarder alone, then the cut and the allowed stage are formed. -/
theorem periodRetarder : Obligations.PeriodRetarder := by
  intro s hheld hdue
  refine ⟨regulationPeriod s, exec_regulationPeriod hheld hdue, ?_⟩
  have hrest := regulationPeriod_eq s
  have hchannels : (regulationPeriod s).channels = (forEach checkChannel (figuredState s)).channels := by
    rw [regulationPeriod_channels, actedState, retarderEvent_channels, actOnPeriod_channels]
  have hclock := regulationPeriod_forEach_eq s State.clock checkChannel_clock rfl (by rw [hrest])
  have hsmn := regulationPeriod_forEach_eq s State.smn checkChannel_smn rfl (by rw [hrest])
  have hpcu := regulationPeriod_forEach_eq s State.pcu checkChannel_pcu rfl (by rw [hrest])
  have hdtu := regulationPeriod_forEach_eq s State.dtu checkChannel_dtu rfl (by rw [hrest])
  have hrbu : (forEach checkChannel (figuredState s)).rbu = s.rbu := forEach_keeps State.rbu checkChannel_rbu _
  rw [regulationPeriod_rbu, actOnPeriod_rbu]
  clear hrest
  generalize forEach checkChannel (figuredState s) = f at *
  generalize regulationPeriod s = t at *
  rw [← cutRetarder_congr (s := f) (t := { t with rbu := s.rbu }) hchannels hclock hrbu.symm]
  symm
  exact formedRetarder_congr hclock rfl (congrArg SupplyMonitor.cls hsmn) (congrArg PressureUnit.demand hpcu)
    (congrArg DrumUnit.hottest hdtu)

end Sys2Proof.Machine
end

