-- ==== Sys2Proof/Proofs/RetarderKept.lean ====
section
/-! SUPPORT. Every step keeps the retarder within the cut, the hold-off and the supply class (R70, R144, R147 to R150,
R152). -/

namespace Sys2Proof.Machine

/-! ### The retarder within its bounds -/

/-- The stages within their range, the output at or below the allowed stage, and the allowed stage 0 while withheld and
within the cap of a supply class: `RetarderSafe` without the cut's cause. -/
structure RetarderWithin (cls : SupplyClass) (r : RetarderUnit) : Prop where
  stages : r.leverStage ≤ 3 ∧ r.settings.assistStage ≤ 3 ∧ r.allowed ≤ 3
  output : r.output ≤ r.allowed
  withheld : r.cut = true ∨ r.holdOff.isSome = true → r.allowed = 0
  low : cls = .low → r.allowed ≤ 1
  critical : cls = .critical → r.allowed = 0

/-- The cut as the channels give it (R70), and the stages to form the allowed stage from within their range. -/
structure RetarderFits (s : State) : Prop where
  cut : s.rbu.cut = cutting s
  lever : s.rbu.leverStage ≤ 3
  assist : s.rbu.settings.assistStage ≤ 3

theorem retarderSafe_iff_within (s : State) : RetarderSafe s ↔ s.rbu.cut = cutting s ∧ RetarderWithin s.smn.cls s.rbu := by
  have hcut : s.rbu.cut = cutting s ↔
      (s.rbu.cut = true ↔
        ∃ c : Fin 6, s.channels[c].state.regulating = true ∧ s.channels[c].profile.any (·.driveAxle) = true) := by
    rw [Bool.eq_iff_iff, cutting, decide_eq_true_eq]
  rw [hcut]
  exact ⟨fun h => ⟨h.cut, h.stages, h.output, h.withheld, h.low, h.critical⟩,
    fun ⟨hc, h⟩ => ⟨hc, h.stages, h.output, h.withheld, h.low, h.critical⟩⟩

theorem RetarderSafe.within {s : State} (hs : RetarderSafe s) : RetarderWithin s.smn.cls s.rbu :=
  ((retarderSafe_iff_within s).1 hs).2

theorem RetarderSafe.fits {s : State} (hs : RetarderSafe s) : RetarderFits s :=
  ⟨((retarderSafe_iff_within s).1 hs).1, hs.stages.1, hs.stages.2.1⟩

/-! ### The formation of the allowed stage -/

theorem steppedOutput_le (clock allowed output : Nat) (ramp : Option Nat) :
    (steppedOutput clock allowed output ramp).1 ≤ allowed := by
  unfold steppedOutput
  split_ifs with hfall hrise
  · exact le_rfl
  · exact hrise.1
  · exact Nat.le_of_not_lt hfall

theorem capStage_le (cls : SupplyClass) (stage : Nat) :
    capStage cls stage ≤ stage ∧ (cls = .low → capStage cls stage ≤ 1) ∧ (cls = .critical → capStage cls stage = 0) := by
  cases cls <;> simp [capStage]

/-- The allowed stage formed from stages within their range is within its own. -/
theorem formed_within {s : State} (hlever : s.rbu.leverStage ≤ 3) (hassist : s.rbu.settings.assistStage ≤ 3) :
    (formed s).1 ≤ 3 ∧ (s.smn.cls = .low → (formed s).1 ≤ 1) ∧ (s.smn.cls = .critical → (formed s).1 = 0) := by
  unfold formed
  split_ifs with hwithheld
  · exact ⟨Nat.zero_le _, fun _ => Nat.zero_le _, fun _ => rfl⟩
  · extract_lets raised
    obtain ⟨hle, hlow, hcritical⟩ :=
      capStage_le s.smn.cls (if raised then s.rbu.settings.assistStage else s.rbu.leverStage)
    refine ⟨hle.trans ?_, hlow, hcritical⟩
    cases raised
    · exact hlever
    · exact hassist

theorem formedRetarder_within {s : State} (hlever : s.rbu.leverStage ≤ 3) (hassist : s.rbu.settings.assistStage ≤ 3) :
    RetarderWithin s.smn.cls (formedRetarder s) := by
  have hformed := formed_within hlever hassist
  rw [formed_eq_formedStage] at hformed
  exact ⟨⟨hlever, hassist, hformed.1⟩, steppedOutput_le .., fun h => congrArg Prod.fst (formedStage_withheld h),
    hformed.2.1, hformed.2.2⟩

/-- A formation of the allowed stage leaves the retarder within its bounds. -/
theorem RetarderFits.formAllowed {s : State} (hs : RetarderFits s) : RetarderSafe (formAllowed s) := by
  rw [formAllowed_eq_formed, retarderSafe_iff_within]
  exact ⟨hs.cut, formedRetarder_within hs.lever hs.assist⟩

/-! ### The cut -/

theorem cutRetarder_cut (s : State) : (cutRetarder s).cut = cutting s := by
  unfold cutRetarder
  cases hcutting : cutting s <;> cases hcut : s.rbu.cut <;> simp [hcut]

theorem cutRetarder_stages (s : State) :
    (cutRetarder s).leverStage = s.rbu.leverStage ∧ (cutRetarder s).settings = s.rbu.settings := by
  unfold cutRetarder
  extract_lets r
  split_ifs <;> exact ⟨rfl, rfl⟩

/-- The cut leaves the allowed and the output stage alone or takes both to 0. -/
theorem cutRetarder_within {s : State} (h : RetarderWithin s.smn.cls s.rbu) :
    RetarderWithin s.smn.cls (cutRetarder s) := by
  obtain ⟨⟨hlever, hassist, -⟩, -, -, -, -⟩ := id h
  unfold cutRetarder
  extract_lets r
  split_ifs
  · exact ⟨⟨hlever, hassist, Nat.zero_le _⟩, le_rfl, fun _ => rfl, fun _ => Nat.zero_le _, fun _ => rfl⟩
  · exact ⟨⟨hlever, hassist, Nat.zero_le _⟩, le_rfl, fun _ => rfl, fun _ => Nat.zero_le _, fun _ => rfl⟩
  · exact h

theorem formCut_cutting (s : State) : cutting (formCut s) = cutting s := cutting_congr (formCut_channels s)

theorem formCut_rbu (s : State) : (formCut s).rbu = cutRetarder s := by
  rw [formCut_eq_cutSettled, cutSettled_rbu]

/-- An operation that leaves the retarder and the supply class alone, and then forms the cut, leaves the retarder within its
bounds. -/
theorem RetarderSafe.formCut {s t : State} (hs : RetarderSafe s) (hrbu : t.rbu = s.rbu) (hsmn : t.smn = s.smn) :
    RetarderSafe (formCut t) := by
  have hwithin : RetarderWithin t.smn.cls t.rbu := by rw [hrbu, hsmn]; exact hs.within
  rw [retarderSafe_iff_within, formCut_cutting, formCut_rbu, formCut_smn]
  exact ⟨cutRetarder_cut t, cutRetarder_within hwithin⟩

/-- The cut formed fits the channels, whatever they were before. -/
theorem RetarderFits.formCut {s t : State} (hs : RetarderFits s) (hrbu : t.rbu = s.rbu) : RetarderFits (formCut t) := by
  obtain ⟨hlever, hsettings⟩ := cutRetarder_stages t
  refine ⟨?_, ?_, ?_⟩
  · rw [formCut_cutting, formCut_rbu, cutRetarder_cut]
  · rw [formCut_rbu, hlever, hrbu]; exact hs.lever
  · rw [formCut_rbu, hsettings, hrbu]; exact hs.assist

/-! ### Updates of one channel -/

theorem cutting_iff_cuts (s : State) : cutting s = true ↔ ∃ c : Fin 6, s.channels[c].cuts = true := by
  simp only [cutting, decide_eq_true_eq, Channel.cuts, Bool.and_eq_true]

/-- An update of a channel that goes on cutting as before leaves the cut as the channels give it. -/
theorem cutting_setChannel {s : State} {c : Fin 6} {x : Channel} (h : x.cuts = s.channels[c].cuts) :
    cutting (s.setChannel c x) = cutting s := by
  have hcuts (d : Fin 6) : (s.setChannel c x).channels[d].cuts = s.channels[d].cuts := by
    rw [State.setChannel_get]
    split_ifs with hd
    · rw [hd, h]
    · rfl
  rw [Bool.eq_iff_iff, cutting_iff_cuts, cutting_iff_cuts]
  exact exists_congr fun d => by rw [hcuts d]

theorem Channel.cuts_of_not_regulating {x : Channel} (h : x.state.regulating = false) : x.cuts = false := by
  rw [Channel.cuts, h, Bool.false_and]

theorem RetarderSafe.setChannel {s : State} (hs : RetarderSafe s) {c : Fin 6} {x : Channel}
    (h : x.cuts = s.channels[c].cuts) : RetarderSafe (s.setChannel c x) := by
  rw [retarderSafe_iff_within, cutting_setChannel h]
  exact (retarderSafe_iff_within s).1 hs

theorem RetarderSafe.of_eq {s t : State} (hs : RetarderSafe s) (hchannels : t.channels = s.channels)
    (hrbu : t.rbu = s.rbu) (hcls : t.smn.cls = s.smn.cls) : RetarderSafe t := by
  rw [retarderSafe_iff_within, cutting_congr hchannels, hrbu, hcls]
  exact (retarderSafe_iff_within s).1 hs

/-- The Regulator takes no part in the retarder's bounds. -/
theorem RetarderSafe.withReg {s : State} (hs : RetarderSafe s) (r : Regulator) : RetarderSafe { s with reg := r } :=
  hs.of_eq rfl rfl rfl

theorem retarderSafe_sensingFree : SensingFree RetarderSafe where
  lanes _ _ _ hs := hs.of_eq rfl rfl rfl
  wheels _ _ hs := hs.of_eq rfl rfl rfl
  inputs _ _ hs := hs.of_eq rfl rfl rfl
  drums _ _ hs := hs.of_eq rfl rfl rfl
  supply _ _ hcls hs := hs.of_eq rfl rfl hcls

theorem retarderFits_sensingFree : SensingFree RetarderFits where
  lanes _ _ _ hs := ⟨hs.cut, hs.lever, hs.assist⟩
  wheels _ _ hs := ⟨hs.cut, hs.lever, hs.assist⟩
  inputs _ _ hs := ⟨hs.cut, hs.lever, hs.assist⟩
  drums _ _ hs := ⟨hs.cut, hs.lever, hs.assist⟩
  supply _ _ _ hs := ⟨hs.cut, hs.lever, hs.assist⟩

theorem RetarderSafe.retarderEvent {f : State → State} {s : State} (hs : RetarderSafe (f s)) :
    RetarderSafe (retarderEvent f s) :=
  retarderSafe_sensingFree.retarderEvent hs

theorem RetarderSafe.respond {kind tag : Byte} {status : Status} {result : List Byte} {s : State}
    (hs : RetarderSafe s) : RetarderSafe (respond kind tag status result s) :=
  retarderSafe_sensingFree.respond kind tag status result hs

/-! ### Requests -/

/-- The assist stage of a SET-BLEND in range is 1 to 3, or 0 with the assist disabled (R153). -/
theorem blendFields_assistStage {holdOff temperature demand : Word} {enabled stage : Byte} {b : BlendSettings}
    (h : blendFields holdOff enabled stage temperature demand = some b) : b.assistStage ≤ 3 := by
  unfold blendFields at h
  cases hflag : flagOf enabled with
  | none => rw [hflag] at h; exact absurd h (by simp)
  | some assist =>
    rw [hflag] at h
    simp only [Option.bind_eq_bind, Option.bind_some] at h
    split_ifs at h with hrange hassist hin <;> cases h
    · simp only [within, Bool.and_eq_true, decide_eq_true_eq] at hin
      exact hin.1.1.2
    · exact Nat.zero_le _

theorem RetarderSafe.carrySetBlend {s : State} (hs : RetarderSafe s) (tag : Byte) {fields : Option BlendSettings}
    (h : ∀ b, fields = some b → b.assistStage ≤ 3) : RetarderSafe (carrySetBlend tag fields s) := by
  unfold Machine.carrySetBlend
  split
  · exact hs.respond
  · next b =>
    have hfits : RetarderFits { s with rbu := { s.rbu with settings := b } } := ⟨hs.fits.cut, hs.stages.1, h b rfl⟩
    exact RetarderSafe.respond (RetarderSafe.retarderEvent hfits.formAllowed)

theorem RetarderSafe.disarmPart {s : State} (hs : RetarderSafe s) : RetarderSafe (disarmPart s) := by
  have hrbu {u : State} : (forEach Machine.disarmChannel u).rbu = u.rbu := forEach_keeps State.rbu disarmChannel_rbu u
  have hsmn {u : State} : (forEach Machine.disarmChannel u).smn = u.smn := forEach_keeps State.smn disarmChannel_smn u
  exact retarderSafe_sensingFree.rewrite _ _ (RetarderSafe.retarderEvent (hs.formCut hrbu hsmn))

theorem RetarderSafe.carryInstallChannel {s : State} (hs : RetarderSafe s) (tag channel : Byte)
    (fields : Option (Fin 6 × Profile)) : RetarderSafe (carryInstallChannel tag channel fields s) := by
  unfold Machine.carryInstallChannel
  split
  · exact hs.respond
  · next c p =>
    dsimp only
    split_ifs with h
    · exact RetarderSafe.respond (hs.setChannel rfl)
    · have hrest : s.channels[c].state.regulating = false := by simpa using h
      refine RetarderSafe.respond (hs.setChannel ?_)
      rw [Channel.cuts_of_not_regulating hrest]
      exact Channel.cuts_of_not_regulating hrest

/-- The requests of the Regulator, the channels and the retarder keep the retarder within its bounds. -/
theorem carryRequest_retarderSafe {i : Instr} (hi : i.ofBraking = true) {s : State} (hs : RetarderSafe s) :
    RetarderSafe (carryRequest i s) := by
  cases i <;> first | exact absurd hi Bool.false_ne_true | exact hs | skip
  case arm =>
    simp only [carryRequest, carryArm]
    split_ifs
    · exact hs.respond
    · exact hs.respond
    · exact RetarderSafe.respond (retarderSafe_sensingFree.rewrite _ _ (hs.withReg _))
  case disarm =>
    simp only [carryRequest, carryDisarm]
    split_ifs
    · exact hs.disarmPart.respond
    · exact hs.respond
  case setReference =>
    simp only [carryRequest, carrySetReference]
    split
    · exact hs.respond
    · split_ifs
      · exact hs.respond
      · exact RetarderSafe.respond (hs.withReg _)
      · exact RetarderSafe.respond (retarderSafe_sensingFree.rewrite _ _ (hs.withReg _))
  case installChannel => exact hs.carryInstallChannel _ _ _
  case clearChannel =>
    simp only [carryRequest, carryClearChannel]
    split
    · exact hs.respond
    · split_ifs
      · exact hs.respond
      all_goals exact RetarderSafe.respond (RetarderSafe.retarderEvent (hs.formCut (enter_rbu ..) (enter_smn ..)))
  case valveTest =>
    simp only [carryRequest, carryValveTest]
    split
    · exact hs.respond
    · split
      · exact hs.respond
      · refine RetarderSafe.retarderEvent ?_
        rw [startTest_eq]
        exact hs.formCut rfl rfl
  case stopTest =>
    simp only [carryRequest, carryStopTest]
    split
    · exact hs.respond
    · split_ifs
      · exact RetarderSafe.respond (RetarderSafe.retarderEvent (hs.formCut (endTest_rbu ..) (endTest_smn ..)))
      · exact hs.respond
  case setBlend => exact hs.carrySetBlend _ fun b h => blendFields_assistStage h

/-! ### Events -/

theorem RetarderSafe.regulationPeriod {s : State} (hs : RetarderSafe s) : RetarderSafe (regulationPeriod s) := by
  have hrbu : (forEach checkChannel (figuredState s)).rbu = s.rbu := forEach_keeps State.rbu checkChannel_rbu _
  have hsmn : (forEach checkChannel (figuredState s)).smn = s.smn := forEach_keeps State.smn checkChannel_smn _
  have hacted : RetarderSafe (actOnPeriod (figuredState s)) := (hs.formCut hrbu hsmn).fits.formAllowed
  refine hacted.of_eq ?_ (regulationPeriod_rbu s) ?_
  · rw [regulationPeriod_channels, actedState, retarderEvent_channels]
  · rw [regulationPeriod_eq, actOnPeriod, formAllowed_smn, formCut_smn, hsmn]

theorem encodedStage_le (r : RetarderUnit) : r.encodedStage ≤ 3 := by
  unfold RetarderUnit.encodedStage
  split_ifs <;> omega

theorem RetarderSafe.settleLever {s : State} (hs : RetarderSafe s) : RetarderSafe (settleLever s) := by
  unfold Machine.settleLever
  extract_lets r
  split_ifs
  · exact ⟨hs.cut, hs.stages, hs.output, hs.withheld, hs.low, hs.critical⟩
  · exact RetarderFits.formAllowed ⟨hs.fits.cut, encodedStage_le r, hs.fits.assist⟩

theorem RetarderSafe.endHoldOff {s : State} (hs : RetarderSafe s) (h : HoldOff) : RetarderSafe (endHoldOff h s) := by
  have hfits : RetarderFits { s with rbu := { s.rbu with holdOff := none } } :=
    ⟨hs.fits.cut, hs.fits.lever, hs.fits.assist⟩
  exact retarderSafe_sensingFree.raiseEvent _ _ _ _ hfits.formAllowed

theorem RetarderSafe.endRamp {s : State} (hs : RetarderSafe s) : RetarderSafe (endRamp s) := by
  rw [Machine.endRamp, moveOutput_eq]
  exact ⟨hs.cut, hs.stages, steppedOutput_le .., hs.withheld, hs.low, hs.critical⟩

/-- A class change forms the allowed stage anew from the cut the channels give (R139, R147). -/
theorem RetarderSafe.changeClass {s : State} (hs : RetarderSafe s) (new : SupplyClass) (m : Nat) :
    RetarderSafe (changeClass new m s) := by
  have hcritical {u : State} (hu : RetarderFits u) : RetarderFits (reactCritical u) := by
    have hreg : RetarderFits (regulatorCritical u) := by
      unfold regulatorCritical
      split_ifs
      · exact retarderFits_sensingFree.rewrite _ _ ⟨hu.cut, hu.lever, hu.assist⟩
      · exact hu
    exact hreg.formCut (forEach_keeps State.rbu channelCritical_rbu _)
  unfold Machine.changeClass
  extract_lets before smn named raised reacted started
  have hnamed : RetarderFits named := ⟨hs.fits.cut, hs.fits.lever, hs.fits.assist⟩
  have hraised : RetarderFits raised := retarderFits_sensingFree.raiseEvent _ _ _ _ hnamed
  have hreacted : RetarderFits reacted := by
    unfold reacted
    split_ifs
    · exact hcritical hraised
    · exact hraised
  have hstarted : RetarderFits started := by
    unfold started
    split_ifs
    · exact retarderFits_sensingFree.startIfAllowed hreacted
    · exact hreacted
  exact hstarted.formAllowed

theorem RetarderSafe.closeWindow {s : State} (hs : RetarderSafe s) (m : Nat) : RetarderSafe (closeWindow m s) := by
  unfold Machine.closeWindow
  extract_lets u new closed after
  have hclosed : RetarderSafe closed := hs.of_eq rfl rfl rfl
  refine retarderSafe_sensingFree.rewrite _ _ ?_
  unfold after
  split_ifs
  · exact hclosed
  · exact RetarderSafe.retarderEvent (hclosed.changeClass _ _)

theorem RetarderSafe.takeSample {s : State} (hs : RetarderSafe s) (mV : Nat) : RetarderSafe (takeSample mV s) := by
  unfold Machine.takeSample
  extract_lets m
  split_ifs
  · exact hs.of_eq rfl rfl rfl
  · exact hs.closeWindow m

/-- The events of the Regulator, the channels, the supply class and the retarder keep the retarder within its bounds. -/
theorem exec_event_retarderSafe {i : Instr} {s t : State} (hr : i.isRequest = false) (hi : i.ofBraking = true)
    (hs : RetarderSafe s) (ht : exec i s = .next t) : RetarderSafe t := by
  cases i <;> first | exact absurd hr.symm Bool.false_ne_true | exact absurd hi Bool.false_ne_true | skip
  case leverInputChange =>
    cases ht
    exact ⟨hs.cut, hs.stages, hs.output, hs.withheld, hs.low, hs.critical⟩
  all_goals
    simp only [exec, execRegulationPeriod, execHoldLimitExpiry, execVentLimitExpiry, execOutputProved, execOutputOpen,
      execOutputShort, execApplyExpiry, execHoldIntervalExpiry, execOnExpiry, execOffExpiry, execSampleCompletion,
      execLeverSettleExpiry, execHoldOffExpiry, execRampExpiry] at ht
    refine BlockInvariant.whenRunning (fun hs => ?_) hs ht
  case regulationPeriod =>
    split_ifs
    · exact hs.regulationPeriod
    · exact hs
  case holdLimitExpiry c =>
    split_ifs
    · exact RetarderSafe.retarderEvent (hs.formCut (enter_rbu ..) (enter_smn ..))
    · exact hs
  case ventLimitExpiry c =>
    split_ifs
    · refine RetarderSafe.retarderEvent (hs.formCut ?_ ?_)
      · split_ifs <;> simp
      · split_ifs <;> simp
    · exact hs
  case outputProved c sol =>
    refine hs.setChannel ?_
    cases sol <;> rfl
  case outputOpen c sol =>
    split_ifs
    · exact RetarderSafe.retarderEvent (hs.formCut (lockOut_rbu ..) (lockOut_smn ..))
    · exact hs
  case outputShort c sol =>
    split_ifs
    · exact RetarderSafe.retarderEvent (hs.formCut (lockOut_rbu ..) (lockOut_smn ..))
    · exact hs
  case applyExpiry c =>
    split
    · split_ifs
      · exact hs.setChannel rfl
      · exact hs
    all_goals exact hs
  case holdIntervalExpiry c =>
    split
    · split_ifs
      · refine RetarderSafe.retarderEvent ?_
        unfold endHoldInterval
        split_ifs
        · exact hs.setChannel rfl
        · exact hs.formCut (enter_rbu ..) (enter_smn ..)
      · exact hs
    all_goals exact hs
  case onExpiry c =>
    split
    · split_ifs
      · exact hs.setChannel rfl
      · exact hs
    all_goals exact hs
  case offExpiry c =>
    split
    · split_ifs
      · refine RetarderSafe.retarderEvent ?_
        unfold endOffTime
        split_ifs
        · exact hs.setChannel rfl
        · exact hs.formCut (endTest_rbu ..) (endTest_smn ..)
      · exact hs
    all_goals exact hs
  case sampleCompletion =>
    split_ifs
    · exact (retarderSafe_sensingFree.grant (retarderSafe_sensingFree.inputs _ _ hs)).takeSample _
    · exact hs
  case leverSettleExpiry =>
    split_ifs
    · exact hs.settleLever.retarderEvent
    · exact hs
  case holdOffExpiry =>
    split
    · exact hs
    · next h _ =>
      split_ifs
      · exact (hs.endHoldOff h).retarderEvent
      · exact hs
  case rampExpiry =>
    split_ifs
    · exact hs.endRamp.retarderEvent
    · exact hs

/-- What a reset leaves: no channel regulates and the retarder stands at 0 (R144). -/
theorem retarderSafe_enterReset (cause : ResetCause) (s : State) : RetarderSafe (enterReset cause s) := by
  rw [retarderSafe_iff_within]
  refine ⟨?_, ⟨Nat.zero_le _, Nat.zero_le _, Nat.zero_le _⟩, le_rfl, fun _ => rfl, fun _ => Nat.zero_le _, fun _ => rfl⟩
  refine (Bool.eq_false_iff.2 fun h => ?_).symm
  obtain ⟨c, hc⟩ := (cutting_iff_cuts _).1 h
  simp [enterReset, Channel.cuts, ChannelState.regulating] at hc

theorem retarderSafe_invariant : BlockInvariant RetarderSafe :=
  retarderSafe_sensingFree.blockInvariant (fun _ _ hs => hs.of_eq rfl rfl rfl) (fun _ hs => hs.of_eq rfl rfl rfl)
    (fun _ hs => hs.of_eq rfl rfl rfl) retarderSafe_enterReset (fun _ _ hi hs => carryRequest_retarderSafe hi hs)
    fun _ _ _ hr hi hs ht => exec_event_retarderSafe hr hi hs ht

/-- Settles O56: the cut follows the channels at every event that moves one, and each formation of the allowed stage stays
within its caps; the channels need not be whole for it. -/
theorem retarderKept : Obligations.RetarderKept :=
  fun _ _ _ hs ht => retarderSafe_invariant.step hs ht

end Sys2Proof.Machine
end

