-- ==== Sys2Proof/Proofs/Lockouts.lean ====
section
/-! SUPPORT. What a channel's lockout hands over and leaves, and the events that lead to one: the limit expiries and the output
faults (R61 to R65, R73, R91). -/

namespace Sys2Proof.Machine

/-! ### Frames and channels -/

/-- Frames handed over: the lanes and the memory alone change, by the clock, the lanes and the memory alone. -/
structure Handover (g : State → State) : Prop where
  only : ∀ s, g s = { s with lnc := (g s).lnc, mem := (g s).mem }
  alike : ∀ u v, Alike u v → Alike (g u) (g v)

/-- Frames handed over and an update of a channel do not meet. -/
theorem Handover.setChannel {g : State → State} (h : Handover g) (c : Fin 6) (x : Channel) (s : State) :
    g (s.setChannel c x) = (g s).setChannel c x := by
  have halike := h.alike (s.setChannel c x) s ⟨rfl, rfl, rfl⟩
  have hset := h.only (s.setChannel c x)
  rw [halike.lnc, halike.mem] at hset
  rw [hset]
  conv_rhs => rw [h.only s]
  rfl

theorem raiseEvent_handover (kind : EventKind) (subject : Byte) (v1 v2 : Int) :
    Handover (raiseEvent kind subject v1 v2) :=
  ⟨raiseEvent_eq kind subject v1 v2, fun _ _ h => h.raiseEvent kind subject v1 v2⟩

theorem abortFault_handover (c : Fin 6) (cause : LockoutCause) (sol : Solenoid) (a : Activity) :
    Handover (abortFault c cause sol a) := by
  cases a with
  | none => exact ⟨fun _ => rfl, fun _ _ h => h⟩
  | train => exact ⟨fun _ => rfl, fun _ _ h => h⟩
  | test => exact ⟨respond_eq _ _ _ _, fun _ _ h => h.respond _ _ _ _⟩

/-! ### The entry to LOCKOUT (R65) -/

/-- A channel locked out with its episode closed: the cause, its outputs and timers; the profiles stay (R65). -/
def Channel.locked (cause : LockoutCause) (x : Channel) : Channel :=
  { x with
    state := .lockout, cause := some cause, holdTimer := none, ventTimer := none, ventEntry := none, episode := none
    inlet := {}, vent := {}, activity := .none }

theorem entered_lockout (cause : LockoutCause) (s : State) (x : Channel) :
    ({ entered .lockout s x with cause := some cause } : Channel) =
      { x.locked cause with episode := (x.endVentPhase s).episode } := by
  obtain ⟨_, _, _, _, _, _, ventEntry, _, _, _, _⟩ := x
  cases ventEntry <;> rfl

theorem endVentPhase_episode_some {x : Channel} {ep : Episode} (h : x.episode = some ep) (s : State) :
    (x.endVentPhase s).episode = some (ventedEpisode s x.ventEntry ep) := by
  obtain ⟨_, _, _, _, _, _, ventEntry, _, _, _, _⟩ := x
  subst h
  cases ventEntry <;> rfl

section

variable {c : Fin 6} {s : State}

/-- The channel as its lockout's episode is about to close. -/
theorem abortFault_self (c : Fin 6) (cause : LockoutCause) (sol : Solenoid) (a : Activity) (y : Channel) (s : State) :
    (abortFault c cause sol a (s.setChannel c y)).channels[c] = y := by
  rw [abortFault_channels, State.setChannel_self]

/-- A lockout without an open episode: a test's answer, CHANNEL_LOCKOUT and the staged profile (R65, R91). -/
theorem lockOut_of_none (cause : LockoutCause) (sol : Solenoid) (h : s.channels[c].episode = none) :
    lockOut c cause sol s =
      applyStaged c (raiseEvent .channelLockout (BitVec.ofNat 8 c) cause.code.toNat
        (lockoutValue cause sol s.channels[c])
        (abortFault c cause sol s.channels[c].activity (s.setChannel c (s.channels[c].locked cause)))) := by
  have hepisode : (s.channels[c].endVentPhase s).episode = none := (endVentPhase_episode_none s).2 h
  have hentered : ({ entered .lockout s s.channels[c] with cause := some cause } : Channel) = s.channels[c].locked cause := by
    rw [entered_lockout, hepisode]; rfl
  simp only [lockOut, hentered]
  rw [closeEpisode_of_none]
  rw [abortFault_self, endVentPhase_of_none rfl]
  rfl

/-- A lockout with an open episode: the record of the episode, its vent phase ended, comes before CHANNEL_LOCKOUT (R65,
R73). -/
theorem lockOut_of_some (cause : LockoutCause) (sol : Solenoid) {ep : Episode} (h : s.channels[c].episode = some ep) :
    lockOut c cause sol s =
      applyStaged c (raiseEvent .channelLockout (BitVec.ofNat 8 c) cause.code.toNat
        (lockoutValue cause sol s.channels[c])
        (raiseEpisode (episodeRecord c .lockout (ventedEpisode s s.channels[c].ventEntry ep) s.stamp s.reg.vref)
          (abortFault c cause sol s.channels[c].activity (s.setChannel c (s.channels[c].locked cause))))) := by
  let y : Channel := { s.channels[c].locked cause with episode := some (ventedEpisode s s.channels[c].ventEntry ep) }
  have hentered : ({ entered .lockout s s.channels[c] with cause := some cause } : Channel) = y := by
    rw [entered_lockout, endVentPhase_episode_some h]
  have hclosed (u : State) : ({ y.endVentPhase u with episode := none } : Channel) = s.channels[c].locked cause := by
    rw [endVentPhase_of_none rfl]; rfl
  simp only [lockOut, hentered]
  rw [closeEpisode_of_some (ep := ventedEpisode s s.channels[c].ventEntry ep) .lockout
    (by rw [abortFault_self, endVentPhase_of_none rfl]), abortFault_self, hclosed,
    ← (abortFault_handover ..).setChannel, setChannel_setChannel]
  simp only [State.stamp, abortFault_clock, abortFault_reg, State.setChannel_clock, State.setChannel_reg]

end

/-! ### Limit expiries (R61, R62) -/

theorem cutRetarder_of_fits {s : State} (h : s.rbu.cut = cutting s) : cutRetarder s = s.rbu := by
  unfold cutRetarder
  extract_lets r
  rw [← h]
  cases s.rbu.cut <;> simp [r]

/-- Where the cut already stands as the channels give it, nothing is formed (R70). -/
theorem formCut_of_fits {s : State} (h : s.rbu.cut = cutting s) : formCut s = s := by
  have hraised : ¬(cutting s = true ∧ s.rbu.cut = false ∧ s.rbu.holdOff = none) := by
    rintro ⟨hcutting, hcut, -⟩
    rw [hcut, hcutting] at h
    exact Bool.false_ne_true h
  rw [formCut_eq_cutSettled, cutSettled]
  simp only [if_neg hraised]
  rw [cutRetarder_of_fits h]

/-- An event that leaves the retarder alone shows none of its fields anew (R154). -/
theorem retarderEvent_of_rbu {f : State → State} {s : State} (h : (f s).rbu = s.rbu) : retarderEvent f s = f s := by
  rw [retarderEvent_eq_shown, retarderShown, if_pos (by rw [h])]

/-- An update of a channel that goes on cutting as before is all that an event with it does (R70, R154). -/
theorem retarderEvent_setChannel {s : State} (hs : RetarderSafe s) {f : State → State} {c : Fin 6} {x : Channel}
    (hf : f s = formCut (s.setChannel c x)) (h : x.cuts = s.channels[c].cuts) :
    retarderEvent f s = s.setChannel c x := by
  have hform : f s = s.setChannel c x := hf.trans (formCut_of_fits (hs.setChannel h).fits.cut)
  rw [retarderEvent_of_rbu (by rw [hform]; rfl), hform]

theorem Channel.Sound.activity_none {x : Channel} (hx : x.Sound) (h : x.state ≠ .reapply) (h' : x.state ≠ .test) :
    x.activity = .none := by
  have hfits := hx.activity
  cases hs : x.state <;> cases ha : x.activity <;> simp_all [Channel.activityFits]

theorem execHoldLimitExpiry_of_running {s : State} (h : s.held = none) (c : Fin 6) :
    exec (.holdLimitExpiry c) s = .next
      (if s.channels[c].state = .hold ∧ s.due s.channels[c].holdTimer then
        retarderEvent (fun s => formCut (enter c .reapply s)) s else s) :=
  whenRunning_of_not_held h _

theorem execVentLimitExpiry_of_running {s : State} (h : s.held = none) (c : Fin 6) :
    exec (.ventLimitExpiry c) s = .next
      (if s.channels[c].state = .vent ∧ s.due s.channels[c].ventTimer then retarderEvent (ventLimit c) s else s) :=
  whenRunning_of_not_held h _

/-- A channel in HOLD that enters REAPPLY changes nothing but itself (R61, R70, R79). -/
theorem holdLimit_reapply {c : Fin 6} {s : State} (hs : RetarderSafe s) (hx : s.channels[c].Sound) {p : Profile}
    (hstate : s.channels[c].state = .hold) (hp : s.channels[c].profile = some p) :
    retarderEvent (fun s => formCut (enter c .reapply s)) s = s.setChannel c { s.channels[c] with
      state := .reapply
      holdTimer := none
      activity := .train .apply (stampTimer p.applyPulse s)
        { applyPulse := p.applyPulse, holdInterval := p.holdInterval, repeatCount := p.repeatCount
          continuous := p.continuous } 0
      episode := s.channels[c].episode.map fun ep : Episode => { ep with trains := min 255 (ep.trains + 1) }
      inlet := {}
      vent := {} } := by
  obtain ⟨ep, hep⟩ := Option.isSome_iff_exists.1 (hx.regulating (by rw [hstate]; rfl)).2
  have hself : s.channels[c] = { s.channels[c] with episode := some ep } := by rw [← hep]
  have hentered := entered_reapply (u := s) (ep := ep) hp (hx.cause_none (by rw [hstate]; decide))
    (hx.ventEntry_none (by rw [hstate]; decide))
  rw [← hself] at hentered
  have hvent := hx.ventTimer_none (by rw [hstate]; decide)
  refine retarderEvent_setChannel hs ?_ ?_
  · rw [enter_eq_setChannel (.inl rfl), hentered, hep]
    simp only [hvent, Option.map_some]
  · simp only [Channel.cuts, hstate]
    rfl

/-- The episode of a channel at its vent limit: the phase ends and a strike is counted (R62). -/
def strickenEpisode (s : State) (entry : Option Long) (ep : Episode) : Episode :=
  { ventedEpisode s entry ep with strikes := min 2 (ep.strikes + 1) }

/-- The channel at its vent limit, before it leaves VENT (R62). -/
def stricken (s : State) (ep : Episode) (x : Channel) : Channel :=
  { x with ventEntry := none, episode := some (strickenEpisode s x.ventEntry ep) }

theorem countVentStrike_eq {c : Fin 6} {s : State} {ep : Episode} {p : Profile}
    (hep : s.channels[c].episode = some ep) (hp : s.channels[c].profile = some p) :
    countVentStrike c s =
      (raiseEvent .ventLimit (BitVec.ofNat 8 c) (min 2 (ep.strikes + 1) : Nat) p.ventLimit s).setChannel c
        (stricken s ep s.channels[c]) := by
  have hx : (s.channels[c].endVentPhase s).updateEpisode (fun ep => { ep with strikes := min 2 (ep.strikes + 1) }) =
      stricken s ep s.channels[c] := by
    generalize s.channels[c] = x at *
    obtain ⟨_, _, _, _, _, _, ventEntry, _, _, _, _⟩ := x
    subst hep
    cases ventEntry <;> rfl
  rw [← (raiseEvent_handover ..).setChannel]
  simp only [countVentStrike, hx]
  simp only [stricken, hp, Channel.strikes, Option.map_some, Option.getD_some]
  rfl

theorem setChannel_raiseEvent (kind : EventKind) (subject : Byte) (v1 v2 : Int) (c : Fin 6) (x : Channel) (s : State) :
    (raiseEvent kind subject v1 v2 s).setChannel c x =
      { raiseEvent kind subject v1 v2 s with channels := s.channels.set c x } := by
  rw [State.setChannel, raiseEvent_channels]

section

variable {c : Fin 6} {s : State} {p : Profile} {ep : Episode} {e : Long}

/-- The first strike: the channel enters PASS with its episode open (R62). -/
theorem ventLimit_pass (hx : s.channels[c].Sound) (hstate : s.channels[c].state = .vent)
    (hp : s.channels[c].profile = some p) (hep : s.channels[c].episode = some ep)
    (he : s.channels[c].ventEntry = some e) (h : ep.strikes = 0) :
    ventLimit c s = formCut (applyStaged c
      { raiseEvent .ventLimit (BitVec.ofNat 8 c) (min 2 (ep.strikes + 1) : Nat) p.ventLimit s with
        channels := s.channels.set c { s.channels[c] with
          state := .pass, ventTimer := none, ventEntry := none
          episode := some (strickenEpisode s (some e) ep), inlet := {}, vent := {} } }) := by
  have hstrikes : (stricken s ep s.channels[c]).strikes < 2 := by
    simp [stricken, strickenEpisode, Channel.strikes, h]
  have hentered (u : State) : entered .pass u (stricken s ep s.channels[c]) = { s.channels[c] with
      state := .pass, ventTimer := none, ventEntry := none
      episode := some (strickenEpisode s (some e) ep), inlet := {}, vent := {} } := by
    have hcause := hx.cause_none (by rw [hstate]; decide)
    have hhold := hx.holdTimer_none (by rw [hstate]; decide)
    have hactivity := hx.activity_none (by rw [hstate]; decide) (by rw [hstate]; decide)
    simp only [entered, Channel.left, stricken, endVentPhase_of_none, he, hcause, hhold, hactivity]
    rfl
  simp only [ventLimit, countVentStrike_eq hep hp, State.setChannel_self, if_pos hstrikes, enter, hentered,
    setChannel_setChannel]
  rw [setChannel_raiseEvent]

/-- The second strike: the episode closes and the channel is locked out for its vent limit (R62, R65). -/
theorem ventLimit_lockout (hx : s.channels[c].Sound) (hstate : s.channels[c].state = .vent)
    (hp : s.channels[c].profile = some p) (hep : s.channels[c].episode = some ep)
    (he : s.channels[c].ventEntry = some e) (h : ep.strikes ≠ 0) :
    ventLimit c s = formCut (applyStaged c (raiseEvent .channelLockout (BitVec.ofNat 8 c) 2 p.ventLimit
      (raiseEpisode (episodeRecord c .lockout (strickenEpisode s (some e) ep) s.stamp s.reg.vref)
        { raiseEvent .ventLimit (BitVec.ofNat 8 c) (min 2 (ep.strikes + 1) : Nat) p.ventLimit s with
          channels := s.channels.set c { s.channels[c] with
            state := .lockout, cause := some .ventLimit, ventTimer := none, ventEntry := none, episode := none
            inlet := {}, vent := {} } }))) := by
  have hstrikes : ¬(stricken s ep s.channels[c]).strikes < 2 := by
    simp only [stricken, strickenEpisode, Channel.strikes, Option.map_some, Option.getD_some]
    omega
  have hactivity := hx.activity_none (by rw [hstate]; decide) (by rw [hstate]; decide)
  have hlocked : (stricken s ep s.channels[c]).locked .ventLimit = { s.channels[c] with
      state := .lockout, cause := some .ventLimit, ventTimer := none, ventEntry := none, episode := none
      inlet := {}, vent := {} } := by
    have hhold := hx.holdTimer_none (by rw [hstate]; decide)
    simp only [Channel.locked, stricken, hhold, hactivity]
  simp only [ventLimit, countVentStrike_eq hep hp, State.setChannel_self, if_neg hstrikes]
  rw [lockOut_of_some (ep := strickenEpisode s (some e) ep) .ventLimit .inlet
    (by simp only [State.setChannel_self, stricken, he])]
  simp only [State.setChannel_self, setChannel_setChannel, hlocked]
  simp only [setChannel_raiseEvent]
  simp only [stricken, hactivity, hp, abortFault, lockoutValue, Option.map_some, Option.getD_some, State.stamp,
    raiseEvent_clock, raiseEvent_reg]
  rfl

end

/-- Settles O18: the hold limit starts a train and no more; the vent limit counts a strike and sends the channel on by it. -/
theorem limitExpiries : Obligations.LimitExpiries := by
  refine ⟨fun c s hheld hs hsafe => ⟨fun t p hstate htimer hp => ⟨fun ht => ?_, fun ht => ?_⟩, fun hstate => ?_⟩, ?_⟩
  · rw [execHoldLimitExpiry_of_running hheld, if_pos ⟨hstate, by rw [htimer]; exact decide_eq_true ht⟩,
      holdLimit_reapply hsafe (hs c) hstate hp]
    rfl
  · rw [execHoldLimitExpiry_of_running hheld, htimer, if_neg fun h => absurd (of_decide_eq_true h.2) (by omega)]
  · rw [execHoldLimitExpiry_of_running hheld, if_neg fun h => hstate h.1]
  intro c s t p ep e hheld hs hstate htimer hp hep he x counted reported
  have hexec := execVentLimitExpiry_of_running hheld c
  refine ⟨fun ht => ?_, fun ht hstrikes => ?_, fun ht hstrikes => ?_⟩
  · rw [hexec, htimer, if_neg fun h => absurd (of_decide_eq_true h.2) (by omega)]
  · rw [hexec, if_pos ⟨hstate, by rw [htimer]; exact decide_eq_true ht⟩, retarderEvent_eq_shown,
      ventLimit_pass (hs c) hstate hp hep he hstrikes, formCut_eq_cutSettled]
    rfl
  · rw [hexec, if_pos ⟨hstate, by rw [htimer]; exact decide_eq_true ht⟩, retarderEvent_eq_shown,
      ventLimit_lockout (hs c) hstate hp hep he hstrikes, formCut_eq_cutSettled]
    rfl

/-! ### Output monitors and faults (R63, R64) -/

theorem execOutputOpen_of_running {s : State} (h : s.held = none) (c : Fin 6) (sol : Solenoid) :
    exec (.outputOpen c sol) s = .next
      (if (s.channels[c].output sol).energised = true ∧ s.due (s.channels[c].output sol).watch = true then
        retarderShown s.rbu (cutSettled (lockOut c .outputOpen sol s)) else s) := by
  refine (whenRunning_of_not_held h _).trans ?_
  rw [retarderEvent_eq_shown, outputFault, formCut_eq_cutSettled]

theorem execOutputShort_of_running {s : State} (h : s.held = none) (c : Fin 6) (sol : Solenoid) :
    exec (.outputShort c sol) s = .next
      (if (s.channels[c].output sol).energised = true then
        retarderShown s.rbu (cutSettled (lockOut c .outputShort sol s)) else s) := by
  refine (whenRunning_of_not_held h _).trans ?_
  rw [retarderEvent_eq_shown, outputFault, formCut_eq_cutSettled]

/-- Settles O19: a lockout leaves its channel and hands over its frames in the order of R65. -/
theorem outputs : Obligations.Outputs := by
  refine ⟨fun c s hheld => ⟨whenRunning_of_not_held hheld _, whenRunning_of_not_held hheld _⟩, ?_⟩
  intro c sol s cause hheld x o code cut answered closed done
  have ho : s.channels[c].output sol = o := by cases sol <;> rfl
  have hanswered : abortFault c cause sol x.activity cut = answered := by
    simp only [answered]
    cases x.activity <;> cases sol <;> rfl
  have hdone (h : lockoutValue cause sol x = code.toNat) :
      retarderShown s.rbu (cutSettled (lockOut c cause sol s)) = done := by
    simp only [done]
    cases he : x.episode with
    | none =>
      rw [lockOut_of_none cause sol he]
      simp only [closed, he, ← hanswered, ← h]
      rfl
    | some ep =>
      rw [lockOut_of_some cause sol he]
      simp only [closed, he, ← hanswered, ← h]
      cases x.ventEntry <;> simp only [ventedEpisode, x] <;> rfl
  refine ⟨fun hcause henergised ⟨t, hwatch, ht⟩ => ?_, fun hcause henergised => ?_, fun hoff => ⟨?_, ?_⟩⟩
  · subst hcause
    rw [execOutputOpen_of_running hheld, ho, if_pos ⟨henergised, by rw [hwatch]; exact decide_eq_true ht⟩,
      hdone (by cases sol <;> rfl)]
  · subst hcause
    rw [execOutputShort_of_running hheld, ho, if_pos henergised, hdone (by cases sol <;> rfl)]
  · rw [execOutputOpen_of_running hheld, ho, if_neg (fun h => absurd (hoff.symm.trans h.1) Bool.false_ne_true)]
  · rw [execOutputShort_of_running hheld, ho, if_neg (fun h => absurd (hoff.symm.trans h) Bool.false_ne_true)]

end Sys2Proof.Machine
end

