-- ==== Sys2Proof/Proofs/ChannelRequests.lean ====
section
/-! SUPPORT. The channel requests INSTALL-CHANNEL, CLEAR-CHANNEL and VALVE-TEST: their fields, refusals and what a request that
is carried out leaves (R49 to R51, R66, R84 to R86). -/

namespace Sys2Proof.Machine

/-! ### Fields for which 0 selects a default (R49) -/

theorem word_toNat_eq_zero {w : Word} : w.toNat = 0 ↔ w = 0 :=
  ⟨fun h => BitVec.eq_of_toNat_eq h, fun h => by rw [h]; rfl⟩

theorem word_toInt_eq_zero {w : Word} : w.toInt = 0 ↔ w = 0 :=
  ⟨fun h => BitVec.eq_of_toInt_eq h, fun h => by rw [h]; rfl⟩

theorem within_iff {lo hi n : Nat} : within lo hi n = true ↔ lo ≤ n ∧ n ≤ hi := by
  simp only [within, Bool.and_eq_true, decide_eq_true_eq]

theorem withinInt_iff {lo hi n : Int} : withinInt lo hi n = true ↔ lo ≤ n ∧ n ≤ hi := by
  simp only [withinInt, Bool.and_eq_true, decide_eq_true_eq]

/-- A field whose default lies in its range is in range where it is 0 or given in range. -/
theorem within_orDefault {lo hi default : Nat} (h : lo ≤ default ∧ default ≤ hi) (w : Word) :
    within lo hi (orDefault default w.toNat) = true ↔ w = 0 ∨ (lo ≤ w.toNat ∧ w.toNat ≤ hi) := by
  rw [within_iff, orDefault]
  split_ifs with h0
  · exact ⟨fun _ => .inl (word_toNat_eq_zero.1 h0), fun _ => h⟩
  · exact ⟨.inr, fun hw => hw.resolve_left (mt word_toNat_eq_zero.2 h0)⟩

theorem withinInt_orDefaultInt {lo hi default : Int} (h : lo ≤ default ∧ default ≤ hi) (w : Word) :
    withinInt lo hi (orDefaultInt default w.toInt) = true ↔ w = 0 ∨ (lo ≤ w.toInt ∧ w.toInt ≤ hi) := by
  rw [withinInt_iff, orDefaultInt]
  split_ifs with h0
  · exact ⟨fun _ => .inl (word_toInt_eq_zero.1 h0), fun _ => h⟩
  · exact ⟨.inr, fun hw => hw.resolve_left (mt word_toInt_eq_zero.2 h0)⟩

theorem orDefaultInt_word (default : Int) (w : Word) :
    orDefaultInt default w.toInt = if w = 0 then default else w.toInt := by
  simp only [orDefaultInt, word_toInt_eq_zero]

theorem combineOf_of_le {b : Byte} (h : b.toNat ≤ 1) :
    combineOf b = some (if b = 0 then .selectLow else .selectHigh) := by
  have hb : b = 0 ∨ b = 1 := by bv_omega
  rcases hb with rfl | rfl <;> rfl

theorem combineOf_eq_some {b : Byte} {k : Combine} (h : combineOf b = some k) : b.toNat ≤ 1 := by
  unfold combineOf at h
  split_ifs at h with h0 h1
  · simp [h0]
  · simp [h1]

theorem solenoidsOf_of_le {b : Byte} (h : b.toNat ≤ 1) :
    solenoidsOf b = some (if b = 0 then .inlet else .inletAndVent) := by
  have hb : b = 0 ∨ b = 1 := by bv_omega
  rcases hb with rfl | rfl <;> rfl

theorem solenoidsOf_eq_some {b : Byte} {k : TestSolenoids} (h : solenoidsOf b = some k) : b.toNat ≤ 1 := by
  unfold solenoidsOf at h
  split_ifs at h with h0 h1
  · simp [h0]
  · simp [h1]

/-! ### INSTALL-CHANNEL (R49, R50) -/

/-- The slip exit is checked against the slip entry that results, its default included (R49). -/
theorem slipExit_iff {entry exit : Nat} (h : 50 ≤ entry) :
    within 20 (entry - 10) exit = true ↔ 20 ≤ exit ∧ exit + 10 ≤ entry := by
  rw [within_iff]; omega

theorem slipEntry_le {w : Word} (h : w = 0 ∨ (50 ≤ w.toNat ∧ w.toNat ≤ 400)) : 50 ≤ orDefault 150 w.toNat :=
  (within_iff.1 ((within_orDefault (by decide) w).2 h)).1

theorem profileFields_of_inRange {f : ProfileFields} {c : Fin 6} (h : ProfileInRange f) (hc : c.val = f.channel.toNat) :
    profileFields f = some (c, profileGiven f) := by
  obtain ⟨henabled, hcombine, hcontinuous, hdrive, hentry, hexit, hdecel, hgo, hvent, hhold, happly, hinterval⟩ := h
  have hentries := (within_orDefault (default := 150) (by decide) f.slipEntry).2 hentry
  have hexits := (slipExit_iff (exit := orDefault 80 f.slipExit.toNat) (slipEntry_le hentry)).2 hexit
  have hdecels := (withinInt_orDefaultInt (default := -60) (by decide) f.holdDecel).2 hdecel
  have hgoes := (withinInt_orDefaultInt (default := 40) (by decide) f.reaccel).2 hgo
  have hvents := (within_orDefault (default := 1200) (by decide) f.ventLimit).2 hvent
  have hholds := (within_orDefault (default := 400) (by decide) f.holdLimit).2 hhold
  simp only [profileFields, index6_of_val hc, flagOf_of_le henabled, combineOf_of_le hcombine, flagOf_of_le hcontinuous,
    flagOf_of_le hdrive, Option.bind_eq_bind, Option.bind_some, hentries, hexits, hdecels, hgoes, hvents, hholds,
    within_iff.2 happly, within_iff.2 hinterval, Bool.and_true, if_true]
  rw [orDefaultInt_word, orDefaultInt_word]
  rfl

theorem profileFields_eq_none {f : ProfileFields} (h : ¬ProfileInRange f) : profileFields f = none := by
  rw [Option.eq_none_iff_forall_ne_some]
  intro r hr
  simp only [profileFields, Option.bind_eq_bind, Option.bind_eq_some_iff] at hr
  obtain ⟨c, -, enabled, henabled, combine, hcombine, continuous, hcontinuous, drive, hdrive, hr⟩ := hr
  split_ifs at hr with hranges
  simp only [Bool.and_eq_true] at hranges
  obtain ⟨⟨⟨⟨⟨⟨⟨hentry, hexit⟩, hdecel⟩, hgo⟩, hvent⟩, hhold⟩, happly⟩, hinterval⟩ := hranges
  have hentries := (within_orDefault (by decide) f.slipEntry).1 hentry
  exact h ⟨flagOf_eq_some henabled, combineOf_eq_some hcombine, flagOf_eq_some hcontinuous, flagOf_eq_some hdrive,
    hentries, (slipExit_iff (slipEntry_le hentries)).1 hexit, (withinInt_orDefaultInt (by decide) _).1 hdecel,
    (withinInt_orDefaultInt (by decide) _).1 hgo, (within_orDefault (by decide) _).1 hvent,
    (within_orDefault (by decide) _).1 hhold, within_iff.1 happly, within_iff.1 hinterval⟩

theorem profileFields_out {f : ProfileFields} (h : 6 ≤ f.channel.toNat) : profileFields f = none := by
  simp only [profileFields, index6_eq_none h, Option.bind_eq_bind, Option.bind_none]

theorem channelResult_of_val {channel : Byte} {c : Fin 6} (h : c.val = channel.toNat) (s : State) :
    channelResult channel s =
      [channel, s.channels[c].state.code, if s.channels[c].staged.isSome then 1 else 0] := by
  simp only [channelResult, index6_of_val h]
  cases s.channels[c].staged <;> rfl

theorem channelResult_out {channel : Byte} (h : 6 ≤ channel.toNat) (s : State) : channelResult channel s = [channel, 0, 0] := by
  simp only [channelResult, index6_eq_none h]

theorem channelResult_countTake (channel : Byte) (s : State) : channelResult channel (countTake s) = channelResult channel s := by
  simp only [channelResult, countTake_channels]

/-- A channel updated on the state after the take. -/
theorem setChannel_countTake (c : Fin 6) (x : Channel) (s : State) :
    (countTake s).setChannel c x =
      { s with channels := s.channels.set c x, lnc := (countTake s).lnc, mem := (countTake s).mem } := by
  rw [State.setChannel, countTake_eq]

section

variable {tag : Byte} {f : ProfileFields} {s : State}

theorem installChannel_outOfRange (hm : s.mem.wf = true) (hr : Ready (.installChannel tag f) s)
    (h : profileFields f = none) :
    AnsweredAtOnce (.installChannel tag f) s s 0x20 tag .refusedRange (channelResult f.channel s) := by
  refine answered rfl hm hr rfl ?_
  rw [h, carryInstallChannel, channelResult_countTake, ← countTake_eq]

variable {c : Fin 6} {p : Profile}

theorem installChannel_staged (hm : s.mem.wf = true) (hr : Ready (.installChannel tag f) s)
    (hf : profileFields f = some (c, p)) (hc : c.val = f.channel.toNat) (h : s.channels[c].state.regulating = true) :
    AnsweredAtOnce (.installChannel tag f) s
      { s with channels := s.channels.set c { s.channels[c] with staged := some p } } 0x20 tag .staged
      [f.channel, s.channels[c].state.code, 1] := by
  refine answered rfl hm hr rfl ?_
  rw [hf]
  simp only [carryInstallChannel, countTake_channels, h, if_true, channelResult_of_val hc, State.setChannel_self]
  rw [setChannel_countTake]
  rfl

theorem installChannel_done (hm : s.mem.wf = true) (hr : Ready (.installChannel tag f) s)
    (hf : profileFields f = some (c, p)) (hc : c.val = f.channel.toNat) (h : s.channels[c].state.regulating = false) :
    AnsweredAtOnce (.installChannel tag f) s
      { s with channels := s.channels.set c { s.channels[c] with profile := some p, staged := none } } 0x20 tag .done
      [f.channel, s.channels[c].state.code, 0] := by
  refine answered rfl hm hr rfl ?_
  rw [hf]
  simp only [carryInstallChannel, countTake_channels, h, if_false, Bool.false_eq_true, channelResult_of_val hc,
    State.setChannel_self]
  rw [setChannel_countTake]
  rfl

end

/-- Settles O20: the fields decide the profile, the channel's state whether it is staged; and the application of a staged
profile. -/
theorem profiles : Obligations.Profiles := by
  refine ⟨?_, fun c s => ⟨applyStaged_of_none, fun p hp => applyStaged_of_some hp⟩⟩
  intro tag f s hm hr answer
  refine ⟨fun h => ?_, ?_⟩
  · have hrefused := installChannel_outOfRange hm hr (profileFields_out h)
    rwa [channelResult_out h] at hrefused
  intro c hc x
  refine ⟨fun h => ?_, fun h hx => installChannel_staged hm hr (profileFields_of_inRange h hc) hc hx,
    fun h hx => installChannel_done hm hr (profileFields_of_inRange h hc) hc hx⟩
  have hrefused := installChannel_outOfRange hm hr (profileFields_eq_none h)
  rwa [channelResult_of_val hc] at hrefused

/-! ### CLEAR-CHANNEL (R66) -/

theorem clearResult_of_val {channel : Byte} {c : Fin 6} (h : c.val = channel.toNat) (s : State) :
    clearResult channel s =
      [channel, s.channels[c].state.code, (s.channels[c].cause.map LockoutCause.code).getD 0] := by
  simp only [clearResult, index6_of_val h]
  cases s.channels[c].cause <;> rfl

/-- A locked-out channel that is whole has its outputs de-energised. -/
theorem Channel.Sound.lockout_outputs {x : Channel} (hx : x.Sound) (h : x.state = .lockout) :
    x.inlet = .off ∧ x.vent = .off := by
  have houtputs := hx.outputs
  obtain ⟨hinlet, hvent⟩ := hx.monitors
  have hpattern : x.pattern = (false, false) := by simp only [Channel.pattern, h]
  rw [hpattern, Prod.mk.injEq] at houtputs
  obtain ⟨hi, hv⟩ := houtputs
  have hoff {o : Output} (he : o.energised = false) (hw : o.watch = none) : o = .off := by
    cases o; subst he hw; rfl
  exact ⟨hoff hi (hinlet hi), hoff hv (hvent hv)⟩

/-- A channel that leaves LOCKOUT changes its state and has no cause (R66). -/
theorem entered_of_lockout {x : Channel} (hx : x.Sound) (h : x.state = .lockout) {new : ChannelState}
    (hnew : new = .idle ∨ new = .pass) (s : State) : entered new s x = { x with state := new, cause := none } := by
  obtain ⟨hinlet, hvent⟩ := hx.lockout_outputs h
  have hhold := hx.holdTimer_none (by rw [h]; decide)
  have htimer := hx.ventTimer_none (by rw [h]; decide)
  have hentry := hx.ventEntry_none (by rw [h]; decide)
  have hactivity := hx.activity_none (by rw [h]; decide) (by rw [h]; decide)
  rcases hnew with rfl | rfl <;>
    simp only [entered, Channel.left, endVentPhase_of_none hentry, hhold, htimer, hactivity, hinlet, hvent]

theorem enter_of_lockout {s : State} {c : Fin 6} (hx : s.channels[c].Sound) (h : s.channels[c].state = .lockout)
    {new : ChannelState} (hnew : new = .idle ∨ new = .pass) :
    enter c new s = s.setChannel c { s.channels[c] with state := new, cause := none } := by
  have hstaged : s.channels[c].staged = none := staged_of_not_regulating hx (by rw [h]; rfl)
  have happly : enter c new s = applyStaged c (s.setChannel c (entered new s s.channels[c])) := by
    rcases hnew with rfl | rfl <;> rfl
  rw [happly, applyStaged_of_none (by rw [State.setChannel_self, entered_staged]; exact hstaged),
    entered_of_lockout hx h hnew]

theorem eligible_iff (s : State) (c : Fin 6) :
    eligible s c = true ↔
      s.reg.armed = true ∧ s.channels[c].profile.any (·.enabled) = true ∧ s.reg.channels[c].outcome = .governed := by
  simp only [eligible, Channel.enabled, Bool.and_eq_true, beq_iff_eq, and_assoc]

theorem eligible_countTake (s : State) (c : Fin 6) : eligible (countTake s) c = eligible s c := by
  simp only [eligible, countTake_reg, countTake_channels]

theorem RetarderSafe.countTake {s : State} (hs : RetarderSafe s) : RetarderSafe (countTake s) := by
  rw [countTake_eq]; exact retarderSafe_sensingFree.lanes _ _ _ hs

section

variable {tag channel : Byte} {s : State}

theorem clearChannel_outOfRange (hm : s.mem.wf = true) (hr : Ready (.clearChannel tag channel) s)
    (h : 6 ≤ channel.toNat) :
    AnsweredAtOnce (.clearChannel tag channel) s s 0x21 tag .refusedRange [channel, 0, 0] := by
  refine answered rfl hm hr rfl ?_
  simp only [carryClearChannel, clearResult, index6_eq_none h]
  rw [← countTake_eq]

variable {c : Fin 6} (hc : c.val = channel.toNat)

include hc

theorem clearChannel_refused (hm : s.mem.wf = true) (hr : Ready (.clearChannel tag channel) s)
    (h : s.channels[c].state ≠ .lockout ∨ s.reg.settings.floor ≤ s.reg.vref) :
    AnsweredAtOnce (.clearChannel tag channel) s s 0x21 tag .refusedState
      [channel, s.channels[c].state.code, (s.channels[c].cause.map LockoutCause.code).getD 0] := by
  refine answered rfl hm hr rfl ?_
  simp only [carryClearChannel, index6_of_val hc, clearResult_of_val hc, countTake_channels, countTake_reg, if_pos h]
  rw [← countTake_eq]

theorem clearChannel_done (hm : s.mem.wf = true) (hs : RetarderSafe s) (hx : s.channels[c].Sound)
    (hr : Ready (.clearChannel tag channel) s) (hlock : s.channels[c].state = .lockout)
    (hv : s.reg.vref < s.reg.settings.floor) {new : ChannelState} (hnew : new = if eligible s c then .pass else .idle) :
    AnsweredAtOnce (.clearChannel tag channel) s
      { s with channels := s.channels.set c { s.channels[c] with state := new, cause := none } } 0x21 tag .done
      [channel, new.code, 0] := by
  have hrest : new = .idle ∨ new = .pass := by
    rw [hnew]; split_ifs <;> simp
  have hevent := retarderEvent_setChannel hs.countTake (c := c)
    (x := { s.channels[c] with state := new, cause := none })
    (f := fun u => Machine.formCut (enter c (if eligible u c then .pass else .idle) u))
    (by
      rw [eligible_countTake, ← hnew, enter_of_lockout (by rwa [countTake_channels]) (by rwa [countTake_channels]) hrest,
        countTake_channels])
    (by
      rw [countTake_channels, Channel.cuts_of_not_regulating (x := s.channels[c]) (by rw [hlock]; rfl)]
      exact Channel.cuts_of_not_regulating (by rcases hrest with h | h <;> rw [h] <;> rfl))
  refine answered rfl hm hr rfl ?_
  simp only [carryClearChannel, index6_of_val hc, countTake_channels, countTake_reg, hlock,
    if_neg (show ¬(ChannelState.lockout ≠ .lockout ∨ s.reg.settings.floor ≤ s.reg.vref) by simp [hv])]
  rw [hevent, clearResult_of_val hc, State.setChannel_self, setChannel_countTake]
  rfl

end

/-- Settles O21: a channel leaves LOCKOUT as it stands, and no cut follows. -/
theorem clearChannel : Obligations.ClearChannel := by
  intro tag channel s hm hs hsafe hr answer
  refine ⟨clearChannel_outOfRange hm hr, ?_⟩
  intro c hc x new
  refine ⟨clearChannel_refused hc hm hr, fun hlock hv => clearChannel_done hc hm hsafe (hs c) hr hlock hv ?_⟩
  simp only [new, eligible_iff]
  rfl

/-! ### VALVE-TEST (R84 to R86) -/

/-- Every field of a VALVE-TEST but the channel lies in its range (R84, R177). -/
def TestInRange (solenoids continuous : Byte) (onTime offTime : Word) : Prop :=
  solenoids.toNat ≤ 1 ∧ continuous.toNat ≤ 1 ∧ (10 ≤ onTime.toNat ∧ onTime.toNat ≤ 200) ∧
    (10 ≤ offTime.toNat ∧ offTime.toNat ≤ 2000)

/-- The parameters that the fields of a VALVE-TEST in range give (R84). -/
def testGiven (solenoids n continuous : Byte) (onTime offTime : Word) : TestParams :=
  { solenoids := if solenoids = 0 then .inlet else .inletAndVent
    onTime := onTime.toNat, offTime := offTime.toNat, repeatCount := n.toNat, continuous := continuous == 1 }

section

variable {tag channel solenoids n continuous : Byte} {onTime offTime : Word}

theorem testFields_of_inRange (h : TestInRange solenoids continuous onTime offTime) {c : Fin 6}
    (hc : c.val = channel.toNat) :
    testFields channel solenoids n continuous onTime offTime =
      some (c, testGiven solenoids n continuous onTime offTime) := by
  obtain ⟨hsolenoids, hcontinuous, hon, hoff⟩ := h
  simp only [testFields, index6_of_val hc, solenoidsOf_of_le hsolenoids, flagOf_of_le hcontinuous, Option.bind_eq_bind,
    Option.bind_some, within_iff.2 hon, within_iff.2 hoff, Bool.and_self, if_true, testGiven]

theorem testFields_eq_none (h : 6 ≤ channel.toNat ∨ ¬TestInRange solenoids continuous onTime offTime) :
    testFields channel solenoids n continuous onTime offTime = none := by
  rw [Option.eq_none_iff_forall_ne_some]
  intro r hr
  simp only [testFields, Option.bind_eq_bind, Option.bind_eq_some_iff] at hr
  obtain ⟨c, hc, sol, hsolenoids, cont, hcontinuous, hr⟩ := hr
  split_ifs at hr with hranges
  rw [Bool.and_eq_true, within_iff, within_iff] at hranges
  rcases h with h | h
  · exact absurd (index6_eq_some hc) (Nat.not_lt.2 h)
  · exact h ⟨solenoidsOf_eq_some hsolenoids, flagOf_eq_some hcontinuous, hranges.1, hranges.2⟩

theorem testRefusalResult_eq (detail : TestRefusal) (s : State) :
    testRefusalResult channel detail s = [channel, shownChannel s channel, detail.code] := by
  unfold testRefusalResult shownChannel index6
  split_ifs <;> rfl

theorem shownChannel_of_val {s : State} {c : Fin 6} (h : c.val = channel.toNat) :
    shownChannel s channel = s.channels[c].state.code := by
  have hlt : c.val < 6 := c.isLt
  simp only [shownChannel, ← h, dif_pos hlt]
  rfl

theorem shownChannel_countTake (s : State) : shownChannel (countTake s) channel = shownChannel s channel := by
  simp only [shownChannel, countTake_channels]

theorem testRefusal_countTake (c : Fin 6) (s : State) : testRefusal c (countTake s) = testRefusal c s := by
  simp only [testRefusal, countTake_channels, countTake_reg, countTake_smn, countTake_pcu]

/-- On a channel in IDLE or PASS the part's conditions decide the admission (R85). -/
theorem testRefusal_of_free {c : Fin 6} {s : State} (h : s.channels[c].state = .idle ∨ s.channels[c].state = .pass) :
    testRefusal c s =
      if s.reg.vref ≠ 0 then some (.refusedState, .motion)
      else if s.smn.cls = .critical then some (.refusedState, .supply)
      else if s.pcu.lowMark then some (.refusedState, .reservoir) else none := by
  simp only [testRefusal]
  rw [if_neg (by rcases h with h | h <;> rw [h] <;> decide), if_neg (by rcases h with h | h <;> rw [h] <;> decide)]

variable {s : State}

theorem valveTest_outOfRange (hm : s.mem.wf = true)
    (hr : Ready (.valveTest tag channel solenoids n continuous onTime offTime) s)
    (h : 6 ≤ channel.toNat ∨ ¬TestInRange solenoids continuous onTime offTime) :
    AnsweredAtOnce (.valveTest tag channel solenoids n continuous onTime offTime) s s 0x28 tag .refusedRange
      [channel, shownChannel s channel, 0] := by
  refine answered rfl hm hr rfl ?_
  rw [testFields_eq_none h, carryValveTest, testRefusalResult_eq, shownChannel_countTake, ← countTake_eq]
  rfl

/-- A quiet channel enters TEST with its state and the ON phase (R86). -/
theorem testOn_entered {x : Channel} (hx : x.Sound) (h : x.state = .idle ∨ x.state = .pass) (par : TestParams) (u : State) :
    testOn par 0 tag u (entered .test u x) = { x with
      state := .test
      activity := .test .on (stampTimer par.onTime u) par 0 tag
      inlet := driven u x.inlet
      vent := if par.solenoids = .inlet then {} else driven u x.vent } := by
  obtain ⟨hcause, hhold, hvent, hentry, -⟩ := hx.quiet (h.imp_right .inl)
  simp only [testOn, entered, Channel.left, endVentPhase_of_none hentry, hcause, hhold, hvent]
  cases par.solenoids <;> rfl

variable {c : Fin 6} (hc : c.val = channel.toNat) (hin : TestInRange solenoids continuous onTime offTime)

include hc hin

/-- The first admission condition that fails answers the request (R85). -/
theorem valveTest_refused (hm : s.mem.wf = true)
    (hr : Ready (.valveTest tag channel solenoids n continuous onTime offTime) s) {status : Status}
    {detail : TestRefusal} (h : testRefusal c s = some (status, detail)) :
    AnsweredAtOnce (.valveTest tag channel solenoids n continuous onTime offTime) s s 0x28 tag status
      [channel, s.channels[c].state.code, detail.code] := by
  refine answered rfl hm hr rfl ?_
  rw [testFields_of_inRange hin hc]
  simp only [carryValveTest, testRefusal_countTake, h, testRefusalResult_eq, shownChannel_countTake]
  rw [shownChannel_of_val hc]
  rw [← countTake_eq]

/-- An admitted test starts with no response, and no cut follows (R86). -/
theorem valveTest_started (hs : RetarderSafe s) (hx : s.channels[c].Sound)
    (hr : Ready (.valveTest tag channel solenoids n continuous onTime offTime) s) (h : testRefusal c s = none) :
    exec (.valveTest tag channel solenoids n continuous onTime offTime) s =
      .next { countTake s with channels := s.channels.set c { s.channels[c] with
        state := .test
        activity := .test .on (stampTimer onTime.toNat s) (testGiven solenoids n continuous onTime offTime) 0 tag
        inlet := driven s s.channels[c].inlet
        vent := if solenoids = 0 then {} else driven s s.channels[c].vent } } := by
  have hfree := testRefusal_none h
  have hactive : s.channels[c].state.regulating = false := by
    rcases hfree with hidle | hpass
    · rw [hidle]; rfl
    · rw [hpass]; rfl
  have hevent := retarderEvent_setChannel hs.countTake
    (startTest_eq c (testGiven solenoids n continuous onTime offTime) tag (countTake s)) (by
      rw [countTake_channels, Channel.cuts_of_not_regulating hactive]
      exact Channel.cuts_of_not_regulating (congrArg ChannelState.regulating (entered_state ..)))
  rw [exec_of_ready rfl hr, makeTake]
  simp only [carryRequest, carryValveTest, testFields_of_inRange hin hc, testRefusal_countTake, h]
  rw [hevent, countTake_channels, testOn_entered hx hfree, State.setChannel, countTake_channels]
  simp only [stampTimer, driven, countTake_clock, testGiven, ite_eq_left_iff, reduceCtorEq, imp_false, not_not]

end

/-- Settles O24: the refusals in the order of R85, and the start of an admitted test. -/
theorem valveTest : Obligations.ValveTest := by
  intro tag channel solenoids n continuous onTime offTime s hm hs hsafe hr i inRange
  refine ⟨valveTest_outOfRange hm hr, ?_⟩
  intro c hc hin x refused free par
  have hfree (h : free) := testRefusal_of_free (c := c) h
  refine ⟨fun h => ?_, fun htest h => ?_, fun h hv => ?_, fun h hv hcls => ?_, fun h hv hcls hlow => ?_,
    fun h hv hcls hlow => ?_⟩
  · exact valveTest_refused hc hin hm hr (detail := .busy) (by rw [testRefusal, if_pos h])
  · exact valveTest_refused hc hin hm hr (detail := .state) (by rw [testRefusal, if_neg htest, if_pos (not_or.1 h)])
  · exact valveTest_refused hc hin hm hr (detail := .motion) (by rw [hfree h, if_pos hv])
  · exact valveTest_refused hc hin hm hr (detail := .supply) (by rw [hfree h, if_neg (not_not.2 hv), if_pos hcls])
  · exact valveTest_refused hc hin hm hr (detail := .reservoir)
      (by rw [hfree h, if_neg (not_not.2 hv), if_neg hcls, if_pos hlow])
  · exact valveTest_started hc hin hsafe (hs c) hr
      (by rw [hfree h, if_neg (not_not.2 hv), if_neg hcls, if_neg (by rw [hlow]; decide)])

end Sys2Proof.Machine
end

