-- ==== Sys2Proof/Proofs/PulsePhases.lean ====
section
/-! SUPPORT. The phase ends of reapply trains and valve tests, the end of a test other than by a fault, and STOP-TEST (R60,
R80, R81, R86 to R88, R92). -/

namespace Sys2Proof.Machine

/-- A timer that has reached its expiry is due (R78). -/
theorem due_of_le {t : Nat} {s : State} (h : t ≤ s.clock) : s.due (some t) = true := decide_eq_true h

/-! ### A channel that leaves its train or test -/

/-- A channel that is whole and leaves REAPPLY or TEST for IDLE or PASS: its activity is over and its outputs are
de-energised, all else stays (R48, R60, R87). -/
theorem entered_of_activity {x : Channel} (hx : x.Sound) (h : x.state = .reapply ∨ x.state = .test) {new : ChannelState}
    (hnew : new = .idle ∨ new = .pass) (s : State) :
    entered new s x = { x with state := new, activity := .none, inlet := {}, vent := {} } := by
  have hcause := hx.cause_none (by rcases h with h | h <;> rw [h] <;> decide)
  have hhold := hx.holdTimer_none (by rcases h with h | h <;> rw [h] <;> decide)
  have htimer := hx.ventTimer_none (by rcases h with h | h <;> rw [h] <;> decide)
  have hentry := hx.ventEntry_none (by rcases h with h | h <;> rw [h] <;> decide)
  rcases hnew with rfl | rfl <;>
    simp only [entered, Channel.left, endVentPhase_of_none hentry, hcause, hhold, htimer, Output.off]

/-- Where the pattern drives neither output, both outputs are de-energised and their monitors idle (R48, R63). -/
theorem Channel.Sound.outputs_off {x : Channel} (hx : x.Sound) (h : x.pattern = (false, false)) :
    x.inlet = .off ∧ x.vent = .off := by
  have houtputs := hx.outputs
  rw [h, Prod.mk.injEq] at houtputs
  obtain ⟨hinlet, hvent⟩ := houtputs
  obtain ⟨hinletWatch, hventWatch⟩ := hx.monitors
  have hoff {o : Output} (he : o.energised = false) (hw : o.watch = none) : o = .off := by
    cases o; subst he hw; rfl
  exact ⟨hoff hinlet (hinletWatch hinlet), hoff hvent (hventWatch hvent)⟩

/-! ### Reapply trains (R80, R81) -/

section

variable {c : Fin 6} {s : State} {due pulses : Nat} {par : TrainParams}

theorem exec_applyExpiry_of_due (hheld : s.held = none) (ha : s.channels[c].activity = .train .apply due par pulses)
    (hdue : due ≤ s.clock) : exec (.applyExpiry c) s = .next (endApply c par pulses s) := by
  rw [exec, execApplyExpiry, whenRunning_of_not_held hheld]
  simp only [ha, due_of_le hdue, if_true]

theorem exec_holdIntervalExpiry_of_due (hheld : s.held = none)
    (ha : s.channels[c].activity = .train .hold due par pulses) (hdue : due ≤ s.clock) :
    exec (.holdIntervalExpiry c) s = .next (retarderEvent (endHoldInterval c par pulses) s) := by
  rw [exec, execHoldIntervalExpiry, whenRunning_of_not_held hheld]
  simp only [ha, due_of_le hdue, if_true]

/-- A train goes on where it is continuous or has pulses to deliver (R81). -/
theorem endHoldInterval_next (h : par.continuous = true ∨ pulses < par.repeatCount + 1) :
    endHoldInterval c par pulses s =
      s.setChannel c { s.channels[c] with
        activity := .train .apply (stampTimer par.applyPulse s) par pulses, inlet := {} } :=
  if_pos (by rwa [Bool.or_eq_true, decide_eq_true_eq])

/-- A counted train that has delivered its pulses ends in PASS with the episode open (R60, R81). -/
theorem endHoldInterval_done (hcontinuous : par.continuous = false) (hpulses : par.repeatCount + 1 ≤ pulses)
    (hx : s.channels[c].Sound) (hreapply : s.channels[c].state = .reapply) :
    endHoldInterval c par pulses s = formCut (applyStaged c
      (s.setChannel c { s.channels[c] with state := .pass, activity := .none, inlet := {}, vent := {} })) := by
  have hends : endHoldInterval c par pulses s = formCut (enter c .pass s) :=
    if_neg (by rw [hcontinuous, Bool.false_or, decide_eq_true_eq]; omega)
  rw [hends, ← entered_of_activity hx (.inl hreapply) (.inr rfl) s]
  rfl

end

/-- Settles O22: an apply interval counts its pulse, and the train's count decides between the next pulse and PASS. -/
theorem train : Obligations.Train := by
  intro c s due pulses par hheld hdue x put
  refine ⟨fun ha => exec_applyExpiry_of_due hheld ha hdue, fun ha h => ?_, fun ha hcontinuous hpulses hs => ?_⟩
  · rw [exec_holdIntervalExpiry_of_due hheld ha hdue,
      retarderEvent_of_rbu (by rw [endHoldInterval_next h]; rfl), endHoldInterval_next h]
    rfl
  · rw [exec_holdIntervalExpiry_of_due hheld ha hdue, retarderEvent_eq_shown,
      endHoldInterval_done hcontinuous hpulses (hs c) ((hs c).reapply_of_train ha), formCut_eq_cutSettled]
    rfl

/-! ### The end of a test other than by a fault (R87) -/

section

variable {c : Fin 6} {s : State} {phase : TestPhase} {due pulses : Nat} {par : TestParams} {tag : Byte}

/-- A test that runs ends with its response, the channel in the state after it (R87). -/
theorem endTest_of_test (hx : s.channels[c].Sound) (ha : s.channels[c].activity = .test phase due par pulses tag)
    (status : Status) :
    endTest c status s = respond 0x28 tag status (testResult c pulses phase (afterTest s) none none)
      (s.setChannel c { s.channels[c] with state := afterTest s, activity := .none, inlet := {}, vent := {} }) := by
  have htest := hx.test_of_test ha
  have hstaged := (hx.quiet (.inr (.inr htest))).staged
  have hnew := afterTest_rest s
  have henter : enter c (afterTest s) s = applyStaged c (s.setChannel c (entered (afterTest s) s s.channels[c])) := by
    rcases hnew with h | h <;> rw [h] <;> rfl
  rw [← entered_of_activity hx (.inr htest) hnew s, endTest]
  simp only [ha]
  rw [henter, applyStaged_of_none (by rw [State.setChannel_self, entered_staged, hstaged])]

/-- No cut follows the end of a test: neither TEST nor the state after it is a regulating one (R70, R87, R154). -/
theorem retarderEvent_endTest (hs : RetarderSafe s) (hx : s.channels[c].Sound)
    (ha : s.channels[c].activity = .test phase due par pulses tag) (status : Status) {f : State → State}
    (hf : f s = formCut (endTest c status s)) :
    retarderEvent f s = respond 0x28 tag status (testResult c pulses phase (afterTest s) none none)
      (s.setChannel c { s.channels[c] with state := afterTest s, activity := .none, inlet := {}, vent := {} }) := by
  have hcuts : s.channels[c].cuts = false :=
    Channel.cuts_of_not_regulating (congrArg ChannelState.regulating (hx.test_of_test ha))
  have hsafe : RetarderSafe (endTest c status s) := by
    rw [endTest_of_test hx ha]
    refine RetarderSafe.respond (hs.setChannel ?_)
    rw [hcuts]
    exact Channel.cuts_of_not_regulating (by rcases afterTest_rest s with h | h <;> rw [h] <;> rfl)
  have hended : f s = endTest c status s := hf.trans (formCut_of_fits hsafe.fits.cut)
  rw [retarderEvent_of_rbu (by rw [hended, endTest_rbu]), hended, endTest_of_test hx ha]

end

/-! ### Valve tests (R86, R88) -/

section

variable {c : Fin 6} {s : State} {due pulses : Nat} {par : TestParams} {tag : Byte}

theorem exec_onExpiry_of_due (hheld : s.held = none) (ha : s.channels[c].activity = .test .on due par pulses tag)
    (hdue : due ≤ s.clock) :
    exec (.onExpiry c) s = .next (s.setChannel c (testOff par (countPulse pulses) tag s s.channels[c])) := by
  rw [exec, execOnExpiry, whenRunning_of_not_held hheld]
  simp only [ha, due_of_le hdue, if_true]

theorem exec_offExpiry_of_due (hheld : s.held = none) (ha : s.channels[c].activity = .test .off due par pulses tag)
    (hdue : due ≤ s.clock) :
    exec (.offExpiry c) s = .next (retarderEvent (endOffTime c par pulses tag) s) := by
  rw [exec, execOffExpiry, whenRunning_of_not_held hheld]
  simp only [ha, due_of_le hdue, if_true]

/-- The ON pattern energises the inlet, and the vent where the test names both outputs (R86). -/
theorem testOn_eq (x : Channel) : testOn par pulses tag s x = { x with
    activity := .test .on (stampTimer par.onTime s) par pulses tag
    inlet := driven s x.inlet
    vent := if par.solenoids = .inletAndVent then driven s x.vent else {} } := by
  unfold testOn
  cases par.solenoids <;> rfl

/-- A test goes on where it is continuous or has pulses to deliver (R86). -/
theorem endOffTime_next (h : par.continuous = true ∨ pulses < par.repeatCount + 1) :
    endOffTime c par pulses tag s = s.setChannel c (testOn par pulses tag s s.channels[c]) :=
  if_pos (by rwa [Bool.or_eq_true, decide_eq_true_eq])

/-- A counted test that has delivered its pulses completes (R88). -/
theorem endOffTime_done (hcontinuous : par.continuous = false) (hpulses : par.repeatCount + 1 ≤ pulses) :
    endOffTime c par pulses tag s = formCut (endTest c .done s) :=
  if_neg (by rw [hcontinuous, Bool.false_or, decide_eq_true_eq]; omega)

/-- The off time of a test drives neither output (R86). -/
theorem Channel.Sound.off_outputs {x : Channel} (hx : x.Sound) (ha : x.activity = .test .off due par pulses tag) :
    x.inlet = .off ∧ x.vent = .off :=
  hx.outputs_off (by simp only [Channel.pattern, hx.test_of_test ha, ha])

end

/-- Settles O23: an on-time counts its pulse, and the test's count decides between the next cycle and its completion. -/
theorem testPhases : Obligations.TestPhases := by
  intro c s due pulses par tag hheld hdue x put new
  refine ⟨fun ha => exec_onExpiry_of_due hheld ha hdue, fun ha h => ?_, fun ha hcontinuous hpulses hs hsafe => ?_⟩
  · rw [exec_offExpiry_of_due hheld ha hdue, retarderEvent_of_rbu (by rw [endOffTime_next h]; rfl),
      endOffTime_next h, testOn_eq]
    rfl
  · obtain ⟨hinlet, hvent⟩ := (hs c).off_outputs ha
    have hput : s.setChannel c { s.channels[c] with state := new, activity := .none, inlet := {}, vent := {} } =
        put { x with state := new, activity := .none } := by
      simp only [put, x, hinlet, hvent]
      rfl
    rw [exec_offExpiry_of_due hheld ha hdue,
      retarderEvent_endTest hsafe (hs c) ha .done (endOffTime_done hcontinuous hpulses), ← hput]
    rfl

/-! ### STOP-TEST (R92) -/

theorem stopResult_of_val {channel : Byte} {c : Fin 6} (h : c.val = channel.toNat) (s : State) :
    stopResult channel s = [channel, s.channels[c].state.code] := by
  simp only [stopResult, index6_of_val h]

section

variable {tag channel : Byte} {s : State}

theorem stopTest_outOfRange (hm : s.mem.wf = true) (hr : Ready (.stopTest tag channel) s) (h : 6 ≤ channel.toNat) :
    AnsweredAtOnce (.stopTest tag channel) s s 0x29 tag .refusedRange [channel, 0] := by
  refine answered rfl hm hr rfl ?_
  simp only [carryStopTest, stopResult, index6_eq_none h]
  rw [← countTake_eq]

variable {c : Fin 6} (hc : c.val = channel.toNat)

include hc

theorem stopTest_refused (hm : s.mem.wf = true) (hr : Ready (.stopTest tag channel) s)
    (h : s.channels[c].state ≠ .test) :
    AnsweredAtOnce (.stopTest tag channel) s s 0x29 tag .refusedState [channel, s.channels[c].state.code] := by
  refine answered rfl hm hr rfl ?_
  simp only [carryStopTest, index6_of_val hc, stopResult_of_val hc, countTake_channels, if_neg h]
  rw [← countTake_eq]

/-- The stopped test's ABORTED_STOP is handed over before the stop's DONE (R92). -/
theorem stopTest_done (hs : RetarderSafe s) (hx : s.channels[c].Sound) (hr : Ready (.stopTest tag channel) s)
    {phase : TestPhase} {due pulses : Nat} {par : TestParams} {testTag : Byte}
    (ha : s.channels[c].activity = .test phase due par pulses testTag) :
    exec (.stopTest tag channel) s = .next (respond 0x29 tag .done [channel, (afterTest s).code]
      (respond 0x28 testTag .abortedStop (testResult c pulses phase (afterTest s) none none)
        ((countTake s).setChannel c
          { s.channels[c] with state := afterTest s, activity := .none, inlet := {}, vent := {} }))) := by
  have hafter : afterTest (countTake s) = afterTest s := by rw [afterTest, countTake_reg, afterTest]
  have hended := retarderEvent_endTest (c := c) hs.countTake (by rwa [countTake_channels])
    (by rwa [countTake_channels]) .abortedStop (f := fun u => formCut (endTest c .abortedStop u)) rfl
  rw [hafter, countTake_channels] at hended
  rw [exec_of_ready rfl hr, makeTake]
  simp only [carryRequest, carryStopTest, index6_of_val hc, countTake_channels, if_pos (hx.test_of_test ha)]
  rw [hended, stopResult_of_val hc, respond_channels, State.setChannel_self]

end

/-- Settles O25: the test ends as R87 has it, and its answer stands before that of the stop. -/
theorem stopTest : Obligations.StopTest := by
  intro tag channel s hm hs hsafe hr
  refine ⟨stopTest_outOfRange hm hr, ?_⟩
  intro c hc x new
  refine ⟨stopTest_refused hc hm hr, fun phase due par pulses testTag _ ha => ?_⟩
  rw [stopTest_done hc hsafe (hs c) hr ha, State.setChannel, countTake_channels]
  rfl

end Sys2Proof.Machine
end

