-- ==== Sys2Proof/Proofs/Converter.lean ====
section
/-! SUPPORT. The converter: what its arbiter grants, what its two timers raise, and what a completion does whose pass or window
goes on (R95 to R97, R104, R133, R134). -/

namespace Sys2Proof.Machine

/-! ### Four inputs -/

@[simp] theorem four_get {α : Type} (f : Fin 4 → α) (i : Fin 4) : (four f)[i] = f i := by
  fin_cases i <;> rfl

/-- Four inputs taken one by one are the inputs. -/
theorem four_inputs (inputs : Vector Input 4) : (four fun i : Fin 4 => inputs[i]) = inputs := by
  refine Vector.ext fun i hi => ?_
  exact four_get (fun i : Fin 4 => inputs[i]) ⟨i, hi⟩

theorem four_eq_eachInput {α : Type} {f g : Fin 4 → α} (h : ∀ i, f i = g i) : four f = eachInput g := by
  rw [funext h]
  rfl

/-! ### The arbiter (R96) -/

theorem grant_of_idle {s : State} (h : s.pcu.converter = .idle) :
    grant s = { s with pcu := granted s.clock s.pcu } := by
  unfold grant granted
  simp only [h]
  split_ifs
  · rfl
  · rfl
  · cases s; cases ‹PressureUnit›; simp_all

theorem grant_of_converting {s : State} (h : s.pcu.converter ≠ .idle) : grant s = s := by
  cases hc : s.pcu.converter with
  | idle => exact absurd hc h
  | converting claim due => simp only [grant, hc]

/-- The arbiter grants an idle converter, and lets one that is CONVERTING finish first. -/
theorem grant_eq (s : State) :
    grant s = { s with pcu := if s.pcu.converter = .idle then granted s.clock s.pcu else s.pcu } := by
  by_cases h : s.pcu.converter = .idle
  · rw [if_pos h, grant_of_idle h]
  · rw [if_neg h, grant_of_converting h]

/-- A converter is granted alike whatever it did before. -/
theorem granted_withConverter (clock : Nat) (p : PressureUnit) (c : Converter) :
    granted clock { p with converter := c } = granted clock p := rfl

/-! ### The scan timer (R97, R104) -/

/-- The Pressure Unit at a scan timer's expiry, before the arbiter acts: the list that stands in force, the timer running on,
a pass begun and its first entry's claim raised. -/
def scanStarted (p : PressureUnit) : PressureUnit :=
  { enterList p with scanDue := (enterList p).scanDue + 8000, pass := some [], scanClaim := true }

theorem exec_scanTimerExpiry {s : State} (hheld : s.held = none) (hdue : s.pcu.scanDue ≤ s.clock) :
    exec .scanTimerExpiry s = .next (grantScan { s with pcu := scanStarted s.pcu }) :=
  (whenRunning_of_not_held hheld _).trans (congrArg _ (if_pos (decide_eq_true hdue)))

theorem exec_scanTimerExpiry_early {s : State} (hheld : s.held = none) (h : s.clock < s.pcu.scanDue) :
    exec .scanTimerExpiry s = .next s :=
  (whenRunning_of_not_held hheld _).trans (congrArg _ (if_neg (by simpa [State.due] using h)))

/-- The list in force moves the inputs only where it was pending (R104). -/
theorem enterList_eq (p : PressureUnit) :
    enterList p = { p with
      scanList := p.pendingList.getD p.scanList
      pendingList := none
      inputs := eachInput fun i : Fin 4 =>
        if p.pendingList = none then p.inputs[i]
        else if i ∉ p.pendingList.getD p.scanList then { p.inputs[i] with validity := .unused, held := 0, bad := 0, good := 0 }
        else if p.inputs[i].validity = .unused then { p.inputs[i] with validity := .valid, held := 0, bad := 0, good := 0 }
        else p.inputs[i] } := by
  obtain ⟨_, _, _, _, pending, _, _, inputs, _, _, _⟩ := p
  cases pending with
  | none =>
    simp only [if_true]
    rw [show (eachInput fun i : Fin 4 => inputs[i]) = inputs from four_inputs inputs]
    rfl
  | some list =>
    simp only [enterList, Option.getD_some, reduceCtorEq, if_false]
    congr 1
    refine four_eq_eachInput fun i => ?_
    simp only [joinOrLeave, ite_not]

theorem grantScan_eq (s : State) :
    grantScan s = { s with
      pcu := if s.pcu.converter = .idle ∧ s.clock < s.smn.sampleDue then granted s.clock s.pcu else s.pcu } := by
  by_cases h : s.smn.sampleDue ≤ s.clock
  · rw [grantScan, if_pos (due_of_le h), if_neg fun hc => absurd hc.2 (Nat.not_lt.2 h)]
  · rw [grantScan, if_neg (by simpa [State.due] using h), grant_eq]
    simp only [Nat.not_le.1 h, and_true]

/-! ### The sample timer (R133) -/

theorem exec_sampleTimerExpiry {s : State} (hheld : s.held = none) (hdue : s.smn.sampleDue ≤ s.clock) :
    exec .sampleTimerExpiry s = .next (grant { s with
      smn := { s.smn with sampleDue := s.smn.sampleDue + 4000 }, pcu := { s.pcu with supplyClaim := true } }) :=
  (whenRunning_of_not_held hheld _).trans (congrArg _ (if_pos (decide_eq_true hdue)))

theorem exec_sampleTimerExpiry_early {s : State} (hheld : s.held = none) (h : s.clock < s.smn.sampleDue) :
    exec .sampleTimerExpiry s = .next s :=
  (whenRunning_of_not_held hheld _).trans (congrArg _ (if_neg (by simpa [State.due] using h)))

/-- Settles O27: each timer acts where it has run out, and the arbiter grants an idle converter. -/
theorem converterTimers : Obligations.ConverterTimers := by
  constructor
  all_goals intro s hheld; intros
  · refine ⟨fun hdue => ?_, exec_scanTimerExpiry_early hheld⟩
    rw [exec_scanTimerExpiry hheld hdue, grantScan_eq]
    simp only [scanStarted, enterList_eq]
    rfl
  · refine ⟨fun hdue => ?_, exec_sampleTimerExpiry_early hheld⟩
    rw [exec_sampleTimerExpiry hheld hdue, grant_eq]

/-! ### Completed conversions (R95 to R97, R133, R134) -/

theorem conversionDone_iff (claim : Claim) (s : State) :
    conversionDone claim s = true ↔ ∃ due, s.pcu.converter = .converting claim due ∧ due ≤ s.clock := by
  unfold conversionDone
  cases s.pcu.converter with
  | idle => simp
  | converting c due => simp [State.due]

theorem conversionDone_eq_false {claim : Claim} {s : State}
    (h : ∀ due, s.pcu.converter = .converting claim due → s.clock < due) : conversionDone claim s = false := by
  rw [Bool.eq_false_iff, ne_eq, conversionDone_iff]
  rintro ⟨due, hc, hdue⟩
  exact absurd (h due hc) (Nat.not_lt.2 hdue)

/-- The Pressure Unit whose converter has become IDLE. -/
def PressureUnit.freed (p : PressureUnit) : PressureUnit := { p with converter := .idle }

theorem exec_entryConversionCompletion {code : BitVec 12} {due : Nat} {codes : List (BitVec 12)} {s : State}
    (hheld : s.held = none) (hc : s.pcu.converter = .converting .entry due) (hdue : due ≤ s.clock)
    (hpass : s.pcu.pass = some codes) :
    exec (.entryConversionCompletion code) s = .next (grant (recordCode code codes { s with pcu := s.pcu.freed })) := by
  refine (whenRunning_of_not_held hheld _).trans (congrArg _ ((if_pos ?_).trans ?_))
  · exact (conversionDone_iff ..).2 ⟨due, hc, hdue⟩
  · simp only [hpass]
    rfl

theorem exec_entryConversionCompletion_early {code : BitVec 12} {s : State} (hheld : s.held = none)
    (h : ∀ due, s.pcu.converter = .converting .entry due → s.clock < due) :
    exec (.entryConversionCompletion code) s = .next s :=
  (whenRunning_of_not_held hheld _).trans (congrArg _ (if_neg (by simp [conversionDone_eq_false h])))

theorem exec_sampleCompletion {code : BitVec 12} {due : Nat} {s : State} (hheld : s.held = none)
    (hc : s.pcu.converter = .converting .supply due) (hdue : due ≤ s.clock) :
    exec (.sampleCompletion code) s =
      .next (takeSample (sampleOf code.toNat) { s with pcu := granted s.clock s.pcu }) := by
  refine (whenRunning_of_not_held hheld _).trans (congrArg _ ((if_pos ?_).trans ?_))
  · exact (conversionDone_iff ..).2 ⟨due, hc, hdue⟩
  · rw [grant_of_idle rfl, granted_withConverter]

theorem exec_sampleCompletion_early {code : BitVec 12} {s : State} (hheld : s.held = none)
    (h : ∀ due, s.pcu.converter = .converting .supply due → s.clock < due) :
    exec (.sampleCompletion code) s = .next s :=
  (whenRunning_of_not_held hheld _).trans (congrArg _ (if_neg (by simp [conversionDone_eq_false h])))

/-- The minimum of a window into which a sample is taken (R134). -/
theorem takeSample_of_open {mV : Nat} {s : State} (h : s.smn.count + 1 < 10) :
    takeSample mV s = { s with
      smn := { s.smn with count := s.smn.count + 1, minimum := some ((s.smn.minimum.map (min · mV)).getD mV) } } := by
  simp only [takeSample, if_pos h]
  cases s.smn.minimum <;> rfl

theorem recordCode_of_more {code : BitVec 12} {codes : List (BitVec 12)} {s : State}
    (h : codes.length + 1 < s.pcu.scanList.length) :
    recordCode code codes s = { s with pcu := { s.pcu with pass := some (codes ++ [code]), scanClaim := true } } := by
  simp only [recordCode, List.length_append, List.length_singleton, if_pos h]

/-- Settles O28: a code is recorded, or a sample taken, and the freed converter is granted. -/
theorem conversionRecorded : Obligations.ConversionRecorded := by
  refine ⟨fun code s hheld => ⟨fun due codes hc hdue hpass hmore => ?_, exec_entryConversionCompletion_early hheld⟩,
    fun code s hheld => ⟨fun due hc hdue hcount => ?_, exec_sampleCompletion_early hheld⟩⟩
  · rw [exec_entryConversionCompletion hheld hc hdue hpass, recordCode_of_more (s := { s with pcu := s.pcu.freed }) hmore,
      grant_of_idle rfl]
    rfl
  · rw [exec_sampleCompletion hheld hc hdue, takeSample_of_open (s := { s with pcu := granted s.clock s.pcu }) hcount]
    rfl

end Sys2Proof.Machine
end

