-- ==== Sys2Proof/Proofs/PressurePass.lean ====
section
/-! SUPPORT. A pass's completion: how each input is judged, the figures formed from the inputs, the events handed over, and the
rows written behind them (R97, R98, R102 to R109). -/

namespace Sys2Proof.Machine

/-! ### One input's pass (R98, R102, R103) -/

/-- The code an input's live row shows after a pass in which it gave the codes `ks` (R108). -/
def shownCode (x : Input) (ks : List Nat) : Nat :=
  if ks = [] then 0 else (ks.find? (outOfRange x)).getD (ks.sum / ks.length)

theorem judgedInput_of_bad {x : Input} {ks : List Nat} {c : Nat} (h : ks.find? (outOfRange x) = some c) :
    judgedInput x ks = moveInput x (.bad c) := by
  have hne : ks ≠ [] := by rintro rfl; cases h
  have hany : ks.any (outOfRange x) = true :=
    List.any_eq_true.2 ⟨c, List.mem_of_find?_eq_some h, List.find?_some h⟩
  unfold outOfRange at hany
  simp only [judgedInput, if_neg hne, hany, moveInput]
  cases x.validity <;> rfl

theorem judgedInput_of_good {x : Input} {ks : List Nat} (hne : ks ≠ []) (h : ks.find? (outOfRange x) = none) :
    judgedInput x ks = moveInput x (.good (ks.sum / ks.length)) := by
  have hany : ks.any (outOfRange x) = false := List.any_eq_false.2 fun k hk => List.find?_eq_none.1 h k hk
  unfold outOfRange at hany
  simp only [judgedInput, if_neg hne, hany, moveInput]
  cases x.validity <;> rfl

/-- An input off the list stands as it stood; one on it is moved by its first code out of range, or by the mean of its
codes. -/
theorem passResult_cases (x : Input) (ks : List Nat) :
    (ks = [] ∧ passResult x ks = none ∧ judgedInput x ks = x) ∨
    (∃ c, ks ≠ [] ∧ ks.find? (outOfRange x) = some c ∧ passResult x ks = some (.bad c) ∧
      judgedInput x ks = moveInput x (.bad c)) ∨
    (ks ≠ [] ∧ ks.find? (outOfRange x) = none ∧ passResult x ks = some (.good (ks.sum / ks.length)) ∧
      judgedInput x ks = moveInput x (.good (ks.sum / ks.length))) := by
  by_cases hne : ks = []
  · subst hne; exact .inl ⟨rfl, rfl, rfl⟩
  have hresult := passResult.eq_1 x ks
  rw [if_neg (by simpa using hne)] at hresult
  cases h : ks.find? (outOfRange x) with
  | some c => exact .inr (.inl ⟨c, hne, rfl, by rw [hresult, h], judgedInput_of_bad h⟩)
  | none => exact .inr (.inr ⟨hne, rfl, by rw [hresult, h], judgedInput_of_good hne h⟩)

theorem moved_eq_judgedInput (x : Input) (ks : List Nat) :
    ((passResult x ks).map (moveInput x)).getD x = judgedInput x ks := by
  rcases passResult_cases x ks with ⟨-, hr, hj⟩ | ⟨c, -, -, hr, hj⟩ | ⟨-, -, hr, hj⟩ <;> rw [hr, hj] <;> rfl

theorem resultCode_eq_shownCode (x : Input) (ks : List Nat) :
    ((passResult x ks).map (·.code)).getD 0 = shownCode x ks := by
  rcases passResult_cases x ks with ⟨hks, hr, -⟩ | ⟨c, hks, hf, hr, -⟩ | ⟨hks, hf, hr, -⟩ <;>
    rw [hr, shownCode]
  · rw [if_pos hks]; rfl
  · rw [if_neg hks, hf]; rfl
  · rw [if_neg hks, hf]; rfl

/-- A good pass leads no input to FAULTY (R103). -/
theorem faulty_of_good {x : Input} {c : Nat} (h : (moveInput x (.good c)).validity = .faulty) : x.validity = .faulty := by
  cases hv : x.validity <;> simp_all [moveInput, Input.restored]

/-! ### The events of a pass (R103, R105, R106) -/

/-- The event of an input that stood as `x`, gave the codes `ks` and stands as `y` (R103). -/
def inputReport (i : Fin 4) (x y : Input) (ks : List Nat) : List Report :=
  if x.validity ≠ .faulty ∧ y.validity = .faulty then
    [(.pressureFault, BitVec.ofNat 8 i, ((ks.find? (outOfRange x)).getD 0 : Nat), y.held)]
  else if x.validity = .faulty ∧ y.validity = .valid then [(.pressureRestored, BitVec.ofNat 8 i, y.held, 0)]
  else []

/-- The event of a change of demand's state (R105). -/
def demandReport : Option Nat → Option Nat → List Report
  | some p, none => [(.demandBlind, 0, p, 0)]
  | none, some p => [(.demandSeen, 0, p, 0)]
  | some _, some _ | none, none => []

/-- The event of a change of the reservoir-low mark (R106). -/
def markReport (old new : Bool) (reservoir : Option Nat) (threshold : Nat) : List Report :=
  if old = false ∧ new = true then [(.reservoirLow, 0, (reservoirWord reservoir).toNat, threshold)]
  else if old = true ∧ new = false then [(.reservoirRestored, 0, (reservoirWord reservoir).toNat, threshold)]
  else []

theorem inputEvent_eq (i : Fin 4) (x : Input) (ks : List Nat) (s : State) :
    inputEvent i x (judgedInput x ks) (passResult x ks) s = reportAll (inputReport i x (judgedInput x ks) ks) s := by
  rcases passResult_cases x ks with ⟨-, hr, hj⟩ | ⟨c, -, hf, hr, -⟩ | ⟨-, -, hr, hj⟩ <;>
    simp only [inputEvent, inputReport, hr]
  · rw [hj, if_neg fun h => h.1 h.2, if_neg fun h => by simp [h.1] at h]
    rfl
  · rw [hf]
    split_ifs <;> rfl
  · have hno : ¬(x.validity ≠ .faulty ∧ (judgedInput x ks).validity = .faulty) := fun h =>
      h.1 (faulty_of_good (hj ▸ h.2))
    rw [if_neg hno, if_neg hno]
    split_ifs <;> rfl

theorem demandEvent_eq (old new : Option Nat) (s : State) : demandEvent old new s = reportAll (demandReport old new) s := by
  cases old <;> cases new <;> rfl

theorem markEvent_eq (old new : Bool) (reservoir : Option Nat) (threshold : Nat) (s : State) :
    markEvent old new reservoir threshold s = reportAll (markReport old new reservoir threshold) s := by
  cases old <;> cases new <;> rfl

/-! ### Events handed over in order -/

theorem reportAll_append (l l' : List Report) (s : State) : reportAll (l ++ l') s = reportAll l' (reportAll l s) :=
  List.foldl_append

theorem reportAll_keeps {α : Type} (g : State → α) (h : ∀ kind subject v1 v2 u, g (raiseEvent kind subject v1 v2 u) = g u)
    (l : List Report) (s : State) : g (reportAll l s) = g s :=
  foldl_keeps g (fun _ _ => h ..) l s

/-- Events change the lanes and the memory alone. -/
theorem reportAll_eq (l : List Report) (s : State) :
    reportAll l s = { s with lnc := (reportAll l s).lnc, mem := (reportAll l s).mem } := by
  apply State.eq_with_lanes <;> exact reportAll_keeps _ (fun _ _ _ _ _ => by simp) l s

theorem reportAll_alike {u v : State} (h : Alike u v) (l : List Report) : Alike (reportAll l u) (reportAll l v) := by
  induction l generalizing u v with
  | nil => exact h
  | cons e l ih => exact ih (h.raiseEvent ..)

theorem reportAll_wf (l : List Report) {s : State} (hm : s.mem.wf = true) : (reportAll l s).mem.wf = true := by
  induction l generalizing s with
  | nil => exact hm
  | cons e l ih => exact ih (raiseEvent_wf _ _ _ _ hm)

theorem reportAll_read_below (l : List Report) {s : State} (hm : s.mem.wf = true) {a : Nat} (ha : a < 0xC00) :
    (reportAll l s).mem.read a = s.mem.read a := by
  induction l generalizing s with
  | nil => rfl
  | cons e l ih => exact (ih (raiseEvent_wf _ _ _ _ hm)).trans (raiseEvent_read_below _ _ _ _ hm ha)

/-! ### The figures of a pass (R105, R106) -/

/-- An input after a pass with its codes. -/
def passInput (p : PressureUnit) (codes : List (BitVec 12)) (i : Fin 4) : Input :=
  judgedInput p.inputs[i] (entryCodes p.scanList codes i)

/-- The Pressure Unit after a pass with its codes, before the arbiter acts. -/
def passed (threshold : Nat) (codes : List (BitVec 12)) (p : PressureUnit) : PressureUnit :=
  let inputs := eachInput (passInput p codes)
  { p with
    pass := none, inputs := inputs, demand := demandOf inputs, reservoir := reservoirOf inputs
    lowMark := markAfter p.lowMark (reservoirOf inputs) threshold }

@[simp] theorem passed_input (threshold : Nat) (codes : List (BitVec 12)) (p : PressureUnit) (i : Fin 4) :
    (passed threshold codes p).inputs[i] = passInput p codes i := four_get (passInput p codes) i

/-- The events of a pass that finds the unit as `p` and leaves it as `q`, in the order of R97. -/
def passEvents (p q : PressureUnit) (codes : List (BitVec 12)) (threshold : Nat) : List Report :=
  (inputIndices.flatMap fun i => inputReport i p.inputs[i] q.inputs[i] (entryCodes p.scanList codes i))
    ++ demandReport p.demand q.demand ++ markReport p.lowMark q.lowMark q.reservoir threshold

/-- The 14 bytes behind the edition word of an input's live row (R108, 11.8). -/
def inputRowBytes (x : Input) (code occurrences : Nat) : List Byte :=
  [x.validity.code, x.role.code] ++ le16 (BitVec.ofNat 16 x.zero) ++ le16 (BitVec.ofNat 16 x.full)
    ++ le16 (BitVec.ofNat 16 code) ++ le16 (BitVec.ofNat 16 x.held)
    ++ [BitVec.ofNat 8 occurrences, BitVec.ofNat 8 x.bad, BitVec.ofNat 8 x.good, 0]

/-- The row of an input at the completion of a pass that finds the unit as `p`. -/
def passRow (p : PressureUnit) (codes : List (BitVec 12)) (i : Fin 4) : List Byte :=
  inputRowBytes (passInput p codes i) (shownCode p.inputs[i] (entryCodes p.scanList codes i)) (p.scanList.count i)

/-! ### The four live rows and the status fields (R108, R109) -/

/-- Live rows, each of one field behind its edition word, rewritten one after another. -/
def rewriteRows {ι : Type} (base : ι → Nat) (row : ι → List Byte) (l : List ι) (s : State) : State :=
  l.foldl (fun u i => rewrite (base i) [(2, row i)] u) s

theorem rewriteRows_keeps {α ι : Type} (g : State → α) (h : ∀ base fields u, g (rewrite base fields u) = g u)
    (base : ι → Nat) (row : ι → List Byte) (l : List ι) (s : State) : g (rewriteRows base row l s) = g s :=
  foldl_keeps g (fun _ _ => h ..) l s

/-- The unit's status fields rewritten where they differ from those of `p` (R109). -/
def pressureStatus (p : PressureUnit) (s : State) : State :=
  if s.pcu.statusFields = p.statusFields then s else rewriteStatus s.pcu.statusFields s

/-- What a pass leaves in the memory behind its events: the four rows and the status fields. -/
def passShown (p : PressureUnit) (codes : List (BitVec 12)) (s : State) : State :=
  pressureStatus p (rewriteRows pressureRowBase (passRow p codes) inputIndices s)

theorem passShown_keeps {α : Type} (g : State → α) (h : ∀ base fields u, g (rewrite base fields u) = g u)
    (p : PressureUnit) (codes : List (BitVec 12)) (s : State) : g (passShown p codes s) = g s := by
  have hrows := rewriteRows_keeps g h pressureRowBase (passRow p codes) inputIndices s
  unfold passShown pressureStatus
  split_ifs
  · exact hrows
  · exact (h ..).trans hrows

/-- The rows and status fields change the memory alone. -/
theorem passShown_eq (p : PressureUnit) (codes : List (BitVec 12)) (s : State) :
    passShown p codes s = { s with mem := (passShown p codes s).mem } := by
  have hlnc := passShown_keeps State.lnc rewrite_lnc p codes s
  rw [State.eq_with_lanes (s := s) (t := passShown p codes s), hlnc]
  all_goals exact passShown_keeps _ (fun _ _ _ => by simp) p codes s

/-! ### A pass completed (R97) -/

/-- A row's rewrite at a completion, in a state whose Pressure Unit is the one the pass left. -/
theorem rewriteInput_eq {p : PressureUnit} {codes : List (BitVec 12)} {threshold : Nat} {u : State}
    (h : u.pcu = passed threshold codes p) (i : Fin 4) :
    rewriteInput (four fun i => passResult p.inputs[i] (entryCodes p.scanList codes i)) i u =
      rewrite (pressureRowBase i) [(2, passRow p codes i)] u := by
  have hlist : (passed threshold codes p).scanList = p.scanList := rfl
  simp only [rewriteInput, pressureRow, h, passed_input, hlist, four_get, resultCode_eq_shownCode, passRow, inputRowBytes]

theorem rewriteInputs_eq {p : PressureUnit} {codes : List (BitVec 12)} {threshold : Nat} {u : State}
    (h : u.pcu = passed threshold codes p) (l : List (Fin 4)) :
    l.foldl (fun s i => rewriteInput (four fun i => passResult p.inputs[i] (entryCodes p.scanList codes i)) i s) u =
      rewriteRows pressureRowBase (passRow p codes) l u := by
  induction l generalizing u with
  | nil => simp only [rewriteRows, List.foldl_nil]
  | cons i l ih =>
    rw [List.foldl_cons, rewriteInput_eq h, ih ((rewrite_pcu ..).trans h)]
    simp only [rewriteRows, List.foldl_cons]

theorem codesOf_eq_entryCodes : codesOf = entryCodes := rfl

theorem inputEvents_eq (p : PressureUnit) (codes : List (BitVec 12)) (l : List (Fin 4)) (s : State) :
    l.foldl (fun s i => inputEvent i p.inputs[i] (passInput p codes i)
        (passResult p.inputs[i] (entryCodes p.scanList codes i)) s) s =
      reportAll (l.flatMap fun i => inputReport i p.inputs[i] (passInput p codes i) (entryCodes p.scanList codes i)) s := by
  induction l generalizing s with
  | nil => rfl
  | cons i l ih =>
    have hone : inputEvent i p.inputs[i] (passInput p codes i) (passResult p.inputs[i] (entryCodes p.scanList codes i)) s
        = reportAll (inputReport i p.inputs[i] (passInput p codes i) (entryCodes p.scanList codes i)) s :=
      inputEvent_eq ..
    rw [List.foldl_cons, List.flatMap_cons, reportAll_append, ← ih, hone]

/-- A completion forms the figures, hands over its events and writes its rows (R97). -/
theorem completePass_eq (codes : List (BitVec 12)) (s : State) :
    completePass codes s =
      passShown s.pcu codes
        (reportAll (passEvents s.pcu (passed s.reg.settings.reservoirLow codes s.pcu) codes s.reg.settings.reservoirLow)
          { s with pcu := passed s.reg.settings.reservoirLow codes s.pcu }) := by
  unfold completePass
  extract_lets old results inputs demand reservoir threshold mark new u events blind marked rows
  have hinputs : inputs = eachInput (passInput old codes) :=
    four_eq_eachInput fun i => by rw [four_get]; exact moved_eq_judgedInput ..
  have hinput (i : Fin 4) : inputs[i] = passInput old codes i := by rw [hinputs]; exact four_get _ i
  have hnew : new = passed threshold codes old := by
    simp only [new, mark, demand, reservoir, hinputs]
    rfl
  have hmarked : marked = reportAll (passEvents old new codes threshold) u := by
    have hevents := inputEvents_eq old codes inputIndices u
    have hnewInput (i : Fin 4) : new.inputs[i] = passInput old codes i := hinput i
    simp only [passEvents, reportAll_append, hnewInput, ← hevents, ← demandEvent_eq, ← markEvent_eq]
    simp only [marked, blind, events, results, hinput, four_get, codesOf_eq_entryCodes, new]
  have hpcu : marked.pcu = new := by
    rw [hmarked, reportAll_keeps State.pcu raiseEvent_pcu]
  have hrows : rows = rewriteRows pressureRowBase (passRow old codes) inputIndices marked :=
    rewriteInputs_eq (hpcu.trans hnew) _
  have hrowsPcu : rows.pcu = new := by rw [hrows, rewriteRows_keeps State.pcu rewrite_pcu, hpcu]
  rw [passShown, ← hnew, ← hmarked, ← hrows, pressureStatus, hrowsPcu]

/-! ### The figures' meaning (R105, R106) -/

theorem mem_usableValues {role : Role → Bool} {inputs : Vector Input 4} {v : Nat} :
    v ∈ usableValues role inputs ↔
      ∃ i : Fin 4, (role inputs[i].role = true ∧ inputs[i].usable = true) ∧ inputs[i].held = v := by
  simp only [usableValues, List.mem_map, List.mem_filter, Vector.mem_toList_iff, Vector.mem_iff_getElem, Bool.and_eq_true]
  constructor
  · rintro ⟨x, ⟨⟨i, hi, rfl⟩, h⟩, hv⟩
    exact ⟨⟨i, hi⟩, h, hv⟩
  · rintro ⟨i, h, hv⟩
    exact ⟨_, ⟨⟨i.val, i.isLt, rfl⟩, h⟩, hv⟩

theorem counts_demand_iff (x : Input) :
    (x.role.isDemand = true ∧ x.usable = true) ↔ Counts [.demandFront, .demandRear] x := by
  unfold Counts Input.usable
  cases x.role <;> cases x.validity <;> simp [Role.isDemand]

theorem counts_reservoir_iff (x : Input) :
    (x.role.isReservoir = true ∧ x.usable = true) ↔ Counts [.reservoirFront, .reservoirRear] x := by
  unfold Counts Input.usable
  cases x.role <;> cases x.validity <;> simp [Role.isReservoir]

theorem demandOf_eq_some_iff (inputs : Vector Input 4) (v : Nat) :
    demandOf inputs = some v ↔
      (∃ i : Fin 4, Counts [.demandFront, .demandRear] inputs[i] ∧ inputs[i].held = v) ∧
        ∀ i : Fin 4, Counts [.demandFront, .demandRear] inputs[i] → inputs[i].held ≤ v := by
  rw [demandOf, List.max?_eq_some_iff]
  simp only [mem_usableValues, counts_demand_iff]
  grind

theorem reservoirOf_eq_some_iff (inputs : Vector Input 4) (v : Nat) :
    reservoirOf inputs = some v ↔
      (∃ i : Fin 4, Counts [.reservoirFront, .reservoirRear] inputs[i] ∧ inputs[i].held = v) ∧
        ∀ i : Fin 4, Counts [.reservoirFront, .reservoirRear] inputs[i] → v ≤ inputs[i].held := by
  rw [reservoirOf, List.min?_eq_some_iff]
  simp only [mem_usableValues, counts_reservoir_iff]
  grind

/-! ### The command that completes a pass -/

@[simp] theorem granted_inputs (clock : Nat) (p : PressureUnit) : (granted clock p).inputs = p.inputs := by
  unfold granted; split_ifs <;> rfl

@[simp] theorem granted_scanList (clock : Nat) (p : PressureUnit) : (granted clock p).scanList = p.scanList := by
  unfold granted; split_ifs <;> rfl

@[simp] theorem granted_pendingList (clock : Nat) (p : PressureUnit) :
    (granted clock p).pendingList = p.pendingList := by
  unfold granted; split_ifs <;> rfl

@[simp] theorem granted_demand (clock : Nat) (p : PressureUnit) : (granted clock p).demand = p.demand := by
  unfold granted; split_ifs <;> rfl

@[simp] theorem granted_reservoir (clock : Nat) (p : PressureUnit) : (granted clock p).reservoir = p.reservoir := by
  unfold granted; split_ifs <;> rfl

@[simp] theorem granted_lowMark (clock : Nat) (p : PressureUnit) : (granted clock p).lowMark = p.lowMark := by
  unfold granted; split_ifs <;> rfl

theorem recordCode_of_last {code : BitVec 12} {codes : List (BitVec 12)} {s : State}
    (h : s.pcu.scanList.length ≤ codes.length + 1) :
    recordCode code codes s = completePass (codes ++ [code]) s := by
  simp only [recordCode, List.length_append, List.length_singleton, if_neg (Nat.not_lt.2 h)]

/-- The Pressure Unit after the completion of a pass with its codes, before the arbiter acts. -/
def passedUnit (codes : List (BitVec 12)) (s : State) : PressureUnit :=
  passed s.reg.settings.reservoirLow codes s.pcu.freed

theorem passedUnit_lowMark (codes : List (BitVec 12)) (s : State) :
    (passedUnit codes s).lowMark =
      markAfter s.pcu.lowMark (passedUnit codes s).reservoir s.reg.settings.reservoirLow := rfl

/-- The part after the events of a pass with its codes. -/
def passReported (codes : List (BitVec 12)) (s : State) : State :=
  reportAll (passEvents s.pcu (passedUnit codes s) codes s.reg.settings.reservoirLow) s

/-- Events are handed over alike whatever the Pressure Unit. -/
theorem reportAll_withPressure (l : List Report) (s : State) (p : PressureUnit) :
    reportAll l { s with pcu := p } = { reportAll l s with pcu := p } := by
  have h := reportAll_alike (u := { s with pcu := p }) (v := s) ⟨rfl, rfl, rfl⟩ l
  rw [reportAll_eq, h.lnc, h.mem, reportAll_eq l s]

/-- The completion of a pass with its last code: the unit moves and the freed converter is granted, the events go to the event
lane, and rows and status fields to the memory (R97). -/
theorem exec_entryConversionCompletion_last {code : BitVec 12} {due : Nat} {codes : List (BitVec 12)} {s : State}
    (hheld : s.held = none) (hc : s.pcu.converter = .converting .entry due) (hdue : due ≤ s.clock)
    (hpass : s.pcu.pass = some codes) (hlast : s.pcu.scanList.length ≤ codes.length + 1) :
    exec (.entryConversionCompletion code) s = .next { s with
      pcu := granted s.clock (passedUnit (codes ++ [code]) s)
      lnc := (passReported (codes ++ [code]) s).lnc
      mem := (passShown s.pcu (codes ++ [code])
        { passReported (codes ++ [code]) s with pcu := passedUnit (codes ++ [code]) s }).mem } := by
  have hcomplete : completePass (codes ++ [code]) { s with pcu := s.pcu.freed } =
      passShown s.pcu (codes ++ [code])
        { passReported (codes ++ [code]) s with pcu := passedUnit (codes ++ [code]) s } := by
    rw [completePass_eq, passReported, ← reportAll_withPressure]
    rfl
  rw [exec_entryConversionCompletion hheld hc hdue hpass, recordCode_of_last (s := { s with pcu := s.pcu.freed }) hlast,
    hcomplete, passShown_eq, grant_of_idle rfl, passReported, reportAll_eq]

/-- Settles O29: the inputs are judged one by one, and the figures are the greatest and the least of the usable ones. -/
theorem passFigures : Obligations.PassFigures := by
  intro code due codes s hheld hc hdue hpass hlast
  refine ⟨_, _, _, exec_entryConversionCompletion_last hheld hc hdue hpass hlast, ?_, fun i => ?_, fun v => ?_,
    fun v => ?_, ?_⟩
  · simp only [granted_inputs, granted_demand, granted_reservoir, granted_lowMark]
    rfl
  · rw [granted_inputs, passedUnit, passed_input]
    rfl
  · rw [granted_demand, granted_inputs]
    exact demandOf_eq_some_iff ..
  · rw [granted_reservoir, granted_inputs]
    exact reservoirOf_eq_some_iff ..
  · rw [granted_lowMark, granted_reservoir, passedUnit_lowMark]
    cases (passedUnit (codes ++ [code]) s).reservoir <;> rfl

end Sys2Proof.Machine
end

