-- ==== Sys2Proof/Proofs/PressureRequests.lean ====
section
/-! SUPPORT. SET-SCAN and SET-CALIBRATION: the fields of their frames, and what each refusal and acceptance answers (R99 to
R101). -/

namespace Sys2Proof.Machine

/-! ### Fields of a frame -/

theorem index4_of_val {b : Byte} {i : Fin 4} (h : i.val = b.toNat) : index4 b = some i := by
  have hlt : b.toNat < 4 := h ▸ i.isLt
  rw [index4, dif_pos hlt]
  exact congrArg some (Fin.ext h.symm)

theorem index4_eq_none {b : Byte} (h : 4 ≤ b.toNat) : index4 b = none := dif_neg (Nat.not_lt.2 h)

theorem index4_eq_some {b : Byte} {i : Fin 4} (h : index4 b = some i) : i.val = b.toNat := by
  unfold index4 at h
  split_ifs at h
  cases h
  rfl

/-- A byte names input `i` exactly where it is the index of `i`. -/
theorem index4_eq_some_iff {b : Byte} {i : Fin 4} : index4 b = some i ↔ BitVec.ofNat 8 i = b := by
  constructor
  · intro h
    rw [index4_eq_some h, BitVec.ofNat_toNat, BitVec.setWidth_eq]
  · rintro rfl
    refine index4_of_val ?_
    have := i.isLt
    rw [BitVec.toNat_ofNat, Nat.mod_eq_of_lt (by omega)]

/-- The bytes that name the entries of a list (11.4). -/
def entryBytes (list : List (Fin 4)) : List Byte := list.map fun i : Fin 4 => BitVec.ofNat 8 i.val

/-- The bytes as they are taken of the entries' numbers. -/
theorem map_ofNat_eq_entryBytes (list : List (Fin 4)) : list.map (fun i => BitVec.ofNat 8 i) = entryBytes list := by
  induction list with
  | nil => rfl
  | cons i list ih => exact congrArg (BitVec.ofNat 8 i.val :: ·) ih

/-- The entries of a SET-SCAN name a list exactly where they are its indices in order. -/
theorem mapM_index4_eq_some_iff {bytes : List Byte} {list : List (Fin 4)} :
    bytes.mapM index4 = some list ↔ entryBytes list = bytes := by
  induction bytes generalizing list with
  | nil => cases list <;> simp [entryBytes]
  | cons b bytes ih =>
    rw [List.mapM_cons]
    simp only [Option.bind_eq_bind, Option.bind_eq_some_iff, ih, index4_eq_some_iff]
    constructor
    · rintro ⟨i, rfl, rest, rfl, h⟩
      cases h
      rfl
    · intro h
      cases list with
      | nil => cases h
      | cons i rest =>
        obtain ⟨hi, hrest⟩ := List.cons.inj h
        exact ⟨i, hi, rest, hrest, rfl⟩

/-- A SET-SCAN in range: a length of 1 to 8, every entry within it an input (R99). -/
def ScanInRange (length : Byte) (entries : Vector Byte 8) : Prop :=
  1 ≤ length.toNat ∧ length.toNat ≤ 8 ∧ ∀ b ∈ entries.toList.take length.toNat, b.toNat < 4

theorem scanFields_eq_some_iff {length : Byte} {entries : Vector Byte 8} {list : List (Fin 4)} :
    scanFields length entries = some list ↔
      (1 ≤ length.toNat ∧ length.toNat ≤ 8) ∧
        entryBytes list = entries.toList.take length.toNat := by
  rw [scanFields]
  by_cases h : within 1 8 length.toNat = true
  · rw [if_pos h, mapM_index4_eq_some_iff, and_iff_right (within_iff.1 h)]
  · rw [if_neg h]
    exact ⟨nofun, fun h' => absurd (within_iff.2 h'.1) h⟩

theorem scanFields_length {length : Byte} {entries : Vector Byte 8} {list : List (Fin 4)}
    (h : scanFields length entries = some list) : 1 ≤ list.length ∧ list.length ≤ 8 := by
  obtain ⟨⟨hlo, hhi⟩, hlist⟩ := scanFields_eq_some_iff.1 h
  have hlen := congrArg List.length hlist
  rw [entryBytes, List.length_map, List.length_take, Vector.length_toList] at hlen
  omega

theorem scanFields_eq_none {length : Byte} {entries : Vector Byte 8} (h : ¬ScanInRange length entries) :
    scanFields length entries = none := by
  rw [Option.eq_none_iff_forall_ne_some]
  intro list hlist
  obtain ⟨⟨hlo, hhi⟩, hlist⟩ := scanFields_eq_some_iff.1 hlist
  refine h ⟨hlo, hhi, fun b hb => ?_⟩
  rw [← hlist] at hb
  obtain ⟨i, -, rfl⟩ := List.mem_map.1 hb
  rw [← index4_eq_some (index4_eq_some_iff.2 rfl)]
  exact i.isLt

theorem roleOf_eq_some_iff {b : Byte} {r : Role} : roleOf b = some r ↔ r.code = b := by
  constructor
  · intro h
    unfold roleOf at h
    split_ifs at h with h0 h1 h2 h3 h4 <;> cases h
    · exact h0.symm
    · exact h1.symm
    · exact h2.symm
    · exact h3.symm
    · exact h4.symm
  · rintro rfl
    cases r <;> rfl

theorem roleOf_eq_none {b : Byte} (h : 4 < b.toNat) : roleOf b = none := by
  rw [Option.eq_none_iff_forall_ne_some]
  intro r hr
  rw [roleOf_eq_some_iff] at hr
  subst hr
  revert h
  cases r <;> decide

/-- The fields of a SET-CALIBRATION but the input lie in their ranges (R101, R177). -/
def CalibrationInRange (role : Byte) (zero full : Word) : Prop :=
  role.toNat ≤ 4 ∧ zero.toNat ≤ 4095 ∧ full.toNat ≤ 4095 ∧ zero.toNat + 1000 ≤ full.toNat

theorem calibrationFields_of_inRange {input role : Byte} {zero full : Word} {i : Fin 4} {r : Role}
    (h : CalibrationInRange role zero full) (hi : i.val = input.toNat) (hrole : r.code = role) :
    calibrationFields input role zero full = some (i, r, zero.toNat, full.toNat) := by
  obtain ⟨-, hzero, hfull, hspan⟩ := h
  simp [calibrationFields, index4_of_val hi, roleOf_eq_some_iff.2 hrole, hzero, hfull, hspan]

theorem calibrationFields_eq_some {input role : Byte} {zero full : Word} {i : Fin 4} {r : Role} {z f : Nat}
    (h : calibrationFields input role zero full = some (i, r, z, f)) :
    index4 input = some i ∧ CalibrationInRange role zero full ∧ z + 1000 ≤ f ∧ f ≤ 4095 := by
  simp only [calibrationFields, Option.bind_eq_bind, Option.bind_eq_some_iff] at h
  obtain ⟨j, hj, r', hr, h⟩ := h
  split_ifs at h with hrange
  cases h
  have hrole : role.toNat ≤ 4 := by
    by_contra hlt
    rw [roleOf_eq_none (by omega)] at hr
    cases hr
  exact ⟨hj, ⟨hrole, hrange⟩, hrange.2.2, hrange.2.1⟩

theorem calibrationFields_eq_none {input role : Byte} {zero full : Word}
    (h : 4 ≤ input.toNat ∨ ¬CalibrationInRange role zero full) : calibrationFields input role zero full = none := by
  rw [Option.eq_none_iff_forall_ne_some]
  rintro ⟨i, r, z, f⟩ hf
  obtain ⟨hi, hrange, -⟩ := calibrationFields_eq_some hf
  rcases h with h | h
  · rw [index4_eq_none h] at hi
    cases hi
  · exact h hrange

/-! ### SET-SCAN (R99) -/

/-- A response on the state after the take, the Pressure Unit changed before it. -/
theorem withPressure_countTake (p : PressureUnit) (s : State) :
    { countTake s with pcu := p } = { ({ s with pcu := p } : State) with lnc := (countTake s).lnc, mem := (countTake s).mem } := by
  rw [countTake_eq]

theorem setScan_outOfRange {tag length : Byte} {entries : Vector Byte 8} {s : State} (hm : s.mem.wf = true)
    (hr : Ready (.setScan tag length entries) s) (h : ¬ScanInRange length entries) :
    AnsweredAtOnce (.setScan tag length entries) s s 0x30 tag .refusedRange [] := by
  refine answered rfl hm hr rfl ?_
  simp only [carrySetScan, scanFields_eq_none h]
  rw [← countTake_eq]

/-- Zeros filled up to a shorter length change nothing of what is filled up to a longer one. -/
theorem padTo_append_padTo {head bytes : List Byte} {n : Nat} (h : bytes.length ≤ n) :
    padTo (head.length + n) (head ++ padTo n bytes) = padTo (head.length + n) (head ++ bytes) := by
  have hpad : padTo n bytes = bytes ++ List.replicate (n - bytes.length) 0 := by
    rw [padTo, List.take_append, List.take_of_length_le h, List.take_replicate, Nat.min_eq_left (by omega)]
  have hzeros (k : Nat) (hk : head.length + n ≤ (head ++ bytes).length + k) :
      (head ++ bytes ++ List.replicate k (0 : Byte)).take (head.length + n) =
        head ++ bytes ++ List.replicate (n - bytes.length) 0 := by
    rw [List.length_append] at hk
    rw [List.take_append, List.take_of_length_le (by rw [List.length_append]; omega), List.take_replicate,
      List.length_append, Nat.add_sub_add_left, Nat.min_eq_left (by omega)]
  rw [hpad, padTo, padTo, ← List.append_assoc, List.append_assoc (head ++ bytes), List.replicate_append_replicate,
    hzeros _ (by omega), hzeros _ (by omega)]

/-- The result bytes of an accepted SET-SCAN, the trailing zeros left away. -/
theorem padTo_scanResult {length : Byte} {entries : Vector Byte 8} {list : List (Fin 4)}
    (h : scanFields length entries = some list) :
    padTo 12 (scanResult list) = padTo 12 ([length, 0, 0, 0] ++ entries.toList.take length.toNat) := by
  obtain ⟨⟨-, hhi⟩, hlist⟩ := scanFields_eq_some_iff.1 h
  have hlen : list.length = length.toNat := by
    have hlen := congrArg List.length hlist
    rw [entryBytes, List.length_map, List.length_take, Vector.length_toList] at hlen
    omega
  have hbyte : BitVec.ofNat 8 list.length = length := by rw [hlen, BitVec.ofNat_toNat, BitVec.setWidth_eq]
  rw [scanResult, map_ofNat_eq_entryBytes, hlist, hbyte]
  exact padTo_append_padTo (head := [length, 0, 0, 0]) (n := 8) (by rw [List.length_take]; omega)

theorem setScan_done {tag length : Byte} {entries : Vector Byte 8} {s : State} (hm : s.mem.wf = true)
    (hr : Ready (.setScan tag length entries) s) {list : List (Fin 4)} (h : scanFields length entries = some list) :
    AnsweredAtOnce (.setScan tag length entries) s { s with pcu := { s.pcu with pendingList := some list } } 0x30 tag .done
      ([length, 0, 0, 0] ++ entries.toList.take length.toNat) := by
  refine answered rfl hm hr rfl ?_
  simp only [carrySetScan, h]
  rw [respond_congr (padTo_scanResult h), countTake_pcu, withPressure_countTake]

/-! ### SET-CALIBRATION (R101) -/

/-- The bytes that show an input's calibration in a response (11.5). -/
def calibrationBytes (input : Byte) (x : Input) : List Byte :=
  [input, x.role.code] ++ le16 (BitVec.ofNat 16 x.zero) ++ le16 (BitVec.ofNat 16 x.full)

theorem calibrationResult_of_val {input : Byte} {i : Fin 4} (h : i.val = input.toNat) (holder : Option (Fin 4)) (s : State) :
    calibrationResult input holder s = calibrationBytes input s.pcu.inputs[i] ++ [indexByte holder] := by
  simp only [calibrationResult, index4_of_val h, calibrationBytes]

section

variable {tag input role : Byte} {zero full : Word} {s : State}

theorem setCalibration_noInput (hm : s.mem.wf = true) (hr : Ready (.setCalibration tag input role zero full) s)
    (h : 4 ≤ input.toNat) :
    AnsweredAtOnce (.setCalibration tag input role zero full) s s 0x31 tag .refusedRange [input, 0, 0, 0, 0, 0, 0xFF] := by
  refine answered rfl hm hr rfl ?_
  simp only [carrySetCalibration, calibrationFields_eq_none (.inl h), calibrationResult, index4_eq_none h]
  rw [← countTake_eq]
  rfl

variable {i : Fin 4} (hi : i.val = input.toNat)

include hi

theorem setCalibration_outOfRange (hm : s.mem.wf = true) (hr : Ready (.setCalibration tag input role zero full) s)
    (h : ¬CalibrationInRange role zero full) :
    AnsweredAtOnce (.setCalibration tag input role zero full) s s 0x31 tag .refusedRange
      (calibrationBytes input s.pcu.inputs[i] ++ [0xFF]) := by
  refine answered rfl hm hr rfl ?_
  simp only [carrySetCalibration, calibrationFields_eq_none (.inr h), calibrationResult_of_val hi, countTake_pcu]
  rw [← countTake_eq]
  rfl

variable {r : Role} (hrange : CalibrationInRange role zero full) (hrole : r.code = role)

include hrange hrole

theorem setCalibration_held (hm : s.mem.wf = true) (hr : Ready (.setCalibration tag input role zero full) s) {j : Fin 4}
    (hj : roleHolder i r s = some j) :
    AnsweredAtOnce (.setCalibration tag input role zero full) s s 0x31 tag .refusedState
      (calibrationBytes input s.pcu.inputs[i] ++ [BitVec.ofNat 8 j]) := by
  have hholder : roleHolder i r (countTake s) = some j := by rw [← hj]; simp only [roleHolder, countTake_pcu]
  refine answered rfl hm hr rfl ?_
  simp only [carrySetCalibration, calibrationFields_of_inRange hrange hi hrole, hholder, calibrationResult_of_val hi,
    countTake_pcu]
  rw [← countTake_eq]
  rfl

theorem setCalibration_done (hm : s.mem.wf = true) (hr : Ready (.setCalibration tag input role zero full) s)
    (hnone : roleHolder i r s = none) {y : Input}
    (hy : y = { s.pcu.inputs[i] with role := r, zero := zero.toNat, full := full.toNat }) :
    AnsweredAtOnce (.setCalibration tag input role zero full) s
      { s with pcu := { s.pcu with inputs := s.pcu.inputs.set i y } } 0x31 tag .done
      (calibrationBytes input y ++ [0xFF]) := by
  have hholder : roleHolder i r (countTake s) = none := by rw [← hnone]; simp only [roleHolder, countTake_pcu]
  refine answered rfl hm hr rfl ?_
  simp only [carrySetCalibration, calibrationFields_of_inRange hrange hi hrole, hholder, calibrationResult_of_val hi,
    countTake_pcu, ← hy]
  rw [withPressure_countTake]
  simp
  rfl

end

/-! ### The holder of a role (R101) -/

theorem mem_inputIndices (i : Fin 4) : i ∈ inputIndices := by
  revert i; decide

theorem roleHolder_eq_none {i : Fin 4} {r : Role} {s : State} :
    roleHolder i r s = none ↔ ∀ j : Fin 4, j ≠ i → s.pcu.inputs[j].role ≠ r := by
  simp [roleHolder, mem_inputIndices]

theorem inputIndices_split (j : Fin 4) : inputIndices = inputIndices.take j ++ j :: inputIndices.drop (j + 1) := by
  revert j; decide

theorem mem_take_inputIndices {j : Fin 4} : ∀ k ∈ inputIndices.take j, k < j := by
  revert j; decide

/-- The holder a refusal carries is the first. -/
theorem roleHolder_eq_some {i j : Fin 4} {r : Role} {s : State} (hne : j ≠ i) (hj : s.pcu.inputs[j].role = r)
    (hfirst : ∀ k : Fin 4, k < j → k ≠ i → s.pcu.inputs[k].role ≠ r) : roleHolder i r s = some j := by
  rw [roleHolder, List.find?_eq_some_iff_append]
  refine ⟨Bool.and_eq_true_iff.2 ⟨decide_eq_true hne, decide_eq_true hj⟩, _, _, inputIndices_split j, fun k hk => ?_⟩
  by_cases hki : k = i
  · simp [hki]
  · rw [decide_eq_false (hfirst k (mem_take_inputIndices k hk) hki), Bool.and_false]
    rfl

/-- Settles O31: each frame's fields decide which answer it gets. -/
theorem pressureRequests : Obligations.PressureRequests := by
  constructor
  · intro tag length entries s hm hr answer named inRange
    refine ⟨setScan_outOfRange hm hr, fun list hrange hlist => setScan_done hm hr ?_⟩
    rw [map_ofNat_eq_entryBytes] at hlist
    exact scanFields_eq_some_iff.2 ⟨⟨hrange.1, hrange.2.1⟩, hlist⟩
  · intro tag input role zero full s hm hr answer inRange shown
    refine ⟨setCalibration_noInput hm hr, ?_⟩
    intro i hi x
    refine ⟨setCalibration_outOfRange hi hm hr, fun r hrange hrole => ?_⟩
    constructor
    · exact fun j hne hj hfirst => setCalibration_held hi hrange hrole hm hr (roleHolder_eq_some hne hj hfirst)
    · exact fun hnone => setCalibration_done hi hrange hrole hm hr (roleHolder_eq_none.2 hnone) rfl

end Sys2Proof.Machine
end

