-- ==== Sys2Proof/Proofs/PressureKept.lean ====
section
/-! SUPPORT. Every command but the two expiries and two completions of the converter and the two pressure requests leaves the
Pressure Unit alone; each of these keeps its inputs, roles and lists together (R99 to R104). -/

namespace Sys2Proof

/-- Whether a command is an event of the converter or a pressure request. -/
def Instr.ofPressure : Instr → Bool
  | .scanTimerExpiry | .entryConversionCompletion _ | .sampleTimerExpiry | .sampleCompletion _ | .setScan _ _ _
  | .setCalibration _ _ _ _ _ => true
  | _ => false

end Sys2Proof

namespace Sys2Proof.Machine

/-! ### What the drums leave alone -/

@[simp] theorem completeMeasurement_pcu (m : Measurement) (result : DrumResult) (resistance : Nat) (t : Option Int)
    (n : Nat) (s : State) : (completeMeasurement m result resistance t n s).pcu = s.pcu := by
  have htags := fun status result u =>
    answerTags_keeps State.pcu (fun _ _ _ _ _ => respond_pcu ..) status result m.tags u
  simp only [completeMeasurement, startIfAllowed_pcu, rewriteDrum_pcu, htags, hotEvent, sensorEvent]
  split_ifs <;> simp

@[simp] theorem endSensor_pcu (m : Measurement) (s : State) : (endSensor m s).pcu = s.pcu := by
  simp only [endSensor, endShort, completeFault]; split_ifs <;> simp

@[simp] theorem overflowReference_pcu (m : Measurement) (s : State) : (overflowReference m s).pcu = s.pcu := by
  unfold overflowReference completeFault; split_ifs <;> simp

theorem drumEvent_pcu {f : State → State} (h : ∀ s, (f s).pcu = s.pcu) (s : State) : (drumEvent f s).pcu = s.pcu := by
  simp only [drumEvent]; split_ifs <;> simp [h]

theorem offerScan_pcu (s : State) : (offerScan s).pcu = s.pcu := by
  unfold offerScan; split
  · rfl
  · dsimp only; split_ifs <;> simp [joinQueue]

theorem reconfigure_pcu (new : DrumConfig) (s : State) : (reconfigure new s).pcu = s.pcu := by
  have htags := fun status result tags u =>
    answerTags_keeps State.pcu (fun _ _ _ _ _ => respond_pcu ..) status result tags u
  have hflight (u : State) : (abandonInFlight u).pcu = u.pcu := by
    unfold abandonInFlight; split <;> simp [abandonTags, htags]
  have hentries (u : State) : (removeEntries u).pcu = u.pcu :=
    foldl_keeps State.pcu (fun _ _ => htags ..) _ _
  simp [reconfigure, hflight, hentries]

theorem measureEnabled_pcu (tag : Byte) (d : Fin 6) (s : State) : (measureEnabled tag d s).pcu = s.pcu := by
  have hqueued : (measureQueued tag d s).pcu = s.pcu := by
    unfold measureQueued
    split
    · split_ifs <;> simp [refuseMeasure]
    · exact drumEvent_pcu (fun s => by simp [joinQueue]) s
  unfold measureEnabled
  split
  · exact hqueued
  · split_ifs <;> simp [refuseMeasure, hqueued]

/-! ### What the wheels, the supply class, the channels and the retarder leave alone -/

theorem toothEdge_pcu (w : Fin 6) (s : State) : (toothEdge w s).pcu = s.pcu := by
  rcases toothEdge_cases w s with e | ⟨r, -, -, e⟩ | ⟨r, p, -, -, e⟩ | ⟨r, -, -, e⟩ <;> rw [e]
  · rfl
  · rfl
  · simp only [edgeRolling, capture]
    (repeat' split) <;> simp

theorem disarmPart_pcu (s : State) : (disarmPart s).pcu = s.pcu := by
  simp [disarmPart, regulatorStatus, forEach_keeps State.pcu disarmChannel_pcu]

theorem changeClass_pcu (new : SupplyClass) (m : Nat) (s : State) : (changeClass new m s).pcu = s.pcu := by
  have hreact (u : State) : (reactCritical u).pcu = u.pcu := by
    rw [reactCritical, formCut_pcu, forEach_keeps State.pcu channelCritical_pcu, regulatorCritical]
    split_ifs <;> simp [regulatorStatus]
  simp only [changeClass]; split_ifs <;> simp [hreact]

theorem takeSample_pcu (mV : Nat) (s : State) : (takeSample mV s).pcu = s.pcu := by
  simp only [takeSample, closeWindow, supplyStatus]; split_ifs <;> simp [changeClass_pcu]

/-! ### Requests and events of the other blocks -/

/-- A request that is no pressure request leaves the Pressure Unit alone. -/
theorem carryRequest_pcu {i : Instr} (h : i.ofPressure = false) (s : State) : (carryRequest i s).pcu = s.pcu := by
  cases i <;> first | rfl | exact absurd h.symm Bool.false_ne_true | skip
  case identify => exact respond_pcu ..
  case unknownKind => exact respond_pcu ..
  case arm => simp only [carryRequest, carryArm]; split_ifs <;> simp [regulatorStatus]
  case disarm => simp only [carryRequest, carryDisarm]; split_ifs <;> simp [disarmPart_pcu]
  case setReference =>
    simp only [carryRequest, carrySetReference]; split <;> [skip; split_ifs] <;> simp [regulatorStatus]
  case installWheel => simp only [carryRequest, carryInstallWheel]; split <;> [skip; split_ifs] <;> simp
  case removeWheel => simp only [carryRequest, carryRemoveWheel]; split <;> [skip; split_ifs] <;> simp
  case clearWheel => simp only [carryRequest, carryClearWheel]; split <;> [skip; split_ifs] <;> simp
  case installChannel => simp only [carryRequest, carryInstallChannel]; split <;> [skip; split_ifs] <;> simp
  case clearChannel => simp only [carryRequest, carryClearChannel]; split <;> [skip; split_ifs] <;> simp
  case valveTest => simp only [carryRequest, carryValveTest]; split <;> [skip; split] <;> simp [startTest]
  case stopTest => simp only [carryRequest, carryStopTest]; split <;> [skip; split_ifs] <;> simp
  case setDrumConfig =>
    simp only [carryRequest, carrySetDrumConfig]
    split
    · simp
    · exact drumEvent_pcu (fun s => by simp [reconfigure_pcu]) s
  case setCurve => simp only [carryRequest, carrySetCurve]; split <;> simp
  case measureDrum =>
    simp only [carryRequest, carryMeasureDrum]
    split <;> [skip; split_ifs] <;> simp [refuseMeasure, measureEnabled_pcu]
  case setSupplyCriteria => simp only [carryRequest, carrySetSupplyCriteria]; split <;> simp
  case setBlend => simp only [carryRequest, carrySetBlend]; split <;> simp

/-- An event of a block that is none of the converter's leaves the Pressure Unit alone. -/
theorem exec_event_pcu {i : Instr} {s t : State} (hr : i.isRequest = false) (hb : i.isBusCommand = false)
    (h : i.ofPressure = false) (ht : exec i s = .next t) : t.pcu = s.pcu := by
  cases i <;> first | exact absurd hb.symm Bool.false_ne_true | exact absurd h.symm Bool.false_ne_true |
    exact absurd hr.symm Bool.false_ne_true | skip
  case leverInputChange => cases ht; rfl
  all_goals
    simp only [exec, execToothEdge, execStandstillExpiry, execRegulationPeriod, execHoldLimitExpiry, execVentLimitExpiry,
      execOutputProved, execOutputOpen, execOutputShort, execApplyExpiry, execHoldIntervalExpiry, execOnExpiry,
      execOffExpiry, execReferenceOverflow, execReferenceTimeout, execSensorPhaseEnd, execSensorOverflow,
      execDrumScanExpiry, execAgeRefresh, execLeverSettleExpiry, execHoldOffExpiry, execRampExpiry] at ht
    refine whenRunning_keeps State.pcu ?_ ht
  case toothEdge => exact toothEdge_pcu ..
  case standstillExpiry => split_ifs <;> simp
  case regulationPeriod => split_ifs <;> [rw [regulationPeriod_eq]; rfl]
  case holdLimitExpiry => split_ifs <;> simp
  case ventLimitExpiry => split_ifs <;> simp only [retarderEvent_pcu, ventLimit, formCut_pcu]; split_ifs <;> simp
  case outputProved => rfl
  case outputOpen => split_ifs <;> simp [outputFault]
  case outputShort => split_ifs <;> simp [outputFault]
  case applyExpiry => split <;> [split_ifs; skip; skip; skip] <;> simp [endApply]
  case holdIntervalExpiry =>
    split <;> [split_ifs; skip; skip; skip] <;> simp only [retarderEvent_pcu, endHoldInterval]; split_ifs <;> simp
  case onExpiry => split <;> [split_ifs; skip; skip; skip] <;> simp
  case offExpiry =>
    split <;> [split_ifs; skip; skip; skip] <;> simp only [retarderEvent_pcu, endOffTime]; split_ifs <;> simp
  case referenceOverflow => split <;> [skip; split_ifs] <;> simp
  case referenceTimeout => split <;> [skip; split_ifs] <;> simp [completeFault]
  case sensorPhaseEnd => split <;> [skip; split_ifs] <;> simp
  case sensorOverflow => split <;> [skip; split_ifs] <;> simp [endShort, completeFault]
  case drumScanExpiry =>
    split
    · rfl
    · split_ifs
      · exact drumEvent_pcu (fun s => by simp [offerScan_pcu, restartScan]) s
      · rfl
  case ageRefresh => split_ifs <;> simp
  case leverSettleExpiry => split_ifs <;> simp only [retarderEvent_pcu, settleLever]; split_ifs <;> simp
  case holdOffExpiry => split <;> [skip; split_ifs] <;> simp [endHoldOff]
  case rampExpiry => split_ifs <;> simp [endRamp]

/-! ### One input kept sound (R101, R103, R104) -/

/-- What a pass can do to an input: nothing while UNUSED; else a value taken, a first bad pass, a second one, FAULTY entered
or its count of good passes cleared, or a good pass counted in FAULTY (R103). -/
theorem moveInput_cases (x : Input) (r : PassResult) :
    (x.validity = .unused ∧ moveInput x r = x) ∨
    (x.validity ≠ .unused ∧ ∃ code, moveInput x r = x.restored code) ∨
    (x.validity = .valid ∧ moveInput x r = { x with validity := .holding, bad := 1 }) ∨
    (x.validity = .holding ∧ x.bad + 1 < 3 ∧ moveInput x r = { x with bad := x.bad + 1 }) ∨
    (x.validity ≠ .unused ∧ moveInput x r = { x with validity := .faulty, bad := 3, good := 0 }) ∨
    (x.validity = .faulty ∧ x.good + 1 < 5 ∧ moveInput x r = { x with good := x.good + 1 }) := by
  cases r with
  | good code =>
    cases hv : x.validity with
    | valid => exact .inr (.inl ⟨nofun, code, by simp only [moveInput, hv]⟩)
    | holding => exact .inr (.inl ⟨nofun, code, by simp only [moveInput, hv]⟩)
    | faulty =>
      by_cases h : x.good + 1 < 5
      · exact .inr (.inr (.inr (.inr (.inr ⟨rfl, h, by simp only [moveInput, hv, if_pos h]⟩))))
      · exact .inr (.inl ⟨nofun, code, by simp only [moveInput, hv, if_neg h]⟩)
    | unused => exact .inl ⟨rfl, by simp only [moveInput, hv]⟩
  | bad code =>
    cases hv : x.validity with
    | valid => exact .inr (.inr (.inl ⟨rfl, by simp only [moveInput, hv]⟩))
    | holding =>
      by_cases h : x.bad + 1 < 3
      · exact .inr (.inr (.inr (.inl ⟨rfl, h, by simp only [moveInput, hv, if_pos h]⟩)))
      · exact .inr (.inr (.inr (.inr (.inl ⟨nofun, by simp only [moveInput, hv, if_neg h]⟩))))
    | faulty => exact .inr (.inr (.inr (.inr (.inl ⟨nofun, by simp only [moveInput, hv]⟩))))
    | unused => exact .inl ⟨rfl, by simp only [moveInput, hv]⟩

/-- A pass changes no input's role, and takes no input on or off the list. -/
theorem moveInput_role (x : Input) (r : PassResult) : (moveInput x r).role = x.role := by
  rcases moveInput_cases x r with ⟨-, e⟩ | ⟨-, code, e⟩ | ⟨-, e⟩ | ⟨-, -, e⟩ | ⟨-, e⟩ | ⟨-, -, e⟩
  all_goals simp [e, Input.restored]

theorem moveInput_unused (x : Input) (r : PassResult) : (moveInput x r).validity = .unused ↔ x.validity = .unused := by
  rcases moveInput_cases x r with ⟨h, e⟩ | ⟨h, code, e⟩ | ⟨h, e⟩ | ⟨h, -, e⟩ | ⟨h, e⟩ | ⟨h, -, e⟩ <;> rw [e]
  all_goals simp [Input.restored, h]

theorem Input.Sound.moveInput {x : Input} (hx : x.Sound) (r : PassResult) : (moveInput x r).Sound := by
  rw [Input.sound_iff] at hx
  obtain ⟨hrange, hfull, hheld, hvalid, hholding, hfaulty, -⟩ := id hx
  rcases moveInput_cases x r with ⟨-, e⟩ | ⟨-, code, e⟩ | ⟨h, e⟩ | ⟨h, hbad, e⟩ | ⟨-, e⟩ | ⟨h, hgood, e⟩ <;>
    rw [e, Input.sound_iff]
  · exact hx
  · exact ⟨hrange, hfull, Nat.min_le_left .., by simp [Input.restored]⟩
  · exact ⟨hrange, hfull, hheld, by simp [(hvalid h).2]⟩
  · obtain ⟨hcount, hzero⟩ := hholding h
    exact ⟨hrange, hfull, hheld, by simp [h, hzero]; omega⟩
  · exact ⟨hrange, hfull, hheld, by simp⟩
  · exact ⟨hrange, hfull, hheld, by simp [h, (hfaulty h).1, hgood]⟩

theorem judgedInput_eq_or (x : Input) (ks : List Nat) :
    judgedInput x ks = x ∨ ∃ r, judgedInput x ks = moveInput x r := by
  rcases passResult_cases x ks with ⟨-, -, e⟩ | ⟨c, -, -, -, e⟩ | ⟨-, -, -, e⟩
  · exact .inl e
  · exact .inr ⟨_, e⟩
  · exact .inr ⟨_, e⟩

/-- An input that enters a list, stays on it or leaves it (R104). -/
theorem joinOrLeave_sound {x : Input} (hx : x.Sound) (list : List (Fin 4)) (i : Fin 4) : (joinOrLeave list i x).Sound := by
  obtain ⟨hrange, hfull, -⟩ := id hx
  unfold joinOrLeave
  split_ifs
  · exact ⟨hrange, hfull, Nat.zero_le _, rfl, rfl⟩
  · exact hx
  · exact ⟨hrange, hfull, Nat.zero_le _, rfl, rfl, rfl⟩

theorem joinOrLeave_role (list : List (Fin 4)) (i : Fin 4) (x : Input) : (joinOrLeave list i x).role = x.role := by
  unfold joinOrLeave; split_ifs <;> rfl

theorem joinOrLeave_unused (list : List (Fin 4)) (i : Fin 4) (x : Input) :
    (joinOrLeave list i x).validity = .unused ↔ i ∉ list := by
  unfold joinOrLeave
  split_ifs with h h'
  · simpa using h
  · simpa [h] using h'
  · simpa using h

/-! ### The Pressure Unit kept sound -/

/-- Soundness asks for the inputs and the two lists alone. -/
theorem PressureSound.of_pcu {s t : State} (hs : PressureSound s) (hinputs : t.pcu.inputs = s.pcu.inputs)
    (hlist : t.pcu.scanList = s.pcu.scanList) (hpending : t.pcu.pendingList = s.pcu.pendingList) : PressureSound t := by
  obtain ⟨hi, hr, hu, hl, hw⟩ := hs
  rw [← hinputs] at hi hr hu
  rw [← hlist] at hu hl
  rw [← hpending] at hw
  exact ⟨hi, hr, hu, hl, hw⟩

/-- Inputs that keep their roles go on being held by one input each. -/
theorem roles_kept {inputs new : Vector Input 4} (h : ∀ i : Fin 4, new[i].role = inputs[i].role)
    (hr : ∀ i j : Fin 4, inputs[i].role = inputs[j].role → i = j) (i j : Fin 4) (e : new[i].role = new[j].role) :
    i = j :=
  hr i j (by rw [← h, ← h, e])

theorem PressureSound.grant {s : State} (hs : PressureSound s) : PressureSound (grant s) := by
  rw [grant_eq]
  by_cases h : s.pcu.converter = .idle
  · rw [if_pos h]
    exact hs.of_pcu (granted_inputs ..) (granted_scanList ..) (granted_pendingList ..)
  · rw [if_neg h]
    exact hs

theorem PressureSound.grantScan {s : State} (hs : PressureSound s) : PressureSound (grantScan s) := by
  unfold Machine.grantScan
  split_ifs
  · exact hs
  · exact hs.grant

/-- A list that enters force takes its inputs with it (R104). -/
theorem PressureSound.scanStarted {s : State} (hs : PressureSound s) :
    PressureSound { s with pcu := scanStarted s.pcu } := by
  cases hp : s.pcu.pendingList with
  | none =>
    have henter : enterList s.pcu = s.pcu := by simp only [enterList, hp]
    have hinputs : (Machine.scanStarted s.pcu).inputs = s.pcu.inputs := by simp only [Machine.scanStarted, henter]
    have hlist : (Machine.scanStarted s.pcu).scanList = s.pcu.scanList := by simp only [Machine.scanStarted, henter]
    have hpending : (Machine.scanStarted s.pcu).pendingList = s.pcu.pendingList := by
      simp only [Machine.scanStarted, henter]
    exact hs.of_pcu hinputs hlist hpending
  | some list =>
    have hinput (i : Fin 4) : (Machine.scanStarted s.pcu).inputs[i] = joinOrLeave list i s.pcu.inputs[i] := by
      simp only [Machine.scanStarted, enterList, hp, four_get]
    have hlist : (Machine.scanStarted s.pcu).scanList = list := by simp only [Machine.scanStarted, enterList, hp]
    have hpending : (Machine.scanStarted s.pcu).pendingList = none := by simp only [Machine.scanStarted, enterList, hp]
    refine ⟨fun i => ?_, roles_kept (fun i => ?_) hs.roles, fun i => ?_, ?_, fun l hl => ?_⟩
    · rw [hinput]; exact joinOrLeave_sound (hs.inputs i) list i
    · rw [hinput]; exact joinOrLeave_role ..
    · rw [hinput, hlist]; exact joinOrLeave_unused ..
    · rw [hlist]; exact hs.waiting list hp
    · rw [hpending] at hl; cases hl

/-- A pass judges each input by its codes (R103). -/
theorem PressureSound.passed {s : State} (hs : PressureSound s) (threshold : Nat) (codes : List (BitVec 12)) :
    PressureSound { s with pcu := passed threshold codes s.pcu } := by
  have hmoved (i : Fin 4) : (Machine.passed threshold codes s.pcu).inputs[i] = s.pcu.inputs[i] ∨
      ∃ r, (Machine.passed threshold codes s.pcu).inputs[i] = moveInput s.pcu.inputs[i] r := by
    rw [passed_input]; exact judgedInput_eq_or ..
  refine ⟨fun i => ?_, roles_kept (fun i => ?_) hs.roles, fun i => ?_, hs.list, hs.waiting⟩ <;>
    rcases hmoved i with e | ⟨r, e⟩ <;> dsimp only <;> rw [e]
  · exact hs.inputs i
  · exact (hs.inputs i).moveInput r
  · exact moveInput_role ..
  · exact hs.unused i
  · exact (moveInput_unused ..).trans (hs.unused i)

theorem PressureSound.recordCode {s : State} (hs : PressureSound s) (code : BitVec 12) (codes : List (BitVec 12)) :
    PressureSound (recordCode code codes s) := by
  by_cases h : codes.length + 1 < s.pcu.scanList.length
  · rw [recordCode_of_more h]
    exact hs.of_pcu rfl rfl rfl
  · rw [recordCode_of_last (Nat.not_lt.1 h), completePass_eq]
    have hpcu := (passShown_keeps State.pcu rewrite_pcu s.pcu (codes ++ [code]) _).trans
      (reportAll_keeps State.pcu raiseEvent_pcu (passEvents s.pcu
        (Machine.passed s.reg.settings.reservoirLow (codes ++ [code]) s.pcu) (codes ++ [code])
        s.reg.settings.reservoirLow)
        { s with pcu := Machine.passed s.reg.settings.reservoirLow (codes ++ [code]) s.pcu })
    refine (hs.passed s.reg.settings.reservoirLow (codes ++ [code])).of_pcu ?_ ?_ ?_ <;> rw [hpcu]

/-! ### The pressure requests (R99, R101) -/

theorem PressureSound.respond {s : State} (hs : PressureSound s) (kind tag : Byte) (status : Status) (result : List Byte) :
    PressureSound (respond kind tag status result s) := by
  rw [respond_eq]
  exact hs.of_pcu rfl rfl rfl

theorem PressureSound.carrySetScan {s : State} (hs : PressureSound s) (tag length : Byte) (entries : Vector Byte 8) :
    PressureSound (carrySetScan tag (scanFields length entries) s) := by
  unfold Machine.carrySetScan
  split
  · exact hs.respond ..
  · next list hlist =>
    have hpending : PressureSound { s with pcu := { s.pcu with pendingList := some list } } :=
      ⟨hs.inputs, hs.roles, hs.unused, hs.list, fun l hl => Option.some.inj hl ▸ scanFields_length hlist⟩
    exact hpending.respond ..

/-- An input takes a role that no other holds, and a calibration in range (R101). -/
theorem PressureSound.calibrated {s : State} (hs : PressureSound s) {i : Fin 4} {r : Role} {z f : Nat}
    (hnone : roleHolder i r s = none) (hspan : z + 1000 ≤ f) (hfull : f ≤ 4095) :
    PressureSound { s with pcu := { s.pcu with
      inputs := s.pcu.inputs.set i { s.pcu.inputs[i] with role := r, zero := z, full := f } } } := by
  rw [roleHolder_eq_none] at hnone
  have hget (j : Fin 4) : (s.pcu.inputs.set i { s.pcu.inputs[i] with role := r, zero := z, full := f })[j] =
      if j = i then { s.pcu.inputs[i] with role := r, zero := z, full := f } else s.pcu.inputs[j] := by
    simp [Vector.getElem_set, Fin.ext_iff, eq_comm]
  refine ⟨fun j => ?_, fun j k e => ?_, fun j => ?_, hs.list, hs.waiting⟩
  · rw [hget]
    split_ifs
    · obtain ⟨-, -, hrest⟩ := hs.inputs i
      exact ⟨hspan, hfull, hrest⟩
    · exact hs.inputs j
  · rw [hget, hget] at e
    split_ifs at e with hj hk hk
    · rw [hj, hk]
    · exact absurd e.symm (hnone k hk)
    · exact absurd e (hnone j hj)
    · exact hs.roles j k e
  · rw [hget]
    split_ifs with hj
    · subst hj
      exact hs.unused j
    · exact hs.unused j

theorem PressureSound.carrySetCalibration {s : State} (hs : PressureSound s) (tag input role : Byte) (zero full : Word) :
    PressureSound (carrySetCalibration tag input (calibrationFields input role zero full) s) := by
  unfold Machine.carrySetCalibration
  split
  · exact hs.respond ..
  · next i r z f hfields =>
    obtain ⟨-, -, hspan, hfull⟩ := calibrationFields_eq_some hfields
    split
    · exact hs.respond ..
    · next hnone => exact (hs.calibrated hnone hspan hfull).respond ..

/-! ### Every step keeps the Pressure Unit sound -/

theorem carryRequest_pressureSound (i : Instr) {s : State} (hs : PressureSound s) : PressureSound (carryRequest i s) := by
  cases h : i.ofPressure
  case false =>
    have hpcu := carryRequest_pcu h s
    exact hs.of_pcu (by rw [hpcu]) (by rw [hpcu]) (by rw [hpcu])
  case true =>
    cases i <;> first | exact absurd h Bool.false_ne_true | exact hs | skip
    case setScan => exact hs.carrySetScan ..
    case setCalibration => exact hs.carrySetCalibration ..

theorem exec_event_pressureSound {i : Instr} {s t : State} (hr : i.isRequest = false) (hb : i.isBusCommand = false)
    (hs : PressureSound s) (ht : exec i s = .next t) : PressureSound t := by
  cases h : i.ofPressure
  case false =>
    have hpcu := exec_event_pcu hr hb h ht
    exact hs.of_pcu (by rw [hpcu]) (by rw [hpcu]) (by rw [hpcu])
  case true =>
    cases i <;> first | exact absurd h Bool.false_ne_true | exact absurd hr.symm Bool.false_ne_true | skip
    all_goals refine BlockInvariant.whenRunning (fun hs => ?_) hs ht
    case scanTimerExpiry =>
      split_ifs
      · exact hs.scanStarted.grantScan
      · exact hs
    case entryConversionCompletion code =>
      have hfreed : PressureSound { s with pcu := { s.pcu with converter := .idle } } := hs.of_pcu rfl rfl rfl
      split_ifs
      · dsimp only
        split
        · exact hfreed.grant
        · exact (hfreed.recordCode code _).grant
      · exact hs
    case sampleTimerExpiry =>
      split_ifs
      · exact PressureSound.grant (hs.of_pcu rfl rfl rfl)
      · exact hs
    case sampleCompletion =>
      split_ifs
      · have hgranted : PressureSound (grant { s with pcu := { s.pcu with converter := .idle } }) :=
          PressureSound.grant (hs.of_pcu rfl rfl rfl)
        have hpcu := takeSample_pcu
        exact hgranted.of_pcu (by rw [hpcu]) (by rw [hpcu]) (by rw [hpcu])
      · exact hs

/-- The inputs and lists a reset leaves (R110). -/
theorem pressureSound_enterReset (cause : ResetCause) (s : State) : PressureSound (enterReset cause s) :=
  pressureSound_reset.of_pcu rfl rfl rfl

theorem pressureSound_invariant : BlockInvariant PressureSound where
  lanes _ _ _ hs := hs.of_pcu rfl rfl rfl
  pending _ _ hs := hs.of_pcu rfl rfl rfl
  unheld _ hs := hs.of_pcu rfl rfl rfl
  tick _ hs := hs.of_pcu rfl rfl rfl
  reset := pressureSound_enterReset
  request i _ hs := carryRequest_pressureSound i hs
  event _ _ _ hr hb hs ht := exec_event_pressureSound hr hb hs ht

/-- Settles O57: of every command, only the converter's events and the two pressure requests change the Pressure Unit, and each
keeps it sound. -/
theorem pressureKept : Obligations.PressureKept :=
  fun _ _ hs ht => pressureSound_invariant.step hs ht

end Sys2Proof.Machine
end

