-- ==== Sys2Proof/Proofs/PressureReports.lean ====
section
/-! SUPPORT. What a pass's completion reports: the events of its inputs, demand and reservoir, the four live rows and the status
fields (R97, R103, R105, R106, R108, R109). -/

namespace Sys2Proof.Machine

/-! ### Rows rewritten one after another (R170) -/

theorem HoldsAt.word {m : Memory} {a : Nat} {w : Word} {bytes : List Byte} (h : HoldsAt m a (le16 w ++ bytes)) :
    m.word a = w :=
  Memory.word_of_reads (h 0 (by simp [le16])) (h 1 (by simp [le16]))

theorem HoldsAt.behindWord {m : Memory} {a : Nat} {w : Word} {bytes : List Byte} (h : HoldsAt m a (le16 w ++ bytes)) :
    HoldsAt m (a + 2) bytes := by
  intro k hk
  rw [Nat.add_assoc, Nat.add_comm 2 k, h (k + 2) (Nat.add_le_add_right hk 2)]
  rfl

/-- A rewrite of a row of one field keeps every byte outside the row. -/
theorem rewrite_field_outside {a x : Nat} {bytes : List Byte} {s : State} (hm : s.mem.wf = true)
    (h : x < a ∨ a + 2 + bytes.length ≤ x) : (rewrite a [(2, bytes)] s).mem.read x = s.mem.read x := by
  refine rewrite_outside hm (by omega) fun f hf => ?_
  rw [List.mem_singleton] at hf
  subst hf
  dsimp only
  omega

/-- After a pass over rows that share no byte every row shows its bytes, its edition raised by 2, and every byte outside the
rows is kept. -/
theorem rewriteRows_stored {ι : Type} {base : ι → Nat} {row : ι → List Byte} {l : List ι}
    (hl : l.Pairwise fun i j => base i + 2 + (row i).length ≤ base j ∨ base j + 2 + (row j).length ≤ base i) {s : State}
    (hm : s.mem.wf = true) :
    (rewriteRows base row l s).mem.wf = true ∧
      (∀ i ∈ l, HoldsAt (rewriteRows base row l s).mem (base i) (le16 (s.mem.word (base i) + 2) ++ row i)) ∧
      ∀ x, (∀ i ∈ l, x < base i ∨ base i + 2 + (row i).length ≤ x) →
        (rewriteRows base row l s).mem.read x = s.mem.read x := by
  induction l generalizing s with
  | nil => exact ⟨hm, by simp, fun _ _ => rfl⟩
  | cons i l ih =>
    obtain ⟨hi, hl⟩ := List.pairwise_cons.1 hl
    have hone := fun x => rewrite_field_outside (a := base i) (x := x) (bytes := row i) hm
    obtain ⟨hwf, hrows, hout⟩ := ih hl (rewrite_wf (base := base i) (fields := [(2, row i)]) hm)
    refine ⟨hwf, fun j hj => ?_, fun x hx => ?_⟩
    · rcases List.mem_cons.1 hj with rfl | hj
      · refine (rewrite_row_holds hm).of_read_eq fun x hlo hhi => hout x fun j' hj' => ?_
        have hlen : (le16 (s.mem.word (base j) + 2) ++ row j).length = 2 + (row j).length := List.length_append
        have := hi j' hj'
        omega
      · have := hi j hj
        have hword := Memory.word_congr (hone (base j) (by omega)) (hone (base j + 1) (by omega))
        rw [← hword]
        exact hrows j hj
    · exact (hout x fun j hj => hx j (List.mem_cons_of_mem _ hj)).trans (hone x (hx i List.mem_cons_self))

/-! ### The unit's status fields (R109) -/

/-- The unit's six bytes of the status block, from its byte 20 on. -/
def pressureBytes (p : PressureUnit) : List Byte :=
  [if p.demand = none then 1 else 0, if p.lowMark then 1 else 0] ++ le16 (BitVec.ofNat 16 (p.demand.getD 0))
    ++ le16 (reservoirWord p.reservoir)

theorem pressureFields_eq (p : PressureUnit) :
    p.statusFields = [(20, (pressureBytes p).take 2), (22, (pressureBytes p).drop 2)] := by
  unfold PressureUnit.statusFields pressureBytes
  cases p.demand <;> rfl

theorem pressureFields_eq_iff (p q : PressureUnit) : p.statusFields = q.statusFields ↔ pressureBytes p = pressureBytes q := by
  rw [pressureFields_eq, pressureFields_eq]
  constructor
  · intro h
    simp only [List.cons.injEq, Prod.mk.injEq, true_and, and_true] at h
    rw [← List.take_append_drop 2 (pressureBytes p), h.1, h.2, List.take_append_drop]
  · intro h
    rw [h]

/-- The status fields are rewritten, with edition and stamp, where one of them differs (R109). -/
theorem pressureStatus_stored (p : PressureUnit) {s : State} (hm : s.mem.wf = true) :
    (pressureBytes s.pcu ≠ pressureBytes p →
      (pressureStatus p s).mem.word 0x40 = s.mem.word 0x40 + 2 ∧
        HoldsAt (pressureStatus p s).mem 0x54 (pressureBytes s.pcu) ∧
        HoldsAt (pressureStatus p s).mem 0x64 (le32 s.stamp)) ∧
      (pressureBytes s.pcu = pressureBytes p → pressureStatus p s = s) ∧
      KeepsOutside [(0x40, 2), (0x54, 6), (0x64, 4)] s.mem (pressureStatus p s).mem := by
  by_cases h : pressureBytes s.pcu = pressureBytes p
  · have hsame : pressureStatus p s = s := if_pos ((pressureFields_eq_iff ..).2 h)
    rw [hsame]
    exact ⟨fun hne => absurd h hne, fun _ => rfl, fun _ _ => rfl⟩
  · have hrewrite : pressureStatus p s = rewriteStatus s.pcu.statusFields s :=
      if_neg fun e => h ((pressureFields_eq_iff ..).1 e)
    have hp : (s.pcu.statusFields ++ [(36, le32 0)]).Pairwise FieldsApart := by
      simp [PressureUnit.statusFields, FieldsApart, le16, le32]
    obtain ⟨hfields, hstamp⟩ := rewriteStatus_stored hp hm
    rw [hrewrite]
    refine ⟨fun _ => ⟨rewriteStatus_edition _ hm ?_, ?_, hstamp⟩, fun e => absurd e h, fun x hx => ?_⟩
    · simp [PressureUnit.statusFields]
    · rw [pressureFields_eq] at hfields ⊢
      rw [← List.take_append_drop 2 (pressureBytes s.pcu)]
      exact (hfields _ List.mem_cons_self).append (hfields _ (List.mem_cons_of_mem _ List.mem_cons_self))
    · have h0 := hx (0x40, 2) (by simp); have h1 := hx (0x54, 6) (by simp); have h2 := hx (0x64, 4) (by simp)
      dsimp only at h0 h1 h2
      refine rewriteStatus_outside hm h0 h2 fun f hf => ?_
      simp only [PressureUnit.statusFields, List.mem_cons, List.not_mem_nil, or_false] at hf
      rcases hf with rfl | rfl <;> simp only [le16, List.length_cons, List.length_nil, List.length_append] <;> omega

/-! ### Rows and status fields behind the events -/

/-- What the rows and status fields of a pass that finds the unit as `p` leave of the memory of `u`, the part after the events. -/
structure PassStored (p : PressureUnit) (codes : List (BitVec 12)) (u : State) (m : Memory) : Prop where
  rows : ∀ i : Fin 4, HoldsAt m (0x300 + 16 * i) (le16 (u.mem.word (0x300 + 16 * i) + 2) ++ passRow p codes i)
  changed : pressureBytes u.pcu ≠ pressureBytes p →
    m.word 0x40 = u.mem.word 0x40 + 2 ∧ HoldsAt m 0x54 (pressureBytes u.pcu) ∧ HoldsAt m 0x64 (le32 u.stamp)
  same : pressureBytes u.pcu = pressureBytes p → KeepsOutside [(0x300, 64)] u.mem m
  elsewhere : KeepsOutside [(0x300, 64), (0x40, 2), (0x54, 6), (0x64, 4)] u.mem m

theorem passShown_stored (p : PressureUnit) (codes : List (BitVec 12)) {u : State} (hm : u.mem.wf = true) :
    PassStored p codes u (passShown p codes u).mem := by
  have hlen (i : Fin 4) : (passRow p codes i).length = 14 := rfl
  have happart : inputIndices.Pairwise fun i j =>
      pressureRowBase i + 2 + (passRow p codes i).length ≤ pressureRowBase j ∨
        pressureRowBase j + 2 + (passRow p codes j).length ≤ pressureRowBase i := by
    simp only [hlen, pressureRowBase]
    decide
  obtain ⟨hwf, hrows, hout⟩ := rewriteRows_stored happart hm
  simp only [hlen, pressureRowBase] at hrows hout
  have hpcu := rewriteRows_keeps State.pcu rewrite_pcu pressureRowBase (passRow p codes) inputIndices u
  have hclock := rewriteRows_keeps State.clock rewrite_clock pressureRowBase (passRow p codes) inputIndices u
  have hstatus := pressureStatus_stored p hwf
  rw [passShown]
  generalize rewriteRows pressureRowBase (passRow p codes) inputIndices u = v at *
  have hstamp : v.stamp = u.stamp := by rw [State.stamp, hclock]; rfl
  rw [hpcu, hstamp] at hstatus
  obtain ⟨hchanged, hsame, hkeep⟩ := hstatus
  have hrowsOut (x : Nat) (hx : x < 0x300 ∨ 0x340 ≤ x) : v.mem.read x = u.mem.read x :=
    hout x fun i _ => by have := i.isLt; omega
  have hstatusOut (x : Nat) (hx : 0x68 ≤ x) : (pressureStatus p v).mem.read x = v.mem.read x :=
    hkeep x (by simp only [List.mem_cons, List.not_mem_nil, or_false, forall_eq_or_imp, forall_eq]; omega)
  refine ⟨fun i => ?_, fun h => ?_, fun h x hx => ?_, fun x hx => ?_⟩
  · exact (hrows i (mem_inputIndices i)).of_read_eq fun x hlo _ => hstatusOut x (by omega)
  · obtain ⟨hedition, hbytes, htime⟩ := hchanged h
    rw [hedition, Memory.word_congr (hrowsOut 0x40 (by omega)) (hrowsOut (0x40 + 1) (by omega))]
    exact ⟨rfl, hbytes, htime⟩
  · rw [hsame h]
    exact hrowsOut x (hx (0x300, 64) (List.mem_singleton_self _))
  · simp only [List.mem_cons, List.not_mem_nil, or_false, forall_eq_or_imp, forall_eq] at hx
    rw [hkeep x (by simpa only [List.mem_cons, List.not_mem_nil, or_false, forall_eq_or_imp, forall_eq] using hx.2)]
    exact hrowsOut x hx.1

/-! ### The completion's report -/

/-- The events of a completion, written out for X0 to X3. -/
theorem passReported_eq (codes : List (BitVec 12)) (s : State) :
    passReported codes s =
      let report := fun i : Fin 4 =>
        inputReport i s.pcu.inputs[i] (passedUnit codes s).inputs[i] (entryCodes s.pcu.scanList codes i)
      reportAll (report 0 ++ report 1 ++ report 2 ++ report 3 ++ demandReport s.pcu.demand (passedUnit codes s).demand
        ++ markReport s.pcu.lowMark (passedUnit codes s).lowMark (passedUnit codes s).reservoir s.reg.settings.reservoirLow) s := by
  simp only [passReported, passEvents, inputIndices, List.flatMap_cons, List.flatMap_nil, List.append_nil, List.append_assoc]

/-- Settles O30: the events move the lanes and the memory above the rows only, and rows and status fields follow them. -/
theorem passReports : Obligations.PassReports := by
  intro code due codes s t hheld hm hc hdue hpass hlast ht got bad report demand reservoir reported shown
  have hexec := exec_entryConversionCompletion_last (code := code) hheld hc hdue hpass hlast
  have hnext := Host.Outcome.next.inj (hexec.symm.trans ht)
  have hlnc : t.lnc = (passReported (codes ++ [code]) s).lnc := by rw [← hnext]
  have hpcu : t.pcu = granted s.clock (passedUnit (codes ++ [code]) s) := by rw [← hnext]
  have hmem : t.mem = (passShown s.pcu (codes ++ [code])
      { passReported (codes ++ [code]) s with pcu := passedUnit (codes ++ [code]) s }).mem := by rw [← hnext]
  clear hnext hexec ht
  have hdemand : demand = demandReport s.pcu.demand (passedUnit (codes ++ [code]) s).demand := by
    simp only [demand, hpcu, granted_demand]
    cases s.pcu.demand <;> cases (passedUnit (codes ++ [code]) s).demand <;> rfl
  have hreport (i : Fin 4) : report i = inputReport i s.pcu.inputs[i] (passedUnit (codes ++ [code]) s).inputs[i] (got i) := by
    simp only [report, hpcu, granted_inputs]
    rfl
  have hreservoir : reservoir = markReport s.pcu.lowMark (passedUnit (codes ++ [code]) s).lowMark
      (passedUnit (codes ++ [code]) s).reservoir s.reg.settings.reservoirLow := by
    simp only [reservoir, hpcu, granted_reservoir, granted_lowMark]
    rfl
  have hreported : reported = passReported (codes ++ [code]) s := by
    simp only [passReported_eq, reported, hreport, hdemand, hreservoir, got]
  have hshown : shown t.pcu = pressureBytes (passedUnit (codes ++ [code]) s) := by
    simp only [shown, hpcu, granted_demand, granted_reservoir, granted_lowMark, pressureBytes]
  have hbelow (a : Nat) (ha : a + 1 < 0xC00) : reported.mem.word a = s.mem.word a :=
    Memory.word_congr (reportAll_read_below _ hm (by omega)) (reportAll_read_below _ hm ha)
  have hstamp : reported.stamp = s.stamp := by
    rw [State.stamp, reportAll_keeps State.clock raiseEvent_clock]
    rfl
  have hstored := passShown_stored s.pcu (codes ++ [code])
    (u := { passReported (codes ++ [code]) s with pcu := passedUnit (codes ++ [code]) s }) (reportAll_wf _ hm)
  rw [← hmem, ← hreported] at hstored
  obtain ⟨hrows, hchanged, hsame, helsewhere⟩ := hstored
  refine ⟨hlnc.trans (congrArg State.lnc hreported.symm), helsewhere, fun i => ?_, fun h => ?_, fun h => ?_⟩
  · have hword := hbelow (0x300 + 16 * i) (by omega)
    have hrow := hrows i
    have hy : t.pcu.inputs[i] = passInput s.pcu (codes ++ [code]) i := by rw [hpcu, granted_inputs]; exact passed_input ..
    simp only [hy]
    refine ⟨hrow.word.trans (congrArg (· + 2) hword), ?_⟩
    have hbytes := hrow.behindWord
    rw [Nat.add_right_comm] at hbytes
    exact hbytes
  · rw [hshown] at h ⊢
    obtain ⟨hedition, hbytes, htime⟩ := hchanged h
    refine ⟨hedition.trans (congrArg (· + 2) (hbelow 0x40 (by decide))), hbytes, ?_⟩
    rw [← hstamp]
    exact htime
  · exact hsame (hshown.symm.trans h)

end Sys2Proof.Machine
end

