-- ==== Sys2Proof/Proofs/DrumUnit.lean ====
section
/-! SUPPORT. The Drum Temperature Unit: what each of its operations leaves of the unit (R112 to R127). -/

namespace Sys2Proof.Machine

/-! ### The start of a measurement (R116, R117) -/

/-- A test of R116 starts nothing, or the head entry of the queue. -/
theorem started_cases (cls : SupplyClass) (clock : Nat) (u : DrumUnit) :
    (begins cls u = none ∧ started cls clock u = u) ∨
    ∃ e rest, cls ≠ .critical ∧ u.inFlight = none ∧ u.queue = e :: rest ∧ begins cls u = some e.drum ∧
      started cls clock u =
        { u with
          queue := rest, counter := BitVec.ofNat 20 (1048576 - u.config.nRef), timeBase := 0
          inFlight := some
            { drum := e.drum, origin := e.origin, tags := e.tags, phase := .reference, rRef := u.config.rRef
              nRef := u.config.nRef, since := clock } } := by
  unfold begins started
  by_cases hcls : cls = .critical
  · exact .inl (by simp [hcls])
  · cases hm : u.inFlight with
    | some m => exact .inl (by simp [hcls])
    | none =>
      cases hq : u.queue with
      | nil => exact .inl (by simp [hcls])
      | cons e rest => exact .inr ⟨e, rest, hcls, rfl, rfl, by simp [hcls], by simp [hcls]⟩

/-- A test of R116 rewrites the row of the drum whose measurement it starts, and else does nothing. -/
theorem startIfAllowed_eq (s : State) :
    startIfAllowed s = ((begins s.smn.cls s.dtu).elim id rewriteDrum)
      { s with dtu := started s.smn.cls s.clock s.dtu } := by
  rcases hm : s.dtu.inFlight with _ | m
  · rcases hq : s.dtu.queue with _ | ⟨e, rest⟩
    · have hnone : begins s.smn.cls s.dtu = none := by simp [begins, hq]
      have hsame : started s.smn.cls s.clock s.dtu = s.dtu := by simp [started, hm, hq]
      simp only [startIfAllowed, hm, hq, hnone, hsame, Option.elim_none, id]
    · by_cases hcls : s.smn.cls = .critical
      · simp only [startIfAllowed, begins, started, hm, hq, hcls, if_true, true_or, Option.elim_none, id]
      · simp only [startIfAllowed, begins, started, hm, hq, hcls, if_false, false_or, ne_eq, not_true, List.head?_cons,
          Option.map_some, Option.elim_some]
        rfl
  · have hnone : begins s.smn.cls s.dtu = none := by simp [begins, hm]
    have hsame : started s.smn.cls s.clock s.dtu = s.dtu := by simp [started, hm]
    simp only [startIfAllowed, hm, hnone, hsame, Option.elim_none, id]

@[simp] theorem startIfAllowed_dtu (s : State) :
    (startIfAllowed s).dtu = started s.smn.cls s.clock s.dtu := by
  rw [startIfAllowed_eq]
  cases begins s.smn.cls s.dtu with
  | none => rfl
  | some d => exact rewriteDrum_dtu ..

/-! ### What answering leaves of the unit -/

@[simp] theorem answerTags_dtu (status : Status) (result tags : List Byte) (s : State) :
    (answerTags status result tags s).dtu = s.dtu :=
  answerTags_keeps State.dtu (fun _ _ _ _ _ => respond_dtu ..) ..

@[simp] theorem abandonTags_dtu (d : Fin 6) (origin : Origin) (tags : List Byte) (s : State) :
    (abandonTags d origin tags s).dtu = s.dtu := answerTags_dtu ..

@[simp] theorem abandonInFlight_dtu (s : State) : (abandonInFlight s).dtu = { s.dtu with inFlight := none } := by
  unfold abandonInFlight
  split
  · next h => rw [← h]
  · rw [abandonTags_dtu]

@[simp] theorem removeEntries_dtu (s : State) :
    (removeEntries s).dtu = { s.dtu with queue := s.dtu.queue.filter fun e => s.dtu.isEnabled e.drum } :=
  foldl_keeps State.dtu (fun _ _ => abandonTags_dtu ..) _ _

@[simp] theorem drumEvent_dtu (f : State → State) (s : State) : (drumEvent f s).dtu = (f s).dtu := by
  simp only [drumEvent]; split_ifs <;> simp

/-! ### Frames handed over, whatever the unit -/

/-- An operation that hands frames over alike whatever the Drum Temperature Unit leaves a changed unit as it is. -/
theorem withDrums_of_alike {f : State → State} (halike : ∀ u v, Alike u v → Alike (f u) (f v))
    (hf : ∀ u, f u = { u with lnc := (f u).lnc, mem := (f u).mem }) (s : State) (u : DrumUnit) :
    f { s with dtu := u } = { f s with dtu := u } := by
  obtain ⟨-, hlnc, hmem⟩ := halike { s with dtu := u } s ⟨rfl, rfl, rfl⟩
  rw [hf { s with dtu := u }, hlnc, hmem, hf s]

theorem raiseEvent_withDrums (kind : EventKind) (subject : Byte) (v1 v2 : Int) (s : State) (u : DrumUnit) :
    raiseEvent kind subject v1 v2 { s with dtu := u } = { raiseEvent kind subject v1 v2 s with dtu := u } :=
  withDrums_of_alike (fun _ _ h => h.raiseEvent ..) (raiseEvent_eq kind subject v1 v2) s u

theorem respond_withDrums (kind tag : Byte) (status : Status) (result : List Byte) (s : State) (u : DrumUnit) :
    respond kind tag status result { s with dtu := u } = { respond kind tag status result s with dtu := u } :=
  withDrums_of_alike (fun _ _ h => h.respond ..) (respond_eq kind tag status result) s u

theorem answerTags_withDrums (status : Status) (result tags : List Byte) (s : State) (u : DrumUnit) :
    answerTags status result tags { s with dtu := u } = { answerTags status result tags s with dtu := u } := by
  unfold answerTags
  induction tags generalizing s with
  | nil => rfl
  | cons tag tags ih => rw [List.foldl_cons, respond_withDrums, ih]; rfl

theorem sensorEvent_withDrums (d : Fin 6) (old new : DrumResult) (n : Nat) (s : State) (u : DrumUnit) :
    sensorEvent d old new n { s with dtu := u } = { sensorEvent d old new n s with dtu := u } := by
  unfold sensorEvent
  split_ifs
  · exact raiseEvent_withDrums ..
  · rfl

theorem hotEvent_withDrums (d : Fin 6) (old new : Bool) (t : Option Int) (hot : Int) (s : State) (u : DrumUnit) :
    hotEvent d old new t hot { s with dtu := u } = { hotEvent d old new t hot s with dtu := u } := by
  unfold hotEvent
  split_ifs
  · exact raiseEvent_withDrums ..
  · exact raiseEvent_withDrums ..
  · rfl

/-! ### The hottest drum (R127) -/

theorem measured_iff_good (r : DrumResult) : r.measured = true ↔ r.Good := by
  cases r <;> simp [DrumResult.measured, DrumResult.Good]

theorem isFault_iff_fault (r : DrumResult) : r.isFault = true ↔ r.Fault := by
  cases r <;> simp [DrumResult.isFault, DrumResult.Fault]

/-- The temperatures that count are those of the drums whose result is VALID or CLAMPED. -/
theorem mem_measuredTemperatures (drums : Vector Drum 6) (v : Int) :
    v ∈ drums.toList.filterMap (fun x => if x.result.measured then x.temperature else none) ↔
      ∃ d : Fin 6, drums[d].result.Good ∧ drums[d].temperature = some v := by
  have hcounts (x : Drum) : (if x.result.measured then x.temperature else none) = some v ↔
      x.result.Good ∧ x.temperature = some v := by
    rw [← measured_iff_good]
    cases x.result.measured <;> simp
  simp only [List.mem_filterMap, hcounts]
  constructor
  · rintro ⟨x, hx, hv⟩
    obtain ⟨i, hi, rfl⟩ := List.getElem_of_mem hx
    rw [Vector.length_toList] at hi
    rw [Vector.getElem_toList] at hv
    exact ⟨⟨i, hi⟩, hv⟩
  · rintro ⟨d, hv⟩
    exact ⟨drums[d], Vector.mem_toList_iff.2 (Vector.getElem_mem d.isLt), hv⟩

theorem hottestOf_hottest (drums : Vector Drum 6) : Hottest drums (hottestOf drums) := by
  intro v
  rw [hottestOf, List.max?_eq_some_iff]
  simp only [mem_measuredTemperatures]
  exact and_congr_right fun _ => ⟨fun h d w hd hw => h w ⟨d, hd, hw⟩, fun h w ⟨d, hd, hw⟩ => h d w hd hw⟩

/-! ### Completion (R124) -/

/-- A drum after a measurement of it has ended with a result (R124 steps 1 and 4). -/
def completedDrum (m : Measurement) (result : DrumResult) (resistance : Nat) (t : Option Int) (n clock : Nat)
    (u : DrumUnit) : Drum :=
  { result := result, resistance := resistance, temperature := t, nSens := n, origin := m.origin
    hot := hotAfter u.drums[m.drum].hot u.config.hot result t, ageFrom := some clock }

/-- The unit after a measurement has ended with a result, before the next one starts (R124). -/
def completedUnit (m : Measurement) (result : DrumResult) (resistance : Nat) (t : Option Int) (n clock : Nat)
    (u : DrumUnit) : DrumUnit :=
  { u with
    drums := u.drums.set m.drum (completedDrum m result resistance t n clock u)
    hottest := hottestOf (u.drums.set m.drum (completedDrum m result resistance t n clock u))
    inFlight := none }

/-- The events of a completion, in their order (R125, R126). -/
def completionRaised (m : Measurement) (result : DrumResult) (t : Option Int) (n : Nat) (s : State) : State :=
  let x := s.dtu.drums[m.drum]
  hotEvent m.drum x.hot (hotAfter x.hot s.dtu.config.hot result t) t s.dtu.config.hot
    (sensorEvent m.drum x.result result n s)

/-- The result bytes with which a completion answers its tags (11.5). -/
def completionBytes (m : Measurement) (result : DrumResult) (resistance : Nat) (t : Option Int) (u : DrumUnit) :
    List Byte :=
  measureResult (BitVec.ofNat 8 m.drum) result m.origin.code (bit 0 (hotAfter u.drums[m.drum].hot u.config.hot result t))
    resistance t

/-- The events of a completion and the answers of the waiting tags (R124 steps 2, 3 and 5). -/
def completionReported (m : Measurement) (result : DrumResult) (resistance : Nat) (t : Option Int) (n : Nat) (s : State) :
    State :=
  answerTags (if result.isFault then .sensorFault else .done) (completionBytes m result resistance t s.dtu) m.tags
    (completionRaised m result t n s)

theorem completionRaised_keeps {α : Type} (g : State → α)
    (h : ∀ kind subject v1 v2 u, g (raiseEvent kind subject v1 v2 u) = g u) (m : Measurement) (result : DrumResult)
    (t : Option Int) (n : Nat) (s : State) : g (completionRaised m result t n s) = g s := by
  simp only [completionRaised, hotEvent, sensorEvent]
  split_ifs <;> simp only [h]

/-- A completion hands over its events and answers, leaves the unit with the result and nothing in flight, shows it in the drum's
row, and lets the next measurement start (R124). -/
theorem completeMeasurement_eq (m : Measurement) (result : DrumResult) (resistance : Nat) (t : Option Int) (n : Nat)
    (s : State) :
    completeMeasurement m result resistance t n s =
      startIfAllowed (rewriteDrum m.drum
        { completionReported m result resistance t n s with
          dtu := completedUnit m result resistance t n s.clock s.dtu }) := by
  simp only [completeMeasurement, State.setDrum, sensorEvent_withDrums, hotEvent_withDrums, answerTags_withDrums]
  rfl

theorem completeMeasurement_dtu (m : Measurement) (result : DrumResult) (resistance : Nat) (t : Option Int) (n : Nat)
    (s : State) :
    (completeMeasurement m result resistance t n s).dtu =
      started s.smn.cls s.clock (completedUnit m result resistance t n s.clock s.dtu) := by
  have hclock : (completionReported m result resistance t n s).clock = s.clock :=
    (answerTags_keeps State.clock (fun _ _ _ _ _ => respond_clock ..) ..).trans
      (completionRaised_keeps State.clock (fun _ _ _ _ _ => raiseEvent_clock ..) ..)
  have hsmn : (completionReported m result resistance t n s).smn = s.smn :=
    (answerTags_keeps State.smn (fun _ _ _ _ _ => respond_smn ..) ..).trans
      (completionRaised_keeps State.smn (fun _ _ _ _ _ => raiseEvent_smn ..) ..)
  rw [completeMeasurement_eq, startIfAllowed_dtu, rewriteDrum_dtu, rewriteDrum_clock, rewriteDrum_smn, hclock, hsmn]

/-! ### SET-DRUM-CONFIG (R114) -/

/-- The unit after steps 1 to 5 of R114. -/
def reconfiguredUnit (new : DrumConfig) (clock : Nat) (u : DrumUnit) : DrumUnit :=
  let drums := six fun d => clearLeaver u.config.enabled new.enabled clock d u.drums[d]
  { u with
    config := new, inFlight := none, queue := u.queue.filter fun e => new.enabled[e.drum]
    drums := drums, hottest := hottestOf drums
    scanTimer := if new.interval = 0 then none else some (clock + new.interval * Config.ticksPerMs) }

theorem abandoned_keeps {α : Type} (g : State → α)
    (h : ∀ kind tag status result u, g (respond kind tag status result u) = g u)
    (hd : ∀ x u, g { u with dtu := x } = g u) (new : DrumConfig) (s : State) :
    g (removeEntries { abandonInFlight s with dtu := { (abandonInFlight s).dtu with config := new } }) = g s := by
  have hflight : g (abandonInFlight s) = g s := by
    unfold abandonInFlight; split
    · rfl
    · exact (answerTags_keeps g h ..).trans (hd _ s)
  exact (foldl_keeps g (fun _ _ => answerTags_keeps g h ..) _ _).trans ((hd _ _).trans ((hd _ _).trans hflight))

theorem reconfigure_dtu (new : DrumConfig) (s : State) :
    (reconfigure new s).dtu = reconfiguredUnit new s.clock s.dtu := by
  have hclock := abandoned_keeps State.clock (fun _ _ _ _ _ => respond_clock ..) (fun _ _ => rfl) new s
  have hdtu := removeEntries_dtu { abandonInFlight s with dtu := { (abandonInFlight s).dtu with config := new } }
  simp only [abandonInFlight_dtu] at hclock hdtu
  simp only [reconfigure, abandonInFlight_dtu, State.after, hclock, hdtu]
  rfl

/-! ### The scan's offer (R123) -/

/-- A scan expiry finds no enabled drum, a busy one, or one that joins the queue and may start. -/
theorem offerScan_cases (s : State) :
    (scanTarget s.dtu = none ∧ offerScan s = s) ∨
    ∃ d, scanTarget s.dtu = some d ∧
      (((s.dtu.isInFlight d = true ∨ s.dtu.isQueued d = true) ∧
          offerScan s = { s with dtu := { s.dtu with rotation := d + 1 } }) ∨
        (s.dtu.isInFlight d = false ∧ s.dtu.isQueued d = false ∧
          offerScan s = startIfAllowed { s with dtu := { s.dtu with
            rotation := d + 1, queue := s.dtu.queue ++ [{ drum := d, origin := .scan, tags := [] }] } })) := by
  unfold offerScan
  cases hd : scanTarget s.dtu with
  | none => exact .inl ⟨rfl, rfl⟩
  | some d =>
    refine .inr ⟨d, rfl, ?_⟩
    dsimp only
    cases hf : s.dtu.isInFlight d <;> cases hq : s.dtu.isQueued d
    · exact .inr ⟨rfl, rfl, rfl⟩
    all_goals exact .inl ⟨by simp, rfl⟩

theorem scanTarget_enabled {u : DrumUnit} {d : Fin 6} (h : scanTarget u = some d) : u.config.enabled[d] = true := by
  have hon : u.isEnabled d = true := List.find?_some h
  exact hon

/-! ### MEASURE-DRUM (R122) -/

/-- What a MEASURE-DRUM with a tag can make of a state (R122): it is answered at once, its tag joins the measurement in flight or
a queued entry, or its drum joins the queue. -/
inductive MeasureOutcome (tag : Byte) (s : State) : State → Prop
  | answered (status : Status) (result : List Byte) : MeasureOutcome tag s (respond 0x42 tag status result s)
  | joinsFlight (m : Measurement) (flying : s.dtu.inFlight = some m) (room : m.tags.length < 4) :
      MeasureOutcome tag s { s with dtu := { s.dtu with inFlight := some { m with tags := m.tags ++ [tag] } } }
  | joinsEntry (d : Fin 6) (e : QueueEntry) (queued : s.dtu.queue.find? (fun e => e.drum == d) = some e)
      (room : e.tags.length < 4) :
      MeasureOutcome tag s { s with dtu := { s.dtu with queue := s.dtu.queue.map (joinEntry d tag) } }
  | joinsQueue (d : Fin 6) (on : s.dtu.config.enabled[d] = true) (landed : s.dtu.isInFlight d = false)
      (fresh : s.dtu.isQueued d = false) :
      MeasureOutcome tag s
        (drumEvent (fun s => startIfAllowed (joinQueue { drum := d, origin := .request, tags := [tag] } s)) s)

theorem measureQueued_outcome (tag : Byte) {d : Fin 6} {s : State} (on : s.dtu.config.enabled[d] = true)
    (landed : s.dtu.isInFlight d = false) : MeasureOutcome tag s (measureQueued tag d s) := by
  unfold measureQueued
  split
  · next e he =>
    split_ifs with hroom
    · exact .joinsEntry d e he hroom
    · exact .answered ..
  · next hnone => exact .joinsQueue d on landed (by simpa [DrumUnit.isQueued] using hnone)

theorem carryMeasureDrum_outcome (tag drum : Byte) (s : State) :
    MeasureOutcome tag s (carryMeasureDrum tag drum s) := by
  unfold carryMeasureDrum
  split
  · exact .answered ..
  · next d _ =>
    split_ifs with hon
    · unfold measureEnabled
      split
      · next hnone => exact measureQueued_outcome tag hon (by simp [DrumUnit.isInFlight, hnone])
      · next m hm =>
        split_ifs with hdrum hroom
        · exact .joinsFlight m hm hroom
        · exact .answered ..
        · exact measureQueued_outcome tag hon (by simp [DrumUnit.isInFlight, hm, hdrum])
    · exact .answered ..

end Sys2Proof.Machine
end

