-- ==== Sys2Proof/Proofs/OwedResponses.lean ====
section
/-! SUPPORT. Properties that count the responses still owed by the command in hand: frames, rows and the blocks that hold no
request keep the count, and a response lowers it by one (R174, R178). -/

namespace Sys2Proof

/-- Whether a command may act on the channels or the drums, whose tests and measurements hold requests that were taken. -/
def Instr.ofHolders : Instr → Bool
  | .regulationPeriod | .holdLimitExpiry _ | .ventLimitExpiry _ | .outputProved _ _ | .outputOpen _ _ | .outputShort _ _
  | .applyExpiry _ | .holdIntervalExpiry _ | .onExpiry _ | .offExpiry _ | .sampleCompletion _ | .referenceOverflow
  | .referenceTimeout | .sensorPhaseEnd _ | .sensorOverflow | .drumScanExpiry | .ageRefresh | .disarm _
  | .installChannel _ _ | .clearChannel _ _ | .valveTest _ _ _ _ _ _ _ | .stopTest _ _ | .setDrumConfig _ _ _ _ _ _
  | .setCurve _ _ _ | .measureDrum _ _ => true
  | _ => false

end Sys2Proof

namespace Sys2Proof.Machine

/-- A family of properties, by the number of responses the command in hand still owes, in which the queue of commands and the
blocks other than the channels and the drums take no part. -/
structure OwedProperty (P : Nat → State → Prop) : Prop where
  event : ∀ kind subject v1 v2 n s, P n s → P n (raiseEvent kind subject v1 v2 s)
  row : ∀ base fields n s, P n s → P n (rewrite base fields s)
  response : ∀ kind tag status result n s, P (n + 1) s → P n (respond kind tag status result s)
  wheels : ∀ x n s, P n s → P n { s with wheels := x }
  regulator : ∀ x n s, P n s → P n { s with reg := x }
  inputs : ∀ x n s, P n s → P n { s with pcu := x }
  supply : ∀ x n s, P n s → P n { s with smn := x }
  retarder : ∀ x n s, P n s → P n { s with rbu := x }

namespace OwedProperty

variable {P : Nat → State → Prop} {n : Nat} {s : State}

/-! ### The retarder -/

theorem formAllowed (h : OwedProperty P) (hs : P n s) : P n (formAllowed s) := by
  rw [formAllowed_eq]; exact h.retarder _ _ _ hs

theorem formCut (h : OwedProperty P) (hs : P n s) : P n (formCut s) := by
  obtain ⟨q, e⟩ := formCut_cases s
  rw [e]
  refine h.retarder _ _ _ ?_
  split_ifs
  · exact h.event _ _ _ _ _ _ hs
  · exact hs

theorem retarderEvent (h : OwedProperty P) {f : State → State} (hs : P n (f s)) : P n (retarderEvent f s) := by
  simp only [Machine.retarderEvent]
  split_ifs
  · exact hs
  · exact h.row _ _ _ _ hs

theorem settleLever (h : OwedProperty P) (hs : P n s) : P n (settleLever s) := by
  simp only [Machine.settleLever]
  split_ifs
  · exact h.retarder _ _ _ hs
  · exact h.formAllowed (h.retarder _ _ _ hs)

theorem endRamp (h : OwedProperty P) (hs : P n s) : P n (endRamp s) := by
  rw [Machine.endRamp, moveOutput_eq]
  exact h.retarder _ _ _ (h.retarder _ _ _ hs)

theorem endHoldOff (h : OwedProperty P) (x : HoldOff) (hs : P n s) : P n (endHoldOff x s) :=
  h.event _ _ _ _ _ _ (h.formAllowed (h.retarder _ _ _ hs))

/-! ### The wheels and the pressure inputs -/

theorem toothEdge (h : OwedProperty P) (w : Fin 6) (hs : P n s) : P n (toothEdge w s) := by
  rcases toothEdge_cases w s with e | ⟨r, -, -, e⟩ | ⟨r, p, -, -, e⟩ | ⟨r, -, -, e⟩ <;> rw [e]
  · exact hs
  · exact h.wheels _ _ _ hs
  · exact h.wheels _ _ _ hs
  · simp only [edgeRolling, capture]
    split_ifs
    · exact h.wheels _ _ _ hs
    · split
      · exact h.wheels _ _ _ hs
      · split_ifs
        · exact h.wheels _ _ _ hs
        · exact h.wheels _ _ _ hs
        · exact h.event _ _ _ _ _ _ (h.wheels _ _ _ hs)

theorem grant (h : OwedProperty P) (hs : P n s) : P n (grant s) := by
  rw [grant_eq]; exact h.inputs _ _ _ hs

theorem reportAll (h : OwedProperty P) (l : List Report) (hs : P n s) : P n (reportAll l s) :=
  SensingFree.foldl (P := P n) (fun _ _ hu => h.event _ _ _ _ _ _ hu) l hs

theorem recordCode (h : OwedProperty P) (code : BitVec 12) (codes : List (BitVec 12)) (hs : P n s) :
    P n (recordCode code codes s) := by
  simp only [Machine.recordCode]
  split_ifs
  · exact h.inputs _ _ _ hs
  · rw [completePass_eq]
    have hrows := SensingFree.foldl (P := P n)
      (f := fun u i => rewrite (pressureRowBase i) [(2, passRow s.pcu (codes ++ [code]) i)] u)
      (fun _ _ hu => h.row _ _ _ _ hu) inputIndices (h.reportAll (passEvents s.pcu
        (passed s.reg.settings.reservoirLow (codes ++ [code]) s.pcu) (codes ++ [code]) s.reg.settings.reservoirLow)
        (h.inputs (passed s.reg.settings.reservoirLow (codes ++ [code]) s.pcu) _ _ hs))
    unfold passShown pressureStatus
    split_ifs
    · exact hrows
    · exact h.row _ _ _ _ hrows

/-! ### Requests and events -/

/-- A request that concerns neither a channel nor a drum is answered once. -/
theorem request (h : OwedProperty P) {i : Instr} (hr : i.isRequest = true) (hi : i.ofHolders = false)
    (hs : P (n + 1) s) : P n (carryRequest i s) := by
  cases i <;> first | exact absurd hr Bool.false_ne_true | exact absurd hi.symm Bool.false_ne_true | skip
  case identify => exact h.response _ _ _ _ _ _ hs
  case unknownKind => exact h.response _ _ _ _ _ _ hs
  case arm =>
    simp only [carryRequest, carryArm]
    split_ifs
    · exact h.response _ _ _ _ _ _ hs
    · exact h.response _ _ _ _ _ _ hs
    · exact h.response _ _ _ _ _ _ (h.row _ _ _ _ (h.regulator _ _ _ hs))
  case setReference =>
    simp only [carryRequest, carrySetReference]
    split
    · exact h.response _ _ _ _ _ _ hs
    · split_ifs
      · exact h.response _ _ _ _ _ _ hs
      · exact h.response _ _ _ _ _ _ (h.regulator _ _ _ hs)
      · exact h.response _ _ _ _ _ _ (h.row _ _ _ _ (h.regulator _ _ _ hs))
  case installWheel =>
    simp only [carryRequest, carryInstallWheel]
    split
    · exact h.response _ _ _ _ _ _ hs
    · split_ifs
      · exact h.response _ _ _ _ _ _ hs
      · exact h.response _ _ _ _ _ _ (h.wheels _ _ _ hs)
  case removeWheel =>
    simp only [carryRequest, carryRemoveWheel]
    split
    · exact h.response _ _ _ _ _ _ hs
    · split_ifs
      · exact h.response _ _ _ _ _ _ hs
      · exact h.response _ _ _ _ _ _ (h.wheels _ _ _ hs)
  case clearWheel =>
    simp only [carryRequest, carryClearWheel]
    split
    · exact h.response _ _ _ _ _ _ hs
    · split_ifs
      · exact h.response _ _ _ _ _ _ (h.wheels _ _ _ hs)
      · exact h.response _ _ _ _ _ _ hs
  case setScan =>
    simp only [carryRequest, carrySetScan]
    split
    · exact h.response _ _ _ _ _ _ hs
    · exact h.response _ _ _ _ _ _ (h.inputs _ _ _ hs)
  case setCalibration =>
    simp only [carryRequest, carrySetCalibration]
    split
    · exact h.response _ _ _ _ _ _ hs
    · split
      · exact h.response _ _ _ _ _ _ hs
      · exact h.response _ _ _ _ _ _ (h.inputs _ _ _ hs)
  case setSupplyCriteria =>
    simp only [carryRequest, carrySetSupplyCriteria]
    split
    · exact h.response _ _ _ _ _ _ hs
    · exact h.response _ _ _ _ _ _ (h.supply _ _ _ hs)
  case setBlend =>
    simp only [carryRequest, carrySetBlend]
    split
    · exact h.response _ _ _ _ _ _ hs
    · exact h.response _ _ _ _ _ _ (h.retarderEvent (h.formAllowed (h.retarder _ _ _ hs)))

/-- An event that concerns neither a channel nor a drum leaves the count as it was. -/
theorem exec_event (h : OwedProperty P) {i : Instr} (hr : i.isRequest = false) (hb : i.isBusCommand = false)
    (hi : i.ofHolders = false) {t : State} (hs : P n s) (ht : exec i s = .next t) : P n t := by
  cases i <;> first | exact absurd hb.symm Bool.false_ne_true | exact absurd hi.symm Bool.false_ne_true |
    exact absurd hr.symm Bool.false_ne_true | skip
  case leverInputChange => cases ht; exact h.retarder _ _ _ hs
  all_goals
    simp only [exec, execToothEdge, execStandstillExpiry, execScanTimerExpiry, execEntryConversionCompletion,
      execSampleTimerExpiry, execLeverSettleExpiry, execHoldOffExpiry, execRampExpiry] at ht
    refine BlockInvariant.whenRunning (P := P n) (fun hs => ?_) hs ht
  case toothEdge => exact h.toothEdge _ hs
  case standstillExpiry =>
    split_ifs
    · exact h.wheels _ _ _ hs
    · exact hs
  case scanTimerExpiry =>
    split_ifs
    · rw [grantScan_eq]
      exact h.inputs _ _ _ (h.inputs _ _ _ hs)
    · exact hs
  case entryConversionCompletion =>
    split_ifs
    · split
      · exact h.grant (h.inputs _ _ _ hs)
      · exact h.grant (h.recordCode _ _ (h.inputs _ _ _ hs))
    · exact hs
  case sampleTimerExpiry =>
    split_ifs
    · have hrestarted : P n { s with smn := { s.smn with
          sampleDue := s.smn.sampleDue + Config.samplePeriodMs * Config.ticksPerMs } } := h.supply _ _ _ hs
      exact h.grant (h.inputs _ _ _ hrestarted)
    · exact hs
  case leverSettleExpiry =>
    split_ifs
    · exact h.retarderEvent (h.settleLever hs)
    · exact hs
  case holdOffExpiry =>
    split
    · exact hs
    · split_ifs
      · exact h.retarderEvent (h.endHoldOff _ hs)
      · exact hs
  case rampExpiry =>
    split_ifs
    · exact h.retarderEvent (h.endRamp hs)
    · exact hs

end OwedProperty

end Sys2Proof.Machine
end

