-- ==== Sys2Proof/Proofs/DrumsKept.lean ====
section
/-! SUPPORT. The measurement queue and the drums' results under every command: starts, completions, offers and requests keep them
together, and the other commands leave the Drum Temperature Unit alone (R112, R114, R121, R122, R127). -/

namespace Sys2Proof.Machine

/-! ### What the queue and the results rest on -/

/-- Soundness asks for the enable set, the queue, the measurement in flight, the results and the hottest drum alone. -/
theorem DrumsSound.of_parts {s t : State} (hs : DrumsSound s) (henabled : t.dtu.config.enabled = s.dtu.config.enabled)
    (hqueue : t.dtu.queue = s.dtu.queue) (hflight : t.dtu.inFlight = s.dtu.inFlight) (hdrums : t.dtu.drums = s.dtu.drums)
    (hhottest : t.dtu.hottest = s.dtu.hottest) : DrumsSound t := by
  obtain ⟨honce, hflying, hentries, hunknown, hhot⟩ := hs
  constructor <;> simp only [henabled, hqueue, hflight, hdrums, hhottest] <;> assumption

theorem DrumsSound.of_dtu_eq {s t : State} (hs : DrumsSound s) (h : t.dtu = s.dtu) : DrumsSound t := by
  apply hs.of_parts <;> rw [h]

/-- A start moves the head of the queue to the measurement in flight. -/
theorem DrumsSound.started {s t : State} (hs : DrumsSound s) (cls : SupplyClass) (clock : Nat)
    (h : t.dtu = started cls clock s.dtu) : DrumsSound t := by
  rcases started_cases cls clock s.dtu with ⟨-, e⟩ | ⟨e, rest, -, -, hq, -, hstart⟩
  · exact hs.of_dtu_eq (h.trans e)
  · obtain ⟨honce, -, hentries, hunknown, hhot⟩ := hs
    rw [hq] at honce hentries
    obtain ⟨hfresh, honce⟩ := List.nodup_cons.1 honce
    obtain ⟨htags, -, hon⟩ := hentries e List.mem_cons_self
    rw [hstart] at h
    constructor <;> rw [h]
    · exact honce
    · rintro m ⟨rfl⟩
      exact ⟨fun x hx he => hfresh (List.mem_map.2 ⟨x, hx, he⟩), htags, hon⟩
    · exact fun x hx => hentries x (List.mem_cons_of_mem _ hx)
    · exact hunknown
    · exact hhot

theorem DrumsSound.startIfAllowed {s : State} (hs : DrumsSound s) : DrumsSound (startIfAllowed s) :=
  hs.started _ _ (startIfAllowed_dtu s)

/-- A drum that is neither in flight nor queued may join the queue. -/
theorem DrumsSound.joined {s : State} (hs : DrumsSound s) {e : QueueEntry} (htags : e.tags.length ≤ 4)
    (hscan : e.origin = .scan → e.tags = []) (hon : s.dtu.config.enabled[e.drum] = true)
    (hflight : s.dtu.isInFlight e.drum = false) (hqueue : s.dtu.isQueued e.drum = false) :
    DrumsSound (joinQueue e s) := by
  obtain ⟨honce, hflying, hentries, hunknown, hhot⟩ := hs
  simp only [DrumUnit.isInFlight, DrumUnit.isQueued, Option.any_eq_false_iff_get, List.any_eq_false, beq_iff_eq] at hflight hqueue
  refine ⟨?_, fun m hm => ?_, fun x hx => ?_, hunknown, hhot⟩
  · simp only [joinQueue, List.map_append, List.map_cons, List.map_nil]
    refine List.nodup_append.2 ⟨honce, List.nodup_singleton _, fun d hd d' hd' he => ?_⟩
    obtain ⟨x, hx, rfl⟩ := List.mem_map.1 hd
    rw [List.mem_singleton] at hd'
    exact hqueue x hx (he.trans hd')
  · obtain ⟨hother, hcount, henabled⟩ := hflying m hm
    refine ⟨fun x hx => ?_, hcount, henabled⟩
    rcases List.mem_append.1 hx with hx | hx
    · exact hother x hx
    · rw [List.mem_singleton] at hx
      subst hx
      have hm' : s.dtu.inFlight = some m := hm
      simp [hm'] at hflight
      exact fun he => hflight he.symm
  · rcases List.mem_append.1 hx with hx | hx
    · exact hentries x hx
    · rw [List.mem_singleton] at hx
      subst hx
      exact ⟨htags, hscan, hon⟩

/-- A result other than UNKNOWN leaves the drums' results and the hottest drum together (R124, R127). -/
theorem DrumsSound.completed {s t : State} (hs : DrumsSound s) (m : Measurement) {result : DrumResult}
    (hresult : result ≠ .unknown) (resistance : Nat) (temperature : Option Int) (n clock : Nat)
    (h : t.dtu = completedUnit m result resistance temperature n clock s.dtu) : DrumsSound t := by
  obtain ⟨honce, -, hentries, hunknown, -⟩ := hs
  constructor <;> rw [h]
  · exact honce
  · exact nofun
  · exact hentries
  · intro d hd
    by_cases hdrum : d = m.drum
    · subst hdrum
      simp [completedUnit, completedDrum, hresult] at hd
    · have hother : (s.dtu.drums.set m.drum (completedDrum m result resistance temperature n clock s.dtu))[d] =
          s.dtu.drums[d] := by
        have := State.setDrum_get m.drum d (completedDrum m result resistance temperature n clock s.dtu) s
        rwa [if_neg hdrum] at this
      simp only [completedUnit, hother] at hd ⊢
      exact hunknown d hd
  · rfl

theorem DrumsSound.completeMeasurement {s : State} (hs : DrumsSound s) (m : Measurement) {result : DrumResult}
    (hresult : result ≠ .unknown) (resistance : Nat) (t : Option Int) (n : Nat) :
    DrumsSound (completeMeasurement m result resistance t n s) :=
  DrumsSound.started (s := { s with dtu := completedUnit m result resistance t n s.clock s.dtu })
    (hs.completed m hresult resistance t n s.clock rfl) _ _ (completeMeasurement_dtu ..)

/-- A reconfiguration drops the measurement in flight and every entry whose drum leaves the set, and clears such a drum's result
(R114). -/
theorem DrumsSound.reconfigured {s t : State} (hs : DrumsSound s) (new : DrumConfig) (clock : Nat)
    (h : t.dtu = reconfiguredUnit new clock s.dtu) : DrumsSound t := by
  obtain ⟨honce, -, hentries, hunknown, -⟩ := hs
  constructor <;> rw [h]
  · exact honce.sublist (List.filter_sublist.map _)
  · exact nofun
  · intro e he
    obtain ⟨hmem, hon⟩ := List.mem_filter.1 he
    obtain ⟨htags, hscan, -⟩ := hentries e hmem
    exact ⟨htags, hscan, hon⟩
  · intro d
    simp only [reconfiguredUnit, six_get, clearLeaver]
    split_ifs
    · exact fun _ => ⟨rfl, rfl, rfl, rfl⟩
    · exact hunknown d
  · rfl

/-! ### MEASURE-DRUM (R122) -/

theorem joinEntry_drum (d : Fin 6) (tag : Byte) (e : QueueEntry) : (joinEntry d tag e).drum = e.drum := by
  unfold joinEntry; split_ifs <;> rfl

theorem map_joinEntry_drum (d : Fin 6) (tag : Byte) (queue : List QueueEntry) :
    (queue.map (joinEntry d tag)).map (·.drum) = queue.map (·.drum) := by
  rw [List.map_map]
  exact List.map_congr_left fun e _ => joinEntry_drum d tag e

/-- A drum's entry is the only one of the queue with its drum. -/
theorem DrumsSound.entry_unique {s : State} (hs : DrumsSound s) {e x : QueueEntry} (he : e ∈ s.dtu.queue)
    (hx : x ∈ s.dtu.queue) (h : x.drum = e.drum) : x = e :=
  List.inj_on_of_nodup_map hs.once hx he h

theorem DrumsSound.measureOutcome {tag : Byte} {s t : State} (hs : DrumsSound s) (h : MeasureOutcome tag s t) :
    DrumsSound t := by
  cases h with
  | answered => exact hs.of_dtu_eq (respond_dtu ..)
  | joinsFlight m hm hroom =>
    obtain ⟨honce, hflying, hentries, hunknown, hhot⟩ := hs
    refine ⟨honce, ?_, hentries, hunknown, hhot⟩
    rintro m' ⟨rfl⟩
    obtain ⟨hother, -, hon⟩ := hflying m hm
    exact ⟨hother, by simpa using hroom, hon⟩
  | joinsEntry d e he hroom =>
    have hmem := List.mem_of_find?_eq_some he
    have hdrum : e.drum = d := by simpa using List.find?_some he
    have hunique := fun x => hs.entry_unique (x := x) hmem
    obtain ⟨honce, hflying, hentries, hunknown, hhot⟩ := hs
    refine ⟨?_, fun m hm => ?_, fun y hy => ?_, hunknown, hhot⟩
    · rwa [map_joinEntry_drum]
    · obtain ⟨hother, hcount, hon⟩ := hflying m hm
      refine ⟨fun y hy => ?_, hcount, hon⟩
      obtain ⟨x, hx, rfl⟩ := List.mem_map.1 hy
      rw [joinEntry_drum]
      exact hother x hx
    · obtain ⟨x, hx, rfl⟩ := List.mem_map.1 hy
      obtain ⟨hcount, hscan, hon⟩ := hentries x hx
      unfold joinEntry
      split_ifs with hd
      · obtain rfl := hunique x hx (hd.trans hdrum.symm)
        exact ⟨by simpa using hroom, nofun, hon⟩
      · exact ⟨hcount, hscan, hon⟩
  | joinsQueue d hon hlanded hfresh =>
    have hjoined : DrumsSound (joinQueue { drum := d, origin := .request, tags := [tag] } s) :=
      hs.joined (by simp) (by simp) hon hlanded hfresh
    exact hjoined.startIfAllowed.of_dtu_eq (drumEvent_dtu ..)

/-! ### The other requests of the drums -/

theorem DrumsSound.carrySetDrumConfig {s : State} (hs : DrumsSound s) (tag : Byte) (fields : Option DrumConfig) :
    DrumsSound (carrySetDrumConfig tag fields s) := by
  unfold Machine.carrySetDrumConfig
  split
  · exact hs.of_dtu_eq (respond_dtu ..)
  · next new =>
    have hanswered : DrumsSound
        (respond 0x40 tag .done (drumConfigResult new (abandonedCount new s.dtu)) (reconfigure new s)) :=
      hs.reconfigured new s.clock ((respond_dtu ..).trans (reconfigure_dtu new s))
    exact hanswered.startIfAllowed.of_dtu_eq (drumEvent_dtu ..)

theorem DrumsSound.carrySetCurve {s : State} (hs : DrumsSound s) (tag : Byte)
    (fields : Option (Option (Vector CurvePoint 9))) : DrumsSound (carrySetCurve tag fields s) := by
  unfold Machine.carrySetCurve
  split
  · exact hs.of_dtu_eq (respond_dtu ..)
  · exact hs.of_parts (by simp) (by simp) (by simp) (by simp) (by simp)

/-! ### The scan and the ends of a measurement's phases -/

theorem DrumsSound.offerScan {s : State} (hs : DrumsSound s) : DrumsSound (offerScan s) := by
  rcases offerScan_cases s with ⟨-, e⟩ | ⟨d, hd, ⟨-, e⟩ | ⟨hlanded, hfresh, e⟩⟩ <;> rw [e]
  · exact hs
  · exact hs.of_parts rfl rfl rfl rfl rfl
  · have hturned : DrumsSound { s with dtu := { s.dtu with rotation := d + 1 } } := hs.of_parts rfl rfl rfl rfl rfl
    have hon := scanTarget_enabled hd
    have hjoined := hturned.joined (e := { drum := d, origin := .scan, tags := [] }) (Nat.zero_le 4) (fun _ => rfl) hon
      hlanded hfresh
    exact hjoined.startIfAllowed

theorem DrumsSound.endShort {s : State} (hs : DrumsSound s) (m : Measurement) : DrumsSound (endShort m s) :=
  have hcounted : DrumsSound { s with dtu := { s.dtu with counter := 0 } } := hs.of_parts rfl rfl rfl rfl rfl
  hcounted.completeMeasurement m (result := .short) (by decide) 0 none span20

theorem convert_ne_unknown (curve : Option (Vector CurvePoint 9)) (r : Nat) : (convert curve r).1 ≠ .unknown := by
  unfold convert
  split
  · exact nofun
  · split_ifs <;> exact nofun

theorem DrumsSound.endSensor {s : State} (hs : DrumsSound s) (m : Measurement) : DrumsSound (endSensor m s) := by
  simp only [Machine.endSensor]
  split_ifs
  · exact hs.endShort m
  · exact hs.completeMeasurement m (result := .opened) (by decide) 0 none _
  · have hresult := convert_ne_unknown s.dtu.curve (resistanceOf m.rRef m.nRef s.dtu.counter.toNat)
    exact hs.completeMeasurement m hresult _ _ _

theorem DrumsSound.overflowReference {s : State} (hs : DrumsSound s) {m : Measurement} (hm : s.dtu.inFlight = some m) :
    DrumsSound (overflowReference m s) := by
  unfold Machine.overflowReference
  split_ifs
  · exact hs.completeMeasurement m (result := .refFault) (by decide) 0 none 0
  · exact hs
  · obtain ⟨honce, hflying, hentries, hunknown, hhot⟩ := hs
    refine ⟨honce, ?_, hentries, hunknown, hhot⟩
    rintro m' ⟨rfl⟩
    exact hflying m hm

/-- What the channels and the Regulator do at a class change to CRITICAL leaves the drums alone (R68). -/
theorem reactCritical_dtu (s : State) : (reactCritical s).dtu = s.dtu := by
  rw [reactCritical, formCut_dtu, forEach_keeps State.dtu channelCritical_dtu, regulatorCritical]
  split_ifs <;> simp [regulatorStatus]

/-- A class change may start the waiting measurement, and changes nothing else of the unit (R128). -/
theorem DrumsSound.changeClass {s : State} (hs : DrumsSound s) (new : SupplyClass) (m : Nat) :
    DrumsSound (changeClass new m s) := by
  unfold Machine.changeClass
  extract_lets before smn named raised reacted started
  have hraised : DrumsSound raised := hs.of_dtu_eq (raiseEvent_dtu ..)
  have hreacted : DrumsSound reacted := by
    unfold reacted
    split_ifs
    · exact hraised.of_dtu_eq (reactCritical_dtu _)
    · exact hraised
  have hstarted : DrumsSound started := by
    unfold started
    split_ifs
    · exact hreacted.startIfAllowed
    · exact hreacted
  exact hstarted.of_dtu_eq (formAllowed_dtu _)

theorem DrumsSound.takeSample {s : State} (hs : DrumsSound s) (mV : Nat) : DrumsSound (takeSample mV s) := by
  unfold Machine.takeSample
  extract_lets m
  split_ifs
  · exact hs.of_dtu_eq rfl
  · unfold closeWindow
    extract_lets u new closed after
    have hclosed : DrumsSound closed := hs.of_dtu_eq rfl
    refine DrumsSound.of_dtu_eq ?_ (rewriteStatus_dtu ..)
    unfold after
    split_ifs
    · exact hclosed
    · exact (hclosed.changeClass _ _).of_dtu_eq (retarderEvent_dtu ..)

/-! ### Every step keeps the drums sound -/

/-- The drums' soundness asks for no frame, no row and none of the other blocks. -/
theorem drumsSound_owedProperty : OwedProperty fun _ => DrumsSound where
  event _ _ _ _ _ _ hs := hs.of_dtu_eq (raiseEvent_dtu ..)
  row _ _ _ _ hs := hs.of_dtu_eq (rewrite_dtu ..)
  response _ _ _ _ _ _ hs := hs.of_dtu_eq (respond_dtu ..)
  wheels _ _ _ hs := hs.of_dtu_eq rfl
  regulator _ _ _ hs := hs.of_dtu_eq rfl
  inputs _ _ _ hs := hs.of_dtu_eq rfl
  supply _ _ _ hs := hs.of_dtu_eq rfl
  retarder _ _ _ hs := hs.of_dtu_eq rfl

theorem disarmPart_dtu (s : State) : (disarmPart s).dtu = s.dtu := by
  simp [disarmPart, regulatorStatus, forEach_keeps State.dtu disarmChannel_dtu]

theorem carryRequest_drumsSound (i : Instr) {s : State} (hs : DrumsSound s) : DrumsSound (carryRequest i s) := by
  by_cases hholders : i.ofHolders = true
  case neg =>
    by_cases hr : i.isRequest = true
    · exact drumsSound_owedProperty.request (n := 0) hr (by simpa using hholders) hs
    · cases i <;> first | exact hs | exact absurd rfl hr
  cases i <;> first | exact hs | exact absurd hholders Bool.false_ne_true | skip
  case setDrumConfig => exact hs.carrySetDrumConfig ..
  case setCurve => exact hs.carrySetCurve ..
  case measureDrum => exact hs.measureOutcome (carryMeasureDrum_outcome ..)
  all_goals refine hs.of_dtu_eq ?_
  case disarm => simp only [carryRequest, carryDisarm]; split_ifs <;> simp [disarmPart_dtu]
  case installChannel => simp only [carryRequest, carryInstallChannel]; split <;> [skip; split_ifs] <;> simp
  case clearChannel => simp only [carryRequest, carryClearChannel]; split <;> [skip; split_ifs] <;> simp
  case valveTest => simp only [carryRequest, carryValveTest]; split <;> [skip; split] <;> simp [startTest]
  case stopTest => simp only [carryRequest, carryStopTest]; split <;> [skip; split_ifs] <;> simp

theorem exec_event_drumsSound {i : Instr} {s t : State} (hr : i.isRequest = false) (hb : i.isBusCommand = false)
    (hs : DrumsSound s) (ht : exec i s = .next t) : DrumsSound t := by
  by_cases hholders : i.ofHolders = true
  case neg => exact drumsSound_owedProperty.exec_event (n := 0) hr hb (by simpa using hholders) hs ht
  cases i <;> first | exact absurd hholders Bool.false_ne_true | exact absurd hr.symm Bool.false_ne_true | skip
  all_goals
    simp only [exec, execRegulationPeriod, execHoldLimitExpiry, execVentLimitExpiry, execOutputProved, execOutputOpen,
      execOutputShort, execApplyExpiry, execHoldIntervalExpiry, execOnExpiry, execOffExpiry, execSampleCompletion,
      execReferenceOverflow, execReferenceTimeout, execSensorPhaseEnd, execSensorOverflow, execDrumScanExpiry,
      execAgeRefresh] at ht
    refine BlockInvariant.whenRunning (fun hs => ?_) hs ht
  case regulationPeriod => split_ifs <;> [rw [regulationPeriod_eq]; skip] <;> exact hs.of_dtu_eq rfl
  case holdLimitExpiry => refine hs.of_dtu_eq ?_; split_ifs <;> simp
  case ventLimitExpiry =>
    refine hs.of_dtu_eq ?_
    split_ifs <;> simp only [retarderEvent_dtu, ventLimit, formCut_dtu]; split_ifs <;> simp
  case outputProved => exact hs.of_dtu_eq rfl
  case outputOpen => refine hs.of_dtu_eq ?_; split_ifs <;> simp [outputFault]
  case outputShort => refine hs.of_dtu_eq ?_; split_ifs <;> simp [outputFault]
  case applyExpiry => refine hs.of_dtu_eq ?_; split <;> [split_ifs; skip; skip; skip] <;> simp [endApply]
  case holdIntervalExpiry =>
    refine hs.of_dtu_eq ?_
    split <;> [split_ifs; skip; skip; skip] <;> simp only [retarderEvent_dtu, endHoldInterval]; split_ifs <;> simp
  case onExpiry => refine hs.of_dtu_eq ?_; split <;> [split_ifs; skip; skip; skip] <;> simp
  case offExpiry =>
    refine hs.of_dtu_eq ?_
    split <;> [split_ifs; skip; skip; skip] <;> simp only [retarderEvent_dtu, endOffTime]; split_ifs <;> simp
  case sampleCompletion =>
    split_ifs
    · refine DrumsSound.takeSample ?_ _
      rw [grant_eq]
      exact hs.of_dtu_eq rfl
    · exact hs
  case referenceOverflow =>
    split
    · exact hs
    · next m hm =>
      split_ifs
      · exact hs.overflowReference hm
      · exact hs
  case referenceTimeout =>
    split
    · exact hs
    · split_ifs
      · exact hs.completeMeasurement _ (result := .refFault) (by decide) 0 none 0
      · exact hs
  case sensorPhaseEnd count =>
    split
    · exact hs
    · split_ifs
      · have hcounted : DrumsSound { s with dtu := { s.dtu with counter := count } } := hs.of_parts rfl rfl rfl rfl rfl
        exact hcounted.endSensor _
      · exact hs
  case sensorOverflow =>
    split
    · exact hs
    · split_ifs
      · exact hs.endShort _
      · exact hs
  case drumScanExpiry =>
    split
    · exact hs
    · next due _ =>
      split_ifs
      · have htimed : DrumsSound (restartScan due s) := hs.of_parts rfl rfl rfl rfl rfl
        exact htimed.offerScan.of_dtu_eq (drumEvent_dtu ..)
      · exact hs
  case ageRefresh =>
    split_ifs
    · exact hs.of_parts (by simp) (by simp) (by simp) (by simp) (by simp)
    · exact hs

theorem drumsSound_invariant : BlockInvariant DrumsSound where
  lanes _ _ _ hs := hs.of_dtu_eq rfl
  pending _ _ hs := hs.of_dtu_eq rfl
  unheld _ hs := hs.of_dtu_eq rfl
  tick _ hs := hs.of_parts rfl rfl rfl rfl rfl
  reset _ _ := by
    obtain ⟨-, -, -, -, -, -, hdrums, -⟩ := invariantsAtReset
    exact hdrums.of_dtu_eq rfl
  request i _ hs := carryRequest_drumsSound i hs
  event _ _ _ hr hb hs ht := exec_event_drumsSound hr hb hs ht

/-- Settles O58: entries join only where their drum is neither queued nor in flight, leave at a start or with their drum, and
every completion and reconfiguration forms the hottest drum again. -/
theorem drumsKept : Obligations.DrumsKept :=
  fun _ _ hs ht => drumsSound_invariant.step hs ht

end Sys2Proof.Machine
end

