-- ==== Sys2Proof/Proofs/ReservedResponses.lean ====
section
/-! SUPPORT. The response reservation with some responses still owed by the command in hand: the response lane's slots, a response
written or held back, a request taken, and the channels' and drums' operations (R162, R165, R174, R176, R178, R179). -/

namespace Sys2Proof.Machine

/-! ### The response lane (R162) -/

/-- The response lane's offsets lie on slots, and its counts say how many frames are present. -/
structure Lane.Slotted (l : Lane) : Prop where
  fill : l.fill.toNat % 16 = 0 ∧ l.fill.toNat < 1024
  drain : l.accDrain.toNat % 16 = 0 ∧ l.accDrain.toNat < 1024
  frames : (l.posted - l.accTaken).toNat = framesPresent .response l

theorem framesPresent_response (l : Lane) :
    framesPresent .response l = (l.fill.toNat + (1024 - l.accDrain.toNat % 1024)) % 1024 / 16 := rfl

/-- Of the 64 slots one stays free, and the frames present take the others (R176). -/
theorem freeSlots_eq {l : LaneController} (h : l.response.Slotted) :
    l.freeSlots + framesPresent .response l.response = 63 := by
  obtain ⟨⟨hfill, -⟩, ⟨hdrain, -⟩, -⟩ := h
  have hfree : l.freeSlots =
      (1024 - (l.response.fill.toNat + (1024 - l.response.accDrain.toNat % 1024)) % 1024) / 16 - 1 := rfl
  rw [hfree, framesPresent_response]
  omega

/-- A RUNNING lane is writable while a slot is free. -/
theorem writable_of_freeSlots {l : LaneController} (h : l.response.Slotted) (hrunning : l.response.fault = none)
    (hfree : 0 < l.freeSlots) : writable .response l.response = true := by
  have := freeSlots_eq h
  have hroom : framesPresent .response l.response < 63 := by omega
  simp [writable, Lane.halted, hrunning, hasRoom, ReportLane.slots, hroom]

/-- The response lane with one frame more. -/
def Lane.written (l : Lane) : Lane :=
  { l with fill := followingOffset 1024 l.fill 16, posted := l.posted + 1 }

/-- A frame written takes one free slot. -/
theorem Lane.Slotted.written {l : Lane} (h : l.Slotted) (hroom : framesPresent .response l < 63) :
    l.written.Slotted ∧ framesPresent .response l.written = framesPresent .response l + 1 := by
  obtain ⟨⟨hfill, hfillLt⟩, ⟨hdrain, hdrainLt⟩, hframes⟩ := h
  have hnext : l.written.fill.toNat = (l.fill.toNat + 16) % 1024 := by
    simp only [Lane.written, followingOffset]
    split_ifs with hend
    · rw [hend]; rfl
    · rw [BitVec.toNat_add, BitVec.toNat_ofNat]
      omega
  have hstays : l.written.accDrain = l.accDrain := rfl
  have hcount : framesPresent .response l.written = framesPresent .response l + 1 := by
    rw [framesPresent_response] at hroom
    rw [framesPresent_response, framesPresent_response, hnext, hstays]
    omega
  refine ⟨⟨by rw [hnext]; omega, ⟨hdrain, hdrainLt⟩, ?_⟩, hcount⟩
  have hstep : l.written.posted - l.written.accTaken = l.posted - l.accTaken + 1 := by
    simp only [Lane.written]; ring
  have hone : (1 : Word).toNat = 1 := rfl
  rw [hcount, hstep, BitVec.toNat_add, hframes, hone]
  omega

/-! ### What is owed (R174, R176) -/

/-- The valve tests that run. -/
def runningTests (s : State) : Nat := s.channels.toList.countP Channel.owesTest

/-- The tags that wait in the measurement in flight and in the queue. -/
def waitingTags (u : DrumUnit) : Nat := (u.inFlight.map (·.tags.length)).getD 0 + (u.queue.map (·.tags.length)).sum

theorem outstanding_eq (s : State) : outstanding s = runningTests s + waitingTags s.dtu := Nat.add_assoc ..

/-- The reservation with `n` responses still owed by the command in hand. -/
structure Reserved (n : Nat) (s : State) : Prop where
  owed : s.lnc.owed = runningTests s + waitingTags s.dtu + s.lnc.holdback.length + n
  bound : s.lnc.owed ≤ 63
  slots : s.lnc.owed ≤ s.lnc.freeSlots + s.lnc.holdback.length
  running : s.lnc.response.fault = none → s.lnc.holdback = []
  lane : s.lnc.response.Slotted

theorem reserved_zero_iff (s : State) : Reserved 0 s ↔ ReservationSound s := by
  constructor
  · rintro ⟨howed, hbound, hslots, hrunning, hfill, hdrain, hframes⟩
    exact ⟨by rw [outstanding_eq]; exact howed, hbound, hslots, hrunning, hfill, hdrain, hframes⟩
  · rintro ⟨howed, hbound, hslots, hrunning, hfill, hdrain, hframes⟩
    exact ⟨by rw [← outstanding_eq]; exact howed, hbound, hslots, hrunning, hfill, hdrain, hframes⟩

theorem freeSlots_congr {l k : LaneController} (h : l.response = k.response) : l.freeSlots = k.freeSlots := by
  simp only [LaneController.freeSlots, h]

/-- Where response lane, owed count and holdback stay, what the blocks hold less is owed by the command in hand. -/
theorem Reserved.shift {n k : Nat} {s t : State} (hs : Reserved n s) (hlane : t.lnc.response = s.lnc.response)
    (howed : t.lnc.owed = s.lnc.owed) (hheld : t.lnc.holdback = s.lnc.holdback)
    (h : runningTests t + waitingTags t.dtu + k = runningTests s + waitingTags s.dtu + n) : Reserved k t := by
  obtain ⟨hcount, hbound, hslots, hrunning, hslotted⟩ := hs
  refine ⟨?_, ?_, ?_, ?_, ?_⟩
  · rw [howed, hheld]; omega
  · rw [howed]; exact hbound
  · rw [howed, hheld, freeSlots_congr hlane]; exact hslots
  · rw [hlane, hheld]; exact hrunning
  · rw [hlane]; exact hslotted

/-- The reservation looks at the response lane, the owed count, the holdback, the channels and the drums alone. -/
theorem Reserved.congr {n : Nat} {s t : State} (hs : Reserved n s) (hlane : t.lnc.response = s.lnc.response)
    (howed : t.lnc.owed = s.lnc.owed) (hheld : t.lnc.holdback = s.lnc.holdback) (hchannels : t.channels = s.channels)
    (hdtu : t.dtu = s.dtu) : Reserved n t :=
  hs.shift hlane howed hheld (by simp only [runningTests, hchannels, hdtu])

/-! ### Responses (R165, R178, R179) -/

@[simp] theorem writeResponse_lnc_response (bytes : List Byte) (s : State) :
    (writeResponse bytes s).lnc.response = s.lnc.response.written := by rw [writeResponse_lnc]; rfl

/-- A response written while nothing is held back: one is owed less, in one slot less. -/
theorem Reserved.writeResponse {n : Nat} {s : State} (hs : Reserved (n + 1) s) (hnone : s.lnc.holdback = [])
    (bytes : List Byte) : Reserved n (writeResponse bytes s) := by
  obtain ⟨howed, hbound, hslots, -, hslotted⟩ := hs
  rw [hnone, List.length_nil, Nat.add_zero] at howed hslots
  have hfree := freeSlots_eq hslotted
  obtain ⟨hwritten, hframes⟩ := hslotted.written (by omega)
  rw [← writeResponse_lnc_response bytes] at hwritten hframes
  have hfree' := freeSlots_eq hwritten
  have howed' : (Machine.writeResponse bytes s).lnc.owed = s.lnc.owed - 1 := by rw [writeResponse_lnc]
  have hnone' : (Machine.writeResponse bytes s).lnc.holdback = [] := by rw [writeResponse_lnc]; exact hnone
  refine ⟨?_, by omega, ?_, fun _ => hnone', hwritten⟩ <;> rw [hnone', List.length_nil, howed']
  · simp only [runningTests, writeResponse_channels, writeResponse_dtu] at howed ⊢
    omega
  · omega

/-- A response completed: one is owed less by the command in hand. -/
theorem Reserved.respond {n : Nat} {s : State} (hs : Reserved (n + 1) s) (kind tag : Byte) (status : Status)
    (result : List Byte) : Reserved n (respond kind tag status result s) := by
  have hwritable (hrunning : s.lnc.response.fault = none) : writable .response s.lnc.response = true := by
    refine writable_of_freeSlots hs.lane hrunning ?_
    have howed := hs.owed
    have hslots := hs.slots
    rw [hs.running hrunning, List.length_nil] at hslots
    omega
  rcases respond_cases kind tag status result s with ⟨hw, e⟩ | ⟨hw, e⟩ <;> rw [e]
  · have hrunning : s.lnc.response.fault = none := by
      simp only [writable, Lane.halted, Bool.and_eq_true, Bool.not_eq_true', Option.isSome_eq_false_iff,
        Option.isNone_iff_eq_none] at hw
      exact hw.1
    exact hs.writeResponse (hs.running hrunning) _
  · obtain ⟨howed, hbound, hslots, -, hslotted⟩ := hs
    refine ⟨?_, hbound, ?_, fun hrunning => ?_, hslotted⟩
    · dsimp only [runningTests] at howed ⊢
      rw [List.length_append, List.length_singleton]
      omega
    · rw [List.length_append]
      exact hslots.trans (Nat.add_le_add_left (Nat.le_add_right ..) _)
    · rw [hwritable hrunning] at hw
      cases hw

/-- A request taken while the condition is TAKING is owed its response by the command in hand (R174, R176). -/
theorem Reserved.countTake {s : State} (hs : Reserved 0 s) (h : s.lnc.taking = .taking) : Reserved 1 (countTake s) := by
  obtain ⟨howed, hbound, hslots, hrunning, hslotted⟩ := hs
  obtain ⟨hrun, hfree⟩ : s.lnc.response.fault = none ∧ s.lnc.owed < s.lnc.freeSlots := by
    unfold LaneController.taking at h
    split_ifs at h with hhalted hempty hroom
    simp only [Lane.halted, Bool.or_eq_true, not_or, Bool.not_eq_true, Option.isSome_eq_false_iff,
      Option.isNone_iff_eq_none] at hhalted
    exact ⟨hhalted.2, hroom⟩
  have hall := freeSlots_eq hslotted
  refine ⟨?_, ?_, ?_, ?_, ?_⟩ <;> simp only [runningTests, countTake_channels, countTake_dtu, countTake_lnc]
  · rw [howed]; rfl
  · omega
  · rw [hrunning hrun]
    exact hfree
  · exact hrunning
  · exact hslotted

theorem reserved_owedProperty : OwedProperty Reserved where
  event _ _ _ _ _ _ hs := hs.congr (by simp) (by simp) (by simp) (by simp) (by simp)
  row _ _ _ _ hs := hs.congr (by simp) (by simp) (by simp) (by simp) (by simp)
  response _ _ _ _ _ _ hs := hs.respond ..
  wheels _ _ _ hs := hs.congr rfl rfl rfl rfl rfl
  regulator _ _ _ hs := hs.congr rfl rfl rfl rfl rfl
  inputs _ _ _ hs := hs.congr rfl rfl rfl rfl rfl
  supply _ _ _ hs := hs.congr rfl rfl rfl rfl rfl
  retarder _ _ _ hs := hs.congr rfl rfl rfl rfl rfl

end Sys2Proof.Machine
end

