-- ==== Sys2Proof/Proofs/ReservedHolders.lean ====
section
/-! SUPPORT. The reservation under the operations of the two holders of requests: a channel's test owes one response, a measurement
one for each waiting tag (R86, R87, R91, R121, R122, R124, R174). -/

namespace Sys2Proof.Machine

/-! ### Channels and their tests (R86, R87, R91) -/

theorem runningTests_set {s t : State} {c : Fin 6} {x : Channel} (h : t.channels = s.channels.set c x) :
    runningTests t + (s.channels[c].owesTest).toNat = runningTests s + x.owesTest.toNat := by
  have hlen : c.val < s.channels.toList.length := by simp
  have hget : s.channels.toList[c.val] = s.channels[c] := by simp
  have hpos : s.channels.toList[c.val].owesTest = true → 0 < s.channels.toList.countP Channel.owesTest := fun hx =>
    List.countP_pos_iff.2 ⟨_, List.getElem_mem hlen, hx⟩
  rw [runningTests, runningTests, h, Vector.toList_set, List.countP_set hlen]
  rw [hget] at hpos ⊢
  cases hold : s.channels[c].owesTest <;> cases x.owesTest <;>
    simp only [hold, if_true, if_false, Bool.false_eq_true, Bool.toNat_true, Bool.toNat_false] at hpos ⊢
  case true.true => have := hpos trivial; omega
  case true.false => have := hpos trivial; omega
  all_goals omega

/-- An update of a channel moves what it owes to the command in hand or from it. -/
theorem Reserved.of_channels_set {n k : Nat} {s t : State} {c : Fin 6} {x : Channel} (hs : Reserved n s)
    (hlane : t.lnc.response = s.lnc.response) (howed : t.lnc.owed = s.lnc.owed) (hheld : t.lnc.holdback = s.lnc.holdback)
    (hdtu : t.dtu = s.dtu) (hchannels : t.channels = s.channels.set c x)
    (h : x.owesTest.toNat + k = (s.channels[c].owesTest).toNat + n) : Reserved k t := by
  have := runningTests_set hchannels
  refine hs.shift hlane howed hheld ?_
  rw [hdtu]
  omega

section

variable {n : Nat} {s : State} {c : Fin 6}

theorem Reserved.setChannel {x : Channel} (hs : Reserved n s) (h : x.owesTest = s.channels[c].owesTest) :
    Reserved n (s.setChannel c x) :=
  hs.of_channels_set rfl rfl rfl rfl rfl (by rw [h])

@[simp] theorem endVentPhase_activity (s : State) (x : Channel) : (x.endVentPhase s).activity = x.activity := by
  unfold Channel.endVentPhase; split <;> rfl

theorem owesTest_congr {x y : Channel} (h : x.activity = y.activity) : x.owesTest = y.owesTest := by
  unfold Channel.owesTest; rw [h]

/-- A channel enters a state with a train or with nothing to do. -/
theorem entered_owesTest (new : ChannelState) (s : State) (x : Channel) : (entered new s x).owesTest = false := by
  cases new
  case reapply =>
    simp only [entered, Channel.owesTest, Channel.updateEpisode, Channel.left]
    cases (x.endVentPhase s).profile <;> rfl
  all_goals rfl

theorem Reserved.closeEpisode (hs : Reserved n s) (reason : CloseReason) : Reserved n (closeEpisode c reason s) := by
  simp only [Machine.closeEpisode]
  split
  · exact hs
  · have hclosed := hs.setChannel (c := c) (x := { s.channels[c].endVentPhase s with episode := none })
      (owesTest_congr (endVentPhase_activity ..))
    exact hclosed.congr (by simp) (by simp) (by simp) (by simp) (by simp)

theorem closeEpisode_owesTest (c d : Fin 6) (reason : CloseReason) (s : State) :
    (closeEpisode c reason s).channels[d].owesTest = s.channels[d].owesTest := by
  unfold closeEpisode
  dsimp only
  split
  · rfl
  · rw [raiseEpisode_channels, State.setChannel_get]
    split_ifs with h
    · subst h
      exact owesTest_congr (endVentPhase_activity ..)
    · rfl

theorem Reserved.applyStaged (hs : Reserved n s) : Reserved n (applyStaged c s) := by
  simp only [Machine.applyStaged]
  split
  · exact hs
  · next p _ =>
    have happlied := hs.setChannel (c := c) (x := { s.channels[c] with profile := some p, staged := none }) rfl
    exact reserved_owedProperty.event _ _ _ _ _ _ happlied

/-- A channel that enters a state leaves to the command in hand the response its test owed. -/
theorem Reserved.enter (hs : Reserved n s) (new : ChannelState) :
    Reserved (n + (s.channels[c].owesTest).toNat) (enter c new s) := by
  have hentered : Reserved (n + (s.channels[c].owesTest).toNat) (s.setChannel c (entered new s s.channels[c])) :=
    hs.of_channels_set rfl rfl rfl rfl rfl (by rw [entered_owesTest, Bool.toNat_false]; omega)
  unfold Machine.enter
  cases new
  case idle => exact hentered.applyStaged
  case pass => exact hentered.applyStaged
  all_goals exact hentered

/-- A channel that runs no test enters a state. -/
theorem Reserved.enter_of_noTest (hs : Reserved n s) (h : s.channels[c].owesTest = false) (new : ChannelState) :
    Reserved n (Machine.enter c new s) := by
  have := hs.enter (c := c) new
  rwa [h] at this

theorem Reserved.closed_enter (hs : Reserved n s) (h : s.channels[c].owesTest = false) (reason : CloseReason)
    (new : ChannelState) : Reserved n (Machine.enter c new (Machine.closeEpisode c reason s)) :=
  (hs.closeEpisode reason).enter_of_noTest (by rw [closeEpisode_owesTest, h]) new

/-- A test's end answers its request (R87). -/
theorem Reserved.endTest (hs : Reserved n s) (status : Status) : Reserved n (endTest c status s) := by
  have hentered := hs.enter (c := c) (afterTest s)
  simp only [Machine.endTest]
  cases h : s.channels[c].activity <;> simp only [Channel.owesTest, h] at hentered ⊢
  case test => exact hentered.respond ..
  all_goals exact hentered

/-- A lockout answers the request of the test it ends (R65, R91). -/
theorem Reserved.lockOut (hs : Reserved n s) (cause : LockoutCause) (sol : Solenoid) :
    Reserved n (lockOut c cause sol s) := by
  have hlocked : Reserved (n + (s.channels[c].owesTest).toNat)
      (s.setChannel c { entered .lockout s s.channels[c] with cause := some cause }) :=
    hs.of_channels_set rfl rfl rfl rfl rfl (by
      have hquiet : ({ entered .lockout s s.channels[c] with cause := some cause } : Channel).owesTest = false :=
        entered_owesTest .lockout s s.channels[c]
      rw [hquiet, Bool.toNat_false]
      omega)
  have hanswered : Reserved n (abortFault c cause sol s.channels[c].activity
      (s.setChannel c { entered .lockout s s.channels[c] with cause := some cause })) := by
    unfold abortFault
    cases h : s.channels[c].activity <;> simp only [Channel.owesTest, h] at hlocked ⊢
    case test => exact hlocked.respond ..
    all_goals exact hlocked
  exact (reserved_owedProperty.event _ _ _ _ _ _ (hanswered.closeEpisode .lockout)).applyStaged

end

/-- A channel that is whole runs a test exactly in TEST (R77). -/
theorem Channel.Sound.owesTest_eq_false {x : Channel} (hx : x.Sound) (h : x.state ≠ .test) : x.owesTest = false := by
  have hfits := hx.activity
  unfold Channel.owesTest
  cases ha : x.activity with
  | test => exact absurd (hx.test_of_test ha) h
  | none => rfl
  | train => rfl

/-! ### The drums and their tags (R121, R122, R124) -/

section

variable {n : Nat} {s : State}

theorem Reserved.withDrums (hs : Reserved n s) {u : DrumUnit} {k : Nat} (h : waitingTags u + k = waitingTags s.dtu + n) :
    Reserved k { s with dtu := u } :=
  hs.shift rfl rfl rfl (by simp only [runningTests]; omega)

theorem waitingTags_started (cls : SupplyClass) (clock : Nat) (u : DrumUnit) :
    waitingTags (started cls clock u) = waitingTags u := by
  rcases started_cases cls clock u with ⟨-, e⟩ | ⟨e, rest, -, hm, hq, -, e'⟩
  · rw [e]
  · rw [e']
    simp [waitingTags, hm, hq]

theorem Reserved.startIfAllowed (hs : Reserved n s) : Reserved n (startIfAllowed s) :=
  hs.shift (by simp) (by simp) (by simp)
    (by simp only [runningTests, startIfAllowed_channels, startIfAllowed_dtu, waitingTags_started])

theorem Reserved.drumEvent {f : State → State} (hs : Reserved n (f s)) : Reserved n (drumEvent f s) := by
  simp only [Machine.drumEvent]
  split_ifs
  · exact hs
  · exact hs.congr (by simp) (by simp) (by simp) (by simp) (by simp)

/-- Each tag answered is owed one response less. -/
theorem Reserved.answerTags {tags : List Byte} (hs : Reserved (n + tags.length) s) (status : Status) (result : List Byte) :
    Reserved n (answerTags status result tags s) := by
  unfold Machine.answerTags
  induction tags generalizing s with
  | nil => exact hs
  | cons tag tags ih => exact ih (Reserved.respond (n := n + tags.length) hs 0x42 tag status result)

/-- A completion answers the tags of the measurement in flight (R124). -/
theorem Reserved.completeMeasurement (hs : Reserved n s) {m : Measurement} (hm : s.dtu.inFlight = some m)
    (result : DrumResult) (resistance : Nat) (t : Option Int) (k : Nat) :
    Reserved n (completeMeasurement m result resistance t k s) := by
  rw [completeMeasurement_eq]
  refine Reserved.startIfAllowed (reserved_owedProperty.row _ _ _ _ ?_)
  have hraised : Reserved n (completionRaised m result t k s) := by
    simp only [completionRaised, hotEvent, sensorEvent]
    split_ifs <;> exact hs.congr (by simp) (by simp) (by simp) (by simp) (by simp)
  have hdtu : (completionRaised m result t k s).dtu = s.dtu :=
    completionRaised_keeps State.dtu (fun _ _ _ _ _ => raiseEvent_dtu ..) ..
  have hfreed := hraised.withDrums (u := completedUnit m result resistance t k s.clock s.dtu) (k := n + m.tags.length) (by
    rw [hdtu]
    simp only [waitingTags, completedUnit, hm, Option.map_none, Option.map_some, Option.getD_none, Option.getD_some]
    omega)
  have hanswered := hfreed.answerTags (if result.isFault then .sensorFault else .done)
    (completionBytes m result resistance t s.dtu)
  rwa [answerTags_withDrums] at hanswered

/-- The abandoned measurement's tags are answered (R114 step 1). -/
theorem Reserved.abandonInFlight (hs : Reserved n s) : Reserved n (abandonInFlight s) := by
  unfold Machine.abandonInFlight
  split
  · exact hs
  · next m hm =>
    have hfreed := hs.withDrums (u := { s.dtu with inFlight := none }) (k := n + m.tags.length) (by
      simp only [waitingTags, hm, Option.map_none, Option.map_some, Option.getD_none, Option.getD_some]
      omega)
    exact hfreed.answerTags ..

/-- The tags of the entries of a list are those of the entries that stay and of those that are removed. -/
theorem sum_tags_filter (p : QueueEntry → Bool) (l : List QueueEntry) :
    ((l.filter p).map (·.tags.length)).sum + ((l.filter fun e => !p e).map (·.tags.length)).sum =
      (l.map (·.tags.length)).sum := by
  induction l with
  | nil => rfl
  | cons e l ih =>
    cases h : p e <;> simp only [List.filter_cons, h, Bool.not_true, Bool.not_false, if_true, if_false,
      Bool.false_eq_true, List.map_cons, List.sum_cons] <;> omega

/-- The removed entries' tags are answered (R114 step 3). -/
theorem Reserved.removeEntries (hs : Reserved n s) : Reserved n (removeEntries s) := by
  have hanswered (l : List QueueEntry) (u : State) (hu : Reserved (n + (l.map (·.tags.length)).sum) u) :
      Reserved n (l.foldl (fun u e => abandonTags e.drum e.origin e.tags u) u) := by
    induction l generalizing u with
    | nil => exact hu
    | cons e l ih =>
      refine ih _ (Reserved.answerTags ?_ ..)
      rwa [List.map_cons, List.sum_cons, Nat.add_comm e.tags.length, ← Nat.add_assoc] at hu
  have htags := sum_tags_filter (fun e => s.dtu.isEnabled e.drum) s.dtu.queue
  unfold Machine.removeEntries
  extract_lets removed unit filtered
  have hfiltered : Reserved (n + (removed.map (·.tags.length)).sum) filtered := hs.withDrums (by
    simp only [waitingTags, removed, unit]
    omega)
  exact hanswered removed filtered hfiltered

theorem Reserved.reconfigure (hs : Reserved n s) (new : DrumConfig) : Reserved n (reconfigure new s) := by
  have hfreed : Reserved n { Machine.abandonInFlight s with dtu := { (Machine.abandonInFlight s).dtu with config := new } } :=
    hs.abandonInFlight.withDrums rfl
  exact hfreed.removeEntries.withDrums rfl

theorem Reserved.carrySetDrumConfig (hs : Reserved (n + 1) s) (tag : Byte) (fields : Option DrumConfig) :
    Reserved n (carrySetDrumConfig tag fields s) := by
  unfold Machine.carrySetDrumConfig
  split
  · exact hs.respond ..
  · exact Reserved.drumEvent ((hs.reconfigure _).respond ..).startIfAllowed

theorem Reserved.carrySetCurve (hs : Reserved (n + 1) s) (tag : Byte) (fields : Option (Option (Vector CurvePoint 9))) :
    Reserved n (carrySetCurve tag fields s) := by
  unfold Machine.carrySetCurve
  split
  · exact hs.respond ..
  · next curve =>
    have hset : Reserved (n + 1) { s with dtu := { s.dtu with curve := curve } } := hs.withDrums rfl
    exact hset.respond ..

/-- A tag joins one entry of the queue, for a drum is queued at most once (R121). -/
theorem sum_tags_joinEntry {l : List QueueEntry} (hl : (l.map (·.drum)).Nodup) {d : Fin 6} (tag : Byte) {e : QueueEntry}
    (he : l.find? (fun e => e.drum == d) = some e) :
    ((l.map (joinEntry d tag)).map (·.tags.length)).sum = (l.map (·.tags.length)).sum + 1 := by
  induction l with
  | nil => cases he
  | cons x l ih =>
    obtain ⟨hx, hl⟩ := List.nodup_cons.1 hl
    simp only [List.map_cons, List.sum_cons]
    by_cases hd : x.drum = d
    · have hrest : l.map (joinEntry d tag) = l := by
        refine (List.map_congr_left fun y hy => ?_).trans (List.map_id l)
        exact if_neg fun hy' => hx (List.mem_map.2 ⟨y, hy, hy'.trans hd.symm⟩)
      rw [hrest]
      simp only [joinEntry, if_pos hd, List.length_append, List.length_singleton]
      omega
    · rw [List.find?_cons_of_neg (by simpa using hd)] at he
      rw [ih hl he]
      simp only [joinEntry, if_neg hd]
      omega

theorem Reserved.measureOutcome {tag : Byte} {t : State} (hs : Reserved (n + 1) s) (hd : DrumsSound s)
    (h : MeasureOutcome tag s t) : Reserved n t := by
  cases h with
  | answered => exact hs.respond ..
  | joinsFlight m hm =>
    refine hs.withDrums ?_
    simp only [waitingTags, hm, Option.map_some, Option.getD_some, List.length_append, List.length_singleton]
    omega
  | joinsEntry d e he =>
    refine hs.withDrums ?_
    simp only [waitingTags, sum_tags_joinEntry hd.once tag he]
    omega
  | joinsQueue d =>
    have hjoined : Reserved n (joinQueue { drum := d, origin := .request, tags := [tag] } s) := hs.withDrums (by
      simp only [waitingTags, List.map_append, List.map_cons, List.map_nil, List.sum_append, List.sum_cons, List.sum_nil,
        List.length_singleton]
      omega)
    exact Reserved.drumEvent hjoined.startIfAllowed

theorem Reserved.offerScan (hs : Reserved n s) : Reserved n (offerScan s) := by
  rcases offerScan_cases s with ⟨-, e⟩ | ⟨d, -, ⟨-, e⟩ | ⟨-, -, e⟩⟩ <;> rw [e]
  · exact hs
  · exact hs.withDrums rfl
  · exact Reserved.startIfAllowed (hs.withDrums (by simp [waitingTags]))

section

variable {m : Measurement} (hm : s.dtu.inFlight = some m)

include hm

theorem Reserved.endShort (hs : Reserved n s) : Reserved n (endShort m s) :=
  Reserved.completeMeasurement (s := { s with dtu := { s.dtu with counter := 0 } }) (hs.withDrums rfl) hm ..

theorem Reserved.endSensor (hs : Reserved n s) : Reserved n (endSensor m s) := by
  simp only [Machine.endSensor]
  split_ifs
  · exact hs.endShort hm
  · exact hs.completeMeasurement hm ..
  · exact hs.completeMeasurement hm ..

theorem Reserved.overflowReference (hs : Reserved n s) : Reserved n (overflowReference m s) := by
  unfold Machine.overflowReference
  split_ifs
  · exact hs.completeMeasurement hm ..
  · exact hs
  · refine hs.withDrums ?_
    simp only [waitingTags, hm, Option.map_some, Option.getD_some]

end

end

end Sys2Proof.Machine
end

