-- ==== Sys2Proof/Proofs/ReservedCommands.lean ====
section
/-! SUPPORT. The response reservation under the commands that touch its holders: the regulation period, the class change, the
requests of the channels and the drums, and their timers (R174, R176, R178, R179). -/

namespace Sys2Proof.Machine

/-! ### The channels at a period, a disarm and a class change -/

section

variable {n : Nat} {s : State} {c : Fin 6}

theorem updateEpisode_owesTest (f : Episode → Episode) (x : Channel) : (x.updateEpisode f).owesTest = x.owesTest := rfl

theorem Reserved.takeToIdle (hs : Reserved n s) (h : s.channels[c].owesTest = false) : Reserved n (takeToIdle c s) := by
  unfold Machine.takeToIdle
  split_ifs
  · exact hs
  all_goals exact hs.closed_enter h _ _

theorem Reserved.brakingAbsent (hs : Reserved n s) (h : s.channels[c].owesTest = false) (cause : AbsenceCause) :
    Reserved n (brakingAbsent c cause s) := by
  simp only [Machine.brakingAbsent]
  split_ifs
  · exact hs.closed_enter h _ _
  · exact hs.closeEpisode _

theorem Reserved.brakingPresent (hs : Reserved n s) (h : s.channels[c].owesTest = false) (p : Profile) :
    Reserved n (brakingPresent c p s) := by
  simp only [Machine.brakingPresent]
  split_ifs
  · exact hs
  · have hopened : Reserved n (s.setChannel c { s.channels[c] with episode := some (openedEpisode c s) }) :=
      hs.setChannel rfl
    exact hopened.enter_of_noTest (by rw [State.setChannel_self]; exact h) _
  · exact hs.enter_of_noTest h _

theorem Reserved.checkChannel (hs : Reserved n s) (hx : s.channels[c].Sound) : Reserved n (checkChannel c s) := by
  have hnoted : Reserved n (notePeak c s) := hs.setChannel rfl
  have hnotest (h : (notePeak c s).channels[c].state ≠ .test) : (notePeak c s).channels[c].owesTest = false := by
    rw [notePeak, State.setChannel_self] at h ⊢
    exact hx.owesTest_eq_false h
  unfold Machine.checkChannel
  extract_lets u x f
  split_ifs with htest
  · exact hnoted.endTest _
  · exact hnoted
  · exact hnoted
  · exact hnoted.takeToIdle (hnotest htest)
  · exact hnoted.lockOut ..
  · exact hnoted.enter_of_noTest (hnotest htest) _
  · split
    · exact hnoted.brakingAbsent (hnotest htest) _
    · exact hnoted.brakingPresent (hnotest htest) _
    · exact hnoted

theorem Reserved.disarmChannel (hs : Reserved n s) (hx : s.channels[c].Sound) : Reserved n (disarmChannel c s) := by
  unfold Machine.disarmChannel
  split
  case h_5 => exact hs
  case h_6 => exact hs
  case h_7 => exact hs
  all_goals
    next h => exact hs.closed_enter (hx.owesTest_eq_false (by rw [h]; decide)) _ _

theorem Reserved.channelCritical (hs : Reserved n s) (hx : s.channels[c].Sound) : Reserved n (channelCritical c s) := by
  unfold Machine.channelCritical
  split
  case h_4 => exact hs.closeEpisode _
  case h_5 => exact hs.endTest _
  case h_6 => exact hs
  case h_7 => exact hs
  all_goals
    next h => exact hs.closed_enter (hx.owesTest_eq_false (by rw [h]; decide)) _ _

/-- A pass over the six channels keeps the reservation where each step does, the channels being whole. -/
theorem Reserved.forEach {f : Fin 6 → State → State} (hf : ∀ c u, u.channels[c].Sound → Reserved n u → Reserved n (f c u))
    (hsound : ∀ c u, ChannelsSound u → ChannelsSound (f c u)) (hs : Reserved n s) (hx : ChannelsSound s) :
    Reserved n (forEach f s) :=
  (forEach_induction (P := fun u => ChannelsSound u ∧ Reserved n u)
    (fun c u ⟨hu, hr⟩ => ⟨hsound c u hu, hf c u (hu c) hr⟩) ⟨hx, hs⟩).2

theorem Reserved.regulationPeriod (hs : Reserved n s) (hx : ChannelsSound s) : Reserved n (regulationPeriod s) := by
  have hfigured : Reserved n (figuredState s) := reserved_owedProperty.regulator _ _ _ hs
  have hchecked : Reserved n (Machine.forEach Machine.checkChannel (figuredState s)) :=
    hfigured.forEach (fun c u hu hr => hr.checkChannel hu) (fun c u hu => hu.checkChannel c) hx
  have hacted : Reserved n (actOnPeriod (figuredState s)) :=
    reserved_owedProperty.formAllowed (reserved_owedProperty.formCut hchecked)
  have hkeeps {α : Type} (g : State → α) (h : ∀ base fields u, g (rewrite base fields u) = g u) :=
    writePeriodRows_keeps g h (readSpeeds s) (retarderEvent actOnPeriod (figuredState s))
  rw [regulationPeriod_eq_rows]
  refine (reserved_owedProperty.retarderEvent hacted).congr (hkeeps (fun u => u.lnc.response) ?_) (hkeeps (fun u => u.lnc.owed) ?_)
    (hkeeps (fun u => u.lnc.holdback) ?_) (hkeeps State.channels ?_) (hkeeps State.dtu ?_) <;> simp

theorem Reserved.disarmPart (hs : Reserved n s) (hx : ChannelsSound s) : Reserved n (disarmPart s) := by
  have hdisarmed : Reserved n { s with reg := { s.reg with armed := false, absence := some .disarmed } } :=
    reserved_owedProperty.regulator _ _ _ hs
  exact reserved_owedProperty.row _ _ _ _ (reserved_owedProperty.retarderEvent (reserved_owedProperty.formCut
    (hdisarmed.forEach (fun c u hu hr => hr.disarmChannel hu) (fun c u hu => hu.disarmChannel c) hx)))

theorem Reserved.reactCritical (hs : Reserved n s) (hx : ChannelsSound s) : Reserved n (reactCritical s) := by
  have habsent : Reserved n (regulatorCritical s) ∧ ChannelsSound (regulatorCritical s) := by
    unfold regulatorCritical
    split_ifs
    · exact ⟨reserved_owedProperty.row _ _ _ _ (reserved_owedProperty.regulator _ _ _ hs),
        channelsSound_sensingFree.rewrite _ _ hx⟩
    · exact ⟨hs, hx⟩
  exact reserved_owedProperty.formCut
    (habsent.1.forEach (fun c u hu hr => hr.channelCritical hu) (fun c u hu => hu.channelCritical c) habsent.2)

theorem Reserved.changeClass (hs : Reserved n s) (hx : ChannelsSound s) (new : SupplyClass) (m : Nat) :
    Reserved n (changeClass new m s) := by
  unfold Machine.changeClass
  extract_lets before smn named raised reacted started
  have hnamed : Reserved n named := reserved_owedProperty.supply _ _ _ hs
  have hraised : Reserved n raised := reserved_owedProperty.event _ _ _ _ _ _ hnamed
  have hreacted : Reserved n reacted := by
    unfold reacted
    split_ifs
    · exact hraised.reactCritical (channelsSound_sensingFree.raiseEvent (s := named) _ _ _ _ hx)
    · exact hraised
  have hstarted : Reserved n started := by
    unfold started
    split_ifs
    · exact hreacted.startIfAllowed
    · exact hreacted
  exact reserved_owedProperty.formAllowed hstarted

theorem Reserved.takeSample (hs : Reserved n s) (hx : ChannelsSound s) (mV : Nat) : Reserved n (takeSample mV s) := by
  unfold Machine.takeSample
  extract_lets m
  split_ifs
  · exact reserved_owedProperty.supply _ _ _ hs
  · unfold closeWindow
    extract_lets u new closed after
    have hclosed : Reserved n closed := reserved_owedProperty.supply _ _ _ hs
    refine reserved_owedProperty.row _ _ _ _ ?_
    unfold after
    split_ifs
    · exact hclosed
    · exact reserved_owedProperty.retarderEvent (hclosed.changeClass hx _ _)

end

/-! ### The requests of the channels and the drums -/

section

variable {n : Nat} {s : State} (hs : Reserved (n + 1) s)

include hs

theorem Reserved.carryDisarm (hx : ChannelsSound s) (tag : Byte) : Reserved n (carryDisarm tag s) := by
  simp only [Machine.carryDisarm]
  split_ifs
  · exact (hs.disarmPart hx).respond ..
  · exact hs.respond ..

theorem Reserved.carryInstallChannel (tag channel : Byte) (fields : Option (Fin 6 × Profile)) :
    Reserved n (carryInstallChannel tag channel fields s) := by
  unfold Machine.carryInstallChannel
  split
  · exact hs.respond ..
  · next c p =>
    dsimp only
    split_ifs
    · exact Reserved.respond (hs.setChannel (c := c) (x := { s.channels[c] with staged := some p }) rfl) ..
    · exact Reserved.respond (hs.setChannel (c := c) (x := { s.channels[c] with profile := some p, staged := none }) rfl) ..

theorem Reserved.carryClearChannel (hx : ChannelsSound s) (tag channel : Byte) :
    Reserved n (carryClearChannel tag channel s) := by
  unfold Machine.carryClearChannel
  split
  · exact hs.respond ..
  · next c _ =>
    split_ifs with hrefused
    · exact hs.respond ..
    · have hlocked : s.channels[c].state = .lockout := by
        by_contra h
        exact hrefused (.inl h)
      have hentered := hs.enter_of_noTest ((hx c).owesTest_eq_false (by rw [hlocked]; decide))
        (if eligible s c then .pass else .idle)
      exact Reserved.respond (reserved_owedProperty.retarderEvent
        (f := fun u => formCut (Machine.enter c (if eligible u c then .pass else .idle) u))
        (reserved_owedProperty.formCut hentered)) ..

/-- An admitted test takes over what is owed (R86). -/
theorem Reserved.carryValveTest (hx : ChannelsSound s) (tag channel : Byte) (fields : Option (Fin 6 × TestParams)) :
    Reserved n (carryValveTest tag channel fields s) := by
  unfold Machine.carryValveTest
  split
  · exact hs.respond ..
  · next c par =>
    split
    · exact hs.respond ..
    · next hadmitted =>
      have hquiet : s.channels[c].owesTest = false := (hx c).owesTest_eq_false (by
        rcases testRefusal_none hadmitted with h | h <;> rw [h] <;> decide)
      have hstarted : Reserved n (startTest c par tag s) := by
        rw [startTest_eq]
        refine reserved_owedProperty.formCut ?_
        refine hs.of_channels_set (c := c) rfl rfl rfl rfl rfl ?_
        have howes (x : Channel) : (testOn par 0 tag s x).owesTest = true := rfl
        rw [hquiet, howes, Bool.toNat_true, Bool.toNat_false]
        omega
      exact reserved_owedProperty.retarderEvent hstarted

theorem Reserved.carryStopTest (tag channel : Byte) : Reserved n (carryStopTest tag channel s) := by
  unfold Machine.carryStopTest
  split
  · exact hs.respond ..
  · next c _ =>
    split_ifs
    · have hended := reserved_owedProperty.formCut (hs.endTest (c := c) .abortedStop)
      exact Reserved.respond (reserved_owedProperty.retarderEvent
        (f := fun u => formCut (Machine.endTest c .abortedStop u)) hended) ..
    · exact hs.respond ..

/-- A request carried out is answered, or handed to a test or a measurement. -/
theorem Reserved.carryRequest {i : Instr} (hr : i.isRequest = true) (hx : ChannelsSound s) (hd : DrumsSound s) :
    Reserved n (carryRequest i s) := by
  by_cases hholders : i.ofHolders = true
  case neg => exact reserved_owedProperty.request hr (by simpa using hholders) hs
  cases i <;> first | exact absurd hr Bool.false_ne_true | exact absurd hholders Bool.false_ne_true | skip
  case disarm => exact hs.carryDisarm hx _
  case installChannel => exact hs.carryInstallChannel ..
  case clearChannel => exact hs.carryClearChannel hx ..
  case valveTest => exact hs.carryValveTest hx ..
  case stopTest => exact hs.carryStopTest ..
  case setDrumConfig => exact hs.carrySetDrumConfig ..
  case setCurve => exact hs.carrySetCurve ..
  case measureDrum => exact hs.measureOutcome hd (carryMeasureDrum_outcome ..)

end

/-! ### The events of the channels and the drums -/

theorem Reserved.ventLimit {n : Nat} {s : State} (hs : Reserved n s) {c : Fin 6} (h : s.channels[c].owesTest = false) :
    Reserved n (ventLimit c s) := by
  have hquiet : (countVentStrike c s).channels[c].owesTest = false := by
    rw [countVentStrike, raiseEvent_channels, State.setChannel_self, updateEpisode_owesTest,
      owesTest_congr (endVentPhase_activity ..), h]
  have hcounted : Reserved n (countVentStrike c s) := by
    refine reserved_owedProperty.event _ _ _ _ _ _ (hs.setChannel ?_)
    rw [updateEpisode_owesTest, owesTest_congr (endVentPhase_activity ..)]
  refine reserved_owedProperty.formCut ?_
  split_ifs
  · exact hcounted.enter_of_noTest hquiet _
  · exact hcounted.lockOut ..

theorem exec_event_reserved {i : Instr} {n : Nat} {s t : State} (hr : i.isRequest = false) (hb : i.isBusCommand = false)
    (hs : Reserved n s) (hx : ChannelsSound s) (ht : exec i s = .next t) : Reserved n t := by
  by_cases hholders : i.ofHolders = true
  case neg => exact reserved_owedProperty.exec_event hr hb (by simpa using hholders) hs ht
  have hfault {c : Fin 6} (cause : LockoutCause) (sol : Solenoid) : Reserved n (retarderEvent (outputFault c cause sol) s) :=
    reserved_owedProperty.retarderEvent (f := outputFault c cause sol) (reserved_owedProperty.formCut (hs.lockOut cause sol))
  cases i <;> first | exact absurd hholders Bool.false_ne_true | exact absurd hr.symm Bool.false_ne_true | skip
  all_goals
    simp only [exec, execRegulationPeriod, execHoldLimitExpiry, execVentLimitExpiry, execOutputProved, execOutputOpen,
      execOutputShort, execApplyExpiry, execHoldIntervalExpiry, execOnExpiry, execOffExpiry, execSampleCompletion,
      execReferenceOverflow, execReferenceTimeout, execSensorPhaseEnd, execSensorOverflow, execDrumScanExpiry,
      execAgeRefresh] at ht
    refine BlockInvariant.whenRunning (P := Reserved n) (fun hs => ?_) hs ht
  case regulationPeriod =>
    split_ifs
    · exact hs.regulationPeriod hx
    · exact hs
  case holdLimitExpiry c =>
    split_ifs with h
    · have hquiet := (hx c).owesTest_eq_false (by rw [h.1]; decide)
      exact reserved_owedProperty.retarderEvent (reserved_owedProperty.formCut (hs.enter_of_noTest hquiet .reapply))
    · exact hs
  case ventLimitExpiry c =>
    split_ifs with h
    · have hquiet := (hx c).owesTest_eq_false (by rw [h.1]; decide)
      exact reserved_owedProperty.retarderEvent (hs.ventLimit hquiet)
    · exact hs
  case outputProved c sol => exact hs.setChannel (by cases sol <;> rfl)
  case outputOpen =>
    split_ifs
    · exact hfault ..
    · exact hs
  case outputShort =>
    split_ifs
    · exact hfault ..
    · exact hs
  case applyExpiry c =>
    split
    · next ha =>
      split_ifs
      · have hquiet : s.channels[c].owesTest = false := by simp only [Channel.owesTest, ha]
        exact hs.setChannel (by rw [updateEpisode_owesTest, hquiet]; rfl)
      · exact hs
    all_goals exact hs
  case holdIntervalExpiry c =>
    split
    · next ha =>
      have hquiet : s.channels[c].owesTest = false := by simp only [Channel.owesTest, ha]
      split_ifs
      · refine reserved_owedProperty.retarderEvent ?_
        unfold endHoldInterval
        split_ifs
        · exact hs.setChannel (by rw [hquiet]; rfl)
        · exact reserved_owedProperty.formCut (hs.enter_of_noTest hquiet .pass)
      · exact hs
    all_goals exact hs
  case onExpiry c =>
    split
    · next ha =>
      split_ifs
      · exact hs.setChannel (by simp only [testOff, Channel.owesTest, ha])
      · exact hs
    all_goals exact hs
  case offExpiry c =>
    split
    · next ha =>
      split_ifs
      · refine reserved_owedProperty.retarderEvent ?_
        unfold endOffTime
        split_ifs
        · exact hs.setChannel (by simp only [testOn, Channel.owesTest, ha])
        · exact reserved_owedProperty.formCut (hs.endTest .done)
      · exact hs
    all_goals exact hs
  case sampleCompletion =>
    split_ifs
    · have hgranted := reserved_owedProperty.grant
        (reserved_owedProperty.inputs { s.pcu with converter := .idle } _ _ hs)
      refine hgranted.takeSample ?_ _
      rw [grant_eq]
      exact hx
    · exact hs
  case referenceOverflow =>
    split
    · exact hs
    · next m hm =>
      split_ifs
      · exact hs.overflowReference hm
      · exact hs
  case referenceTimeout =>
    split
    · exact hs
    · next m hm =>
      split_ifs
      · exact hs.completeMeasurement hm ..
      · exact hs
  case sensorPhaseEnd count =>
    split
    · exact hs
    · next m hm =>
      split_ifs
      · have hcounted : Reserved n { s with dtu := { s.dtu with counter := count } } := hs.withDrums rfl
        exact hcounted.endSensor hm
      · exact hs
  case sensorOverflow =>
    split
    · exact hs
    · next m hm =>
      split_ifs
      · exact hs.endShort hm
      · exact hs
  case drumScanExpiry =>
    split
    · exact hs
    · next due _ =>
      split_ifs
      · have htimed : Reserved n (restartScan due s) := hs.withDrums rfl
        exact Reserved.drumEvent (f := fun u => offerScan (restartScan due u)) htimed.offerScan
      · exact hs
  case ageRefresh =>
    split_ifs
    · have htimed : Reserved n { s with dtu := { s.dtu with
          ageDue := s.dtu.ageDue + Config.ageRefreshMs * Config.ticksPerMs } } := hs.withDrums rfl
      exact htimed.congr (by simp) (by simp) (by simp) (by simp) (by simp)
    · exact hs

end Sys2Proof.Machine
end

