-- ==== Sys2Proof/Proofs/ReservationKept.lean ====
section
/-! SUPPORT. Every step keeps each taken request owed one response that has room: a request is taken only where a slot is free, a
give-back frees the slots of the frames taken, and a restart of the response lane writes the holdback (R162 to R168, R174 to
R176, R179). -/

namespace Sys2Proof.Machine

/-! ### The response lane's own words (R161, R162, R166) -/

/-- The response lane replaced by one with no more frames: what is owed keeps its room. -/
theorem Reserved.responseLane {n : Nat} {s : State} (hs : Reserved n s) {l : Lane} (hl : l.Slotted)
    (hframes : framesPresent .response l ≤ framesPresent .response s.lnc.response)
    (hrunning : l.fault = none → s.lnc.holdback = []) : Reserved n (s.setLane .response l) := by
  obtain ⟨howed, hbound, hslots, -, hslotted⟩ := hs
  have hbefore := freeSlots_eq hslotted
  have hafter : (s.setLane .response l).lnc.freeSlots + framesPresent .response l = 63 := freeSlots_eq hl
  refine ⟨howed, hbound, ?_, hrunning, hl⟩
  have : s.lnc.owed ≤ (s.setLane .response l).lnc.freeSlots + s.lnc.holdback.length := by omega
  exact this

theorem Reserved.otherLane {n : Nat} {s : State} (hs : Reserved n s) (id : LaneId) (l : Lane) (h : id ≠ .response) :
    Reserved n (s.setLane id l) := by
  cases id
  case response => exact absurd rfl h
  all_goals exact hs.congr rfl rfl rfl rfl rfl

/-- A restarted lane holds no frame (R168). -/
theorem restartedLane_slotted (l : Lane) : (restartedLane l).Slotted ∧ framesPresent .response (restartedLane l) = 0 := by
  have hempty : framesPresent .response (restartedLane l) = 0 := by
    rw [framesPresent_response]
    simp [restartedLane]
  refine ⟨⟨by simp [restartedLane], by simp [restartedLane], ?_⟩, hempty⟩
  rw [hempty]
  simp [restartedLane]

/-- The holdback written into a lane with room for it, frame by frame (R179). -/
theorem Reserved.writeAllHeld {s : State} {held : List (List Byte)} (hs : Reserved held.length s)
    (hnone : s.lnc.holdback = []) : Reserved 0 (held.foldl (fun s bytes => Machine.writeResponse bytes s) s) := by
  induction held generalizing s with
  | nil => exact hs
  | cons bytes held ih =>
    have hwritten : Reserved held.length (Machine.writeResponse bytes s) := Reserved.writeResponse hs hnone bytes
    have hnone' : (Machine.writeResponse bytes s).lnc.holdback = [] := by rw [writeResponse_lnc]; exact hnone
    rw [List.foldl_cons]
    exact ih hwritten hnone'

/-- A restarted response lane has room for all that is owed, and takes the holdback (R179). -/
theorem Reserved.writeHoldback {s : State} (hs : Reserved 0 s) :
    Reserved 0 (Machine.writeHoldback (s.setLane .response (restartedLane s.lnc.response))) := by
  obtain ⟨howed, hbound, -, -, -⟩ := hs
  obtain ⟨hslotted, hempty⟩ := restartedLane_slotted s.lnc.response
  have hfree := freeSlots_eq (l := { s.lnc with response := restartedLane s.lnc.response, holdback := [] }) hslotted
  have hroom : s.lnc.owed ≤
      LaneController.freeSlots { s.lnc with response := restartedLane s.lnc.response, holdback := [] } := by
    rw [hempty, Nat.add_zero] at hfree
    rw [hfree]
    exact hbound
  have hemptied : Reserved s.lnc.holdback.length
      { s with lnc := { s.lnc with response := restartedLane s.lnc.response, holdback := [] } } :=
    ⟨howed, hbound, hroom, fun _ => rfl, hslotted⟩
  exact hemptied.writeAllHeld rfl

/-- A report lane whose drain and taken count are accepted. -/
def Lane.givenBack (l : Lane) : Lane := { l with accDrain := l.drain, accTaken := l.taken }

/-- A give-back accepted frees the slots of the frames it counts (R166). -/
theorem Lane.Slotted.givenBack {l : Lane} (hl : l.Slotted) (h : giveBackFault .response l = none) :
    l.givenBack.Slotted ∧ framesPresent .response l.givenBack ≤ framesPresent .response l := by
  obtain ⟨⟨hfill, hfillLt⟩, ⟨hdrain, hdrainLt⟩, hframes⟩ := hl
  simp only [giveBackFault] at h
  split_ifs at h with hvalid hcount hplace
  rw [hframes] at hcount
  have hslot : l.drain.toNat % 16 = 0 ∧ l.drain.toNat + 16 ≤ 1024 := by
    simpa [validOffset, ReportLane.lane, ReportLane.frameSize, LaneId.size] using hvalid
  have hmoved : l.drain.toNat = (l.accDrain.toNat + (l.taken - l.accTaken).toNat * 16) % 1024 := not_not.1 hplace
  have hleft : (l.posted - l.taken).toNat = framesPresent .response l - (l.taken - l.accTaken).toNat := by
    rw [← hframes, ← BitVec.toNat_sub_of_le (by rw [BitVec.le_def, hframes]; omega)]
    congr 1
    ring
  have hafter : framesPresent .response l.givenBack = (l.fill.toNat + (1024 - l.drain.toNat % 1024)) % 1024 / 16 := rfl
  rw [framesPresent_response] at hcount hleft
  rw [framesPresent_response l]
  have hcounted : (l.posted - l.taken).toNat = framesPresent .response l.givenBack := by omega
  exact ⟨⟨⟨hfill, hfillLt⟩, ⟨hslot.1, show l.drain.toNat < 1024 by omega⟩, hcounted⟩, by omega⟩

theorem Reserved.fault {n : Nat} {s : State} (hs : Reserved n s) (id : LaneId) (code : LaneFault) (offset : Word) :
    Reserved n (faultLane id code offset s) := by
  refine reserved_owedProperty.event _ _ _ _ _ _ ?_
  by_cases h : id = .response
  · subst h
    exact hs.responseLane ⟨hs.lane.fill, hs.lane.drain, hs.lane.frames⟩ le_rfl nofun
  · exact hs.otherLane _ _ h

/-! ### Takes (R164, R174, R175) -/

theorem isRequest_ite {p : Prop} [Decidable p] {i j : Instr} (hi : i.isRequest = true) (hj : j.isRequest = true) :
    (if p then i else j).isRequest = true := by
  split_ifs
  · exact hi
  · exact hj

/-- Every frame is judged a request's, be it the answer to an unknown kind or a bad length (R177). -/
theorem decodeFrame_isRequest (b : Nat → Byte) : (decodeFrame b).isRequest = true := by
  refine isRequest_ite ?_ rfl
  unfold decodeBody
  repeat refine isRequest_ite rfl ?_
  rfl

/-- A frame stands ready only while the condition is TAKING, and it is that of a request. -/
theorem of_readyRequest {i : Instr} {s : State} (h : s.readyRequest = some i) :
    i.isRequest = true ∧ s.lnc.taking = .taking := by
  unfold State.readyRequest at h
  split at h
  · next ht _ =>
    cases h
    exact ⟨decodeFrame_isRequest _, ht⟩
  · cases h

/-- The reservation with the channels and the drums whole, by which each take is answered or handed on. -/
structure Whole (s : State) : Prop where
  reserved : Reserved 0 s
  channels : ChannelsSound s
  drums : DrumsSound s

section

variable {s : State} (hs : Whole s)

include hs

theorem Whole.setLane {id : LaneId} {l : Lane} (h : Reserved 0 (s.setLane id l)) : Whole (s.setLane id l) :=
  ⟨h, channelsSound_invariant.setLane id l hs.channels, drumsSound_invariant.setLane id l hs.drums⟩

theorem Whole.examineRequests : Whole (examineRequests s) := by
  have hfound {u : State} (hu : Reserved 0 u) : Reserved 0 (faultFound u) := by
    unfold faultFound
    split
    · exact hu.fault ..
    all_goals exact hu
  refine ⟨?_, channelsSound_invariant.examineRequests hs.channels, drumsSound_invariant.examineRequests hs.drums⟩
  unfold Machine.examineRequests
  split
  case h_4 =>
    split
    · exact hfound (hs.reserved.otherLane .request _ (by decide))
    all_goals exact hfound hs.reserved
  all_goals exact hs.reserved

theorem Whole.makeTake {i : Instr} (h : s.readyRequest = some i) : Whole (makeTake (carryRequest i) s) := by
  obtain ⟨hrequest, htaking⟩ := of_readyRequest h
  refine ⟨?_, channelsSound_invariant.makeTake i hs.channels, drumsSound_invariant.makeTake i hs.drums⟩
  refine (hs.reserved.countTake htaking).carryRequest hrequest ?_ ?_ <;> rw [countTake_eq]
  · exact channelsSound_invariant.lanes _ _ _ hs.channels
  · exact drumsSound_invariant.lanes _ _ _ hs.drums

theorem Whole.formTaking (before : State) : Whole (formTaking before s) := by
  rcases formTaking_cases before s with ⟨-, e⟩ | ⟨-, e⟩ <;> rw [e]
  · exact hs
  · rcases firstTake_cases s with ⟨-, e⟩ | ⟨i, hi, e⟩ <;> rw [e]
    · exact hs.examineRequests
    · exact hs.examineRequests.makeTake hi

/-! ### The bus commands (R158 to R168, R179) -/

theorem Whole.postEvent (posted : Word) : Reserved 0 (postEvent posted s) := by
  have hposted (l : Lane) : Reserved 0 (s.setLane .request l) := hs.reserved.otherLane _ l (by decide)
  simp only [Machine.postEvent]
  split_ifs
  · exact hposted _
  · exact ((hs.setLane (hposted _)).formTaking s).reserved
  · exact (hposted _).fault ..

theorem Whole.giveBack (r : ReportLane) (taken : Word) : Reserved 0 (giveBack r taken s) := by
  have hslotted := hs.reserved.lane
  cases r
  case response =>
    have htaken : Reserved 0 (s.setLane .response { s.lnc.response with taken }) :=
      hs.reserved.responseLane ⟨hslotted.fill, hslotted.drain, hslotted.frames⟩ le_rfl hs.reserved.running
    simp only [Machine.giveBack]
    split_ifs
    · exact htaken
    · split
      · exact htaken.fault ..
      · next hnone =>
        obtain ⟨hgiven, hframes⟩ :=
          Lane.Slotted.givenBack (l := { s.lnc.response with taken }) ⟨hslotted.fill, hslotted.drain, hslotted.frames⟩ hnone
        exact ((hs.setLane (hs.reserved.responseLane hgiven hframes hs.reserved.running)).formTaking s).reserved
  all_goals
    simp only [Machine.giveBack]
    split_ifs
    · exact hs.reserved.otherLane _ _ (by decide)
    · split
      · exact (hs.reserved.otherLane _ _ (by decide)).fault ..
      · exact hs.reserved.otherLane _ _ (by decide)

/-- A restarted response lane has room for the whole holdback, which it takes (R179). -/
theorem Whole.restartLane (id : LaneId) : Whole (restartLane id s) := by
  refine ⟨?_, channelsSound_invariant.restartLane id hs.channels, drumsSound_invariant.restartLane id hs.drums⟩
  cases id
  case response =>
    have hcleared : Whole (Machine.writeHoldback (s.setLane .response (restartedLane s.lnc.response))) :=
      ⟨hs.reserved.writeHoldback, channelsSound_invariant.writeHoldback (channelsSound_invariant.setLane _ _ hs.channels),
        drumsSound_invariant.writeHoldback (drumsSound_invariant.setLane _ _ hs.drums)⟩
    exact (hcleared.formTaking s).reserved
  all_goals exact (hs.reserved.otherLane _ _ (by decide)).congr rfl rfl rfl rfl rfl

theorem Whole.restartLanes (lanes : BitVec 4) : Reserved 0 (restartLanes lanes s) := by
  suffices h : Whole (Machine.restartLanes lanes s) from h.reserved
  unfold Machine.restartLanes
  induction restartOrder generalizing s with
  | nil => exact hs
  | cons e l ih =>
    refine ih ?_
    dsimp only
    split_ifs
    · exact hs.restartLane _
    · exact hs

end

/-! ### Resets (R172, R184) -/

theorem enterReset_reserved (cause : ResetCause) (s : State) : Reserved 0 (enterReset cause s) :=
  ⟨rfl, Nat.zero_le _, Nat.zero_le _, fun _ => rfl, (restartedLane_slotted {}).1⟩

theorem Reserved.leaveReset {s : State} (hs : Reserved 0 s) : Reserved 0 (leaveReset s) := by
  unfold Machine.leaveReset
  split
  · exact hs
  · exact reserved_owedProperty.event _ _ _ _ _ _ (hs.congr rfl rfl rfl rfl rfl)

theorem Reserved.softReset {s : State} (hs : Reserved 0 s) : Reserved 0 (softReset s) := by
  unfold Machine.softReset
  split_ifs
  · exact hs
  · exact (enterReset_reserved _ s).leaveReset

theorem Reserved.reset {s : State} (hs : Reserved 0 s) (cause : ResetCause) : Reserved 0 (reset cause s) := by
  unfold Machine.reset
  split_ifs
  · exact hs
  · exact enterReset_reserved _ s

/-! ### Host writes and the bus commands (R157 to R161) -/

section

variable {s : State} (hs : Whole s)

include hs

theorem Whole.writeThreshold (id : LaneId) (v : Word) : Reserved 0 (writeThreshold id v s) := by
  cases id
  case response =>
    exact hs.reserved.responseLane ⟨hs.reserved.lane.fill, hs.reserved.lane.drain, hs.reserved.lane.frames⟩ le_rfl
      hs.reserved.running
  all_goals exact hs.reserved.otherLane _ _ (by decide)

theorem Whole.collide : Reserved 0 (collide s) := hs.reserved.congr rfl rfl rfl rfl rfl

theorem Whole.writeReportHeader (r : ReportLane) (o : Nat) (v : Word) :
    Reserved 0 (writeHeader.writeReportHeader r o v s) := by
  unfold writeHeader.writeReportHeader
  split_ifs
  · cases r
    case response =>
      exact hs.reserved.responseLane ⟨hs.reserved.lane.fill, hs.reserved.lane.drain, hs.reserved.lane.frames⟩ le_rfl
        hs.reserved.running
    all_goals exact hs.reserved.otherLane _ _ (by decide)
  · exact hs.giveBack ..
  · exact hs.collide

theorem Whole.writeHeader (a : Nat) (v : Word) : Reserved 0 (writeHeader a v s) := by
  simp only [Machine.writeHeader]
  by_cases ht : a % 16 = 14
  · rw [if_pos ht]
    exact hs.writeThreshold ..
  · rw [if_neg ht]
    cases headerLane a
    case request =>
      dsimp only
      split_ifs
      · exact hs.reserved.otherLane _ _ (by decide)
      · exact hs.postEvent v
      · exact hs.collide
    all_goals exact hs.writeReportHeader ..

theorem Whole.hostWrite (a : Nat) (v : Word) : Reserved 0 (hostWrite a v s) := by
  have hlanes {l : LaneController} {m : Memory} (h : l.response = s.lnc.response) (howed : l.owed = s.lnc.owed)
      (hheld : l.holdback = s.lnc.holdback) : Reserved 0 { s with lnc := l, mem := m } :=
    hs.reserved.congr h howed hheld rfl rfl
  unfold Machine.hostWrite writeRunControl
  split_ifs
  · exact hs.writeHeader ..
  · exact hs.collide
  · exact hs.reserved
  · exact hlanes rfl rfl rfl
  · exact hs.collide
  · exact hs.reserved.softReset
  · exact hs.restartLanes _
  · exact hlanes rfl rfl rfl
  · exact hs.reserved
  · exact hlanes rfl rfl rfl
  · exact hs.reserved

theorem Whole.busCommand {i : Instr} {t : State} (hi : i.isBusCommand = true) (ht : exec i s = .next t) : Reserved 0 t := by
  have hrunning {f : State → State} (hf : Reserved 0 (f s)) (ht : s.whenRunning f = .next t) : Reserved 0 t :=
    BlockInvariant.whenRunning (P := Reserved 0) (fun _ => hf) hs.reserved ht
  cases i <;> first | exact absurd hi Bool.false_ne_true | skip
  case postEvent posted => exact hrunning (hs.postEvent posted) ht
  case giveBack r taken => exact hrunning (hs.giveBack r taken) ht
  case thresholdWrite id v => exact hrunning (hs.writeThreshold id v) ht
  case laneRestart lanes => exact hrunning (hs.restartLanes lanes) ht
  case softReset => cases ht; exact hs.reserved.softReset
  case collisionClear => exact hrunning (f := clearCollision) (hs.reserved.congr rfl rfl rfl rfl rfl) ht
  case attentionEnableWrite v => exact hrunning (f := writeEnables v) (hs.reserved.congr rfl rfl rfl rfl rfl) ht
  case hostWordWrite a v =>
    simp only [exec, execHostWordWrite] at ht
    split_ifs at ht
    exact hrunning (hs.hostWrite a.toNat v) ht
  case powerOnReset => cases ht; exact hs.reserved.reset _
  case resetPin => cases ht; exact hs.reserved.reset _
  case resetRelease => cases ht; exact hs.reserved.leaveReset

/-! ### Every step -/

theorem Whole.exec {i : Instr} {t : State} (ht : exec i s = .next t) : Reserved 0 t := by
  by_cases hb : i.isBusCommand = true
  · exact hs.busCommand hb ht
  by_cases hr : i.isRequest = true
  · rw [exec_eq_take hr] at ht
    refine BlockInvariant.whenRunning (P := Reserved 0) (fun _ => ?_) hs.reserved ht
    dsimp only
    split_ifs with hready
    · exact (hs.examineRequests.makeTake hready).reserved
    · exact hs.reserved
  · exact exec_event_reserved (by simpa using hr) (by simpa using hb) hs.reserved hs.channels ht

theorem Whole.idle : Reserved 0 (idle s) := by
  have hticked : Reserved 0 (tick s) := hs.reserved.shift rfl rfl rfl rfl
  unfold Machine.idle
  split_ifs
  · exact hs.reserved
  split
  case h_4 =>
    dsimp only
    split
    · exact hs.reserved.congr rfl rfl rfl rfl rfl
    · exact hs.examineRequests.reserved
  all_goals exact hticked

end

/-- Settles O59: the owed responses are those of the running tests, the waiting tags and the holdback, and each has its slot. -/
theorem reservationKept : Obligations.ReservationKept := by
  intro s t hchannels hdrums hreservation ht
  rw [← reserved_zero_iff] at hreservation ⊢
  unfold step at ht
  split at ht
  · next i rest _ =>
    have hwhole : Whole { s with pending := rest } := ⟨hreservation.congr rfl rfl rfl rfl rfl,
      channelsSound_invariant.pending s rest hchannels, drumsSound_invariant.pending s rest hdrums⟩
    exact hwhole.exec ht
  · cases ht
    exact Whole.idle ⟨hreservation, hchannels, hdrums⟩

end Sys2Proof.Machine
end

