-- ==== Sys2Proof/Proofs/CriteriaAndCurve.lean ====
section
/-! SUPPORT. SET-SUPPLY-CRITERIA and SET-CURVE: their ranges, and what each case stores and answers (R115, R135). -/

namespace Sys2Proof.Machine

/-! ### SET-SUPPLY-CRITERIA (R135) -/

/-- A criterion in its range (R135). -/
def CriterionInRange (w : Word) : Prop := 12000 ≤ w.toNat ∧ w.toNat ≤ 28000 ∧ w.toNat % 250 = 0

/-- Both criteria in range and far enough apart (R135). -/
def CriteriaInRange (low critical : Word) : Prop :=
  CriterionInRange low ∧ CriterionInRange critical ∧ critical.toNat + 1000 ≤ low.toNat

theorem isCriterion_iff {w : Word} : isCriterion w.toNat = true ↔ CriterionInRange w := by
  simp only [isCriterion, Bool.and_eq_true, within_iff, beq_iff_eq, CriterionInRange, and_assoc]

theorem criteriaFields_of_inRange {low critical : Word} (h : CriteriaInRange low critical) :
    criteriaFields low critical = some { low := low.toNat, critical := critical.toNat } := by
  obtain ⟨hlow, hcritical, hapart⟩ := h
  simp only [criteriaFields, isCriterion_iff.2 hlow, isCriterion_iff.2 hcritical, decide_eq_true hapart, Bool.and_true,
    if_true]

theorem criteriaFields_eq_none {low critical : Word} (h : ¬CriteriaInRange low critical) :
    criteriaFields low critical = none := by
  unfold criteriaFields
  rw [if_neg]
  simp only [Bool.and_eq_true, isCriterion_iff, decide_eq_true_eq, and_assoc]
  exact h

section

variable {tag : Byte} {low critical : Word} {s : State}

/-- A response on the state after the take, the Supply Monitor changed before it. -/
theorem withSupply_countTake (u : SupplyMonitor) (s : State) :
    { countTake s with smn := u } = { ({ s with smn := u } : State) with lnc := (countTake s).lnc, mem := (countTake s).mem } := by
  rw [countTake_eq]

theorem setSupplyCriteria_outOfRange (hm : s.mem.wf = true) (hr : Ready (.setSupplyCriteria tag low critical) s)
    (h : ¬CriteriaInRange low critical) :
    AnsweredAtOnce (.setSupplyCriteria tag low critical) s s 0x50 tag .refusedRange (criteriaResult s.smn) := by
  refine answered rfl hm hr rfl ?_
  simp only [carrySetSupplyCriteria, criteriaFields_eq_none h, countTake_smn]
  rw [← countTake_eq]

theorem setSupplyCriteria_done (hm : s.mem.wf = true) (hr : Ready (.setSupplyCriteria tag low critical) s)
    (h : CriteriaInRange low critical) :
    AnsweredAtOnce (.setSupplyCriteria tag low critical) s
      { s with smn := { s.smn with pendingCriteria := some { low := low.toNat, critical := critical.toNat } } }
      0x50 tag .done (le16 low ++ le16 critical) := by
  refine answered rfl hm hr rfl ?_
  simp only [carrySetSupplyCriteria, criteriaFields_of_inRange h, countTake_smn, criteriaResult, Option.getD_some,
    BitVec.ofNat_toNat, BitVec.setWidth_eq]
  rw [withSupply_countTake]

end

/-! ### SET-CURVE (R115) -/

/-- A point of the curve in its range (R115). -/
def PointInRange (p : PointFields) : Prop :=
  100 ≤ p.resistance.toNat ∧ p.resistance.toNat ≤ 200000 ∧ -40 ≤ p.temperature.toInt ∧ p.temperature.toInt ≤ 700

/-- Nine points that make a curve (R115). -/
def CurvePasses (points : Vector PointFields 9) : Prop :=
  (∀ i : Fin 9, PointInRange points[i]) ∧
    ∀ i j : Fin 9, i < j → points[i].resistance.toNat < points[j].resistance.toNat

/-- Neighbours that ascend make the whole list ascend. -/
theorem ascending_iff_pairwise (l : List PointFields) :
    ascending l = true ↔ (l.map (·.resistance.toNat)).Pairwise (· < ·) := by
  rw [← List.isChain_iff_pairwise]
  induction l with
  | nil => simp [ascending]
  | cons p ps ih =>
    cases ps with
    | nil => simp [ascending]
    | cons q ps =>
      simp only [ascending, Bool.and_eq_true, decide_eq_true_eq, ih, List.map_cons, List.isChain_cons_cons]

theorem ascending_toList_iff (points : Vector PointFields 9) : ascending points.toList = true ↔
    ∀ i j : Fin 9, i < j → points[i].resistance.toNat < points[j].resistance.toNat := by
  rw [ascending_iff_pairwise, List.pairwise_iff_getElem]
  simp only [List.length_map, Vector.length_toList, List.getElem_map, Vector.getElem_toList]
  exact ⟨fun h i j hij => h i j i.2 j.2 hij, fun h i j hi hj hij => h ⟨i, hi⟩ ⟨j, hj⟩ hij⟩

theorem pointInRange_iff (p : PointFields) :
    (within 100 200000 p.resistance.toNat && withinInt (-40) 700 p.temperature.toInt) = true ↔ PointInRange p := by
  simp only [Bool.and_eq_true, within_iff, withinInt_iff, PointInRange, and_assoc]

theorem curvePasses_iff (points : Vector PointFields 9) :
    (points.toList.all (fun p => within 100 200000 p.resistance.toNat && withinInt (-40) 700 p.temperature.toInt)
      && ascending points.toList) = true ↔ CurvePasses points := by
  rw [Bool.and_eq_true, ascending_toList_iff, List.all_eq_true, CurvePasses, List.forall_mem_iff_getElem]
  simp only [Vector.length_toList, Vector.getElem_toList, pointInRange_iff]
  exact and_congr_left' ⟨fun h i => h i i.2, fun h i hi => h ⟨i, hi⟩⟩

theorem curveFields_of_passes {points : Vector PointFields 9} (h : CurvePasses points) :
    curveFields points =
      some (points.map fun p => { resistance := p.resistance.toNat, temperature := p.temperature.toInt }) :=
  if_pos ((curvePasses_iff points).2 h)

theorem curveFields_eq_none {points : Vector PointFields 9} (h : ¬CurvePasses points) : curveFields points = none :=
  if_neg (mt (curvePasses_iff points).1 h)

theorem curveRequest_eq_none {presence : Byte} {points : Vector PointFields 9}
    (h : 2 ≤ presence.toNat ∨ presence = 1 ∧ ¬CurvePasses points) : curveRequest presence points = none := by
  rcases h with h | ⟨rfl, h⟩
  · have hflag : flagOf presence = none := by
      rw [flagOf, if_neg (by rintro rfl; exact absurd h (by decide)), if_neg (by rintro rfl; exact absurd h (by decide))]
    rw [curveRequest, hflag]
  · rw [curveRequest, curveFields_eq_none h]
    rfl

section

variable {tag presence : Byte} {points : Vector PointFields 9} {s : State}

/-- A response on the state after the take, the Drum Temperature Unit changed before it. -/
theorem withDrums_countTake (u : DrumUnit) (s : State) :
    { countTake s with dtu := u } = { ({ s with dtu := u } : State) with lnc := (countTake s).lnc, mem := (countTake s).mem } := by
  rw [countTake_eq]

theorem setCurve_outOfRange (hm : s.mem.wf = true) (hr : Ready (.setCurve tag presence points) s)
    (h : curveRequest presence points = none) :
    AnsweredAtOnce (.setCurve tag presence points) s s 0x41 tag .refusedRange [if s.dtu.curve.isSome then 1 else 0] := by
  refine answered rfl hm hr rfl ?_
  simp only [carrySetCurve, h, countTake_dtu]
  rw [← countTake_eq]
  rfl

theorem setCurve_done (hm : s.mem.wf = true) (hr : Ready (.setCurve tag presence points) s)
    {curve : Option (Vector CurvePoint 9)} (h : curveRequest presence points = some curve) :
    AnsweredAtOnce (.setCurve tag presence points) s { s with dtu := { s.dtu with curve } } 0x41 tag .done
      [flag curve.isSome] := by
  refine answered rfl hm hr rfl ?_
  simp only [carrySetCurve, h, countTake_dtu]
  rw [withDrums_countTake]

end

/-- Settles O35: each request stores and answers as its range has it. -/
theorem criteriaAndCurve : Obligations.CriteriaAndCurve := by
  refine ⟨fun tag low critical s hm hr => ?_, fun tag presence points s hm hr => ?_⟩
  · exact ⟨setSupplyCriteria_outOfRange hm hr, setSupplyCriteria_done hm hr⟩
  · refine ⟨?_, fun h => setCurve_outOfRange hm hr (curveRequest_eq_none h), ?_⟩
    · rintro rfl
      exact setCurve_done hm hr rfl
    · rintro rfl hpass
      refine setCurve_done hm hr (curve := some _) ?_
      rw [curveRequest, curveFields_of_passes hpass]
      rfl

end Sys2Proof.Machine
end

