-- ==== Sys2Proof/Proofs/DrumRows.lean ====
section
/-! SUPPORT. The drums' live rows: what a row shows, one row's rewrite, all six, and the row of a drum that starts (R116, R130,
R170). -/

namespace Sys2Proof.Machine

/-! ### What a row shows (11.8) -/

theorem flagBits_eq (hot on queued flying request : Bool) :
    (bit 0 hot ||| bit 1 on ||| bit 2 queued ||| bit 3 flying ||| bit 4 request) =
      BitVec.ofNat 8 ((if hot then 1 else 0) + (if on then 2 else 0) + (if queued then 4 else 0)
        + (if flying then 8 else 0) + (if request then 16 else 0)) := by
  revert hot on queued flying request
  decide

theorem drumFlags_eq_rowFlags (u : DrumUnit) (d : Fin 6) : drumFlags u d (u.isInFlight d) = rowFlags u d := by
  simp only [drumFlags, flagBits_eq, beq_iff_eq]
  rfl

theorem flagBits_get (hot on queued flying request : Bool) :
    (bit 0 hot ||| bit 1 on ||| bit 2 queued ||| bit 3 flying ||| bit 4 request)[2] = queued ∧
      (bit 0 hot ||| bit 1 on ||| bit 2 queued ||| bit 3 flying ||| bit 4 request)[3] = flying := by
  revert hot on queued flying request
  decide

/-- A row's flags tell whether the drum is queued and whether it is in flight. -/
theorem rowFlags_get (u : DrumUnit) (d : Fin 6) :
    (rowFlags u d)[2] = u.isQueued d ∧ (rowFlags u d)[3] = u.isInFlight d := by
  rw [← drumFlags_eq_rowFlags]
  exact flagBits_get ..

theorem drumRowBytes_length (u : DrumUnit) (clock : Nat) (d : Fin 6) : (drumRowBytes u clock d).length = 14 := rfl

theorem drumRow_eq (s : State) (d : Fin 6) :
    drumRow s d (s.dtu.isInFlight d) = [(2, drumRowBytes s.dtu s.clock d)] := by
  simp only [drumRow, drumFlags_eq_rowFlags, drumRowBytes, drumAge]
  cases s.dtu.drums[d].ageFrom <;> rfl

/-! ### One row rewritten (R130, R170) -/

theorem rewriteDrum_eq (d : Fin 6) (s : State) :
    rewriteDrum d s = rewrite (drumRowAt d) [(2, drumRowBytes s.dtu s.clock d)] s := by
  rw [rewriteDrum, drumRow_eq]
  rfl

theorem rewriteDrum_outside (d : Fin 6) {s : State} (hm : s.mem.wf = true) {a : Nat}
    (h : a < drumRowAt d ∨ drumRowAt d + 16 ≤ a) : (rewriteDrum d s).mem.read a = s.mem.read a := by
  rw [rewriteDrum_eq]
  exact rewrite_field_outside hm h

/-- A row rewritten shows the unit, its edition raised by 2. -/
theorem rewriteDrum_stored (d : Fin 6) {s : State} (hm : s.mem.wf = true) :
    (rewriteDrum d s).mem.word (drumRowAt d) = s.mem.word (drumRowAt d) + 2 ∧
      HoldsAt (rewriteDrum d s).mem (drumRowAt d + 2) (drumRowBytes s.dtu s.clock d) := by
  have hrow := rewrite_row_holds (a := drumRowAt d) (bytes := drumRowBytes s.dtu s.clock d) hm
  rw [← rewriteDrum_eq] at hrow
  exact ⟨hrow.word, hrow.behindWord⟩

/-- Two drums' rows share no byte. -/
theorem drumRows_apart {d e : Fin 6} (h : d ≠ e) : drumRowAt d + 16 ≤ drumRowAt e ∨ drumRowAt e + 16 ≤ drumRowAt d := by
  have : d.val ≠ e.val := fun heq => h (Fin.ext heq)
  unfold drumRowAt
  omega

/-- The rows lie between 0x380 and 0x3E0. -/
theorem drumRow_within (d : Fin 6) : 0x380 ≤ drumRowAt d ∧ drumRowAt d + 16 ≤ 0x3E0 := by
  unfold drumRowAt
  omega

/-- The editions stay where no byte of the rows changes. -/
theorem drumRow_word_congr {m t : Memory} (h : ∀ a, 0x380 ≤ a → a < 0x3E0 → t.read a = m.read a) (d : Fin 6) :
    t.word (drumRowAt d) = m.word (drumRowAt d) := by
  have hrow := drumRow_within d
  exact Memory.word_congr (h _ hrow.1 (by omega)) (h _ (by omega) (by omega))

/-! ### All six rows rewritten (R130) -/

theorem rewriteDrums_eq_rows (s : State) :
    rewriteDrums s = rewriteRows drumRowAt (drumRowBytes s.dtu s.clock) indices s := by
  have key (l : List (Fin 6)) (u : State) (hdtu : u.dtu = s.dtu) (hclock : u.clock = s.clock) :
      l.foldl (fun u d => rewriteDrum d u) u = rewriteRows drumRowAt (drumRowBytes s.dtu s.clock) l u := by
    induction l generalizing u with
    | nil => simp only [rewriteRows, List.foldl_nil]
    | cons d l ih =>
      rw [List.foldl_cons, ih _ (by rw [rewriteDrum_dtu, hdtu]) (by rw [rewriteDrum_clock, hclock]), rewriteDrum_eq, hdtu,
        hclock]
      simp only [rewriteRows, List.foldl_cons]
  exact key indices s rfl rfl

theorem rewriteDrum_eq_mem (d : Fin 6) (s : State) : rewriteDrum d s = { s with mem := (rewriteDrum d s).mem } := by
  rw [rewriteDrum_eq]
  exact rewrite_eq ..

theorem rewriteDrums_eq_mem (s : State) : rewriteDrums s = { s with mem := (rewriteDrums s).mem } := by
  have hlnc := rewriteDrums_lnc s
  rw [State.eq_with_lanes (s := s) (t := rewriteDrums s), hlnc]
  all_goals simp

/-- A pass over the six rows leaves each showing its bytes, its edition raised by 2, and every other byte as it was. -/
theorem drumRows_stored {row : Fin 6 → List Byte} (hrow : ∀ d, (row d).length = 14) {s : State} (hm : s.mem.wf = true) :
    (∀ d, HoldsAt (rewriteRows drumRowAt row indices s).mem (drumRowAt d) (le16 (s.mem.word (drumRowAt d) + 2) ++ row d)) ∧
      ∀ a, (∀ d, a < drumRowAt d ∨ drumRowAt d + 16 ≤ a) →
        (rewriteRows drumRowAt row indices s).mem.read a = s.mem.read a := by
  have hapart : indices.Pairwise fun i j =>
      drumRowAt i + 2 + (row i).length ≤ drumRowAt j ∨ drumRowAt j + 2 + (row j).length ≤ drumRowAt i := by
    refine indices_nodup.imp fun {i j} h => ?_
    rw [hrow, hrow]
    exact drumRows_apart h
  obtain ⟨-, hrows, hkept⟩ := rewriteRows_stored hapart hm
  refine ⟨fun d => hrows d (mem_indices d), fun a ha => hkept a fun d _ => ?_⟩
  rw [hrow]
  exact ha d

theorem rewriteDrums_outside {s : State} (hm : s.mem.wf = true) : KeepsOutside [(0x380, 96)] s.mem (rewriteDrums s).mem := by
  intro a ha
  have hspan := ha (0x380, 96) (List.mem_singleton_self _)
  rw [rewriteDrums_eq_rows]
  refine (drumRows_stored (drumRowBytes_length s.dtu s.clock) hm).2 a fun d => ?_
  have := drumRow_within d
  dsimp only at hspan
  omega

/-- Every drum's row shows the unit, its edition raised by 2. -/
theorem rewriteDrums_stored {s : State} (hm : s.mem.wf = true) (d : Fin 6) :
    (rewriteDrums s).mem.word (drumRowAt d) = s.mem.word (drumRowAt d) + 2 ∧
      HoldsAt (rewriteDrums s).mem (drumRowAt d + 2) (drumRowBytes s.dtu s.clock d) := by
  have hrow := (drumRows_stored (drumRowBytes_length s.dtu s.clock) hm).1 d
  rw [← rewriteDrums_eq_rows] at hrow
  exact ⟨hrow.word, hrow.behindWord⟩

/-! ### The start of a measurement with its row (R116, R130) -/

/-- The row of the drum that starts is one of the six. -/
theorem KeepsOutside.of_begunRow {begun : Option (Fin 6)} {m t : Memory} (h : KeepsOutside (begunRow begun) m t) :
    KeepsOutside [(0x380, 96)] m t := by
  intro a ha
  refine h a fun x hx => ?_
  obtain ⟨d, -, rfl⟩ := List.mem_map.1 hx
  have hspan := ha (0x380, 96) (List.mem_singleton_self _)
  have := drumRow_within d
  dsimp only at *
  omega

section

variable {s : State} (hm : s.mem.wf = true)

/-- A test of R116 changes the unit and the memory alone. -/
theorem startIfAllowed_eq_mem (s : State) :
    startIfAllowed s = { s with dtu := started s.smn.cls s.clock s.dtu, mem := (startIfAllowed s).mem } := by
  rw [startIfAllowed_eq]
  cases begins s.smn.cls s.dtu with
  | none => rfl
  | some d => exact rewriteDrum_eq_mem d _

include hm

theorem startIfAllowed_mem_wf : (startIfAllowed s).mem.wf = true := by
  rw [startIfAllowed_eq]
  cases begins s.smn.cls s.dtu with
  | none => exact hm
  | some d => exact rewriteDrum_wf d hm

/-- The row of the drum that starts shows it, and every other byte is kept. -/
theorem startIfAllowed_stored :
    ShowsBegun (started s.smn.cls s.clock s.dtu) s.clock (begins s.smn.cls s.dtu) s.mem (startIfAllowed s).mem ∧
      KeepsOutside (begunRow (begins s.smn.cls s.dtu)) s.mem (startIfAllowed s).mem := by
  rw [startIfAllowed_eq]
  cases begins s.smn.cls s.dtu with
  | none => exact ⟨nofun, fun _ _ => rfl⟩
  | some d =>
    have hstarted : ({ s with dtu := started s.smn.cls s.clock s.dtu } : State).mem.wf = true := hm
    refine ⟨fun e he => ?_, fun a ha => ?_⟩
    · cases he
      exact rewriteDrum_stored d hstarted
    · exact rewriteDrum_outside d hstarted (ha (drumRowAt d, 16) (List.mem_singleton_self _))

/-- All six rows rewritten after a start show the unit; the row of the drum that started was rewritten twice (log 10). -/
theorem rewriteDrums_startIfAllowed_stored :
    ShowsDrums (started s.smn.cls s.clock s.dtu) s.clock (begins s.smn.cls s.dtu) s.mem
        (rewriteDrums (startIfAllowed s)).mem ∧
      KeepsOutside [(0x380, 96)] s.mem (rewriteDrums (startIfAllowed s)).mem := by
  obtain ⟨hbegun, hkept⟩ := startIfAllowed_stored hm
  have hstarted : (startIfAllowed s).dtu = started s.smn.cls s.clock s.dtu := startIfAllowed_dtu s
  have hclock : (startIfAllowed s).clock = s.clock := by rw [startIfAllowed_eq_mem]
  have hall := rewriteDrums_stored (startIfAllowed_mem_wf hm)
  rw [hstarted, hclock] at hall
  have hapart {d : Fin 6} (h : begins s.smn.cls s.dtu ≠ some d) {a : Nat} (hlo : drumRowAt d ≤ a) (hhi : a < drumRowAt d + 16) :
      (startIfAllowed s).mem.read a = s.mem.read a := by
    refine hkept a fun x hx => ?_
    obtain ⟨e, he, rfl⟩ := List.mem_map.1 hx
    rw [Option.mem_toList] at he
    have hne : d ≠ e := fun hde => h (hde ▸ he)
    have := drumRows_apart hne
    dsimp only
    omega
  refine ⟨⟨fun d => (hall d).2, fun d => ?_⟩, fun a ha => ?_⟩
  · rw [(hall d).1]
    by_cases hd : begins s.smn.cls s.dtu = some d
    · rw [if_pos hd, (hbegun d hd).1, BitVec.add_assoc]
      rfl
    · rw [if_neg hd, Memory.word_congr (hapart hd le_rfl (by omega)) (hapart hd (by omega) (by omega))]
  · exact (rewriteDrums_outside (startIfAllowed_mem_wf hm) a ha).trans (hkept.of_begunRow a ha)

end

/-! ### A request or a scan expiry and the rows (R130) -/

theorem allFlags_eq_iff (u v : DrumUnit) : allFlags u = allFlags v ↔ ∀ d, rowFlags u d = rowFlags v d := by
  simp only [allFlags, drumFlags_eq_rowFlags, List.map_inj_left]
  exact ⟨fun h d => h d (mem_indices d), fun h d _ => h d⟩

/-- The rows are rewritten where an event changed a row's flags. -/
theorem drumEvent_of_changed {f : State → State} {s : State} (h : ∃ d, rowFlags (f s).dtu d ≠ rowFlags s.dtu d) :
    drumEvent f s = rewriteDrums (f s) := by
  obtain ⟨d, hd⟩ := h
  exact if_neg fun hall => hd ((allFlags_eq_iff ..).1 hall d)

theorem drumEvent_of_same {f : State → State} {s : State} (h : ∀ d, rowFlags (f s).dtu d = rowFlags s.dtu d) :
    drumEvent f s = f s :=
  if_pos ((allFlags_eq_iff ..).2 h)

/-- A drum that joins the queue is queued or in flight after the test of R116. -/
theorem started_waits (cls : SupplyClass) (clock : Nat) {u : DrumUnit} {d : Fin 6} (h : u.isQueued d = true) :
    (started cls clock u).isQueued d = true ∨ (started cls clock u).isInFlight d = true := by
  rcases started_cases cls clock u with ⟨-, e⟩ | ⟨e, rest, -, -, hq, -, hu⟩
  · rw [e]
    exact .inl h
  · rw [hu]
    simpa [DrumUnit.isQueued, DrumUnit.isInFlight, hq, or_comm] using h

/-- A drum that waited nowhere and joins the queue changes its row's flags. -/
theorem rowFlags_started_ne (cls : SupplyClass) (clock : Nat) {u v : DrumUnit} {d : Fin 6} (hqueued : v.isQueued d = false)
    (hlanded : v.isInFlight d = false) (h : u.isQueued d = true) : rowFlags (started cls clock u) d ≠ rowFlags v d := by
  intro heq
  obtain ⟨hq, hf⟩ := rowFlags_get (started cls clock u) d
  obtain ⟨hq', hf'⟩ := rowFlags_get v d
  rw [heq, hq', hqueued] at hq
  rw [heq, hf', hlanded] at hf
  rcases started_waits cls clock h with hw | hw
  · rw [hw] at hq
    cases hq
  · rw [hw] at hf
    cases hf

/-- A request or scan expiry that ends in a test of R116: the rows it rewrites show the unit. -/
theorem drumEvent_start_stored {f : State → State} {v a : State} {u : DrumUnit} (hm : a.mem.wf = true)
    (hf : f v = startIfAllowed { a with dtu := u }) :
    ∃ mem, drumEvent f v = { a with dtu := started a.smn.cls a.clock u, mem := mem } ∧
      KeepsOutside [(0x380, 96)] a.mem mem ∧
      ((∃ d, rowFlags (started a.smn.cls a.clock u) d ≠ rowFlags v.dtu d) →
        ShowsDrums (started a.smn.cls a.clock u) a.clock (begins a.smn.cls u) a.mem mem) ∧
      ((∀ d, rowFlags (started a.smn.cls a.clock u) d = rowFlags v.dtu d) →
        ShowsBegun (started a.smn.cls a.clock u) a.clock (begins a.smn.cls u) a.mem mem ∧
          KeepsOutside (begunRow (begins a.smn.cls u)) a.mem mem) := by
  have hunit : (f v).dtu = started a.smn.cls a.clock u := by rw [hf, startIfAllowed_dtu]
  have hm' : ({ a with dtu := u } : State).mem.wf = true := hm
  by_cases hchanged : ∃ d, rowFlags (started a.smn.cls a.clock u) d ≠ rowFlags v.dtu d
  · obtain ⟨hshown, hkept⟩ := rewriteDrums_startIfAllowed_stored hm'
    refine ⟨_, ?_, hkept, fun _ => hshown, fun hsame => ?_⟩
    · rw [drumEvent_of_changed (by rw [hunit]; exact hchanged), hf, rewriteDrums_eq_mem, startIfAllowed_eq_mem]
    · obtain ⟨d, hd⟩ := hchanged
      exact absurd (hsame d) hd
  · obtain ⟨hshown, hkept⟩ := startIfAllowed_stored hm'
    refine ⟨_, ?_, hkept.of_begunRow, fun h => absurd h hchanged, fun _ => ⟨hshown, hkept⟩⟩
    rw [drumEvent_of_same (by rw [hunit]; exact fun d => not_not.1 fun hd => hchanged ⟨d, hd⟩), hf, startIfAllowed_eq_mem]

/-- A drum that waited nowhere joins the queue, may start, and all six rows are rewritten (R116, R122, R123, R130). -/
theorem join_stored {s : State} {u : DrumUnit} {d : Fin 6} (hm : s.mem.wf = true) (hqueued : s.dtu.isQueued d = false)
    (hlanded : s.dtu.isInFlight d = false) (h : u.isQueued d = true) {f : State → State}
    (hf : f s = startIfAllowed { s with dtu := u }) :
    ∃ mem, drumEvent f s = { s with dtu := started s.smn.cls s.clock u, mem := mem } ∧
      KeepsOutside [(0x380, 96)] s.mem mem ∧
      ShowsDrums (started s.smn.cls s.clock u) s.clock (begins s.smn.cls u) s.mem mem := by
  obtain ⟨mem, hnext, hkept, hshown, -⟩ := drumEvent_start_stored hm hf
  exact ⟨mem, hnext, hkept, hshown ⟨d, rowFlags_started_ne _ _ hqueued hlanded h⟩⟩

end Sys2Proof.Machine
end

