-- ==== Sys2Proof/Proofs/DrumTimers.lean ====
section
/-! SUPPORT. The drum scan timer's expiry and the age refresh (R123, R130). -/

namespace Sys2Proof.Machine

/-! ### The drum a scan offers (R123) -/

theorem indices_getElem {i : Nat} (h : i < indices.length) : (indices[i]).val = i := by
  have : ∀ i : Fin 6, (indices[i.val]).val = i.val := by decide
  exact this ⟨i, h⟩

/-- The first index, in index order, of which a property holds. -/
theorem find?_indices {p : Fin 6 → Bool} {k : Fin 6} (hk : p k = true) (hbefore : ∀ j < k, p j = false) :
    indices.find? p = some k := by
  rw [List.find?_eq_some_iff_getElem]
  have hat : indices[k.val]'k.isLt = k := Fin.ext (indices_getElem k.isLt)
  refine ⟨hk, k, k.isLt, hat, fun j hj => ?_⟩
  rw [hbefore _ (Fin.lt_def.2 ((indices_getElem (hj.trans k.isLt)).trans_lt hj))]
  rfl

theorem scanTarget_eq_none {u : DrumUnit} (h : u.config.enabled = 0) : scanTarget u = none := by
  rw [scanTarget, List.find?_eq_none]
  intro d _
  simp [DrumUnit.isEnabled, h]

theorem scanTarget_eq_some {u : DrumUnit} {k : Fin 6} (hk : u.config.enabled[u.rotation + k] = true)
    (hbefore : ∀ j : Fin 6, j < k → u.config.enabled[u.rotation + j] = false) : scanTarget u = some (u.rotation + k) := by
  have hfound : indices.find? (u.isEnabled ∘ fun i => u.rotation + i) = some k := find?_indices hk hbefore
  rw [scanTarget, List.find?_map, hfound]
  rfl

/-! ### The scan timer's expiry (R123) -/

section

variable {s : State} (h : s.held = none)

include h

theorem exec_drumScanExpiry_stopped (ht : s.dtu.scanTimer = none) : exec .drumScanExpiry s = .next s := by
  simp only [exec, execDrumScanExpiry, whenRunning_of_not_held h, ht]

theorem exec_drumScanExpiry {due : Nat} (ht : s.dtu.scanTimer = some due) :
    exec .drumScanExpiry s =
      .next (if due ≤ s.clock then drumEvent (fun u => offerScan (restartScan due u)) s else s) := by
  simp only [exec, execDrumScanExpiry, whenRunning_of_not_held h, ht, State.due, decide_eq_true_eq]

end

/-- A scan that finds no drum enabled, or a busy one, changes the timer and the pointer alone. -/
theorem drumEvent_of_timers {f : State → State} {s : State} {timer : Option Nat} {rotation : Fin 6}
    (hf : f s = { s with dtu := { s.dtu with scanTimer := timer, rotation := rotation } }) : drumEvent f s = f s :=
  drumEvent_of_same fun d => by rw [hf]; rfl

/-- A drum that waits already is skipped (R123). -/
theorem scan_of_busy {s : State} {due : Nat} {d : Fin 6} (htarget : scanTarget (restartScan due s).dtu = some d)
    (h : (s.dtu.queue.any (·.drum == d) || s.dtu.inFlight.any (·.drum == d)) = true) :
    drumEvent (fun u => offerScan (restartScan due u)) s =
      { s with dtu := { s.dtu with scanTimer := some (due + s.dtu.config.interval * 4000), rotation := d + 1 } } := by
  have hbusy : (s.dtu.isInFlight d || s.dtu.isQueued d) = true := by rw [Bool.or_comm]; exact h
  have hoffer : offerScan (restartScan due s) =
      { s with dtu := { s.dtu with scanTimer := some (due + s.dtu.config.interval * 4000), rotation := d + 1 } } := by
    unfold offerScan
    rw [htarget]
    exact if_pos hbusy
  rw [drumEvent_of_timers (f := fun u => offerScan (restartScan due u)) hoffer, hoffer]

/-- A drum that waits nowhere joins the queue and may start, and all six rows are rewritten (R116, R123, R130). -/
theorem scan_of_free {s : State} {due : Nat} {d : Fin 6} (hm : s.mem.wf = true)
    (htarget : scanTarget (restartScan due s).dtu = some d)
    (h : (s.dtu.queue.any (·.drum == d) || s.dtu.inFlight.any (·.drum == d)) = false) :
    ∃ u mem, u = started s.smn.cls s.clock { s.dtu with
        scanTimer := some (due + s.dtu.config.interval * 4000), rotation := d + 1
        queue := s.dtu.queue ++ [{ drum := d, origin := .scan, tags := [] }] } ∧
      drumEvent (fun u => offerScan (restartScan due u)) s = { s with dtu := u, mem := mem } ∧
      KeepsOutside [(0x380, 96)] s.mem mem ∧
      ShowsDrums u s.clock (begins s.smn.cls { s.dtu with
        scanTimer := some (due + s.dtu.config.interval * 4000), rotation := d + 1
        queue := s.dtu.queue ++ [{ drum := d, origin := .scan, tags := [] }] }) s.mem mem := by
  obtain ⟨hqueued, hlanded⟩ : s.dtu.isQueued d = false ∧ s.dtu.isInFlight d = false := Bool.or_eq_false_iff.1 h
  have hoffer : offerScan (restartScan due s) = startIfAllowed { s with dtu := { s.dtu with
      scanTimer := some (due + s.dtu.config.interval * 4000), rotation := d + 1
      queue := s.dtu.queue ++ [{ drum := d, origin := .scan, tags := [] }] } } := by
    unfold offerScan
    rw [htarget]
    exact if_neg (by simpa using ⟨hlanded, hqueued⟩)
  obtain ⟨mem, hnext, hkept, hshown⟩ := join_stored (f := fun u => offerScan (restartScan due u)) (d := d) hm hqueued hlanded
    (by simp [DrumUnit.isQueued]) hoffer
  exact ⟨_, mem, rfl, hnext, hkept, hshown⟩

/-! ### The age refresh (R130) -/

/-- The state with the refresh timer run on. -/
def refreshTimed (s : State) : State := { s with dtu := { s.dtu with ageDue := s.dtu.ageDue + 400000 } }

theorem exec_ageRefresh {s : State} (h : s.held = none) :
    exec .ageRefresh s =
      .next (if s.dtu.ageDue ≤ s.clock then rewriteDrums (refreshTimed s) else s) := by
  simp only [exec, execAgeRefresh, whenRunning_of_not_held h, State.due, decide_eq_true_eq]
  rfl

/-- The rewritten rows show the unit as it was: no row tells the timer. -/
theorem refreshed_stored {s : State} (hm : s.mem.wf = true) (d : Fin 6) :
    (rewriteDrums (refreshTimed s)).mem.word (drumRowAt d) = s.mem.word (drumRowAt d) + 2 ∧
      HoldsAt (rewriteDrums (refreshTimed s)).mem (drumRowAt d + 2) (drumRowBytes s.dtu s.clock d) :=
  rewriteDrums_stored (s := refreshTimed s) hm d

/-- Settles O39: an expiry of the drum scan offers the first enabled drum, and the age refresh rewrites every row. -/
theorem drumTimers : Obligations.DrumTimers := by
  refine ⟨fun s h hm => ⟨exec_drumScanExpiry_stopped h, fun due ht => ?_⟩, fun s h hm => ?_⟩
  · rw [exec_drumScanExpiry h ht]
    refine ⟨fun hearly => by rw [if_neg (Nat.not_le.2 hearly)], fun hdue hnone => ?_, fun k d hdue hbefore hd hon => ?_⟩
    · have hoffer : offerScan (restartScan due s) = restartScan due s := by
        rw [offerScan, scanTarget_eq_none (u := (restartScan due s).dtu) hnone]
      rw [if_pos hdue, drumEvent_of_timers (f := fun u => offerScan (restartScan due u)) hoffer, hoffer]
      rfl
    · subst hd
      have htarget : scanTarget (restartScan due s).dtu = some (s.dtu.rotation + k) :=
        scanTarget_eq_some (u := (restartScan due s).dtu) hon hbefore
      rw [if_pos hdue]
      refine ⟨fun hbusy => by rw [scan_of_busy htarget hbusy], fun hfree => ?_⟩
      obtain ⟨u, mem, hu, hnext, hkept, hshown⟩ := scan_of_free hm htarget hfree
      exact ⟨u, mem, hu, congrArg _ hnext, hkept, hshown⟩
  · rw [exec_ageRefresh h]
    refine ⟨fun hearly => by rw [if_neg (Nat.not_le.2 hearly)], fun hdue => ?_⟩
    rw [if_pos hdue]
    exact ⟨(rewriteDrums (refreshTimed s)).mem, congrArg Host.Outcome.next (rewriteDrums_eq_mem (refreshTimed s)),
      rewriteDrums_outside (s := refreshTimed s) hm, refreshed_stored hm⟩

end Sys2Proof.Machine
end

