-- ==== Sys2Proof/Proofs/MeasureDrum.lean ====
section
/-! SUPPORT. MEASURE-DRUM: the cases of its table (R121, R122). -/

namespace Sys2Proof.Machine

/-! ### A take and the rows -/

/-- A take stores the owed count in the status block, and nothing else (R174). -/
theorem countTake_kept {s : State} (hm : s.mem.wf = true) :
    KeepsOutside [(0x40, 2), (0x62, 6)] s.mem (countTake s).mem := by
  unfold countTake
  exact (setOwed_stored _ (s := s.setLane .request _) hm).2.2.2

theorem countTake_drumRow {s : State} (hm : s.mem.wf = true) (d : Fin 6) :
    (countTake s).mem.word (drumRowAt d) = s.mem.word (drumRowAt d) := by
  refine drumRow_word_congr (fun a hlo hhi => countTake_kept hm a ?_) d
  simp only [List.mem_cons, List.not_mem_nil, or_false, forall_eq_or_imp, forall_eq]
  omega

/-- Rows are shown alike from a memory with the same editions. -/
theorem ShowsDrums.from {u : DrumUnit} {clock : Nat} {begun : Option (Fin 6)} {k m t : Memory} (h : ShowsDrums u clock begun k t)
    (heq : ∀ d, k.word (drumRowAt d) = m.word (drumRowAt d)) : ShowsDrums u clock begun m t :=
  ⟨h.rows, fun d => by rw [h.editions, heq]⟩

theorem ShowsBegun.from {u : DrumUnit} {clock : Nat} {begun : Option (Fin 6)} {k m t : Memory} (h : ShowsBegun u clock begun k t)
    (heq : ∀ d, k.word (drumRowAt d) = m.word (drumRowAt d)) : ShowsBegun u clock begun m t :=
  fun d hd => by rw [← heq]; exact h d hd

/-! ### The queue's entries (R121) -/

/-- The entry of a drum is the one that is found for it. -/
theorem DrumsSound.find_entry {s : State} (hs : DrumsSound s) {e : QueueEntry} (he : e ∈ s.dtu.queue) :
    s.dtu.queue.find? (fun x => x.drum == e.drum) = some e := by
  cases hf : s.dtu.queue.find? (fun x => x.drum == e.drum) with
  | none => exact absurd (List.find?_eq_none.1 hf e he) (by simp)
  | some x =>
    have hdrum : x.drum = e.drum := by simpa using List.find?_some hf
    rw [hs.entry_unique he (List.mem_of_find?_eq_some hf) hdrum]

/-- A queued drum is not in flight. -/
theorem DrumsSound.isInFlight_of_mem {s : State} (hs : DrumsSound s) {e : QueueEntry} (he : e ∈ s.dtu.queue) :
    s.dtu.isInFlight e.drum = false := by
  cases hm : s.dtu.inFlight with
  | none => simp [DrumUnit.isInFlight, hm]
  | some m =>
    obtain ⟨hother, -, -⟩ := hs.flying m hm
    simpa [DrumUnit.isInFlight, hm] using (hother e he).symm

/-- A tag joins one entry, every other staying as it is. -/
theorem DrumsSound.map_joinEntry {s : State} (hs : DrumsSound s) (tag : Byte) {e : QueueEntry} (he : e ∈ s.dtu.queue) :
    ∃ before after, s.dtu.queue = before ++ e :: after ∧
      s.dtu.queue.map (joinEntry e.drum tag) = before ++ { e with origin := .request, tags := e.tags ++ [tag] } :: after := by
  obtain ⟨before, after, hsplit⟩ := List.append_of_mem he
  have honce := hs.once
  rw [hsplit, List.map_append, List.map_cons, List.nodup_middle, List.nodup_cons, List.mem_append, not_or] at honce
  obtain ⟨⟨hbefore, hafter⟩, -⟩ := honce
  have hkept {l : List QueueEntry} (hl : e.drum ∉ l.map (·.drum)) : l.map (joinEntry e.drum tag) = l := by
    refine (List.map_congr_left fun x hx => ?_).trans (List.map_id l)
    exact if_neg fun hx' => hl (List.mem_map.2 ⟨x, hx, hx'⟩)
  refine ⟨before, after, hsplit, ?_⟩
  rw [hsplit, List.map_append, List.map_cons, hkept hbefore, hkept hafter, joinEntry, if_pos rfl]

/-! ### The cases of the table (R122) -/

section

variable {tag drum : Byte} {d : Fin 6} {u : State}

theorem carryMeasureDrum_of_on (hd : d.val = drum.toNat) (h : u.dtu.config.enabled[d] = true) :
    carryMeasureDrum tag drum u = measureEnabled tag d u := by
  rw [carryMeasureDrum, index6_of_val hd]
  exact if_pos h

theorem carryMeasureDrum_of_off (hd : d.val = drum.toNat) (h : u.dtu.config.enabled[d] = false) :
    carryMeasureDrum tag drum u = refuseMeasure tag d .refusedState u := by
  rw [carryMeasureDrum, index6_of_val hd]
  exact if_neg (by rw [DrumUnit.isEnabled, h]; decide)

theorem measureEnabled_of_flying {m : Measurement} (hm : u.dtu.inFlight = some m) (hd : m.drum = d) :
    measureEnabled tag d u =
      if m.tags.length < 4 then { u with dtu := { u.dtu with inFlight := some { m with tags := m.tags ++ [tag] } } }
      else refuseMeasure tag d .queueFull u := by
  rw [measureEnabled, hm]
  exact if_pos hd

theorem measureEnabled_of_landed (h : u.dtu.isInFlight d = false) : measureEnabled tag d u = measureQueued tag d u := by
  unfold measureEnabled
  split
  · rfl
  · next m hm =>
    rw [if_neg]
    simpa [DrumUnit.isInFlight, hm] using h

theorem measureQueued_of_queued {e : QueueEntry} (he : u.dtu.queue.find? (fun x => x.drum == d) = some e) :
    measureQueued tag d u =
      if e.tags.length < 4 then { u with dtu := { u.dtu with queue := u.dtu.queue.map (joinEntry d tag) } }
      else refuseMeasure tag d .queueFull u := by
  rw [measureQueued, he]

theorem measureQueued_of_fresh (h : u.dtu.isQueued d = false) :
    measureQueued tag d u =
      drumEvent (fun v => startIfAllowed (joinQueue { drum := d, origin := .request, tags := [tag] } v)) u := by
  have hnone : u.dtu.queue.find? (fun x => x.drum == d) = none := by
    simpa [DrumUnit.isQueued] using h
  rw [measureQueued, hnone]

end

section

variable {tag drum : Byte} {d : Fin 6} {s : State} (hm : s.mem.wf = true) (hr : Ready (.measureDrum tag drum) s)

include hr

theorem exec_measureDrum : exec (.measureDrum tag drum) s = .next (carryMeasureDrum tag drum (countTake s)) :=
  exec_of_ready rfl hr

include hm

/-- The bytes of a refusal: the drum's result state, whether it is queued or in flight, and no temperature (R122). -/
theorem measureDrum_refused (hd : d.val = drum.toNat) {status : Status}
    (h : carryMeasureDrum tag drum (countTake s) = refuseMeasure tag d status (countTake s)) :
    AnsweredAtOnce (.measureDrum tag drum) s s 0x42 tag status
      ([drum, s.dtu.drums[d].result.code, 0,
        (if s.dtu.queue.any (·.drum == d) then 2 else 0) ||| (if s.dtu.inFlight.any (·.drum == d) then 4 else 0)]
        ++ [0, 0, 0, 0, 0xFF, 0x7F]) := by
  have hbyte : BitVec.ofNat 8 d.val = drum := by rw [hd, BitVec.ofNat_toNat, BitVec.setWidth_eq]
  refine answered rfl hm hr rfl ?_
  rw [h, refuseMeasure, hbyte, countTake_dtu, ← countTake_eq]
  rfl

theorem measureDrum_noDrum (h : 6 ≤ drum.toNat) :
    AnsweredAtOnce (.measureDrum tag drum) s s 0x42 tag .refusedRange ([drum, 0, 0, 0] ++ [0, 0, 0, 0, 0xFF, 0x7F]) := by
  refine answered rfl hm hr rfl ?_
  simp only [carryMeasureDrum, index6_eq_none h]
  rw [← countTake_eq]
  rfl

end

/-- Settles O38: the first case of the table that applies. -/
theorem measureDrum : Obligations.MeasureDrum := by
  intro tag drum s hm hs hr i absent
  refine ⟨measureDrum_noDrum hm hr, fun d hd => ?_⟩
  intro queued flying refused on
  have hon (h : on = true) : (countTake s).dtu.config.enabled[d] = true := by rw [countTake_dtu]; exact h
  refine ⟨fun hoff => ?_, fun m h hflying hdrum => ?_, fun e h he hdrum => ?_, fun h hqueued hlanded => ?_⟩
  · exact measureDrum_refused hm hr hd (carryMeasureDrum_of_off hd (by rw [countTake_dtu]; exact hoff))
  · have hcase := (carryMeasureDrum_of_on (tag := tag) hd (hon h)).trans
      (measureEnabled_of_flying (by rw [countTake_dtu]; exact hflying) hdrum)
    refine ⟨fun hfull => ?_, fun hroom => ?_⟩
    · rw [if_neg (Nat.not_lt.2 hfull)] at hcase
      exact measureDrum_refused hm hr hd hcase
    · rw [if_pos hroom, countTake_dtu] at hcase
      exact (exec_measureDrum hr).trans (congrArg _ hcase)
  · subst hdrum
    have hlanded : (countTake s).dtu.isInFlight e.drum = false := by
      rw [countTake_dtu]
      exact hs.isInFlight_of_mem he
    have hfound : (countTake s).dtu.queue.find? (fun x => x.drum == e.drum) = some e := by
      rw [countTake_dtu]
      exact hs.find_entry he
    have hcase := (carryMeasureDrum_of_on (tag := tag) hd (hon h)).trans
      ((measureEnabled_of_landed hlanded).trans (measureQueued_of_queued hfound))
    refine ⟨fun hfull => ?_, fun hroom => ?_⟩
    · rw [if_neg (Nat.not_lt.2 hfull)] at hcase
      exact measureDrum_refused hm hr hd hcase
    · obtain ⟨before, after, hsplit, hjoined⟩ := hs.map_joinEntry tag he
      rw [if_pos hroom, countTake_dtu, hjoined] at hcase
      exact ⟨before, after, hsplit, (exec_measureDrum hr).trans (congrArg _ hcase)⟩
  · intro joined
    have hcase := (carryMeasureDrum_of_on (tag := tag) hd (hon h)).trans ((measureEnabled_of_landed
      (by rw [countTake_dtu]; exact hlanded)).trans (measureQueued_of_fresh (by rw [countTake_dtu]; exact hqueued)))
    have hbegin : startIfAllowed (joinQueue { drum := d, origin := .request, tags := [tag] } (countTake s)) =
        startIfAllowed { countTake s with dtu := joined } := by
      rw [joinQueue, countTake_dtu]
    obtain ⟨mem, hnext, hkept, hshown⟩ := join_stored (d := d)
      (f := fun v => startIfAllowed (joinQueue { drum := d, origin := .request, tags := [tag] } v)) (countTake_wf hm)
      (by rw [countTake_dtu]; exact hqueued) (by rw [countTake_dtu]; exact hlanded) (u := joined)
      (by simp [joined, DrumUnit.isQueued]) hbegin
    have hunit : started (countTake s).smn.cls (countTake s).clock joined = started s.smn.cls s.clock joined := by
      rw [countTake_smn, countTake_clock]
    rw [hunit] at hnext
    rw [countTake_smn, countTake_clock] at hshown
    exact ⟨_, mem, rfl, (exec_measureDrum hr).trans (congrArg _ (hcase.trans hnext)), hkept,
      hshown.from (countTake_drumRow hm)⟩

end Sys2Proof.Machine
end

