-- ==== Sys2Proof/Proofs/SetDrumConfig.lean ====
section
/-! SUPPORT. SET-DRUM-CONFIG: its ranges, the answers of the abandoned tags in their order, and the unit it leaves (R113, R114). -/

namespace Sys2Proof.Machine

/-! ### The ranges (R113) -/

/-- Every field in its range (R113, R177). -/
def DrumConfigInRange (rRef : Long) (nRef interval hot : Word) (enable : Byte) : Prop :=
  (1000 ≤ rRef.toNat ∧ rRef.toNat ≤ 100000) ∧ (256 ≤ nRef.toNat ∧ nRef.toNat ≤ 32768) ∧
    (interval = 0 ∨ (250 ≤ interval.toNat ∧ interval.toNat ≤ 5000)) ∧ (100 ≤ hot.toInt ∧ hot.toInt ≤ 600) ∧
    enable.toNat < 64

/-- The configuration that a frame carries. -/
def drumConfigGiven (rRef : Long) (nRef interval hot : Word) (enable : Byte) : DrumConfig :=
  { rRef := rRef.toNat, nRef := nRef.toNat, interval := interval.toNat, hot := hot.toInt, enabled := enable.setWidth 6 }

theorem toNat_eq_zero_iff {n : Nat} (w : BitVec n) : w.toNat = 0 ↔ w = 0 :=
  ⟨fun h => BitVec.eq_of_toNat_eq (h.trans BitVec.toNat_zero.symm), fun h => by rw [h]; rfl⟩

theorem drumFields_eq (rRef : Long) (nRef interval hot : Word) (enable : Byte) :
    ((within 1000 100000 rRef.toNat && within 256 32768 nRef.toNat
      && (interval.toNat == 0 || within 250 5000 interval.toNat) && withinInt 100 600 hot.toInt
      && decide (enable.toNat < 64)) = true) ↔ DrumConfigInRange rRef nRef interval hot enable := by
  simp only [Bool.and_eq_true, Bool.or_eq_true, beq_iff_eq, within_iff, withinInt_iff, decide_eq_true_eq,
    toNat_eq_zero_iff, DrumConfigInRange, and_assoc]

theorem drumFields_of_inRange {rRef : Long} {nRef interval hot : Word} {enable : Byte}
    (h : DrumConfigInRange rRef nRef interval hot enable) :
    drumFields rRef nRef interval hot enable = some (drumConfigGiven rRef nRef interval hot enable) :=
  if_pos ((drumFields_eq ..).2 h)

theorem drumFields_eq_none {rRef : Long} {nRef interval hot : Word} {enable : Byte}
    (h : ¬DrumConfigInRange rRef nRef interval hot enable) : drumFields rRef nRef interval hot enable = none :=
  if_neg (mt (drumFields_eq ..).1 h)

/-! ### The answers of the abandoned tags (R114) -/

/-- The answers that abandon an entry's tags, in list order. -/
def abandonedAnswers (drums : Vector Drum 6) (e : QueueEntry) : List (Byte × List Byte) :=
  e.tags.map fun tag => (tag, [BitVec.ofNat 8 e.drum, drums[e.drum].result.code, e.origin.code,
    if drums[e.drum].hot then 1 else 0, 0, 0, 0, 0, 0xFF, 0x7F])

/-- Tags answered ABANDONED one after another. -/
def answerAll (answers : List (Byte × List Byte)) (s : State) : State :=
  answers.foldl (fun u a => respond 0x42 a.1 .abandoned a.2 u) s

/-- The measurement in flight as the entry it was. -/
def flightEntry (u : DrumUnit) : List QueueEntry := (u.inFlight.map fun m => ⟨m.drum, m.origin, m.tags⟩).toList

/-- The entries that a new configuration abandons: the measurement in flight, then those of drums it leaves out. -/
def abandonedEntries (new : DrumConfig) (u : DrumUnit) : List QueueEntry :=
  flightEntry u ++ u.queue.filter fun e => !new.enabled[e.drum]

/-- All answers of a new configuration, in their order. -/
def configAnswers (new : DrumConfig) (u : DrumUnit) : List (Byte × List Byte) :=
  (abandonedEntries new u).flatMap (abandonedAnswers u.drums)

theorem answerAll_append (xs ys : List (Byte × List Byte)) (s : State) :
    answerAll (xs ++ ys) s = answerAll ys (answerAll xs s) := List.foldl_append ..

theorem answerAll_withDrums (answers : List (Byte × List Byte)) (s : State) (u : DrumUnit) :
    answerAll answers { s with dtu := u } = { answerAll answers s with dtu := u } := by
  induction answers generalizing s with
  | nil => rfl
  | cons a answers ih =>
    simp only [answerAll, List.foldl_cons, respond_withDrums] at ih ⊢
    exact ih _

theorem answerAll_keeps {α : Type} (g : State → α)
    (h : ∀ kind tag status result u, g (respond kind tag status result u) = g u)
    (answers : List (Byte × List Byte)) (s : State) : g (answerAll answers s) = g s :=
  foldl_keeps g (fun _ _ => h ..) answers s

theorem abandonTags_eq (e : QueueEntry) (s : State) :
    abandonTags e.drum e.origin e.tags s = answerAll (abandonedAnswers s.dtu.drums e) s := by
  rw [answerAll, abandonedAnswers, List.foldl_map]
  rfl

/-- Entries abandoned one after another are answered in their order. -/
theorem foldl_abandonTags (l : List QueueEntry) (s : State) :
    l.foldl (fun u e => abandonTags e.drum e.origin e.tags u) s = answerAll (l.flatMap (abandonedAnswers s.dtu.drums)) s := by
  induction l generalizing s with
  | nil => rfl
  | cons e l ih =>
    rw [List.foldl_cons, ih, abandonTags_dtu, abandonTags_eq, List.flatMap_cons, answerAll_append]

theorem abandonInFlight_eq (s : State) :
    abandonInFlight s =
      { answerAll ((flightEntry s.dtu).flatMap (abandonedAnswers s.dtu.drums)) s with
        dtu := { s.dtu with inFlight := none } } := by
  rw [← answerAll_withDrums]
  unfold abandonInFlight flightEntry
  cases hm : s.dtu.inFlight with
  | none =>
    simp only [Option.map_none, Option.toList_none, List.flatMap_nil, answerAll, List.foldl_nil]
    rw [← hm]
  | some m =>
    simp only [Option.map_some, Option.toList_some, List.flatMap_cons, List.flatMap_nil, List.append_nil]
    exact abandonTags_eq ⟨m.drum, m.origin, m.tags⟩ _

theorem removeEntries_eq (s : State) :
    removeEntries s =
      { answerAll ((s.dtu.queue.filter fun e => !s.dtu.isEnabled e.drum).flatMap (abandonedAnswers s.dtu.drums)) s with
        dtu := { s.dtu with queue := s.dtu.queue.filter fun e => s.dtu.isEnabled e.drum } } := by
  rw [← answerAll_withDrums]
  exact foldl_abandonTags ..

/-- Steps 1 to 5 of R114: the tags answered in their order, and the unit. -/
theorem reconfigure_eq (new : DrumConfig) (s : State) :
    reconfigure new s =
      { answerAll (configAnswers new s.dtu) s with dtu := reconfiguredUnit new s.clock s.dtu } := by
  have hdtu := reconfigure_dtu new s
  rw [← hdtu]
  simp only [reconfigure, abandonInFlight_eq, removeEntries_eq, answerAll_withDrums, configAnswers, abandonedEntries,
    List.flatMap_append, answerAll_append]
  rfl

theorem abandonedCount_eq (new : DrumConfig) (u : DrumUnit) : abandonedCount new u = (configAnswers new u).length := by
  have hlength (l : List QueueEntry) : (l.flatMap (abandonedAnswers u.drums)).length = (l.map (·.tags.length)).sum := by
    simp [List.length_flatMap, abandonedAnswers]
  rw [configAnswers, abandonedEntries, List.flatMap_append, List.length_append, hlength, hlength, abandonedCount, flightEntry]
  cases u.inFlight <;> simp

/-- A response leaves the drums' rows. -/
theorem respond_drumRow (kind tag : Byte) (status : Status) (result : List Byte) {s : State} (hm : s.mem.wf = true)
    (d : Fin 6) : (respond kind tag status result s).mem.word (drumRowAt d) = s.mem.word (drumRowAt d) :=
  drumRow_word_congr (fun _ _ _ => respond_read_below kind tag status result hm (by omega) (by omega) (by omega)) d

theorem answerAll_drumRow (answers : List (Byte × List Byte)) {s : State} (hm : s.mem.wf = true) :
    (answerAll answers s).mem.wf = true ∧
      ∀ d, (answerAll answers s).mem.word (drumRowAt d) = s.mem.word (drumRowAt d) := by
  induction answers generalizing s with
  | nil => exact ⟨hm, fun _ => rfl⟩
  | cons a answers ih =>
    obtain ⟨hwf, hrows⟩ := ih (respond_wf 0x42 a.1 .abandoned a.2 hm)
    exact ⟨hwf, fun d => (hrows d).trans (respond_drumRow 0x42 a.1 .abandoned a.2 hm d)⟩

/-! ### The unit after the request (R114) -/

theorem clearLeaver_eq (old new : BitVec 6) (clock : Nat) (d : Fin 6) (x : Drum) :
    clearLeaver old new clock d x =
      if old[d] = true ∧ new[d] = false then
        { x with
          result := .unknown, resistance := 0, nSens := 0, temperature := none, hot := false, ageFrom := some clock }
      else x := by
  simp only [clearLeaver, Bool.and_eq_true, Bool.not_eq_true']

/-- The state answered by an accepted request, before its unit is set. -/
def configAnswered (tag : Byte) (new : DrumConfig) (s : State) : State :=
  respond 0x40 tag .done (drumConfigResult new (configAnswers new s.dtu).length)
    (answerAll (configAnswers new s.dtu) (countTake s))

theorem configAnswered_keeps {α : Type} (g : State → α)
    (h : ∀ kind tag status result u, g (respond kind tag status result u) = g u) (tag : Byte) (new : DrumConfig) (s : State) :
    g (configAnswered tag new s) = g (countTake s) :=
  (h ..).trans (answerAll_keeps g h ..)

theorem configAnswered_drumRow (tag : Byte) (new : DrumConfig) {s : State} (hm : s.mem.wf = true) :
    (configAnswered tag new s).mem.wf = true ∧
      ∀ d, (configAnswered tag new s).mem.word (drumRowAt d) = s.mem.word (drumRowAt d) := by
  obtain ⟨hwf, hrows⟩ := answerAll_drumRow (configAnswers new s.dtu) (countTake_wf hm)
  exact ⟨respond_wf _ _ _ _ hwf, fun d => (respond_drumRow _ _ _ _ hwf d).trans ((hrows d).trans (countTake_drumRow hm d))⟩

/-- The steps of R114 and the answer leave the unit reconfigured, before a measurement may start. -/
theorem respond_reconfigure (tag : Byte) (new : DrumConfig) (s : State) :
    respond 0x40 tag .done (drumConfigResult new (abandonedCount new (countTake s).dtu)) (reconfigure new (countTake s)) =
      { configAnswered tag new s with dtu := reconfiguredUnit new s.clock s.dtu } := by
  rw [reconfigure_eq, respond_withDrums, abandonedCount_eq, countTake_dtu, countTake_clock]
  rfl

section

variable {tag : Byte} {rRef : Long} {nRef interval hot : Word} {enable : Byte} {s : State} (hm : s.mem.wf = true)
  (hr : Ready (.setDrumConfig tag rRef nRef interval hot enable) s)

include hm hr

theorem setDrumConfig_outOfRange (h : ¬DrumConfigInRange rRef nRef interval hot enable) :
    AnsweredAtOnce (.setDrumConfig tag rRef nRef interval hot enable) s s 0x40 tag .refusedRange
      (drumConfigResult s.dtu.config 0) := by
  refine answered rfl hm hr rfl ?_
  simp only [carrySetDrumConfig, drumFields_eq_none h, countTake_dtu]
  rw [← countTake_eq]

/-- An accepted request leaves the unit reconfigured, a measurement started where one may, and the rows it changed shown. -/
theorem setDrumConfig_accepted (h : DrumConfigInRange rRef nRef interval hot enable) {new : DrumConfig}
    (hnew : new = drumConfigGiven rRef nRef interval hot enable) {settled u : DrumUnit} {answered : State}
    (hsettled : settled = reconfiguredUnit new s.clock s.dtu) (hu : u = started s.smn.cls s.clock settled)
    (hanswered : answered = configAnswered tag new s) :
    ∃ mem, exec (.setDrumConfig tag rRef nRef interval hot enable) s = .next { answered with dtu := u, mem := mem } ∧
      KeepsOutside [(0x380, 96)] answered.mem mem ∧
      ((∃ d, rowFlags u d ≠ rowFlags s.dtu d) → ShowsDrums u s.clock (begins s.smn.cls settled) s.mem mem) ∧
      ((∀ d, rowFlags u d = rowFlags s.dtu d) →
        ShowsBegun u s.clock (begins s.smn.cls settled) s.mem mem ∧
        KeepsOutside (begunRow (begins s.smn.cls settled)) answered.mem mem) := by
  obtain ⟨hwf, hrows⟩ := configAnswered_drumRow tag new hm
  have hclock : (configAnswered tag new s).clock = s.clock :=
    (configAnswered_keeps State.clock (fun _ _ _ _ _ => respond_clock ..) tag new s).trans (countTake_clock s)
  have hsmn : (configAnswered tag new s).smn = s.smn :=
    (configAnswered_keeps State.smn (fun _ _ _ _ _ => respond_smn ..) tag new s).trans (countTake_smn s)
  have hstart : startIfAllowed (respond 0x40 tag .done (drumConfigResult new (abandonedCount new (countTake s).dtu))
      (reconfigure new (countTake s))) = startIfAllowed { answered with dtu := settled } := by
    rw [respond_reconfigure, hanswered, hsettled]
  rw [← hanswered] at hwf hrows hclock hsmn
  obtain ⟨mem, hnext, hkept, hchanged, hsame⟩ := drumEvent_start_stored (v := countTake s)
    (f := fun v => startIfAllowed (respond 0x40 tag .done (drumConfigResult new (abandonedCount new (countTake s).dtu))
      (reconfigure new v))) hwf hstart
  rw [hclock, hsmn, ← hu, countTake_dtu] at hchanged hsame
  have hunit : started answered.smn.cls answered.clock settled = u := by rw [hclock, hsmn, hu]
  rw [hunit] at hnext
  refine ⟨mem, ?_, hkept, fun h => (hchanged h).from hrows, fun h => ⟨(hsame h).1.from hrows, (hsame h).2⟩⟩
  have hcarried : carryRequest (.setDrumConfig tag rRef nRef interval hot enable) (countTake s) =
      { answered with dtu := u, mem := mem } := by
    rw [← hnext]
    simp only [carryRequest, carrySetDrumConfig, drumFields_of_inRange h, ← hnew]
  exact (exec_of_ready rfl hr).trans (congrArg _ hcarried)

end

/-- Settles O40: the steps of an accepted configuration in order, or its refusal. -/
theorem setDrumConfig : Obligations.SetDrumConfig := by
  intro tag rRef nRef interval hot enable s hm hr i inRange new shown
  refine ⟨setDrumConfig_outOfRange hm hr, fun h => ?_⟩
  intro flying stays abandoned answers answered kept
  have hdrums : (six fun d => clearLeaver s.dtu.config.enabled new.enabled s.clock d s.dtu.drums[d]) = six kept :=
    congrArg six (funext fun d => clearLeaver_eq ..)
  have htimer : (if new.interval = 0 then none else some (s.clock + new.interval * 4000)) =
      if interval = 0 then none else some (s.clock + interval.toNat * 4000) :=
    if_congr (toNat_eq_zero_iff interval) rfl rfl
  have hunit : reconfiguredUnit new s.clock s.dtu = { s.dtu with
      config := new, queue := s.dtu.queue.filter stays, inFlight := none, hottest := hottestOf (six kept)
      drums := six kept
      scanTimer := if interval = 0 then none else some (s.clock + interval.toNat * 4000) } := by
    rw [← hdrums, ← htimer]
    rfl
  obtain ⟨mem, hnext⟩ := setDrumConfig_accepted hm hr h (new := new) rfl hunit.symm rfl (answered := answered) rfl
  exact ⟨_, _, _, mem, hottestOf_hottest (six kept), rfl, rfl, hnext⟩

end Sys2Proof.Machine
end

