-- ==== Sys2Proof/Proofs/MeasurementEnds.lean ====
section
/-! SUPPORT. The ends of a measurement's phases: the completion with its events, answers and row, and the results of the SENSOR
phase (R117 to R120, R124 to R127, R130). -/

namespace Sys2Proof.Machine

/-! ### The completion's events (R125, R126) -/

/-- A result that carries a temperature is VALID or CLAMPED (R120). -/
def TemperatureCounts (r : DrumResult) (t : Option Int) : Prop := t.isSome = true → r.measured = true

/-- The hot mark after a result, which no result without a temperature changes. -/
theorem hotAfter_eq (r : DrumResult) (t : Option Int) (mark : Bool) (hot : Int) :
    TemperatureCounts r t → hotAfter mark hot r t =
      match t with
      | none => mark
      | some v => if mark then decide (hot - 20 < v) else decide (hot ≤ v) := by
  intro h
  cases t with
  | none => simp [hotAfter]
  | some v => simp only [hotAfter, h rfl]

theorem sensorEvent_eq (d : Fin 6) (old new : DrumResult) (n : Nat) (s : State) :
    sensorEvent d old new n s =
      reportAll (if new.Fault ∧ ¬old.Fault then
        [(EventKind.drumSensor, BitVec.ofNat 8 d, (new.code.toNat : Int), (n : Int))] else []) s := by
  have hiff : (new.isFault && !old.isFault) = true ↔ new.Fault ∧ ¬old.Fault := by
    rw [Bool.and_eq_true, Bool.not_eq_true', ← isFault_iff_fault, ← isFault_iff_fault, Bool.not_eq_true]
  unfold sensorEvent
  by_cases h : new.Fault ∧ ¬old.Fault
  · rw [if_pos h, if_pos (hiff.2 h)]
    rfl
  · rw [if_neg h, if_neg (mt hiff.1 h)]
    rfl

/-- The events of a change of the hot mark at a result. -/
def hotReports (d : Fin 6) (mark : Bool) (hot : Int) (t : Option Int) : List Report :=
  match t with
  | none => []
  | some v =>
    if mark = false ∧ hot ≤ v then [(EventKind.drumHot, BitVec.ofNat 8 d, v, hot)]
    else if mark = true ∧ v ≤ hot - 20 then [(EventKind.drumCool, BitVec.ofNat 8 d, v, hot)]
    else []

theorem hotEvent_eq {r : DrumResult} {t : Option Int} (h : TemperatureCounts r t) (d : Fin 6) (mark : Bool) (hot : Int)
    (s : State) :
    hotEvent d mark (hotAfter mark hot r t) t hot s = reportAll (hotReports d mark hot t) s := by
  rw [hotAfter_eq r t mark hot h]
  unfold hotEvent hotReports
  cases t with
  | none => cases mark <;> rfl
  | some v =>
    cases mark with
    | false =>
      by_cases hv : hot ≤ v
      · simp [hv, reportAll]
      · simp [hv, reportAll]
    | true =>
      by_cases hv : hot - 20 < v
      · simp [hv, reportAll, Int.not_le.2 hv]
      · simp [hv, reportAll, Int.not_lt.1 hv]

theorem completionRaised_eq {m : Measurement} {r : DrumResult} {t : Option Int} (h : TemperatureCounts r t) (n : Nat)
    (s : State) :
    completionRaised m r t n s =
      reportAll (completionReports m.drum s.dtu.drums[m.drum] s.dtu.config.hot r t n) s := by
  simp only [completionRaised, hotEvent_eq h, sensorEvent_eq]
  exact (reportAll_append ..).symm

/-! ### What events and answers leave of the rows -/

/-- The state in which a completion's events and answers have been handed over. -/
def completionAnswered (m : Measurement) (r : DrumResult) (result : List Byte) (t : Option Int) (n : Nat) (s : State) :
    State :=
  m.tags.foldl (fun u tag => respond 0x42 tag (if r.Fault then Status.sensorFault else .done) result u)
    (reportAll (completionReports m.drum s.dtu.drums[m.drum] s.dtu.config.hot r t n) s)

theorem answerTags_drumRow (status : Status) (result : List Byte) (tags : List Byte) {s : State} (hm : s.mem.wf = true) :
    ∀ d, (answerTags status result tags s).mem.word (drumRowAt d) = s.mem.word (drumRowAt d) := by
  unfold answerTags
  induction tags generalizing s with
  | nil => exact fun _ => rfl
  | cons tag tags ih => exact fun d => (ih (respond_wf _ _ _ _ hm) d).trans (respond_drumRow _ _ _ _ hm d)

theorem completionAnswered_eq_answerTags (m : Measurement) (r : DrumResult) (result : List Byte) (t : Option Int) (n : Nat)
    (s : State) :
    completionAnswered m r result t n s =
      answerTags (if r.Fault then Status.sensorFault else .done) result m.tags
        (reportAll (completionReports m.drum s.dtu.drums[m.drum] s.dtu.config.hot r t n) s) := rfl

/-- Events and answers keep the memory's form and the rows' editions. -/
theorem completionAnswered_drumRow (m : Measurement) (r : DrumResult) (result : List Byte) (t : Option Int) (n : Nat)
    {s : State} (hm : s.mem.wf = true) :
    (completionAnswered m r result t n s).mem.wf = true ∧
      ∀ d, (completionAnswered m r result t n s).mem.word (drumRowAt d) = s.mem.word (drumRowAt d) := by
  have hreported := reportAll_wf (completionReports m.drum s.dtu.drums[m.drum] s.dtu.config.hot r t n) hm
  rw [completionAnswered_eq_answerTags]
  refine ⟨answerTags_wf _ _ _ hreported, fun d => (answerTags_drumRow _ _ _ hreported d).trans ?_⟩
  exact drumRow_word_congr (fun _ _ _ => reportAll_read_below _ hm (by omega)) d

theorem completionAnswered_keeps {α : Type} (g : State → α)
    (hr : ∀ kind tag status result u, g (respond kind tag status result u) = g u)
    (he : ∀ kind subject v1 v2 u, g (raiseEvent kind subject v1 v2 u) = g u) (m : Measurement) (r : DrumResult)
    (result : List Byte) (t : Option Int) (n : Nat) (s : State) : g (completionAnswered m r result t n s) = g s := by
  rw [completionAnswered_eq_answerTags, answerTags_keeps g hr, reportAll_keeps g he]

/-- They change the lanes and the memory alone. -/
theorem completionAnswered_eq_mem (m : Measurement) (r : DrumResult) (result : List Byte) (t : Option Int) (n : Nat)
    (s : State) :
    completionAnswered m r result t n s =
      { s with
        lnc := (completionAnswered m r result t n s).lnc, mem := (completionAnswered m r result t n s).mem } := by
  apply State.eq_with_lanes <;>
    exact completionAnswered_keeps _ (fun _ _ _ _ _ => by simp) (fun _ _ _ _ _ => by simp) m r result t n s

theorem reportAll_withDrums (l : List Report) (s : State) (u : DrumUnit) :
    reportAll l { s with dtu := u } = { reportAll l s with dtu := u } :=
  withDrums_of_alike (fun _ _ h => reportAll_alike h l) (reportAll_eq l) s u

/-- A completion's events and answers, whatever the counter stands at. -/
theorem completionReported_eq {m : Measurement} {r : DrumResult} {t : Option Int} (h : TemperatureCounts r t)
    (resistance n : Nat) (counter : BitVec 20) (s : State) (u : DrumUnit) :
    { completionReported m r resistance t n { s with dtu := { s.dtu with counter := counter } } with dtu := u } =
      { completionAnswered m r (completionBytes m r resistance t s.dtu) t n s with dtu := u } := by
  have hstatus : (if r.isFault then Status.sensorFault else .done) = if r.Fault then Status.sensorFault else .done :=
    if_congr (isFault_iff_fault r) rfl rfl
  have hunit : completionReported m r resistance t n { s with dtu := { s.dtu with counter := counter } } =
      { completionAnswered m r (completionBytes m r resistance t s.dtu) t n s with
        dtu := { s.dtu with counter := counter } } := by
    rw [completionReported, hstatus, completionRaised_eq h, completionAnswered_eq_answerTags, ← answerTags_withDrums,
      ← reportAll_withDrums]
    rfl
  rw [hunit]

/-! ### The row of a completion and the next start (R116, R130) -/

theorem begins_ne {cls : SupplyClass} {u : DrumUnit} {d : Fin 6} (h : ∀ e ∈ u.queue, e.drum ≠ d) :
    begins cls u ≠ some d := by
  rcases started_cases cls 0 u with ⟨hnone, -⟩ | ⟨e, rest, -, -, hq, hbegun, -⟩
  · rw [hnone]
    nofun
  · rw [hbegun]
    exact fun heq => h e (by rw [hq]; exact List.mem_cons_self) (Option.some.inj heq)

/-- One row rewritten, and then that of another drum where its measurement starts. -/
theorem rewriteDrum_startIfAllowed_stored {a : State} {d : Fin 6} (hm : a.mem.wf = true)
    (h : ∀ e ∈ a.dtu.queue, e.drum ≠ d) :
    ∃ mem, startIfAllowed (rewriteDrum d a) = { a with dtu := started a.smn.cls a.clock a.dtu, mem := mem } ∧
      KeepsOutside ((drumRowAt d, 16) :: begunRow (begins a.smn.cls a.dtu)) a.mem mem ∧
      ShowsBegun (started a.smn.cls a.clock a.dtu) a.clock (begins a.smn.cls a.dtu) a.mem mem ∧
      mem.word (drumRowAt d) = a.mem.word (drumRowAt d) + 2 ∧
      HoldsAt mem (drumRowAt d + 2) (drumRowBytes a.dtu a.clock d) := by
  have hrow (x : Nat) := rewriteDrum_outside d hm (a := x)
  obtain ⟨hword, hholds⟩ := rewriteDrum_stored d hm
  obtain ⟨hbegun, hkept⟩ := startIfAllowed_stored (rewriteDrum_wf d hm)
  have hne := begins_ne (cls := a.smn.cls) h
  have heq := startIfAllowed_eq_mem (rewriteDrum d a)
  simp only [rewriteDrum_smn, rewriteDrum_clock, rewriteDrum_dtu] at hbegun hkept heq
  have hfirst {x : Nat} (hlo : drumRowAt d ≤ x) (hhi : x < drumRowAt d + 16) :
      (startIfAllowed (rewriteDrum d a)).mem.read x = (rewriteDrum d a).mem.read x := by
    refine hkept x fun span hspan => ?_
    obtain ⟨e, he, rfl⟩ := List.mem_map.1 hspan
    have hapart := drumRows_apart (d := d) (e := e) fun hde => hne (by rw [hde]; exact Option.mem_toList.1 he)
    dsimp only
    omega
  refine ⟨(startIfAllowed (rewriteDrum d a)).mem, ?_, fun x hx => ?_, fun e he => ?_, ?_, ?_⟩
  · rw [heq, rewriteDrum_eq_mem]
  · rw [List.forall_mem_cons] at hx
    exact (hkept x hx.2).trans (hrow x hx.1)
  · have hapart := drumRows_apart (d := d) (e := e) fun hde => hne (by rw [hde]; exact he)
    rw [(hbegun e he).1, Memory.word_congr (hrow _ (by omega)) (hrow _ (by omega))]
    exact ⟨rfl, (hbegun e he).2⟩
  · rw [Memory.word_congr (hfirst le_rfl (by omega)) (hfirst (by omega) (by omega)), hword]
  · refine hholds.of_read_eq fun x hlo hhi => hfirst (by omega) ?_
    rw [drumRowBytes_length] at hhi
    omega

/-! ### The completion (R124) -/

/-- The row of a drum whose result has just come: its age is 0 (R130). -/
theorem drumRowBytes_completed {u : DrumUnit} {d : Fin 6} {y : Drum} (clock : Nat) (hy : u.drums[d] = y)
    (hage : y.ageFrom = some clock) :
    drumRowBytes u clock d =
      [y.result.code, rowFlags u d] ++ le32 (BitVec.ofNat 32 y.resistance) ++ le32 (BitVec.ofNat 32 y.nSens)
        ++ le16 (temperatureWord y.temperature) ++ [0, 0] := by
  simp only [drumRowBytes, hy, hage, Option.map_some, Option.getD_some, Nat.sub_self, Nat.zero_div, Nat.min_zero]
  rfl

/-- A completion is the one the rules give, its drum's row rewritten once and that of the next drum once. -/
theorem completes_of_exec {i : Instr} {s : State} {m : Measurement} {counter : BitVec 20} {r : DrumResult}
    {resistance : Nat} {t : Option Int} {n : Nat} (hm : s.mem.wf = true) (hs : DrumsSound s)
    (hflying : s.dtu.inFlight = some m) (ht : TemperatureCounts r t)
    (hexec : exec i s =
      .next (completeMeasurement m r resistance t n { s with dtu := { s.dtu with counter := counter } })) :
    Completes i s m counter r resistance t n := by
  unfold Completes
  intro x limit hot y result status reported begun
  have hhot : hotAfter x.hot limit r t = hot := hotAfter_eq r t x.hot limit ht
  have hbytes : completionBytes m r resistance t s.dtu = result := by
    rw [completionBytes, hhot]
    rfl
  have hdrum : completedDrum m r resistance t n s.clock s.dtu = y := by
    rw [completedDrum, hhot]
  let unit : DrumUnit := { s.dtu with
    drums := s.dtu.drums.set m.drum y, hottest := hottestOf (s.dtu.drums.set m.drum y), counter := counter, inFlight := none }
  have hunit : completedUnit m r resistance t n s.clock { s.dtu with counter := counter } = unit := by
    simp only [unit]
    rw [← hdrum]
    rfl
  have hreported : reported = completionAnswered m r (completionBytes m r resistance t s.dtu) t n s := by
    rw [hbytes]
    rfl
  have hcompleted : completeMeasurement m r resistance t n { s with dtu := { s.dtu with counter := counter } } =
      startIfAllowed (rewriteDrum m.drum { reported with dtu := unit }) := by
    rw [completeMeasurement_eq, completionReported_eq ht, hreported, hunit]
  obtain ⟨hwf, hrows⟩ := completionAnswered_drumRow m r (completionBytes m r resistance t s.dtu) t n hm
  have hclock := completionAnswered_keeps State.clock (fun _ _ _ _ _ => respond_clock ..) (fun _ _ _ _ _ => raiseEvent_clock ..)
    m r (completionBytes m r resistance t s.dtu) t n s
  have hsmn := completionAnswered_keeps State.smn (fun _ _ _ _ _ => respond_smn ..) (fun _ _ _ _ _ => raiseEvent_smn ..)
    m r (completionBytes m r resistance t s.dtu) t n s
  have hmem := completionAnswered_eq_mem m r (completionBytes m r resistance t s.dtu) t n s
  rw [← hreported] at hwf hrows hclock hsmn hmem
  obtain ⟨hother, -, -⟩ := hs.flying m hflying
  obtain ⟨mem, hnext, hkept, hshown, hword, hholds⟩ :=
    rewriteDrum_startIfAllowed_stored (a := { reported with dtu := unit }) (d := m.drum) hwf hother
  simp only [hclock, hsmn] at hkept hshown hholds
  have hfields : ({ reported with dtu := started reported.smn.cls reported.clock unit, mem := mem } : State) =
      { s with dtu := started s.smn.cls s.clock unit, lnc := reported.lnc, mem := mem } := by
    have hstarted : started reported.smn.cls reported.clock unit = started s.smn.cls s.clock unit := by rw [hclock, hsmn]
    rw [hstarted]
    exact congrArg (fun v : State => { v with dtu := started s.smn.cls s.clock unit, mem := mem }) hmem
  refine ⟨_, _, mem, hottestOf_hottest _, rfl, ?_, hkept, hshown.from hrows, ?_, ?_⟩
  · rw [hexec, hcompleted, hnext, hfields]
  · rw [hword, hrows]
  · rw [drumRowBytes_completed s.clock (u := unit) (y := y) (Vector.getElem_set_self m.drum.isLt) rfl] at hholds
    exact hholds

end Sys2Proof.Machine
end

