-- ==== Sys2Proof/Proofs/MeasurementPhases.lean ====
section
/-! SUPPORT. The commands that end a measurement's phases, and the temperature of a resistance (R117 to R120). -/

namespace Sys2Proof.Machine

/-! ### The temperature on the curve (R120) -/

/-- The lowest segment that holds a resistance gives its temperature. -/
theorem onSegments_of_lowest {r : Nat} {l : List CurvePoint} {k : Nat} (hk : k + 1 < l.length)
    (hlo : l[k].resistance ≤ r) (hhi : r ≤ l[k + 1].resistance)
    (hlowest : ∀ j, ∀ hj : j < k, ¬(l[j].resistance ≤ r ∧ r ≤ l[j + 1].resistance)) :
    onSegments r l = some (interpolate l[k] l[k + 1] r) := by
  induction l generalizing k with
  | nil => exact absurd hk (Nat.not_lt_zero _)
  | cons a l ih =>
    cases l with
    | nil => exact absurd hk (by simp)
    | cons b l =>
      cases k with
      | zero => exact if_pos ⟨hlo, hhi⟩
      | succ k =>
        have hfirst : ¬(a.resistance ≤ r ∧ r ≤ b.resistance) := hlowest 0 (Nat.succ_pos k)
        rw [onSegments, if_neg hfirst]
        exact ih (Nat.lt_of_succ_lt_succ hk) hlo hhi fun j hj => hlowest (j + 1) (Nat.succ_lt_succ hj)

section

variable {p : Vector CurvePoint 9} {r : Nat}

theorem convert_below (h : r < p[0].resistance) : convert (some p) r = (.clamped, some p[0].temperature) := if_pos h

theorem convert_above (h0 : p[0].resistance ≤ r) (h : p[8].resistance < r) :
    convert (some p) r = (.clamped, some p[8].temperature) :=
  (if_neg (Nat.not_lt.2 h0)).trans (if_pos h)

theorem convert_within (h0 : p[0].resistance ≤ r) (h8 : r ≤ p[8].resistance) (k : Fin 8)
    (hlo : p[k.val].resistance ≤ r) (hhi : r ≤ p[k.val + 1].resistance)
    (hlowest : ∀ j : Fin 8, j < k → ¬(p[j.val].resistance ≤ r ∧ r ≤ p[j.val + 1].resistance)) :
    convert (some p) r = (.valid, some (interpolate p[k.val] p[k.val + 1] r)) := by
  have hsegment : onSegments r p.toList = some (interpolate p[k.val] p[k.val + 1] r) := by
    refine onSegments_of_lowest (k := k) (by rw [Vector.length_toList]; omega) hlo hhi fun j hj => ?_
    exact hlowest ⟨j, by omega⟩ hj
  rw [← hsegment]
  exact (if_neg (Nat.not_lt.2 h0)).trans (if_neg (Nat.not_lt.2 h8))

end

/-! ### The phases' ends (R117, R118) -/

section

variable {s : State} (h : s.held = none)

include h

theorem exec_reference_idle (hnone : s.dtu.inFlight = none) :
    exec .referenceOverflow s = .next s ∧ exec .referenceTimeout s = .next s := by
  simp only [exec, execReferenceOverflow, execReferenceTimeout, whenRunning_of_not_held h, hnone, and_self]

variable {m : Measurement} (hm : s.dtu.inFlight = some m)

include hm

theorem exec_referenceOverflow :
    exec .referenceOverflow s = .next (if m.phase = .reference then overflowReference m s else s) := by
  simp only [exec, execReferenceOverflow, whenRunning_of_not_held h, hm]

theorem exec_referenceTimeout :
    exec .referenceTimeout s =
      .next (if m.phase = .reference ∧ referenceOver m s then completeFault m .refFault 0 s else s) := by
  simp only [exec, execReferenceTimeout, whenRunning_of_not_held h, hm]

theorem exec_sensorPhaseEnd (count : BitVec 20) :
    exec (.sensorPhaseEnd count) s =
      .next (if m.phase = .sensor ∧ s.dtu.timeBase = 0 then endSensor m { s with dtu := { s.dtu with counter := count } }
        else s) := by
  simp only [exec, execSensorPhaseEnd, whenRunning_of_not_held h, hm]

theorem exec_sensorOverflow : exec .sensorOverflow s = .next (if m.phase = .sensor then endShort m s else s) := by
  simp only [exec, execSensorOverflow, whenRunning_of_not_held h, hm]

end

/-- No temperature needs no result that carries one. -/
theorem TemperatureCounts.none (r : DrumResult) : TemperatureCounts r none := nofun

/-- Settles O36: an overflow ends the REFERENCE phase, and the time base's return to 0 fails it. -/
theorem referencePhase : Obligations.ReferencePhase := by
  intro s h hwf hs
  refine ⟨exec_reference_idle h, fun m hm => ?_⟩
  have hoverflow := exec_referenceOverflow h hm
  have htimeout := exec_referenceTimeout h hm
  refine ⟨fun hphase => ?_, fun hphase hbase => ?_, fun hphase hbase hsince => ?_, fun hphase hbase hsince => ?_⟩
  · have hnot : m.phase ≠ .reference := by rw [hphase]; decide
    rw [hoverflow, htimeout, if_neg hnot, if_neg fun hboth => hnot hboth.1]
    exact ⟨rfl, rfl⟩
  · have hrunning : referenceOver m s = false := by rw [referenceOver, beq_false_of_ne hbase, Bool.false_and]
    rw [hoverflow, htimeout, if_pos hphase, overflowReference, hrunning, if_neg Bool.false_ne_true, if_neg hbase,
      if_neg fun hboth => Bool.false_ne_true hboth.2]
    exact ⟨rfl, rfl⟩
  · have hover : referenceOver m s = true := by rw [referenceOver, hbase, decide_eq_true hsince]; rfl
    rw [if_pos hphase, overflowReference, if_pos hover] at hoverflow
    rw [if_pos ⟨hphase, hover⟩] at htimeout
    exact ⟨completes_of_exec hwf hs hm (.none _) hoverflow, completes_of_exec hwf hs hm (.none _) htimeout⟩
  · have hstart : referenceOver m s = false := by
      rw [referenceOver, decide_eq_false (Nat.not_lt.2 hsince), Bool.and_false]
    rw [hoverflow, htimeout, if_pos hphase, overflowReference, hstart, if_neg Bool.false_ne_true, if_pos hbase,
      if_neg fun hboth => Bool.false_ne_true hboth.2]
    exact ⟨rfl, rfl⟩

/-- Settles O37: a count gives its result by the resistance and the curve, an overflow SHORT. -/
theorem sensorPhase : Obligations.SensorPhase := by
  intro count s m n h hwf hs hm hn
  subst hn
  intro r gives
  have hend := exec_sensorPhaseEnd h hm count
  have hoverflow := exec_sensorOverflow h hm
  have hcomplete {i : Instr} {counter : BitVec 20} {result : DrumResult} {resistance : Nat} {t : Option Int} {k : Nat}
      (ht : TemperatureCounts result t) (hexec : exec i s = .next
        (completeMeasurement m result resistance t k { s with dtu := { s.dtu with counter := counter } })) :
      Completes i s m counter result resistance t k := completes_of_exec hwf hs hm ht hexec
  refine ⟨fun hphase => ?_, fun hphase hbase => ?_, fun hphase => ?_, fun hphase hbase hwaits => ?_,
    fun hphase hbase hwaits => ?_⟩
  · have hnot : m.phase ≠ .sensor := by rw [hphase]; decide
    rw [hend, hoverflow, if_neg hnot, if_neg fun hboth => hnot hboth.1]
    exact ⟨rfl, rfl⟩
  · rw [hend, if_neg fun hboth => hbase hboth.2]
  · rw [if_pos hphase] at hoverflow
    exact hcomplete (.none _) hoverflow
  · have hshort : overflowWaits { s with dtu := { s.dtu with counter := count } } = true :=
      List.contains_iff_mem.2 hwaits
    rw [if_pos ⟨hphase, hbase⟩, endSensor, if_pos hshort] at hend
    exact hcomplete (.none _) hend
  · have hcounted : ¬overflowWaits { s with dtu := { s.dtu with counter := count } } = true :=
      fun hin => hwaits (List.contains_iff_mem.1 hin)
    rw [if_pos ⟨hphase, hbase⟩, endSensor, if_neg hcounted] at hend
    have hmeasured (hclosed : 16 ≤ count.toNat) : exec (.sensorPhaseEnd count) s =
        .next (completeMeasurement m (convert s.dtu.curve r).1 r (convert s.dtu.curve r).2 count.toNat
          { s with dtu := { s.dtu with counter := count } }) :=
      hend.trans (congrArg _ (if_neg (Nat.not_lt.2 hclosed)))
    refine ⟨fun hopen => ?_, fun hclosed hcurve => ?_, fun p hclosed hcurve => ?_⟩
    · rw [if_pos hopen] at hend
      exact hcomplete (.none _) hend
    · have hconvert := hmeasured hclosed
      rw [hcurve] at hconvert
      exact hcomplete (.none _) hconvert
    · have hconvert := hmeasured hclosed
      rw [hcurve] at hconvert
      refine ⟨fun hbelow => ?_, fun h0 habove => ?_, fun k h0 h8 hlo hhi hlowest => ?_⟩
      · rw [convert_below hbelow] at hconvert
        exact hcomplete (fun _ => rfl) hconvert
      · rw [convert_above h0 habove] at hconvert
        exact hcomplete (fun _ => rfl) hconvert
      · rw [convert_within h0 h8 k hlo hhi hlowest] at hconvert
        exact hcomplete (fun _ => rfl) hconvert

end Sys2Proof.Machine
end

