-- ==== Sys2Proof/Proofs/BetterClose.lean ====
section
/-! SUPPORT. A window close at which the class changes to LOW or NORMAL: its event, the measurement that may start, and what the
status block shows (R128, R139, R141, R152, R154). -/

namespace Sys2Proof.Machine

/-! ### The window's close (R134, R136 to R139) -/

/-- The minimum of a window into which a last sample is taken. -/
def windowMinimum (u : SupplyMonitor) (mV : Nat) : Nat := (u.minimum.map (min · mV)).getD mV

/-- The monitor at a window close with its minimum, the class not yet changed (R136). -/
def closedMonitor (u : SupplyMonitor) (m : Nat) : SupplyMonitor :=
  { enterCriteria u with firstClose := false, lastMinimum := m, count := 0, minimum := none }

/-- The tenth sample closes its window. -/
theorem takeSample_of_last {mV : Nat} {s : State} (h : 9 ≤ s.smn.count) :
    takeSample mV s = closeWindow (windowMinimum s.smn mV) s := by
  rw [takeSample, if_neg (by omega), windowMinimum]
  cases s.smn.minimum <;> rfl

/-- A close that keeps the class shows the minimum alone; another changes the class. -/
theorem closeWindow_cases (m : Nat) (s : State) :
    (closeWindow m s = supplyStatus { s with smn := closedMonitor s.smn m }) ∨
    ∃ new, new ≠ s.smn.cls ∧
      closeWindow m s = supplyStatus (retarderEvent (changeClass new m) { s with smn := closedMonitor s.smn m }) := by
  by_cases h : decidedClass (enterCriteria s.smn) m = s.smn.cls
  · exact .inl (congrArg supplyStatus (if_pos h))
  · exact .inr ⟨_, h, congrArg supplyStatus (if_neg h)⟩

/-! ### The start of a measurement that waited for the class (R128) -/

/-- The start of a waiting measurement where the class leaves CRITICAL. -/
def startAfter (before : SupplyClass) (s : State) : State := if before = .critical then startIfAllowed s else s

/-- The unit after it. -/
def unitAfter (before new : SupplyClass) (clock : Nat) (u : DrumUnit) : DrumUnit :=
  if before = .critical then started new clock u else u

/-- The drum it starts. -/
def begunAfter (before new : SupplyClass) (u : DrumUnit) : Option (Fin 6) :=
  if before = .critical then begins new u else none

theorem startAfter_eq_mem (before : SupplyClass) (s : State) :
    startAfter before s =
      { s with dtu := unitAfter before s.smn.cls s.clock s.dtu, mem := (startAfter before s).mem } := by
  unfold startAfter unitAfter
  split_ifs
  · exact startIfAllowed_eq_mem s
  · rfl

theorem startAfter_stored (before : SupplyClass) {s : State} (hm : s.mem.wf = true) :
    (startAfter before s).mem.wf = true ∧
      ShowsBegun (unitAfter before s.smn.cls s.clock s.dtu) s.clock (begunAfter before s.smn.cls s.dtu) s.mem
        (startAfter before s).mem ∧
      KeepsOutside (begunRow (begunAfter before s.smn.cls s.dtu)) s.mem (startAfter before s).mem := by
  unfold startAfter unitAfter begunAfter
  split_ifs
  · exact ⟨startIfAllowed_mem_wf hm, startIfAllowed_stored hm⟩
  · exact ⟨hm, nofun, fun _ _ => rfl⟩

/-! ### The class change (R139) -/

/-- The state in which the new class is named and its event handed over. -/
def classReported (new : SupplyClass) (m : Nat) (s : State) : State :=
  raiseEvent .supplyClass new.code m s.smn.cls.code.toNat { s with smn := { s.smn with cls := new } }

/-- A change to LOW or NORMAL: the event, the start, and the formation of the allowed stage. -/
theorem changeClass_better {new : SupplyClass} (h : new ≠ .critical) (m : Nat) (s : State) :
    changeClass new m s = formAllowed (startAfter s.smn.cls (classReported new m s)) := by
  simp only [changeClass, if_neg h]
  rfl

theorem reactCritical_smn (s : State) : (reactCritical s).smn = s.smn := by
  rw [reactCritical, formCut_smn, forEach_keeps State.smn channelCritical_smn, regulatorCritical]
  split_ifs <;> simp [regulatorStatus]

/-- A change to any class names it. -/
theorem changeClass_cls (new : SupplyClass) (m : Nat) (s : State) : (changeClass new m s).smn.cls = new := by
  have hstart (u : State) : (if s.smn.cls = .critical then startIfAllowed u else u).smn = u.smn := by
    split_ifs
    · rw [startIfAllowed_eq_mem]
    · rfl
  have hreact (u : State) : (if new = .critical then reactCritical u else u).smn = u.smn := by
    split_ifs
    · exact reactCritical_smn u
    · rfl
  simp only [changeClass, formAllowed_smn, hstart, hreact, raiseEvent_smn]

/-- The supply fields shown behind a class change (R141). -/
def closedFields (u : SupplyMonitor) : List (Nat × List Byte) :=
  [(26, [u.cls.code]), (28, le16 (BitVec.ofNat 16 u.lastMinimum))]

theorem supplyStatus_eq (s : State) : supplyStatus s = rewriteStatus (closedFields s.smn) s := rfl

theorem retarderEvent_eq_mem (f : State → State) (s : State) :
    retarderEvent f s = { f s with mem := (retarderEvent f s).mem } := by
  simp only [retarderEvent]
  split_ifs
  · rfl
  · exact rewriteStatus_eq ..

/-- The monitor and the arbiter as they stand when the class is named. -/
def closedState (m : Nat) (s : State) : State :=
  { s with pcu := granted s.clock s.pcu, smn := closedMonitor s.smn m }

/-- The frame handed over is that of the class change on the state before the close. -/
theorem classReported_alike (new : SupplyClass) (m : Nat) (s : State) :
    Alike (classReported new m (closedState m s)) (raiseEvent .supplyClass new.code m s.smn.cls.code.toNat s) := by
  have halike : Alike { closedState m s with smn := { (closedState m s).smn with cls := new } } s := ⟨rfl, rfl, rfl⟩
  exact halike.raiseEvent ..

/-- Everything but the memory after a close to LOW or NORMAL. -/
theorem better_eq {new : SupplyClass} (h : new ≠ .critical) (m : Nat) (s : State) :
    ∃ mem, supplyStatus (retarderEvent (changeClass new m) (closedState m s)) =
      { s with
        pcu := granted s.clock s.pcu, smn := { closedMonitor s.smn m with cls := new }, mem := mem
        dtu := unitAfter s.smn.cls new s.clock s.dtu
        rbu := formedRetarder { s with
          pcu := granted s.clock s.pcu, smn := { closedMonitor s.smn m with cls := new }
          dtu := unitAfter s.smn.cls new s.clock s.dtu }
        lnc := (raiseEvent .supplyClass new.code m s.smn.cls.code.toNat s).lnc } := by
  have hreported : classReported new m (closedState m s) =
      { s with
        pcu := granted s.clock s.pcu, smn := { closedMonitor s.smn m with cls := new }
        lnc := (raiseEvent .supplyClass new.code m s.smn.cls.code.toNat s).lnc
        mem := (classReported new m (closedState m s)).mem } := by
    rw [← (classReported_alike new m s).lnc]
    exact raiseEvent_eq ..
  refine ⟨(supplyStatus (retarderEvent (changeClass new m) (closedState m s))).mem, ?_⟩
  rw [supplyStatus_eq, rewriteStatus_eq, retarderEvent_eq_mem, changeClass_better h, formAllowed_eq_formed,
    startAfter_eq_mem, hreported]
  rfl

theorem better_event_smn {new : SupplyClass} (h : new ≠ .critical) (m : Nat) (s : State) :
    (retarderEvent (changeClass new m) (closedState m s)).smn = { closedMonitor s.smn m with cls := new } := by
  rw [retarderEvent_smn, changeClass_better h, formAllowed_smn, startAfter_eq_mem]
  exact raiseEvent_smn ..

theorem better_event_clock {new : SupplyClass} (h : new ≠ .critical) (m : Nat) (s : State) :
    (retarderEvent (changeClass new m) (closedState m s)).clock = s.clock := by
  rw [retarderEvent_clock, changeClass_better h, formAllowed_clock, startAfter_eq_mem]
  exact raiseEvent_clock ..

/-! ### The memory after a close to LOW or NORMAL (R130, R141, R154) -/

/-- What the status block's rewrites at a close change. -/
def closeSpans : List (Nat × Nat) := [(0x40, 2), (0x5A, 1), (0x5C, 2), (0x5E, 4), (0x64, 4)]

theorem ShowsBegun.to {u : DrumUnit} {clock : Nat} {begun : Option (Fin 6)} {m k t : Memory} (h : ShowsBegun u clock begun m k)
    (heq : ∀ a, 0x380 ≤ a → a < 0x3E0 → t.read a = k.read a) : ShowsBegun u clock begun m t := by
  intro d hd
  obtain ⟨hword, hrow⟩ := h d hd
  have hwithin := drumRow_within d
  refine ⟨(drumRow_word_congr heq d).trans hword, hrow.of_read_eq fun a hlo hhi => heq a (by omega) ?_⟩
  rw [drumRowBytes_length] at hhi
  omega

/-- The monitor's fields are shown with the stamp, the edition raised by 2 (R141). -/
theorem supplyStatus_stored {s : State} (hm : s.mem.wf = true) :
    HoldsAt (supplyStatus s).mem 0x5A [s.smn.cls.code] ∧
      HoldsAt (supplyStatus s).mem 0x5C (le16 (BitVec.ofNat 16 s.smn.lastMinimum)) ∧
      HoldsAt (supplyStatus s).mem 0x64 (le32 s.stamp) ∧
      (supplyStatus s).mem.word 0x40 = s.mem.word 0x40 + 2 ∧
      KeepsOutside [(0x40, 2), (0x5A, 1), (0x5C, 2), (0x64, 4)] s.mem (supplyStatus s).mem := by
  have hapart : (closedFields s.smn ++ [(36, le32 0)]).Pairwise FieldsApart := by
    simp [closedFields, FieldsApart, le16, le32]
  obtain ⟨hfields, hstamp⟩ := rewriteStatus_stored hapart hm
  refine ⟨hfields _ (List.mem_cons_self), hfields _ (List.mem_cons_of_mem _ (List.mem_singleton_self _)), hstamp,
    rewriteStatus_edition _ hm (by simp), fun a ha => ?_⟩
  simp only [List.mem_cons, List.not_mem_nil, or_false, forall_eq_or_imp, forall_eq] at ha
  obtain ⟨hedition, hclass, hminimum, hstamp⟩ := ha
  refine rewriteStatus_outside hm hedition hstamp fun f hf => ?_
  simp only [List.mem_cons, List.not_mem_nil, or_false] at hf
  rcases hf with rfl | rfl
  · exact hclass
  · exact hminimum

/-- The state after the event and the start, before the stage is formed. -/
def betterState (new : SupplyClass) (m : Nat) (s : State) : State :=
  startAfter s.smn.cls (classReported new m (closedState m s))

theorem changeClass_better_mem {new : SupplyClass} (h : new ≠ .critical) (m : Nat) (s : State) :
    (changeClass new m (closedState m s)).mem = (betterState new m s).mem := by
  rw [changeClass_better h, formAllowed_mem]
  rfl

section

variable {new : SupplyClass} {m : Nat} {s : State} (hm : s.mem.wf = true)

include hm

/-- The event leaves every byte below the lanes, and the start the row of the drum it starts. -/
theorem betterState_stored :
    (betterState new m s).mem.wf = true ∧
      ShowsBegun (unitAfter s.smn.cls new s.clock s.dtu) s.clock (begunAfter s.smn.cls new s.dtu) s.mem
        (betterState new m s).mem ∧
      KeepsOutside (begunRow (begunAfter s.smn.cls new s.dtu))
        (raiseEvent .supplyClass new.code m s.smn.cls.code.toNat s).mem (betterState new m s).mem := by
  have hreported := (classReported_alike new m s).mem
  have hwf : (classReported new m (closedState m s)).mem.wf = true := by
    rw [hreported]
    exact raiseEvent_wf _ _ _ _ hm
  obtain ⟨hstart, hbegun, hkept⟩ := startAfter_stored s.smn.cls hwf
  obtain ⟨hcls, hclock, hdtu⟩ : (classReported new m (closedState m s)).smn.cls = new ∧
      (classReported new m (closedState m s)).clock = s.clock ∧ (classReported new m (closedState m s)).dtu = s.dtu := by
    simp [classReported, closedState]
  rw [hcls, hclock, hdtu, hreported] at hbegun
  rw [hcls, hdtu, hreported] at hkept
  exact ⟨hstart, hbegun.from (drumRow_word_congr fun _ _ _ => raiseEvent_read_below _ _ _ _ hm (by omega)), hkept⟩

theorem betterState_read {a : Nat} (ha : a < 0x380) : (betterState new m s).mem.read a = s.mem.read a := by
  obtain ⟨-, -, hkept⟩ := betterState_stored (new := new) (m := m) hm
  refine (hkept a fun x hx => ?_).trans (raiseEvent_read_below _ _ _ _ hm (by omega))
  obtain ⟨d, -, rfl⟩ := List.mem_map.1 hx
  have := drumRow_within d
  dsimp only
  omega

theorem better_stored (h : new ≠ .critical) {t : State}
    (ht : t = supplyStatus (retarderEvent (changeClass new m) (closedState m s))) :
    HoldsAt t.mem 0x5A [new.code] ∧ HoldsAt t.mem 0x5C (le16 (BitVec.ofNat 16 m)) ∧
      ShowsRetarder s.rbu t.rbu s.mem t.mem ∧ HoldsAt t.mem 0x64 (le32 s.stamp) ∧
      t.mem.word 0x40 = s.mem.word 0x40 + 2 + retarderRise s.rbu t.rbu ∧
      ShowsBegun (unitAfter s.smn.cls new s.clock s.dtu) s.clock (begunAfter s.smn.cls new s.dtu) s.mem t.mem ∧
      KeepsOutside (closeSpans ++ begunRow (begunAfter s.smn.cls new s.dtu))
        (raiseEvent .supplyClass new.code m s.smn.cls.code.toNat s).mem t.mem := by
  obtain ⟨hwf, hbegun, hkeptStart⟩ := betterState_stored (new := new) (m := m) hm
  have hstart {a : Nat} (ha : a < 0x380) := betterState_read (new := new) (m := m) hm ha
  rw [← changeClass_better_mem h] at hwf hbegun hkeptStart
  simp only [← changeClass_better_mem h] at hstart
  obtain ⟨hnew, hsame, hrise, hkeptEvent⟩ := retarderEvent_stored (changeClass new m) (s := closedState m s) hwf
  obtain ⟨hclass, hminimum, hstamp, hedition, hkeptStatus⟩ := supplyStatus_stored (retarderEvent_wf hwf)
  have hrbu : t.rbu = (changeClass new m (closedState m s)).rbu := by
    rw [ht, supplyStatus_eq, rewriteStatus_rbu, retarderEvent_rbu]
  rw [better_event_smn h, ← ht] at hclass hminimum
  rw [State.stamp, better_event_clock h, ← ht] at hstamp
  rw [← ht] at hedition hkeptStatus
  rw [← hrbu] at hnew hsame hrise
  simp only [KeepsOutside, List.forall_mem_cons, List.not_mem_nil, false_imp_iff, implies_true, and_true]
    at hkeptStatus hkeptEvent
  refine ⟨hclass, hminimum, ⟨fun hne => ?_, fun heq a hlo hhi => ?_⟩, hstamp, ?_, ?_, fun a ha => ?_⟩
  · have hlength : (retarderBytes t.rbu).length = 4 := rfl
    exact (hnew hne).of_read_eq fun a hlo hhi => hkeptStatus a (by omega)
  · rw [hkeptStatus a (by omega), hsame heq, hstart (by omega)]
  · rw [hedition, hrise, Memory.word_congr (hstart (by omega)) (hstart (by omega))]
    exact add_right_comm ..
  · exact hbegun.to fun a hlo hhi => (hkeptStatus a (by omega)).trans (hkeptEvent a (by omega))
  · rw [List.forall_mem_append] at ha
    obtain ⟨hspans, hrow⟩ := ha
    simp only [closeSpans, List.forall_mem_cons, List.not_mem_nil, false_imp_iff, implies_true, and_true] at hspans
    exact (hkeptStatus a (by omega)).trans ((hkeptEvent a (by omega)).trans (hkeptStart a hrow))

end

/-- Settles O34: a class that gets better is reported, lets a waiting measurement start, and forms the allowed stage. -/
theorem betterClose : Obligations.BetterClose := by
  intro code due m s t hheld hc hdue hcount hmin hexec hcls hnot
  have hclosed : t = closeWindow m { s with pcu := granted s.clock s.pcu } := by
    have ht := exec_sampleCompletion (code := code) hheld hc hdue
    rw [hexec, takeSample_of_last (s := { s with pcu := granted s.clock s.pcu }) hcount] at ht
    rw [hmin]
    exact Host.Outcome.next.inj ht
  rcases closeWindow_cases m { s with pcu := granted s.clock s.pcu } with hkept | ⟨new, -, hchanged⟩
  · refine absurd ?_ hcls
    rw [hclosed, hkept, supplyStatus_eq, rewriteStatus_smn]
    rfl
  · have ht : t = supplyStatus (retarderEvent (changeClass new m) (closedState m s)) := hclosed.trans hchanged
    have hbetter : new ≠ .critical := by
      rw [ht, supplyStatus_eq, rewriteStatus_smn, retarderEvent_smn, changeClass_cls] at hnot
      exact hnot
    obtain ⟨mem, hall⟩ := better_eq hbetter m s
    rw [← ht] at hall
    have hnew : t.smn.cls = new := by rw [hall]
    have hunit : t.dtu = unitAfter s.smn.cls new s.clock s.dtu := by rw [hall]
    rw [hnew]
    refine ⟨?_, fun hm => ?_⟩
    · rw [hall]
      rfl
    · rw [hunit]
      exact better_stored hm hbetter ht

end Sys2Proof.Machine
end

