-- ==== Sys2Proof/Proofs/WindowClose.lean ====
section
/-! SUPPORT. The class a window close decides, and what every close leaves of the monitor and the status block, whatever the
class change does to the other blocks (R134, R136 to R139, R141). -/

namespace Sys2Proof.Machine

/-! ### The class a close decides (R137, R138) -/

/-- A class as good as the raw class, or worse than it only within 500 mV above a criterion. -/
def WithinHysteresis (c : Criteria) (m : Nat) (cls : SupplyClass) : Prop :=
  (classOf c m).code.toNat ≤ cls.code.toNat ∧
    (cls ≠ classOf c m → (c.critical ≤ m ∧ m < c.critical + 500) ∨ (c.low ≤ m ∧ m < c.low + 500))

theorem withinHysteresis_classOf (c : Criteria) (m : Nat) : WithinHysteresis c m (classOf c m) :=
  ⟨Nat.le_refl _, fun hne => absurd rfl hne⟩

/-- The criteria lie at least 1000 mV apart, so the two spans of the hysteresis do not meet. -/
theorem withinHysteresis_judgedClass {c : Criteria} (hapart : c.critical + 1000 ≤ c.low) (before : SupplyClass) (m : Nat) :
    WithinHysteresis c m (judgedClass c before m) := by
  cases before with
  | normal => exact withinHysteresis_classOf c m
  | low | critical =>
    simp only [WithinHysteresis, judgedClass, classOf]
    split_ifs <;> simp [SupplyClass.code] <;> omega

theorem decidedClass_first {u : SupplyMonitor} (h : u.firstClose = true) (m : Nat) :
    decidedClass u m = classOf u.criteria m := if_pos h

theorem decidedClass_later {u : SupplyMonitor} (h : u.firstClose = false) (m : Nat) :
    decidedClass u m = judgedClass u.criteria u.cls m := by
  rw [decidedClass, h, if_neg Bool.false_ne_true]
  cases u.cls <;> rfl

theorem withinHysteresis_decidedClass {u : SupplyMonitor} (hapart : u.criteria.critical + 1000 ≤ u.criteria.low) (m : Nat) :
    WithinHysteresis u.criteria m (decidedClass u m) := by
  cases h : u.firstClose with
  | true => exact decidedClass_first h m ▸ withinHysteresis_classOf ..
  | false => exact decidedClass_later h m ▸ withinHysteresis_judgedClass hapart ..

/-! ### A change to any class (R139) -/

/-- The Regulator's and the channels' reactions, where the new class is CRITICAL. -/
def reactedTo (new : SupplyClass) (s : State) : State := if new = .critical then reactCritical s else s

theorem changeClass_eq (new : SupplyClass) (m : Nat) (s : State) :
    changeClass new m s = formAllowed (startAfter s.smn.cls (reactedTo new (classReported new m s))) := rfl

theorem reactedTo_smn (new : SupplyClass) (s : State) : (reactedTo new s).smn = s.smn := by
  unfold reactedTo
  split_ifs
  · exact reactCritical_smn s
  · rfl

/-- A class change writes the class and nothing else of the monitor. -/
theorem changeClass_smn (new : SupplyClass) (m : Nat) (s : State) :
    (changeClass new m s).smn = { s.smn with cls := new } := by
  rw [changeClass_eq, formAllowed_smn, startAfter_eq_mem]
  exact (reactedTo_smn ..).trans (raiseEvent_smn ..)

theorem reactCritical_wf {s : State} (hm : s.mem.wf = true) : (reactCritical s).mem.wf = true := by
  have hregulator : (regulatorCritical s).mem.wf = true := by
    unfold regulatorCritical
    split_ifs
    · exact rewriteStatus_wf _ hm
    · exact hm
  exact formCut_wf (forEach_induction (P := fun u => u.mem.wf = true) (fun c _ hu => channelCritical_wf c hu) hregulator)

theorem changeClass_wf (new : SupplyClass) (m : Nat) {s : State} (hm : s.mem.wf = true) :
    (changeClass new m s).mem.wf = true := by
  have hreported : (classReported new m s).mem.wf = true := raiseEvent_wf _ _ _ _ hm
  have hreacted : (reactedTo new (classReported new m s)).mem.wf = true := by
    unfold reactedTo
    split_ifs
    · exact reactCritical_wf hreported
    · exact hreported
  rw [changeClass_eq, formAllowed_mem]
  exact (startAfter_stored _ hreacted).1

/-! ### What a close leaves (R134, R136, R141) -/

/-- The class the close of a window with minimum `m` decides, the pending criteria in force. -/
def closingClass (u : SupplyMonitor) (m : Nat) : SupplyClass := decidedClass (enterCriteria u) m

/-- The state a close reaches before it shows the class and the minimum. -/
def classSettled (m : Nat) (s : State) : State :=
  let closed := { s with smn := closedMonitor s.smn m }
  if closingClass s.smn m = s.smn.cls then closed else retarderEvent (changeClass (closingClass s.smn m) m) closed

theorem closeWindow_eq (m : Nat) (s : State) : closeWindow m s = supplyStatus (classSettled m s) := rfl

theorem classSettled_smn (m : Nat) (s : State) :
    (classSettled m s).smn = { closedMonitor s.smn m with cls := closingClass s.smn m } := by
  unfold classSettled
  split_ifs with h
  · rw [h]
    rfl
  · rw [retarderEvent_smn, changeClass_smn]

theorem classSettled_wf (m : Nat) {s : State} (hm : s.mem.wf = true) : (classSettled m s).mem.wf = true := by
  unfold classSettled
  split_ifs
  · exact hm
  · exact retarderEvent_wf (changeClass_wf _ _ hm)

theorem closeWindow_smn (m : Nat) (s : State) :
    (closeWindow m s).smn = { closedMonitor s.smn m with cls := closingClass s.smn m } := by
  rw [closeWindow_eq, supplyStatus_eq, rewriteStatus_smn, classSettled_smn]

theorem closeWindow_pcu (m : Nat) (s : State) : (closeWindow m s).pcu = s.pcu := by
  rw [closeWindow_eq, supplyStatus_eq, rewriteStatus_pcu, classSettled]
  split_ifs
  · rfl
  · rw [retarderEvent_pcu, changeClass_pcu]

theorem closeWindow_shown (m : Nat) {s : State} (hm : s.mem.wf = true) :
    HoldsAt (closeWindow m s).mem 0x5A [(closingClass s.smn m).code] ∧
      HoldsAt (closeWindow m s).mem 0x5C (le16 (BitVec.ofNat 16 m)) := by
  obtain ⟨hclass, hminimum, -⟩ := supplyStatus_stored (classSettled_wf m hm)
  rw [classSettled_smn] at hclass hminimum
  exact ⟨hclass, hminimum⟩

/-- A close that keeps the class changes the monitor and the shown fields alone. -/
theorem closeWindow_of_kept {m : Nat} {s : State} (h : closingClass s.smn m = s.smn.cls) (hm : s.mem.wf = true) :
    closeWindow m s = { s with smn := (closeWindow m s).smn, mem := (closeWindow m s).mem } ∧
      (closeWindow m s).mem.word 0x40 = s.mem.word 0x40 + 2 ∧
      KeepsOutside [(0x40, 2), (0x5A, 1), (0x5C, 2), (0x64, 4)] s.mem (closeWindow m s).mem := by
  have hsettled : closeWindow m s = supplyStatus { s with smn := closedMonitor s.smn m } :=
    (closeWindow_eq m s).trans (congrArg supplyStatus (if_pos h))
  obtain ⟨-, -, -, hedition, hkept⟩ := supplyStatus_stored (s := { s with smn := closedMonitor s.smn m }) hm
  rw [hsettled]
  exact ⟨rewriteStatus_eq .., hedition, hkept⟩

/-- The state in which the tenth sample is taken: the arbiter has acted (R96, R134). -/
def grantedState (s : State) : State := { s with pcu := granted s.clock s.pcu }

/-- The completion of the conversion that brings the last sample closes the window. -/
theorem exec_sampleCompletion_closes {code : BitVec 12} {due m : Nat} {s : State} (hheld : s.held = none)
    (hc : s.pcu.converter = .converting .supply due) (hdue : due ≤ s.clock) (hcount : 9 ≤ s.smn.count)
    (hmin : m = windowMinimum s.smn (sampleOf code.toNat)) :
    exec (.sampleCompletion code) s = .next (closeWindow m (grantedState s)) := by
  subst hmin
  exact (exec_sampleCompletion hheld hc hdue).trans (congrArg _ (takeSample_of_last (s := grantedState s) hcount))

/-- Settles O32: the tenth sample closes the window, and its minimum decides the class within the hysteresis. -/
theorem windowClose : Obligations.WindowClose := by
  intro code due m s hheld hm hc hdue hcount hmin criteria
  have hsmn : (closeWindow m (grantedState s)).smn = { closedMonitor s.smn m with cls := closingClass s.smn m } :=
    closeWindow_smn m (grantedState s)
  have hcls : (closeWindow m (grantedState s)).smn.cls = closingClass s.smn m := by rw [hsmn]
  have hpcu : (closeWindow m (grantedState s)).pcu = granted s.clock s.pcu := closeWindow_pcu m (grantedState s)
  obtain ⟨hclass, hminimum⟩ := closeWindow_shown m (s := grantedState s) hm
  refine ⟨_, exec_sampleCompletion_closes hheld hc hdue hcount hmin, ?_, fun hfirst => ?_, fun hlater => ?_,
    fun hapart => ?_, hpcu, ?_, hminimum, fun hkept => ?_⟩
  · rw [hcls, hsmn]
    rfl
  · exact hcls.trans (decidedClass_first (u := enterCriteria s.smn) hfirst m)
  · exact hcls.trans (decidedClass_later (u := enterCriteria s.smn) hlater m)
  · rw [hcls]
    exact withinHysteresis_decidedClass (u := enterCriteria s.smn) hapart m
  · rw [hcls]
    exact hclass
  · obtain ⟨hall, hrest⟩ := closeWindow_of_kept (s := grantedState s) (hcls.symm.trans hkept) hm
    rw [hpcu]
    exact ⟨hall, hrest⟩

end Sys2Proof.Machine
end

