-- ==== Sys2Proof/Proofs/LeverAndTimers.lean ====
section
/-! SUPPORT. The lever's inputs and settle timer, the hold-off's expiry and the ramp, and the status bytes they rewrite (R145,
R147, R148, R151, R154). -/

namespace Sys2Proof.Machine

/-! ### The retarder's bytes of the status block (R154) -/

/-- An event that changes none of the retarder's four bytes rewrites nothing. -/
theorem retarderShown_of_bytes {before : RetarderUnit} {s : State} (h : retarderBytes before = retarderBytes s.rbu) :
    retarderShown before s = s := if_pos h

theorem retarderShown_of_changed {before : RetarderUnit} {s : State} (h : retarderBytes before ≠ retarderBytes s.rbu) :
    retarderShown before s = rewriteStatus [(30, retarderBytes s.rbu)] s := if_neg h

/-- Where one of the four bytes changes, all four stand in the status block with the stamp and the edition raised by 2. -/
theorem retarderShown_stored {before : RetarderUnit} {s : State} (hm : s.mem.wf = true)
    (h : retarderBytes before ≠ retarderBytes s.rbu) :
    HoldsAt (retarderShown before s).mem 0x5E (retarderBytes s.rbu) ∧
      (retarderShown before s).mem.word 0x40 = s.mem.word 0x40 + 2 ∧
      HoldsAt (retarderShown before s).mem 0x64 (le32 s.stamp) ∧
      KeepsOutside [(0x40, 2), (0x5E, 4), (0x64, 4)] s.mem (retarderShown before s).mem := by
  have hevent : retarderEvent (fun _ => s) { s with rbu := before } = retarderShown before s :=
    retarderEvent_eq_shown ..
  have hapart : ([(30, retarderBytes s.rbu)] ++ [(36, le32 0)]).Pairwise FieldsApart := by
    simp [FieldsApart, retarderBytes, le32]
  obtain ⟨hbytes, -, hedition, hkept⟩ := retarderEvent_stored (fun _ => s) (s := { s with rbu := before }) hm
  rw [hevent] at hbytes hedition hkept
  refine ⟨hbytes h, hedition.trans (congrArg _ (if_neg h)), ?_, hkept⟩
  rw [retarderShown_of_changed h]
  exact (rewriteStatus_stored hapart hm).2

/-! ### The lever (R145) -/

theorem encodedStage_eq_match (r : RetarderUnit) :
    r.encodedStage = match r.input1, r.input2 with
      | .opened, .opened => 0
      | .closed, .opened => 1
      | .opened, .closed => 2
      | .closed, .closed => 3 := by
  unfold RetarderUnit.encodedStage
  cases r.input1 <;> cases r.input2 <;> rfl

theorem exec_leverInputChange (a b : Contact) (s : State) :
    exec (.leverInputChange a b) s = .next { s with rbu := { s.rbu with
      input1 := a, input2 := b
      settle := if s.held = none ∧ ¬(a = s.rbu.input1 ∧ b = s.rbu.input2) then some (s.clock + 40000)
        else s.rbu.settle } } := by
  have hkept : (s.held.isSome = true ∨ s.rbu.input1 = a ∧ s.rbu.input2 = b) ↔
      ¬(s.held = none ∧ ¬(a = s.rbu.input1 ∧ b = s.rbu.input2)) := by
    rw [Option.isSome_iff_ne_none, eq_comm (a := a), eq_comm (a := b)]
    tauto
  simp only [exec, execLeverInputChange, hkept, ite_not]
  rfl

/-- The settle timer's expiry takes an encoded stage that is the lever stage already. -/
theorem settleLever_of_same {s : State} (h : s.rbu.encodedStage = s.rbu.leverStage) :
    settleLever s = { s with rbu := { s.rbu with settle := none } } := if_pos h

/-- The settle timer's expiry takes an encoded stage that differs: a lever change (R145, R147). -/
theorem settleLever_of_moved {s : State} (h : s.rbu.encodedStage ≠ s.rbu.leverStage) :
    settleLever s = { s with
      rbu := formedRetarder { s with rbu := { s.rbu with settle := none, leverStage := s.rbu.encodedStage } } } :=
  (if_neg h).trans (formAllowed_eq_formed _)

/-! ### The hold-off and the ramp (R148, R151) -/

/-- The end of the hold-off forms the stage first, and RETARDER_RESTORED carries the stage formed (R151). -/
theorem endHoldOff_eq (h : HoldOff) (s : State) :
    endHoldOff h s = raiseEvent .retarderRestored 0 (formedRetarder { s with rbu := { s.rbu with holdOff := none } }).allowed
      h.length { s with rbu := formedRetarder { s with rbu := { s.rbu with holdOff := none } } } := by
  rw [endHoldOff, formAllowed_eq_formed]

theorem endRamp_of_below {s : State} (h : s.rbu.output < s.rbu.allowed) :
    endRamp s = { s with rbu := { s.rbu with output := s.rbu.output + 1, ramp := some (s.clock + 400000) } } := by
  rw [endRamp, moveOutput_eq, steppedOutput, if_neg h.le.not_gt, if_pos ⟨h, rfl⟩]

theorem endRamp_of_reached {s : State} (h : s.rbu.allowed ≤ s.rbu.output) :
    endRamp s = { s with rbu := { s.rbu with output := s.rbu.allowed, ramp := none } } := by
  rw [endRamp, moveOutput_eq, steppedOutput]
  rcases h.lt_or_eq with hfall | hequal
  · rw [if_pos hfall]
  · rw [if_neg hequal.not_lt, if_neg fun hrise => hrise.1.ne' hequal, ← hequal]

/-! ### The commands of the three timers -/

theorem due_of_gt {t : Nat} {s : State} (h : s.clock < t) : s.due (some t) = false := decide_eq_false h.not_ge

section

variable {s : State} (hheld : s.held = none) {t : Nat}

include hheld

theorem exec_leverSettleExpiry_early (ht : s.rbu.settle = some t) (h : s.clock < t) :
    exec .leverSettleExpiry s = .next s := by
  simp only [exec, execLeverSettleExpiry, whenRunning_of_not_held hheld, ht, due_of_gt h, Bool.false_eq_true, if_false]

theorem exec_leverSettleExpiry_of_due (ht : s.rbu.settle = some t) (h : t ≤ s.clock) :
    exec .leverSettleExpiry s = .next (retarderShown s.rbu (settleLever s)) := by
  simp only [exec, execLeverSettleExpiry, whenRunning_of_not_held hheld, ht, due_of_le h, if_true, retarderEvent_eq_shown]

theorem exec_holdOffExpiry_stopped (h : s.rbu.holdOff = none) : exec .holdOffExpiry s = .next s := by
  simp only [exec, execHoldOffExpiry, whenRunning_of_not_held hheld, h]

theorem exec_holdOffExpiry_early {x : HoldOff} (hx : s.rbu.holdOff = some x) (h : s.clock < x.due) :
    exec .holdOffExpiry s = .next s := by
  simp only [exec, execHoldOffExpiry, whenRunning_of_not_held hheld, hx, due_of_gt h, Bool.false_eq_true, if_false]

theorem exec_holdOffExpiry_of_due {x : HoldOff} (hx : s.rbu.holdOff = some x) (h : x.due ≤ s.clock) :
    exec .holdOffExpiry s = .next (retarderShown s.rbu (endHoldOff x s)) := by
  simp only [exec, execHoldOffExpiry, whenRunning_of_not_held hheld, hx, due_of_le h, if_true, retarderEvent_eq_shown]

theorem exec_rampExpiry_stopped (h : s.rbu.ramp = none) : exec .rampExpiry s = .next s := by
  simp only [exec, execRampExpiry, whenRunning_of_not_held hheld, h, State.due, Bool.false_eq_true, if_false]

theorem exec_rampExpiry_early (ht : s.rbu.ramp = some t) (h : s.clock < t) : exec .rampExpiry s = .next s := by
  simp only [exec, execRampExpiry, whenRunning_of_not_held hheld, ht, due_of_gt h, Bool.false_eq_true, if_false]

theorem exec_rampExpiry_of_due (ht : s.rbu.ramp = some t) (h : t ≤ s.clock) :
    exec .rampExpiry s = .next (retarderShown s.rbu (endRamp s)) := by
  simp only [exec, execRampExpiry, whenRunning_of_not_held hheld, ht, due_of_le h, if_true, retarderEvent_eq_shown]

end

/-- Settles O41: the lever's inputs and its settling, then the hold-off, the ramp and the bytes they rewrite. -/
theorem leverAndTimers : Obligations.LeverAndTimers := by
  refine ⟨fun s => ⟨fun a b => exec_leverInputChange a b s, fun t stage hheld ht hstage => ?_⟩,
    fun s hheld => ⟨fun x hx => ?_, fun t ht => ?_, exec_holdOffExpiry_stopped hheld, exec_rampExpiry_stopped hheld,
      fun before hm hchanged => ?_⟩⟩
  · obtain rfl : stage = s.rbu.encodedStage := hstage.trans (encodedStage_eq_match s.rbu).symm
    refine ⟨exec_leverSettleExpiry_early hheld ht, fun hdue hsame => ?_, fun hdue hmoved => ?_⟩
    · rw [exec_leverSettleExpiry_of_due hheld ht hdue, settleLever_of_same hsame]
      exact congrArg _ (retarderShown_of_bytes rfl)
    · rw [exec_leverSettleExpiry_of_due hheld ht hdue, settleLever_of_moved hmoved]
  · refine ⟨exec_holdOffExpiry_early hheld hx, fun hdue => ?_⟩
    rw [exec_holdOffExpiry_of_due hheld hx hdue, endHoldOff_eq]
  · refine ⟨exec_rampExpiry_early hheld ht, fun hdue hbelow => ?_, fun hdue hreached => ?_⟩
    · rw [exec_rampExpiry_of_due hheld ht hdue, endRamp_of_below hbelow]
    · rw [exec_rampExpiry_of_due hheld ht hdue, endRamp_of_reached hreached]
  · refine ⟨(retarderShown before s).mem, ?_, retarderShown_stored hm hchanged⟩
    rw [retarderShown_of_changed hchanged]
    exact rewriteStatus_eq ..

end Sys2Proof.Machine
end

