-- ==== Sys2Proof/Proofs/SetBlend.lean ====
section
/-! SUPPORT. SET-BLEND: its ranges, and the settings in force after it (R153). -/

namespace Sys2Proof.Machine

/-! ### The ranges (R153) -/

/-- The three assist fields in their ranges. -/
def AssistInRange (stage : Byte) (temperature demand : Word) : Prop :=
  (1 ≤ stage.toNat ∧ stage.toNat ≤ 3) ∧ (100 ≤ temperature.toInt ∧ temperature.toInt ≤ 600) ∧
    (10 ≤ demand.toNat ∧ demand.toNat ≤ 500)

/-- Every field in its range, the assist fields looked at only where assist is enabled (R153, R177). -/
def BlendInRange (holdOff : Word) (enabled stage : Byte) (temperature demand : Word) : Prop :=
  (holdOff = 0 ∨ (100 ≤ holdOff.toNat ∧ holdOff.toNat ≤ 2000)) ∧ enabled.toNat ≤ 1 ∧
    (enabled = 1 → AssistInRange stage temperature demand)

/-- The settings that a frame carries: with assist disabled its fields are stored as 0. -/
def blendGiven (holdOff : Word) (enabled stage : Byte) (temperature demand : Word) : BlendSettings :=
  if enabled = 1 then
    { holdOff := chosen 500 holdOff.toNat, assistEnabled := true, assistStage := stage.toNat
      assistTemperature := temperature.toInt, assistDemand := demand.toNat }
  else { holdOff := chosen 500 holdOff.toNat, assistEnabled := false, assistStage := 0, assistTemperature := 0
         assistDemand := 0 }

section

variable {holdOff temperature demand : Word} {enabled stage : Byte}

theorem assistInRange_iff : (within 1 3 stage.toNat && withinInt 100 600 temperature.toInt && within 10 500 demand.toNat)
    = true ↔ AssistInRange stage temperature demand := by
  simp only [Bool.and_eq_true, within_iff, withinInt_iff, AssistInRange, and_assoc]

theorem blendFields_of_inRange (h : BlendInRange holdOff enabled stage temperature demand) :
    blendFields holdOff enabled stage temperature demand =
      some (blendGiven holdOff enabled stage temperature demand) := by
  obtain ⟨hoff, hflag, hassist⟩ := h
  simp only [blendFields, blendGiven, flagOf_of_le hflag, Option.bind_eq_bind, Option.bind_some,
    if_pos ((within_orDefault (default := 500) (by decide) holdOff).2 hoff), beq_iff_eq]
  by_cases hen : enabled = 1
  · rw [if_pos hen, if_pos hen, if_pos (assistInRange_iff.2 (hassist hen))]
    rfl
  · rw [if_neg hen, if_neg hen]
    rfl

theorem blendFields_eq_none (h : ¬BlendInRange holdOff enabled stage temperature demand) :
    blendFields holdOff enabled stage temperature demand = none := by
  rw [Option.eq_none_iff_forall_ne_some]
  intro b hb
  simp only [blendFields, Option.bind_eq_bind, Option.bind_eq_some_iff] at hb
  obtain ⟨assist, hflag, hb⟩ := hb
  have hle := flagOf_eq_some hflag
  obtain rfl : (enabled == 1) = assist := Option.some.inj ((flagOf_of_le hle).symm.trans hflag)
  split_ifs at hb with hoff hen hassist
  · exact h ⟨(within_orDefault (by decide) holdOff).1 hoff, hle, fun _ => assistInRange_iff.1 hassist⟩
  · exact h ⟨(within_orDefault (by decide) holdOff).1 hoff, hle, fun e => absurd (beq_iff_eq.2 e) hen⟩

/-! ### The two answers (R153) -/

variable {tag : Byte} {s : State}

theorem setBlend_outOfRange (hm : s.mem.wf = true) (hr : Ready (.setBlend tag holdOff enabled stage temperature demand) s)
    (h : ¬BlendInRange holdOff enabled stage temperature demand) :
    AnsweredAtOnce (.setBlend tag holdOff enabled stage temperature demand) s s 0x60 tag .refusedRange
      (blendResult s.rbu.settings) := by
  refine answered rfl hm hr rfl ?_
  simp only [carrySetBlend, blendFields_eq_none h, countTake_rbu]
  rw [← countTake_eq]

/-- A SET-BLEND in range puts its settings in force, forms the stage with them and then answers with them. -/
theorem carrySetBlend_some (b : BlendSettings) (s : State) :
    carrySetBlend tag (some b) s = respond 0x60 tag .done (blendResult b) (retarderShown s.rbu
      { s with rbu := formedRetarder { s with rbu := { s.rbu with settings := b } } }) := by
  have hsettings (u : State) : (formedRetarder u).settings = u.rbu.settings := rfl
  simp only [carrySetBlend, retarderEvent_rbu, formAllowed_eq_formed, hsettings]
  rw [retarderEvent_eq_shown]

theorem setBlend_done (hr : Ready (.setBlend tag holdOff enabled stage temperature demand) s)
    (h : BlendInRange holdOff enabled stage temperature demand) :
    exec (.setBlend tag holdOff enabled stage temperature demand) s =
      .next (respond 0x60 tag .done (blendResult (blendGiven holdOff enabled stage temperature demand))
        (retarderShown s.rbu { countTake s with rbu := formedRetarder { s with rbu := { s.rbu with
          settings := blendGiven holdOff enabled stage temperature demand } } })) := by
  have hcarried : carryRequest (.setBlend tag holdOff enabled stage temperature demand) (countTake s) =
      carrySetBlend tag (some (blendGiven holdOff enabled stage temperature demand)) (countTake s) :=
    congrArg (carrySetBlend tag · _) (blendFields_of_inRange h)
  have hformed (q : RetarderUnit) :
      formedRetarder { countTake s with rbu := q } = formedRetarder { s with rbu := q } :=
    formedRetarder_congr (countTake_clock s) rfl (congrArg _ (countTake_smn s)) (congrArg _ (countTake_pcu s))
      (congrArg _ (countTake_dtu s))
  rw [exec_of_ready rfl hr, makeTake, hcarried, carrySetBlend_some, countTake_rbu, hformed]

end

/-- Settles O42: a field out of range refuses with the settings in force; else the new ones are in force at once. -/
theorem setBlend : Obligations.SetBlend := by
  intro tag holdOff enabled stage temperature demand s hm hr i inRange new shown
  exact ⟨setBlend_outOfRange hm hr, setBlend_done hr⟩

end Sys2Proof.Machine
end

