-- ==== Sys2Proof/Proofs/MemoryForm.lean ====
section
/-! SUPPORT. Every step keeps the exchange memory's canonical form: its bytes change by stores alone, and after a reset it is
written anew (R157, R158, R172). -/

namespace Sys2Proof.Machine

/-- Frames, rows and responses are stores, and no block's own fields take part in the form. -/
theorem memoryForm_owedProperty : OwedProperty fun _ s => s.mem.wf = true where
  event _ _ _ _ _ _ hm := raiseEvent_wf _ _ _ _ hm
  row _ _ _ _ hm := rewrite_wf hm
  response _ _ _ _ _ _ hm := respond_wf _ _ _ _ hm
  wheels _ _ _ hm := hm
  regulator _ _ _ hm := hm
  inputs _ _ _ hm := hm
  supply _ _ _ hm := hm
  retarder _ _ _ hm := hm

/-- A pass over the six channels, wheels or drums keeps the form where each of its steps does. -/
theorem forEach_wf {f : Fin 6 → State → State} (hf : ∀ c u, u.mem.wf = true → (f c u).mem.wf = true) {s : State}
    (hm : s.mem.wf = true) : (forEach f s).mem.wf = true :=
  forEach_induction (P := fun u => u.mem.wf = true) hf hm

theorem drumEvent_wf {f : State → State} {s : State} (hf : (f s).mem.wf = true) : (drumEvent f s).mem.wf = true := by
  simp only [drumEvent]
  split_ifs
  · exact hf
  · exact rewriteDrums_wf hf

section

variable {s : State} (hm : s.mem.wf = true)

include hm

/-! ### The channels, the period and the supply -/

theorem disarmPart_wf : (disarmPart s).mem.wf = true :=
  rewriteStatus_wf _ (retarderEvent_wf (formCut_wf (forEach_wf (fun c _ hu => disarmChannel_wf c hu) hm)))

theorem regulationPeriod_wf : (regulationPeriod s).mem.wf = true := by
  rw [regulationPeriod_eq_rows]
  have hwheels := forEach_wf
    (f := fun w u => rewrite (wheelRowBase w) (wheelRow u.wheels[w] (readSpeeds s)[w] u.reg.wheels[w]) u)
    (fun _ _ hu => rewrite_wf hu) (actedState_wf hm)
  exact rewriteStatus_wf _ (forEach_wf (fun _ _ hu => rewrite_wf hu) hwheels)

theorem ventLimit_wf (c : Fin 6) : (ventLimit c s).mem.wf = true := by
  have hcounted := countVentStrike_wf c hm
  refine formCut_wf ?_
  split_ifs
  · exact enter_wf _ _ hcounted
  · exact lockOut_wf _ _ _ hcounted

theorem outputFault_wf (c : Fin 6) (cause : LockoutCause) (sol : Solenoid) : (outputFault c cause sol s).mem.wf = true :=
  formCut_wf (lockOut_wf _ _ _ hm)

theorem endHoldInterval_wf (c : Fin 6) (par : TrainParams) (n : Nat) : (endHoldInterval c par n s).mem.wf = true := by
  unfold endHoldInterval
  split_ifs
  · exact hm
  · exact formCut_wf (enter_wf _ _ hm)

theorem startTest_wf (c : Fin 6) (par : TestParams) (tag : Byte) : (startTest c par tag s).mem.wf = true :=
  formCut_wf (enter_wf c .test hm)

theorem endOffTime_wf (c : Fin 6) (par : TestParams) (n : Nat) (tag : Byte) :
    (endOffTime c par n tag s).mem.wf = true := by
  unfold endOffTime
  split_ifs
  · exact hm
  · exact formCut_wf (endTest_wf _ _ hm)

theorem takeSample_wf (mV : Nat) : (takeSample mV s).mem.wf = true := by
  unfold takeSample
  extract_lets m
  split_ifs
  · exact hm
  · rw [closeWindow_eq]
    exact rewriteStatus_wf _ (classSettled_wf m hm)

/-! ### The drums -/

theorem offerScan_wf : (offerScan s).mem.wf = true := by
  rcases offerScan_cases s with ⟨-, e⟩ | ⟨d, -, ⟨-, e⟩ | ⟨-, -, e⟩⟩ <;> rw [e]
  · exact hm
  · exact hm
  · exact startIfAllowed_wf hm

theorem abandonInFlight_wf : (abandonInFlight s).mem.wf = true := by
  unfold abandonInFlight
  split
  · exact hm
  · exact answerTags_wf _ _ _ hm

theorem removeEntries_wf : (removeEntries s).mem.wf = true :=
  SensingFree.foldl (P := fun u => u.mem.wf = true) (fun _ _ hu => answerTags_wf _ _ _ hu) _ hm

theorem reconfigure_wf (new : DrumConfig) : (reconfigure new s).mem.wf = true :=
  removeEntries_wf (s := { abandonInFlight s with dtu := { (abandonInFlight s).dtu with config := new } })
    (abandonInFlight_wf hm)

theorem endShort_wf (m : Measurement) : (endShort m s).mem.wf = true := completeMeasurement_wf _ _ _ _ _ hm

theorem endSensor_wf (m : Measurement) : (endSensor m s).mem.wf = true := by
  simp only [endSensor]
  split_ifs
  · exact endShort_wf hm m
  · exact completeMeasurement_wf _ _ _ _ _ hm
  · exact completeMeasurement_wf _ _ _ _ _ hm

theorem overflowReference_wf (m : Measurement) : (overflowReference m s).mem.wf = true := by
  unfold overflowReference
  split_ifs
  · exact completeMeasurement_wf _ _ _ _ _ hm
  · exact hm
  · exact hm

theorem measureOutcome_wf {tag : Byte} {t : State} (h : MeasureOutcome tag s t) : t.mem.wf = true := by
  cases h with
  | answered => exact respond_wf _ _ _ _ hm
  | joinsFlight => exact hm
  | joinsEntry => exact hm
  | joinsQueue => exact drumEvent_wf (startIfAllowed_wf hm)

/-! ### Requests and events -/

/-- A request of the channels or the drums, whose owners may keep it, stores frames and rows. -/
theorem carryRequest_ofHolders_wf {i : Instr} (hr : i.isRequest = true) (hi : i.ofHolders = true) :
    (carryRequest i s).mem.wf = true := by
  cases i <;> first | exact absurd hr Bool.false_ne_true | exact absurd hi Bool.false_ne_true | skip
  case disarm =>
    simp only [carryRequest, carryDisarm]
    split_ifs
    · exact respond_wf _ _ _ _ (disarmPart_wf hm)
    · exact respond_wf _ _ _ _ hm
  case installChannel =>
    simp only [carryRequest, carryInstallChannel]
    split
    · exact respond_wf _ _ _ _ hm
    · split_ifs <;> exact respond_wf _ _ _ _ hm
  case clearChannel =>
    simp only [carryRequest, carryClearChannel]
    split
    · exact respond_wf _ _ _ _ hm
    · split_ifs
      · exact respond_wf _ _ _ _ hm
      · exact respond_wf _ _ _ _ (retarderEvent_wf (formCut_wf (enter_wf _ _ hm)))
  case valveTest =>
    simp only [carryRequest, carryValveTest]
    split
    · exact respond_wf _ _ _ _ hm
    · split
      · exact respond_wf _ _ _ _ hm
      · exact retarderEvent_wf (startTest_wf hm ..)
  case stopTest =>
    simp only [carryRequest, carryStopTest]
    split
    · exact respond_wf _ _ _ _ hm
    · split_ifs
      · exact respond_wf _ _ _ _ (retarderEvent_wf (formCut_wf (endTest_wf _ _ hm)))
      · exact respond_wf _ _ _ _ hm
  case setDrumConfig =>
    simp only [carryRequest, carrySetDrumConfig]
    split
    · exact respond_wf _ _ _ _ hm
    · exact drumEvent_wf (startIfAllowed_wf (respond_wf _ _ _ _ (reconfigure_wf hm _)))
  case setCurve =>
    simp only [carryRequest, carrySetCurve]
    split <;> exact respond_wf _ _ _ _ hm
  case measureDrum => exact measureOutcome_wf hm (carryMeasureDrum_outcome ..)

theorem carryRequest_wf {i : Instr} (hr : i.isRequest = true) : (carryRequest i s).mem.wf = true := by
  by_cases hi : i.ofHolders = true
  · exact carryRequest_ofHolders_wf hm hr hi
  · exact memoryForm_owedProperty.request (n := 0) hr (by simpa using hi) hm

/-- A command that acts only while no reset is held keeps the form where its action does. -/
theorem whenRunning_wf {f : State → State} {t : State} (hf : (f s).mem.wf = true) (ht : s.whenRunning f = .next t) :
    t.mem.wf = true :=
  BlockInvariant.whenRunning (P := fun u => u.mem.wf = true) (fun _ => hf) hm ht

/-- An event of the channels or the drums stores frames and rows. -/
theorem exec_event_ofHolders_wf {i : Instr} {t : State} (hr : i.isRequest = false) (hi : i.ofHolders = true)
    (ht : exec i s = .next t) : t.mem.wf = true := by
  cases i <;> first | exact absurd hi Bool.false_ne_true | exact absurd hr.symm Bool.false_ne_true | skip
  all_goals
    simp only [exec, execRegulationPeriod, execHoldLimitExpiry, execVentLimitExpiry, execOutputProved, execOutputOpen,
      execOutputShort, execApplyExpiry, execHoldIntervalExpiry, execOnExpiry, execOffExpiry, execSampleCompletion,
      execReferenceOverflow, execReferenceTimeout, execSensorPhaseEnd, execSensorOverflow, execDrumScanExpiry,
      execAgeRefresh] at ht
    refine whenRunning_wf hm ?_ ht
  case regulationPeriod =>
    split_ifs
    · exact regulationPeriod_wf hm
    · exact hm
  case holdLimitExpiry =>
    split_ifs
    · exact retarderEvent_wf (formCut_wf (enter_wf _ _ hm))
    · exact hm
  case ventLimitExpiry =>
    split_ifs
    · exact retarderEvent_wf (ventLimit_wf hm _)
    · exact hm
  case outputProved => exact hm
  case outputOpen =>
    split_ifs
    · exact retarderEvent_wf (outputFault_wf hm ..)
    · exact hm
  case outputShort =>
    split_ifs
    · exact retarderEvent_wf (outputFault_wf hm ..)
    · exact hm
  case applyExpiry => split <;> [split_ifs; skip; skip; skip] <;> exact hm
  case holdIntervalExpiry =>
    split
    · split_ifs
      · exact retarderEvent_wf (endHoldInterval_wf hm ..)
      · exact hm
    all_goals exact hm
  case onExpiry => split <;> [split_ifs; skip; skip; skip] <;> exact hm
  case offExpiry =>
    split
    · split_ifs
      · exact retarderEvent_wf (endOffTime_wf hm ..)
      · exact hm
    all_goals exact hm
  case sampleCompletion =>
    split_ifs
    · exact takeSample_wf (memoryForm_owedProperty.grant (n := 0) (by exact hm)) _
    · exact hm
  case referenceOverflow =>
    split <;> [skip; split_ifs]
    · exact hm
    · exact overflowReference_wf hm _
    · exact hm
  case referenceTimeout =>
    split <;> [skip; split_ifs]
    · exact hm
    · exact completeMeasurement_wf _ _ _ _ _ hm
    · exact hm
  case sensorPhaseEnd =>
    split <;> [skip; split_ifs]
    · exact hm
    · exact endSensor_wf (by exact hm) _
    · exact hm
  case sensorOverflow =>
    split <;> [skip; split_ifs]
    · exact hm
    · exact endShort_wf hm _
    · exact hm
  case drumScanExpiry =>
    split <;> [skip; split_ifs]
    · exact hm
    · exact drumEvent_wf (offerScan_wf (by exact hm))
    · exact hm
  case ageRefresh =>
    split_ifs
    · exact rewriteDrums_wf hm
    · exact hm

theorem exec_event_wf {i : Instr} {t : State} (hr : i.isRequest = false) (hb : i.isBusCommand = false)
    (ht : exec i s = .next t) : t.mem.wf = true := by
  by_cases hi : i.ofHolders = true
  · exact exec_event_ofHolders_wf hm hr hi ht
  · exact memoryForm_owedProperty.exec_event (n := 0) hr hb (by simpa using hi) hm ht

/-! ### Takes and bus commands (R158 to R168, R175, R179) -/

/-- A take's frame is that of a request, so its owner keeps the form. -/
theorem makeTake_wf {i : Instr} (h : s.readyRequest = some i) : (makeTake (carryRequest i) s).mem.wf = true :=
  carryRequest_wf (countTake_wf hm) (of_readyRequest h).1

theorem formTaking_wf (before : State) : (formTaking before s).mem.wf = true := by
  rcases formTaking_cases before s with ⟨-, e⟩ | ⟨-, e⟩ <;> rw [e]
  · exact hm
  · rcases firstTake_cases s with ⟨-, e⟩ | ⟨i, hi, e⟩ <;> rw [e]
    · exact examineRequests_wf hm
    · exact makeTake_wf (examineRequests_wf hm) hi

theorem postEvent_wf (posted : Word) : (postEvent posted s).mem.wf = true := by
  simp only [postEvent]
  split_ifs
  · exact hm
  · exact formTaking_wf (by exact hm) s
  · exact faultLane_wf _ _ _ hm

theorem giveBack_wf (r : ReportLane) (taken : Word) : (giveBack r taken s).mem.wf = true := by
  simp only [giveBack]
  split_ifs
  · exact hm
  · split
    · exact faultLane_wf _ _ _ hm
    · cases r
      case response => exact formTaking_wf (by exact hm) s
      all_goals exact hm

theorem writeHoldback_wf : (writeHoldback s).mem.wf = true :=
  SensingFree.foldl (P := fun u => u.mem.wf = true) (fun _ _ hu => writeResponse_wf _ hu) _ hm

theorem restartLane_wf (id : LaneId) : (restartLane id s).mem.wf = true := by
  cases id
  case response => exact formTaking_wf (writeHoldback_wf (by exact hm)) s
  all_goals exact hm

theorem restartLanes_wf (lanes : BitVec 4) : (restartLanes lanes s).mem.wf = true := by
  refine SensingFree.foldl (P := fun u => u.mem.wf = true) (fun u e hu => ?_) restartOrder hm
  split_ifs
  · exact restartLane_wf hu _
  · exact hu

theorem leaveReset_wf : (leaveReset s).mem.wf = true := by
  unfold leaveReset
  split
  · exact hm
  · exact raiseEvent_wf _ _ _ _ hm

theorem reset_wf (cause : ResetCause) : (reset cause s).mem.wf = true := by
  unfold reset
  split_ifs
  · exact hm
  · exact resetMemory_wf cause

theorem softReset_wf : (softReset s).mem.wf = true := by
  unfold softReset
  split_ifs
  · exact hm
  · exact leaveReset_wf (resetMemory_wf .soft)

theorem writeReportHeader_wf (r : ReportLane) (o : Nat) (v : Word) :
    (writeHeader.writeReportHeader r o v s).mem.wf = true := by
  unfold writeHeader.writeReportHeader
  split_ifs
  · exact hm
  · exact giveBack_wf hm ..
  · exact hm

theorem writeHeader_wf (a : Nat) (v : Word) : (writeHeader a v s).mem.wf = true := by
  simp only [writeHeader]
  by_cases ht : a % 16 = 14
  · rw [if_pos ht]
    exact hm
  · rw [if_neg ht]
    cases headerLane a
    case request =>
      dsimp only
      split_ifs
      · exact hm
      · exact postEvent_wf hm v
      · exact hm
    all_goals exact writeReportHeader_wf hm ..

/-- Of a host's writes those into the request area store bytes of their own (R157). -/
theorem hostWrite_wf (a : Nat) (v : Word) : (hostWrite a v s).mem.wf = true := by
  unfold hostWrite writeRunControl
  split_ifs
  · exact writeHeader_wf hm ..
  · exact hm
  · exact hm
  · exact State.store_wf hm
  · exact hm
  · exact softReset_wf hm
  · exact restartLanes_wf hm _
  · exact hm
  · exact hm
  · exact hm
  · exact hm

theorem busCommand_wf {i : Instr} {t : State} (hi : i.isBusCommand = true) (ht : exec i s = .next t) :
    t.mem.wf = true := by
  cases i <;> first | exact absurd hi Bool.false_ne_true | skip
  case postEvent posted => exact whenRunning_wf hm (postEvent_wf hm posted) ht
  case giveBack r taken => exact whenRunning_wf hm (giveBack_wf hm r taken) ht
  case thresholdWrite id v => exact whenRunning_wf (f := writeThreshold id v) hm hm ht
  case laneRestart lanes => exact whenRunning_wf hm (restartLanes_wf hm lanes) ht
  case softReset => cases ht; exact softReset_wf hm
  case collisionClear => exact whenRunning_wf (f := clearCollision) hm hm ht
  case attentionEnableWrite v => exact whenRunning_wf (f := writeEnables v) hm hm ht
  case hostWordWrite a v =>
    simp only [exec, execHostWordWrite] at ht
    split_ifs at ht
    exact whenRunning_wf hm (hostWrite_wf hm a.toNat v) ht
  case powerOnReset => cases ht; exact reset_wf hm _
  case resetPin => cases ht; exact reset_wf hm _
  case resetRelease => cases ht; exact leaveReset_wf hm

/-! ### Every step -/

theorem exec_wf {i : Instr} {t : State} (ht : exec i s = .next t) : t.mem.wf = true := by
  by_cases hb : i.isBusCommand = true
  · exact busCommand_wf hm hb ht
  by_cases hr : i.isRequest = true
  · rw [exec_eq_take hr] at ht
    refine whenRunning_wf hm ?_ ht
    dsimp only
    split_ifs with hready
    · exact makeTake_wf (examineRequests_wf hm) hready
    · exact hm
  · exact exec_event_wf hm (by simpa using hr) (by simpa using hb) ht

theorem idle_wf : (idle s).mem.wf = true := by
  unfold idle
  split_ifs
  · exact hm
  split
  case h_4 =>
    dsimp only
    split
    · exact hm
    · exact examineRequests_wf hm
  all_goals exact hm

end

/-- Settles O52: of every command the stores keep the form, and a reset writes the memory anew in it. -/
theorem memoryForm : Obligations.MemoryForm := by
  intro s t hm ht
  unfold step at ht
  split at ht
  · exact exec_wf (by exact hm) ht
  · cases ht
    exact idle_wf hm

end Sys2Proof.Machine
end

