-- ==== Sys2Proof/Proofs/Examination.lean ====
section
/-! SUPPORT. The taking condition, the examination of the request lane at its drain, and the take that an event brings once the
condition is formed again (R164, R167, R174, R175, R176). -/

namespace Sys2Proof.Machine

/-! ### The taking condition (R174, R176) -/

theorem Lane.halted_eq_true_iff {l : Lane} : l.halted = true ↔ l.fault ≠ none := by
  simp [Lane.halted, Option.isSome_iff_ne_none]

theorem Lane.halted_of_running {l : Lane} (h : l.fault = none) : l.halted = false := by
  simp [Lane.halted, h]

/-- The request and the response lane are RUNNING. -/
def LaneController.Running (l : LaneController) : Prop := l.request.fault = none ∧ l.response.fault = none

section

variable {l : LaneController}

theorem taking_of_halted (h : ¬l.Running) : l.taking = .blocked := by
  refine if_pos ?_
  rw [Bool.or_eq_true, Lane.halted_eq_true_iff, Lane.halted_eq_true_iff]
  exact not_and_or.1 h

theorem taking_of_running (h : l.Running) :
    l.taking = if l.request.taken = l.request.posted then .waiting
      else if l.owed < l.freeSlots then .taking else .suspended := by
  obtain ⟨hrequest, hresponse⟩ := h
  simp only [LaneController.taking, Lane.halted_of_running hrequest, Lane.halted_of_running hresponse, Bool.or_self,
    Bool.false_eq_true, if_false]

theorem taking_eq_blocked_iff : l.taking = .blocked ↔ ¬l.Running := by
  refine ⟨fun h hrunning => ?_, taking_of_halted⟩
  rw [taking_of_running hrunning] at h
  split_ifs at h

theorem taking_eq_waiting_iff : l.taking = .waiting ↔ l.Running ∧ l.request.taken = l.request.posted := by
  by_cases hrunning : l.Running
  · rw [taking_of_running hrunning]
    split_ifs with hcount <;> simp [hrunning, hcount]
  · simp [taking_of_halted hrunning, hrunning]

theorem taking_eq_taking_iff :
    l.taking = .taking ↔ l.Running ∧ l.request.taken ≠ l.request.posted ∧ l.owed < l.freeSlots := by
  by_cases hrunning : l.Running
  · rw [taking_of_running hrunning]
    split_ifs <;> simp_all
  · simp [taking_of_halted hrunning, hrunning]

theorem occupied_of_lt {size : Nat} {drain : Word} (h : drain.toNat < size) (fill : Word) :
    occupied size fill drain = (fill.toNat + size - drain.toNat) % size := by
  rw [occupied, Nat.mod_eq_of_lt h, Nat.add_sub_assoc h.le]

theorem freeSlots_of_drain (h : l.response.accDrain.toNat < 1024) :
    l.freeSlots = (1024 - (l.response.fill.toNat + 1024 - l.response.accDrain.toNat) % 1024) / 16 - 1 := by
  rw [LaneController.freeSlots, occupied_of_lt h]

end

/-! ### What stands at the drain (R164) -/

section

variable {s : State}

theorem examine_of_end (hend : s.lnc.request.drain = s.lnc.request.accFill)
    (hcount : s.lnc.request.taken ≠ s.lnc.request.posted) : examine s = .fault .countMismatch := by
  simp only [examine, if_pos hend, if_neg hcount]

section

variable (hmore : s.lnc.request.drain ≠ s.lnc.request.accFill)

include hmore

theorem examine_of_badLength (hlength : (s.requestByte 0).toNat = 0)
    (h : s.requestByte 1 ≠ 0 ∨ s.lnc.request.drain = 0) : examine s = .fault .badLength := by
  simp only [examine, if_neg hmore, if_pos hlength]
  split_ifs with hkind hdrain
  · rfl
  · rfl
  · exact absurd h (not_or.2 ⟨hkind, hdrain⟩)

theorem examine_of_wrap (hlength : (s.requestByte 0).toNat = 0) (hkind : s.requestByte 1 = 0)
    (hdrain : s.lnc.request.drain ≠ 0) : examine s = .wrap := by
  simp only [examine, if_neg hmore, if_pos hlength, if_neg (not_not.2 hkind), if_neg hdrain]

variable (hlength : (s.requestByte 0).toNat ≠ 0)

include hlength

theorem examine_of_pastEnd (h : 2048 < s.lnc.request.drain.toNat + 4 * (s.requestByte 0).toNat) :
    examine s = .fault .pastEnd := by
  simp only [examine, hmore, hlength, LaneId.size, h, if_true, if_false]

variable (hinside : s.lnc.request.drain.toNat + 4 * (s.requestByte 0).toNat ≤ 2048)

include hinside

theorem examine_of_pastFill
    (h : occupied 2048 s.lnc.request.accFill s.lnc.request.drain < 4 * (s.requestByte 0).toNat) :
    examine s = .fault .pastFill := by
  simp only [examine, hmore, hlength, LaneId.size, hinside.not_gt, h, if_true, if_false]

theorem examine_of_whole
    (h : 4 * (s.requestByte 0).toNat ≤ occupied 2048 s.lnc.request.accFill s.lnc.request.drain) :
    examine s = .whole := by
  simp only [examine, hmore, hlength, LaneId.size, hinside.not_gt, h.not_gt, if_false]

end

/-- A wrap marker is found above offset 0 alone. -/
theorem examine_ne_wrap (h : s.lnc.request.drain = 0) : examine s ≠ .wrap := by
  unfold examine
  extract_lets q length
  split_ifs <;> first | exact absurd h ‹_› | nofun

/-! ### The examination of the request lane (R164, R167, R175 step 1) -/

theorem examineRequests_of_not_taking (h : s.lnc.taking ≠ .taking) : examineRequests s = s := by
  unfold examineRequests
  split
  case h_4 ht => exact absurd ht h
  all_goals rfl

theorem readyRequest_of_not_taking (h : s.lnc.taking ≠ .taking) : s.readyRequest = none := by
  unfold State.readyRequest
  split
  · exact absurd ‹_› h
  · rfl

section

variable (ht : s.lnc.taking = .taking)

include ht

theorem examineRequests_of_fault {code : LaneFault} (h : examine s = .fault code) :
    examineRequests s = raiseEvent .laneFault 0 code.code.toNat s.lnc.request.drain.toNat
      { s with lnc := { s.lnc with request := { s.lnc.request with fault := some code } } } := by
  simp only [examineRequests, ht, faultFound, h]
  rfl

theorem examineRequests_of_whole (h : examine s = .whole) : examineRequests s = s := by
  simp only [examineRequests, ht, faultFound, h]

theorem readyRequest_of_whole (h : examine s = .whole) : s.readyRequest = some (decodeFrame s.requestByte) := by
  simp only [State.readyRequest, ht, h]

/-- Past a wrap marker the examination is that at offset 0: the condition does not look at the drain, and offset 0 holds no
marker. -/
theorem examineRequests_of_wrap (h : examine s = .wrap) :
    examineRequests s =
      examineRequests { s with lnc := { s.lnc with request := { s.lnc.request with drain := 0 } } } := by
  have hagain : ∀ u : State, u.lnc.taking = .taking → u.lnc.request.drain = 0 → examineRequests u = faultFound u := by
    intro u hu hdrain
    simp only [examineRequests, hu]
    split
    · exact absurd ‹_› (examine_ne_wrap hdrain)
    all_goals rfl
  rw [hagain { s with lnc := { s.lnc with request := { s.lnc.request with drain := 0 } } } ht rfl]
  simp only [examineRequests, ht, h]
  rfl

end

/-! ### The take an event brings (R175) -/

/-- A request's command makes the examination first, and then takes the frame it leaves ready. -/
theorem exec_examined {i : Instr} (hheld : s.held = none) (hr : (examineRequests s).readyRequest = some i) :
    exec i s = .next (makeTake (carryRequest i) (examineRequests s)) := by
  rw [exec_eq_take (of_readyRequest hr).1, take, whenRunning_of_not_held hheld]
  exact congrArg _ (if_pos hr)

theorem ready_examined {i : Instr} (hheld : s.held = none) (hr : (examineRequests s).readyRequest = some i) :
    Ready i (examineRequests s) :=
  ⟨(examineRequests_held s).trans hheld, hr⟩

/-- The condition formed again at an event makes the first take where the event brings TAKING. -/
theorem resumes_formTaking (before : State) (hheld : s.held = none) : Resumes before s (formTaking before s) := by
  refine ⟨fun h => if_pos h, fun h i hr => ?_, fun h hr => ?_⟩ <;> rw [formTaking, if_neg h, firstTake]
  · rw [exec_of_ready (of_readyRequest hr).1 (ready_examined hheld hr), hr]
  · rw [hr]

end

/-- Settles O44: the condition by its parts, each finding of the examination, and the take that begins with it. -/
theorem examination : Obligations.Examination := by
  intro s q length kind filled free running fault taking
  refine ⟨fun hdrain => ?_, taking_eq_blocked_iff, taking_eq_waiting_iff,
    fun h => ⟨examineRequests_of_not_taking h, readyRequest_of_not_taking h⟩, fun ht hdrain => ?_,
    fun i hheld _ hr => ⟨ready_examined hheld hr, ?_⟩⟩
  · rw [taking_eq_taking_iff, freeSlots_of_drain hdrain]
    rfl
  · have hfilled : occupied 2048 q.accFill q.drain = filled := occupied_of_lt hdrain _
    have hcount : q.taken ≠ q.posted := (taking_eq_taking_iff.1 ht).2.1
    refine ⟨fun hend => ?_, fun hmore hlength h => ?_, fun hmore hlength hkind hzero => ?_, fun hmore hlength h => ?_,
      fun hmore hlength hinside h => ?_, fun hmore hlength hinside h => ?_⟩
    · exact examineRequests_of_fault ht (examine_of_end hend hcount)
    · exact examineRequests_of_fault ht (examine_of_badLength hmore hlength h)
    · exact examineRequests_of_wrap ht (examine_of_wrap hmore hlength hkind hzero)
    · exact examineRequests_of_fault ht (examine_of_pastEnd hmore hlength h)
    · exact examineRequests_of_fault ht (examine_of_pastFill hmore hlength hinside (hfilled.trans_lt h))
    · have hwhole := examine_of_whole hmore hlength hinside (h.trans_eq hfilled.symm)
      exact ⟨examineRequests_of_whole ht hwhole, readyRequest_of_whole ht hwhole⟩
  · rw [exec_examined hheld hr, exec_of_ready (of_readyRequest hr).1 (ready_examined hheld hr)]

end Sys2Proof.Machine
end

