-- ==== Sys2Proof/Proofs/SignallingWrites.lean ====
section
/-! SUPPORT. The signalling writes: the post event and the give-back, accepted, stored on a HALTED lane or found faulty (R162,
R163, R166, R167, R175). -/

namespace Sys2Proof.Machine

theorem validOffset_iff {size unit : Nat} {o : Word} :
    validOffset size unit o = true ↔ o.toNat % unit = 0 ∧ o.toNat + unit ≤ size := by
  simp [validOffset]

theorem State.setLane_setLane (id : LaneId) (x y : Lane) (s : State) : (s.setLane id x).setLane id y = s.setLane id y := by
  cases id <;> rfl

/-- A fault found once a count is stored: the lane is HALTED with its code and the count, then LANE_FAULT is handed over
(R167). -/
theorem faultLane_setLane (id : LaneId) (code : LaneFault) (offset : Word) (x : Lane) (s : State) :
    faultLane id code offset (s.setLane id x) = raiseEvent .laneFault (laneCode id) code.code.toNat offset.toNat
      (s.setLane id { x with fault := some code }) := by
  rw [faultLane, State.setLane_lane, State.setLane_setLane]

/-! ### The post event (R163) -/

section

variable {v : Word} {s : State}

theorem postEvent_of_halted (h : s.lnc.request.fault ≠ none) :
    postEvent v s = s.setLane .request { s.lnc.request with posted := v } :=
  if_pos (Lane.halted_eq_true_iff (l := { s.lnc.request with posted := v }).2 h)

variable (h : s.lnc.request.fault = none)

include h

theorem postEvent_of_valid (hvalid : validOffset 2048 4 s.lnc.request.fill = true) :
    postEvent v s = formTaking s
      (s.setLane .request { s.lnc.request with posted := v, accFill := s.lnc.request.fill }) := by
  have hrunning : ({ s.lnc.request with posted := v } : Lane).halted = false := Lane.halted_of_running h
  simp only [postEvent, hrunning, LaneId.size, hvalid, Bool.false_eq_true, if_false, if_true]

theorem postEvent_of_invalid (hvalid : validOffset 2048 4 s.lnc.request.fill ≠ true) :
    postEvent v s = raiseEvent .laneFault 0 5 s.lnc.request.fill.toNat
      (s.setLane .request { s.lnc.request with posted := v, fault := some .badOffset }) := by
  have hrunning : ({ s.lnc.request with posted := v } : Lane).halted = false := Lane.halted_of_running h
  simp only [postEvent, hrunning, LaneId.size, hvalid, Bool.false_eq_true, if_false]
  exact faultLane_setLane ..

end

/-! ### The give-back (R166) -/

section

variable {r : ReportLane} {l : Lane}

theorem giveBackFault_of_invalid (h : ¬(l.drain.toNat % r.frameSize = 0 ∧ l.drain.toNat + r.frameSize ≤ r.lane.size)) :
    giveBackFault r l = some .badOffset :=
  if_pos (Bool.eq_false_iff.2 (mt validOffset_iff.1 h))

variable (hvalid : l.drain.toNat % r.frameSize = 0 ∧ l.drain.toNat + r.frameSize ≤ r.lane.size)

include hvalid

theorem giveBackFault_of_count (h : (l.posted - l.accTaken).toNat < (l.taken - l.accTaken).toNat) :
    giveBackFault r l = some .countMismatch := by
  simp only [giveBackFault, validOffset_iff.2 hvalid, h, if_true, Bool.true_eq_false, if_false]

variable (hcount : (l.taken - l.accTaken).toNat ≤ (l.posted - l.accTaken).toNat)

include hcount

theorem giveBackFault_of_apart
    (h : l.drain.toNat ≠ (l.accDrain.toNat + (l.taken - l.accTaken).toNat * r.frameSize) % r.lane.size) :
    giveBackFault r l = some .badOffset := by
  simp only [giveBackFault, validOffset_iff.2 hvalid, hcount.not_gt, Bool.true_eq_false, if_false]
  exact if_pos h

theorem giveBackFault_of_together
    (h : l.drain.toNat = (l.accDrain.toNat + (l.taken - l.accTaken).toNat * r.frameSize) % r.lane.size) :
    giveBackFault r l = none := by
  simp only [giveBackFault, validOffset_iff.2 hvalid, hcount.not_gt, Bool.true_eq_false, if_false]
  exact if_neg (not_not.2 h)

end

/-- A report lane with the taken count a give-back writes. -/
def Lane.counted (l : Lane) (v : Word) : Lane := { l with taken := v }

section

variable {r : ReportLane} {v : Word} {s : State}

theorem giveBack_of_halted (h : (s.lane r.lane).fault ≠ none) :
    giveBack r v s = s.setLane r.lane ((s.lane r.lane).counted v) :=
  if_pos (Lane.halted_eq_true_iff (l := (s.lane r.lane).counted v).2 h)

variable (h : (s.lane r.lane).fault = none)

include h

theorem giveBack_of_fault {code : LaneFault} (hcode : giveBackFault r ((s.lane r.lane).counted v) = some code) :
    giveBack r v s = raiseEvent .laneFault (laneCode r.lane) code.code.toNat (s.lane r.lane).drain.toNat
      (s.setLane r.lane { (s.lane r.lane).counted v with fault := some code }) := by
  have hrunning : ((s.lane r.lane).counted v).halted = false := Lane.halted_of_running h
  unfold Lane.counted at hrunning hcode
  simp only [giveBack, hrunning, hcode, Bool.false_eq_true, if_false]
  exact faultLane_setLane ..

/-- An accepted give-back stores drain and count as accepted; on the response lane the condition is formed again. -/
theorem giveBack_of_accepted (hnone : giveBackFault r ((s.lane r.lane).counted v) = none) :
    (r ≠ .response → giveBack r v s = s.setLane r.lane ((s.lane r.lane).counted v).givenBack) ∧
      (r = .response → giveBack r v s = formTaking s (s.setLane r.lane ((s.lane r.lane).counted v).givenBack)) := by
  have hrunning : ((s.lane r.lane).counted v).halted = false := Lane.halted_of_running h
  unfold Lane.counted at hrunning hnone
  simp only [giveBack, hrunning, hnone, Bool.false_eq_true, if_false]
  cases r
  case response => exact ⟨fun hne => absurd rfl hne, fun _ => rfl⟩
  all_goals exact ⟨fun _ => rfl, nofun⟩

theorem exec_giveBack_of_fault (hheld : s.held = none) {code : LaneFault}
    (hcode : giveBackFault r ((s.lane r.lane).counted v) = some code) :
    exec (.giveBack r v) s = .next (raiseEvent .laneFault (laneCode r.lane) code.code.toNat (s.lane r.lane).drain.toNat
      (s.setLane r.lane { (s.lane r.lane).counted v with fault := some code })) :=
  (whenRunning_of_not_held hheld _).trans (congrArg _ (giveBack_of_fault h hcode))

end

/-- Settles O43: each write by the state of its lane and the first check that fails. -/
theorem signallingWrites : Obligations.SignallingWrites := by
  refine ⟨fun v s hheld => ?_, fun r v s hheld => ?_⟩
  · intro q put valid
    have hexec : exec (.postEvent v) s = .next (postEvent v s) := whenRunning_of_not_held hheld _
    have hvalid : validOffset 2048 4 s.lnc.request.fill = true ↔ valid := by
      rw [validOffset_iff]
      exact and_congr_right fun _ => Nat.add_le_add_iff_right (n := 4)
    refine ⟨fun h => ?_, fun h hv => ⟨_, resumes_formTaking s hheld, ?_⟩, fun h hv => ?_⟩ <;> rw [hexec]
    · rw [postEvent_of_halted h]
      rfl
    · rw [postEvent_of_valid h (hvalid.2 hv)]
      rfl
    · rw [postEvent_of_invalid h (mt hvalid.1 hv)]
      rfl
  · intro frame size number l put a valid together halted
    have hexec : exec (.giveBack r v) s = .next (giveBack r v s) := whenRunning_of_not_held hheld _
    have hframe : frame = r.frameSize := by cases r <;> rfl
    have hsize : size = r.lane.size := by cases r <;> rfl
    have hnumber : number = laneCode r.lane := by cases r <;> rfl
    clear_value frame size number
    subst hframe hsize hnumber
    refine ⟨fun h => ?_, fun h hv => ?_, fun h hv hcount => ?_, fun h hv hcount hplace => ?_,
      fun h hv hcount hplace => ?_⟩
    · rw [hexec, giveBack_of_halted h]
      rfl
    · exact exec_giveBack_of_fault h hheld (giveBackFault_of_invalid hv)
    · exact exec_giveBack_of_fault h hheld (giveBackFault_of_count hv hcount)
    · exact exec_giveBack_of_fault h hheld (giveBackFault_of_apart hv hcount hplace)
    · obtain ⟨hother, hresponse⟩ := giveBack_of_accepted h (giveBackFault_of_together (l := l) hv hcount hplace)
      refine ⟨fun hr => hexec.trans (congrArg _ (hother hr)), fun hr => ⟨_, resumes_formTaking s hheld, ?_⟩⟩
      rw [hexec, hresponse hr]
      rfl

end Sys2Proof.Machine
end

