-- ==== Sys2Proof/Proofs/FramesHandedOver.lean ====
section
/-! SUPPORT. Frames handed to the Lane Controller: the room they need, and what a written event, record or response and a counted
take leave in the memory (R162, R165, R174, R178, R181 to R183). -/

namespace Sys2Proof.Machine

/-! ### Room (R162, R165) -/

/-- A lane is writable while it is RUNNING and its frames leave one slot free beside the next. -/
theorem writable_iff {r : ReportLane} {l : Lane} (h : l.accDrain.toNat < r.lane.size) :
    writable r l = true ↔
      l.fault = none ∧ (l.fill.toNat + r.lane.size - l.accDrain.toNat) % r.lane.size / r.frameSize < r.slots - 1 := by
  rw [writable, hasRoom, framesPresent, occupied_of_lt h, Bool.and_eq_true, decide_eq_true_eq, Bool.not_eq_true',
    ← Bool.not_eq_true, Lane.halted_eq_true_iff, not_not]

/-! ### Stored frames -/

theorem Memory.writeAll_keepsOutside {m : Memory} (hm : m.wf = true) {a n : Nat} {bytes : List Byte}
    (hlen : bytes.length = n) : KeepsOutside [(a, n)] m (m.writeAll a bytes) := by
  intro x hx
  refine read_writeAll_outside hm ?_
  rw [hlen]
  exact hx (a, n) (List.mem_singleton_self _)

/-- A response frame written: it stands in its slot, and the status block shows the owed count it lowers, and the stamp, under a
new edition (R165, R171, R174, R178). -/
structure ResponseStored (frame : List Byte) (s : State) (m : Memory) : Prop where
  response : HoldsAt m (responseSlot s) frame
  edition : m.word 0x40 = s.mem.word 0x40 + 2
  owed : m.word 0x62 = BitVec.ofNat 16 (s.lnc.owed - 1)
  stamp : HoldsAt m 0x64 (le32 s.stamp)
  elsewhere : KeepsOutside [(responseSlot s, 16), (0x40, 2), (0x62, 6)] s.mem m

theorem writeResponse_stored {frame : List Byte} (hlen : frame.length = 16) {s : State} (hm : s.mem.wf = true) :
    ResponseStored frame s (writeResponse frame s).mem := by
  have hslot : 0xC00 ≤ responseSlot s := Nat.le_add_right ..
  have hwritten : HoldsAt (writeFrame .response frame s).mem (responseSlot s) frame := Memory.writeAll_holds hm _ _
  have hframe : KeepsOutside [(responseSlot s, 16)] s.mem (writeFrame .response frame s).mem :=
    Memory.writeAll_keepsOutside hm hlen
  obtain ⟨hedition, howed, hstamp, hkeep⟩ := setOwed_stored (s.lnc.owed - 1) (writeFrame_wf .response frame hm)
  change (writeResponse frame s).mem.word 0x40 = _ at hedition
  simp only [KeepsOutside, List.mem_cons, List.not_mem_nil, or_false, forall_eq_or_imp, forall_eq] at hframe hkeep
  have hbelow : ∀ a < 0xC00, (writeFrame .response frame s).mem.read a = s.mem.read a :=
    fun a ha => hframe a (.inl (by omega))
  refine ⟨hwritten.of_read_eq fun x hlo _ => hkeep x (by omega), ?_, HoldsAt.word (bytes := []) howed, hstamp,
    fun a ha => ?_⟩
  · rw [hedition, Memory.word_congr (hbelow 0x40 (by omega)) (hbelow (0x40 + 1) (by omega))]
  · simp only [List.mem_cons, List.not_mem_nil, or_false, forall_eq_or_imp, forall_eq] at ha
    exact (hkeep a ha.2).trans (hframe a ha.1)

theorem padTo_of_le {n : Nat} {bytes : List Byte} (h : bytes.length ≤ n) :
    padTo n bytes = bytes ++ List.replicate (n - bytes.length) 0 := by
  rw [padTo, List.take_append, List.take_of_length_le h, List.take_replicate, Nat.min_eq_left (Nat.sub_le ..)]

/-! ### Events and episode records (R181 to R183) -/

theorem raiseEvent_written {kind : EventKind} {subject : Byte} {v w : Int} {s : State} (hm : s.mem.wf = true)
    (h : writable .event s.lnc.event = true) :
    ∃ m, raiseEvent kind subject v w s = { s with
        lnc := { s.lnc with
          event := { s.lnc.event with
            fill := followingOffset 2048 s.lnc.event.fill 16, posted := s.lnc.event.posted + 1 }
          eventGap := 0 }
        mem := m } ∧
      HoldsAt m (0x1000 + s.lnc.event.fill.toNat) (eventFrame kind s.lnc.eventGap subject s.stamp v w) ∧
      KeepsOutside [(0x1000 + s.lnc.event.fill.toNat, 16)] s.mem m := by
  rcases raiseEvent_cases kind subject v w s with ⟨-, e⟩ | ⟨hnot, -⟩
  · exact ⟨_, e, Memory.writeAll_holds hm _ _, Memory.writeAll_keepsOutside hm rfl⟩
  · exact absurd (hnot.symm.trans h) Bool.false_ne_true

theorem raiseEvent_skipped {kind : EventKind} {subject : Byte} {v w : Int} {s : State}
    (h : ¬writable .event s.lnc.event = true) :
    raiseEvent kind subject v w s = { s with lnc := { s.lnc with eventGap := raiseGap s.lnc.eventGap } } := by
  rcases raiseEvent_cases kind subject v w s with ⟨hroom, -⟩ | ⟨-, e⟩
  · exact absurd hroom h
  · exact e

theorem raiseEpisode_written {body : List Byte} (hlen : body.length = 28) {s : State} (hm : s.mem.wf = true)
    (h : writable .episode s.lnc.episode = true) :
    ∃ m, raiseEpisode body s = { s with
        lnc := { s.lnc with
          episode := { s.lnc.episode with
            fill := followingOffset 10240 s.lnc.episode.fill 32, posted := s.lnc.episode.posted + 1 }
          episodeGap := 0 }
        mem := m } ∧
      HoldsAt m (0x1800 + s.lnc.episode.fill.toNat) ([8, 0x70, BitVec.ofNat 8 s.lnc.episodeGap, 0] ++ body) ∧
      KeepsOutside [(0x1800 + s.lnc.episode.fill.toNat, 32)] s.mem m := by
  rcases raiseEpisode_cases body s with ⟨-, e⟩ | ⟨hnot, -⟩
  · exact ⟨_, e, Memory.writeAll_holds hm _ _, Memory.writeAll_keepsOutside hm (by simp [hlen])⟩
  · exact absurd (hnot.symm.trans h) Bool.false_ne_true

theorem raiseEpisode_skipped {body : List Byte} {s : State} (h : ¬writable .episode s.lnc.episode = true) :
    raiseEpisode body s = { s with lnc := { s.lnc with episodeGap := raiseGap s.lnc.episodeGap } } := by
  rcases raiseEpisode_cases body s with ⟨hroom, -⟩ | ⟨-, e⟩
  · exact absurd hroom h
  · exact e

/-! ### Responses and takes (R174, R178, R179) -/

theorem writeResponse_eq_lanes (frame : List Byte) (s : State) :
    writeResponse frame s = { s with
      lnc := { s.lnc with response := s.lnc.response.written, owed := s.lnc.owed - 1 }
      mem := (writeResponse frame s).mem } := by
  rw [writeResponse_eq, writeResponse_lnc]
  rfl

theorem respond_written {kind tag : Byte} {status : Status} {result : List Byte} {s : State}
    (h : writable .response s.lnc.response = true) :
    respond kind tag status result s = writeResponse (responseFrame kind tag status result) s := by
  rcases respond_cases kind tag status result s with ⟨-, e⟩ | ⟨hnot, -⟩
  · exact e
  · exact absurd (hnot.symm.trans h) Bool.false_ne_true

theorem respond_heldBack {kind tag : Byte} {status : Status} {result : List Byte} {s : State}
    (h : ¬writable .response s.lnc.response = true) :
    respond kind tag status result s =
      { s with lnc := { s.lnc with holdback := s.lnc.holdback ++ [responseFrame kind tag status result] } } := by
  rcases respond_cases kind tag status result s with ⟨hroom, -⟩ | ⟨-, e⟩
  · exact absurd hroom h
  · exact e

/-- A take counts its request as owed, which the status block shows with the stamp under a new edition (R170, R171, R174). -/
theorem countTake_stored {s : State} (hm : s.mem.wf = true) :
    (countTake s).mem.word 0x40 = s.mem.word 0x40 + 2 ∧ (countTake s).mem.word 0x62 = BitVec.ofNat 16 (s.lnc.owed + 1) ∧
      HoldsAt (countTake s).mem 0x64 (le32 s.stamp) ∧ KeepsOutside [(0x40, 2), (0x62, 6)] s.mem (countTake s).mem := by
  obtain ⟨hedition, howed, hstamp, hkeep⟩ := setOwed_stored (s.lnc.owed + 1) (s := s.setLane .request
    (answeredLanes s).request) hm
  exact ⟨hedition, HoldsAt.word (bytes := []) howed, hstamp, hkeep⟩

/-- Settles O49: a frame handed over is written where its lane has room, else an event or a record is counted and a response is
held back. -/
theorem framesHandedOver : Obligations.FramesHandedOver := by
  intro s hm present room grown
  refine ⟨fun k subject v w hdrain => ?_, fun body hlen hdrain => ?_, fun kind tag status result hdrain hlen => ?_,
    (countTake s).mem, ?_, countTake_stored hm⟩
  · have hroom : writable .event s.lnc.event = true ↔ room 2048 16 s.lnc.event := writable_iff hdrain
    exact ⟨fun h => raiseEvent_written hm (hroom.2 h), fun h => raiseEvent_skipped (mt hroom.1 h)⟩
  · have hroom : writable .episode s.lnc.episode = true ↔ room 10240 32 s.lnc.episode := writable_iff hdrain
    exact ⟨fun h => raiseEpisode_written hlen hm (hroom.2 h), fun h => raiseEpisode_skipped (mt hroom.1 h)⟩
  · intro frame
    have hroom : writable .response s.lnc.response = true ↔ room 1024 16 s.lnc.response := writable_iff hdrain
    have hframe : responseFrame kind tag status result = frame := by
      rw [responseFrame, padTo_of_le hlen, ← List.append_assoc]
    have hstored := writeResponse_stored (responseFrame_length kind tag status result) hm
    rw [hframe] at hstored
    refine ⟨fun h => ⟨_, ?_, hstored.response, hstored.owed, hstored.elsewhere⟩, fun h => ?_⟩
    · rw [respond_written (hroom.2 h), hframe]
      exact writeResponse_eq_lanes ..
    · rw [respond_heldBack (mt hroom.1 h), hframe]
  · rw [countTake_eq, countTake_lnc]
    rfl

end Sys2Proof.Machine
end

