-- ==== Sys2Proof/Proofs/LaneRestart.lean ====
section
/-! SUPPORT. A lane restart, lane by lane: the words it clears, the holdback it writes into the emptied response lane, and the take
it brings (R159, R168, R175, R179). -/

namespace Sys2Proof.Machine

/-! ### The emptied response lane filled again (R162, R179) -/

/-- A restarted response lane with `n` frames in it. -/
def refilledLane (threshold : Word) (n : Nat) : Lane :=
  { threshold := threshold, fill := BitVec.ofNat 16 (16 * n), posted := BitVec.ofNat 16 n }

theorem refilledLane_written (threshold : Word) {n : Nat} (h : n < 63) :
    (refilledLane threshold n).written = refilledLane threshold (n + 1) := by
  have hfill : followingOffset 1024 (BitVec.ofNat 16 (16 * n)) 16 = BitVec.ofNat 16 (16 * (n + 1)) := by
    have hoffset : (BitVec.ofNat 16 (16 * n)).toNat = 16 * n := by
      rw [BitVec.toNat_ofNat]
      omega
    rw [followingOffset, hoffset, if_neg (by omega), ← BitVec.ofNat_add, Nat.mul_succ]
  have hposted : BitVec.ofNat 16 n + 1 = BitVec.ofNat 16 (n + 1) := (BitVec.ofNat_add ..).symm
  simp only [Lane.written, refilledLane, hfill, hposted]

/-- Response frames written one after another from slot `k` on: each stands in its slot, and the status block shows the owed count
they lower and the stamp, its edition raised once for each (R165, R170, R178, R179). -/
structure FramesStored (frames : List (List Byte)) (k : Nat) (s : State) (m : Memory) : Prop where
  slots : ∀ j, j < frames.length → HoldsAt m (0xC00 + 16 * (k + j)) (frames.getD j [])
  shown : frames ≠ [] → m.word 0x62 = BitVec.ofNat 16 (s.lnc.owed - frames.length) ∧ HoldsAt m 0x64 (le32 s.stamp)
  edition : m.word 0x40 = s.mem.word 0x40 + BitVec.ofNat 16 (2 * frames.length)
  elsewhere : KeepsOutside [(0xC00 + 16 * k, 16 * frames.length), (0x40, 2), (0x62, 6)] s.mem m
  untouched : frames = [] → m = s.mem

theorem framesStored_nil (k : Nat) (s : State) : FramesStored [] k s s.mem :=
  ⟨fun _ hj => absurd hj (Nat.not_lt_zero _), fun h => absurd rfl h, (BitVec.add_zero _).symm, fun _ _ => rfl, fun _ => rfl⟩

/-- A first frame, and then the others. -/
theorem FramesStored.cons {frame : List Byte} {frames : List (List Byte)} {k : Nat} {s u : State} {m : Memory}
    (hlen : frame.length = 16) (hslot : responseSlot s = 0xC00 + 16 * k) (howed : u.lnc.owed = s.lnc.owed - 1)
    (hclock : u.clock = s.clock) (hfirst : ResponseStored frame s u.mem) (hrest : FramesStored frames (k + 1) u m) :
    FramesStored (frame :: frames) k s m := by
  have hkeep := hrest.elsewhere
  have hfirstKeep := hfirst.elsewhere
  rw [hslot] at hfirstKeep
  simp only [KeepsOutside, List.mem_cons, List.not_mem_nil, or_false, forall_eq_or_imp, forall_eq] at hkeep hfirstKeep
  refine ⟨fun j hj => ?_, fun _ => ?_, ?_, fun a ha => ?_, nofun⟩
  · cases j with
    | zero =>
      have hresponse := hfirst.response
      rw [hslot] at hresponse
      refine hresponse.of_read_eq fun x hlo hhi => hkeep x ⟨.inl ?_, ?_, ?_⟩ <;> omega
    | succ j =>
      have h := hrest.slots j (Nat.lt_of_succ_lt_succ hj)
      rwa [Nat.add_assoc, Nat.add_comm 1 j] at h
  · by_cases hframes : frames = []
    · subst hframes
      rw [hrest.untouched rfl]
      exact ⟨hfirst.owed, hfirst.stamp⟩
    · obtain ⟨hcount, hstamp⟩ := hrest.shown hframes
      rw [howed, Nat.sub_sub, Nat.add_comm] at hcount
      rw [State.stamp, hclock] at hstamp
      exact ⟨hcount, hstamp⟩
  · rw [hrest.edition, hfirst.edition, BitVec.add_assoc, List.length_cons, Nat.mul_succ, Nat.add_comm, BitVec.ofNat_add]
    rfl
  · simp only [List.mem_cons, List.not_mem_nil, or_false, forall_eq_or_imp, forall_eq, List.length_cons] at ha
    obtain ⟨hspan, hedition, hstatus⟩ := ha
    exact (hkeep a ⟨by omega, hedition, hstatus⟩).trans (hfirstKeep a ⟨by omega, hedition, hstatus⟩)

/-- Frames written one after another into a lane with room for all of them. -/
theorem writeResponses_eq {threshold : Word} {frames : List (List Byte)} (hlen : ∀ f ∈ frames, f.length = 16) {k : Nat}
    (hroom : k + frames.length ≤ 63) {s : State} (hm : s.mem.wf = true)
    (hlane : s.lnc.response = refilledLane threshold k) :
    ∃ m, FramesStored frames k s m ∧
      frames.foldl (fun s bytes => writeResponse bytes s) s = { s with
        lnc := { s.lnc with response := refilledLane threshold (k + frames.length), owed := s.lnc.owed - frames.length }
        mem := m } := by
  induction frames generalizing k s with
  | nil =>
    refine ⟨s.mem, framesStored_nil k s, ?_⟩
    rw [List.length_nil, Nat.add_zero, ← hlane]
    rfl
  | cons frame frames ih =>
    obtain ⟨hframe, hframes⟩ := List.forall_mem_cons.1 hlen
    rw [List.length_cons] at hroom ⊢
    have hslot : responseSlot s = 0xC00 + 16 * k := by
      rw [responseSlot, hlane, refilledLane, BitVec.toNat_ofNat, Nat.mod_eq_of_lt (by omega)]
    have hwritten : (writeResponse frame s).lnc.response = refilledLane threshold (k + 1) := by
      rw [writeResponse_lnc_response, hlane, refilledLane_written _ (by omega)]
    have howed : (writeResponse frame s).lnc.owed = s.lnc.owed - 1 := by rw [writeResponse_lnc]
    obtain ⟨m, hstored, hall⟩ := ih hframes (by omega) (writeResponse_wf frame hm) hwritten
    refine ⟨m, .cons hframe hslot howed (writeResponse_clock ..) (writeResponse_stored hframe hm) hstored, ?_⟩
    rw [List.foldl_cons, hall, howed, Nat.sub_sub, Nat.add_comm 1, Nat.add_assoc k, Nat.add_comm 1,
      writeResponse_eq_lanes]

/-- The response lane's restart: the holdback goes into its first slots, and the condition is formed again (R179). -/
theorem restartResponse_resumes {s : State} (hheld : s.held = none) (hm : s.mem.wf = true)
    (hlen : ∀ f ∈ s.lnc.holdback, f.length = 16) (hroom : s.lnc.holdback.length ≤ 63) :
    ∃ m, Resumes s { s with
        lnc := { s.lnc with
          response := refilledLane s.lnc.response.threshold s.lnc.holdback.length, holdback := []
          owed := s.lnc.owed - s.lnc.holdback.length }
        mem := m } (restartLane .response s) ∧ FramesStored s.lnc.holdback 0 s m := by
  obtain ⟨m, hstored, hall⟩ := writeResponses_eq (threshold := s.lnc.response.threshold) (k := 0)
    (s := { s with lnc := { s.lnc with response := restartedLane s.lnc.response, holdback := [] } })
    hlen (by rwa [Nat.zero_add]) hm rfl
  rw [Nat.zero_add] at hall
  have hrestart : restartLane .response s = formTaking s _ := congrArg (formTaking s) hall
  exact ⟨m, hrestart ▸ resumes_formTaking s hheld, { hstored with }⟩

/-! ### Lane by lane (R159, R168) -/

/-- A lane as a restart leaves it, where the restart names it. -/
def restartedIf (named : Bool) (l : Lane) : Lane := if named then restartedLane l else l

theorem restartRequest_eq (named : Bool) (s : State) :
    (if named then restartLane .request s else s) =
      { s with lnc := { s.lnc with request := restartedIf named s.lnc.request } } := by
  cases named <;> rfl

theorem restartEvent_eq (named : Bool) (s : State) :
    (if named then restartLane .event s else s) =
      { s with lnc := { s.lnc with
        event := restartedIf named s.lnc.event, eventGap := if named then 0 else s.lnc.eventGap } } := by
  cases named <;> rfl

theorem restartEpisode_eq (named : Bool) (s : State) :
    (if named then restartLane .episode s else s) =
      { s with lnc := { s.lnc with
        episode := restartedIf named s.lnc.episode, episodeGap := if named then 0 else s.lnc.episodeGap } } := by
  cases named <;> rfl

theorem restartLanes_eq (lanes : BitVec 4) (s : State) :
    restartLanes lanes s =
      let first := { s with lnc := { s.lnc with request := restartedIf lanes[0] s.lnc.request } }
      let second := if lanes[1] then restartLane .response first else first
      { second with lnc := { second.lnc with
        event := restartedIf lanes[2] second.lnc.event
        episode := restartedIf lanes[3] second.lnc.episode
        eventGap := if lanes[2] then 0 else second.lnc.eventGap
        episodeGap := if lanes[3] then 0 else second.lnc.episodeGap } } := by
  have hfold : restartLanes lanes s =
      let first := if lanes[0] then restartLane .request s else s
      let second := if lanes[1] then restartLane .response first else first
      let third := if lanes[2] then restartLane .event second else second
      if lanes[3] then restartLane .episode third else third := rfl
  rw [hfold, restartRequest_eq]
  simp only [restartEvent_eq, restartEpisode_eq]

/-- Settles O45: the named lanes in order; of the response lane the holdback is written and the condition formed again. -/
theorem laneRestart : Obligations.LaneRestart := by
  intro lanes s hheld hm hheldBack restarted first n response
  have hexec : exec (.laneRestart lanes) s = .next (restartLanes lanes s) := whenRunning_of_not_held hheld _
  refine ⟨if lanes[1] then restartLane .response first else first, fun h => ?_, fun h => ?_, ?_⟩
  · exact if_neg (Bool.eq_false_iff.1 h)
  · obtain ⟨hlen, hroom⟩ := hheldBack h
    obtain ⟨m, hresumes, hstored⟩ := restartResponse_resumes (s := first) hheld hm hlen hroom
    rw [if_pos h]
    refine ⟨m, hresumes, fun k hk => ?_, fun hn => hstored.shown (mt (congrArg List.length) hn), hstored.edition,
      hstored.elsewhere, fun hn => hstored.untouched (List.eq_nil_of_length_eq_zero hn)⟩
    have hslot := hstored.slots k hk
    rwa [Nat.zero_add] at hslot
  · rw [hexec, restartLanes_eq]
    rfl

end Sys2Proof.Machine
end

