-- ==== Sys2Proof/Proofs/FrameRoundTrip.lean ====
section
/-! SUPPORT. The round trip of every request frame, from the requests' own (11.3, 11.4). -/

namespace Sys2Proof.Laws

/-- Settles O51: request by request, for a command that is none has no frame. -/
theorem frameRoundTrip : Obligations.FrameRoundTrip := by
  intro i
  change FrameRoundTrip.Statement i
  cases i
  case identify => exact FrameRoundTrip.identify _
  case unknownKind => exact FrameRoundTrip.unknownKind _ _ _
  case arm => exact FrameRoundTrip.arm _
  case disarm => exact FrameRoundTrip.disarm _
  case setReference => exact FrameRoundTrip.setReference _ _ _ _ _ _ _
  case installWheel => exact FrameRoundTrip.installWheel _ _ _ _ _ _ _
  case removeWheel => exact FrameRoundTrip.removeWheel _ _
  case clearWheel => exact FrameRoundTrip.clearWheel _ _
  case installChannel => exact FrameRoundTrip.installChannel _ _
  case clearChannel => exact FrameRoundTrip.clearChannel _ _
  case valveTest => exact FrameRoundTrip.valveTest _ _ _ _ _ _ _
  case stopTest => exact FrameRoundTrip.stopTest _ _
  case setScan => exact FrameRoundTrip.setScan _ _ _
  case setCalibration => exact FrameRoundTrip.setCalibration _ _ _ _ _
  case setDrumConfig => exact FrameRoundTrip.setDrumConfig _ _ _ _ _ _
  case setCurve => exact FrameRoundTrip.setCurve _ _ _
  case measureDrum => exact FrameRoundTrip.measureDrum _ _
  case setSupplyCriteria => exact FrameRoundTrip.setSupplyCriteria _ _ _
  case setBlend => exact FrameRoundTrip.setBlend _ _ _ _ _ _
  all_goals exact FrameRoundTrip.of_notRequest rfl

end Sys2Proof.Laws
end

