-- ==== Sys2Proof/Proofs/Registers.lean ====
section
/-! SUPPORT. The registers: the bits of the attention status and of run control, ATTN, and what a host reads of each word of the map
(R157 to R161, R169, 11.2, 11.10). -/

namespace Sys2Proof.Machine

/-! ### Bits of a register (11.10) -/

theorem wordBit_getElem (n : Nat) (b : Bool) {k : Nat} (hk : k < 16) : (wordBit n b)[k] = (decide (k = n) && b) := by
  cases b
  · simp [wordBit]
  · have hbit : wordBit n true = BitVec.twoPow 16 n := (BitVec.twoPow_eq 16 n).symm
    rw [hbit, BitVec.getElem_twoPow, Bool.and_true]

/-- A bit inside the mask is kept by it. -/
theorem wordBit_and_mask {n : Nat} {mask : Word} (h : 1 <<< n &&& mask = 1 <<< n) (b : Bool) :
    wordBit n b &&& mask = wordBit n b := by
  cases b
  · exact BitVec.zero_and
  · exact h

theorem exists_bit_iff {w : Word} : w ≠ 0 ↔ ∃ k : Fin 16, w[k] = true := by
  refine ⟨fun hne => ?_, fun ⟨k, hk⟩ h => ?_⟩
  · by_contra hnone
    refine hne (BitVec.eq_of_getElem_eq fun k hk => ?_)
    have hbit : w[k] = false := Bool.eq_false_iff.2 fun h => hnone ⟨⟨k, hk⟩, h⟩
    exact hbit.trans (BitVec.getElem_zero hk).symm
  · subst h
    simp at hk

/-! ### The attention status and ATTN (R160, R169) -/

section

variable (l : LaneController)

theorem attentionStatus_getElem {k : Nat} (hk : k < 16) :
    l.attentionStatus[k] =
      ((decide (k = 0) && l.response.pending) || (decide (k = 1) && l.event.pending) ||
        (decide (k = 2) && l.episode.pending) || (decide (k = 4) && l.request.halted) ||
        (decide (k = 5) && l.response.halted) || (decide (k = 6) && l.event.halted) ||
        (decide (k = 7) && l.episode.halted) || (decide (k = 8) && l.collision)) := by
  simp only [LaneController.attentionStatus, BitVec.getElem_or, wordBit_getElem]

/-- Each status bit is its condition. -/
theorem attentionStatus_bits :
    l.attentionStatus[0] = l.response.pending ∧ l.attentionStatus[1] = l.event.pending ∧
      l.attentionStatus[2] = l.episode.pending ∧ l.attentionStatus[4] = l.request.halted ∧
      l.attentionStatus[5] = l.response.halted ∧ l.attentionStatus[6] = l.event.halted ∧
      l.attentionStatus[7] = l.episode.halted ∧ l.attentionStatus[8] = l.collision := by
  simp [attentionStatus_getElem]

theorem attentionStatus_and_mask : l.attentionStatus &&& 0x01F7 = l.attentionStatus := by
  simp only [LaneController.attentionStatus, BitVec.and_or_distrib_right]
  rw [wordBit_and_mask (n := 0) (by decide), wordBit_and_mask (n := 1) (by decide), wordBit_and_mask (n := 2) (by decide),
    wordBit_and_mask (n := 4) (by decide), wordBit_and_mask (n := 5) (by decide), wordBit_and_mask (n := 6) (by decide),
    wordBit_and_mask (n := 7) (by decide), wordBit_and_mask (n := 8) (by decide)]

end

theorem Lane.pending_iff {l : Lane} :
    l.pending = true ↔ effectiveThreshold l.threshold ≤ (l.posted - l.accTaken).toNat := decide_eq_true_iff

theorem attnLow_iff {s : State} :
    s.attnLow = true ↔
      s.held = none ∧ ∃ k : Fin 16, s.lnc.attentionStatus[k] = true ∧ (s.lnc.enables)[k] = true := by
  rw [State.attnLow, Bool.and_eq_true, Option.isNone_iff_eq_none, bne_iff_ne, exists_bit_iff]
  simp only [Fin.getElem_fin, BitVec.getElem_and, Bool.and_eq_true]

/-! ### Run control (R159, 11.10) -/

/-- The run control register of a part, armed or not, with its supply class. -/
def runControlWord (armed : Bool) (cls : SupplyClass) : Word := wordBit 0 armed ||| (cls.code.setWidth 16 <<< 8)

theorem runControlWord_bits (armed : Bool) (cls : SupplyClass) :
    (runControlWord armed cls)[0] = armed ∧ (runControlWord armed cls).extractLsb' 8 2 = cls.code.setWidth 2 ∧
      runControlWord armed cls &&& 0x0301 = runControlWord armed cls := by
  cases armed <;> cases cls <;> decide

/-! ### What a host reads (R157, R161, 11.2) -/

section

variable {s : State} {a : Nat}

/-- Below the request area a word is listed where it is one of the status block's or of a live row's. -/
theorem isRowAddress_iff : isRowAddress a = true ↔
    (0x40 ≤ a ∧ a < 0x1C0) ∨ (0x200 ≤ a ∧ a < 0x2C0) ∨ (0x300 ≤ a ∧ a < 0x3E0) := by
  simp only [isRowAddress, Bool.or_eq_true, Bool.and_eq_true, decide_eq_true_eq]
  omega

theorem hostRead_listed (heven : a % 2 = 0)
    (h : (0x40 ≤ a ∧ a < 0x1C0) ∨ (0x200 ≤ a ∧ a < 0x2C0) ∨ (0x300 ≤ a ∧ a < 0x3E0) ∨ (0x400 ≤ a ∧ a < 0x4000)) :
    s.hostRead a = s.mem.read (a + 1) ++ s.mem.read a := by
  have hnamed : namesWord a ≠ false := by simp [namesWord, heven]; omega
  have hrow : a < 0x400 → isRowAddress a = true := fun _ => isRowAddress_iff.2 (by omega)
  rw [State.hostRead, if_neg hnamed, if_neg (by omega)]
  split_ifs with hlow hrow'
  · rfl
  · exact absurd (hrow hlow) hrow'
  · rfl
  all_goals omega

theorem hostRead_unlisted (heven : a % 2 = 0)
    (h : (0x1C0 ≤ a ∧ a < 0x200) ∨ (0x2C0 ≤ a ∧ a < 0x300) ∨ (0x3E0 ≤ a ∧ a < 0x400)) : s.hostRead a = 0 := by
  have hnamed : namesWord a ≠ false := by simp [namesWord, heven]; omega
  have hrow : ¬isRowAddress a = true := fun hrow => by
    have := isRowAddress_iff.1 hrow
    omega
  rw [State.hostRead, if_neg hnamed, if_neg (by omega), if_pos (by omega), if_neg hrow]

end

theorem Lane.stateWord_eq (l : Lane) : l.stateWord = if l.fault = none then 0 else 1 := by
  unfold Lane.stateWord Lane.halted
  cases l.fault <;> rfl

/-- The eight words of a lane's header (R161). -/
theorem hostRead_lane (s : State) {id : LaneId} {number size : Nat}
    (h : (id, number, size) ∈
      [(LaneId.request, 0, 2048), (.response, 1, 1024), (.event, 2, 2048), (.episode, 3, 10240)]) :
    s.hostRead (16 * number) = (s.lane id).fill ∧ s.hostRead (16 * number + 2) = (s.lane id).posted ∧
      s.hostRead (16 * number + 4) = (s.lane id).drain ∧ s.hostRead (16 * number + 6) = (s.lane id).taken ∧
      s.hostRead (16 * number + 8) = (s.lane id).stateWord ∧
      s.hostRead (16 * number + 10) = (codeOr LaneFault.code (s.lane id).fault).setWidth 16 ∧
      s.hostRead (16 * number + 12) = BitVec.ofNat 16 size ∧ s.hostRead (16 * number + 14) = (s.lane id).threshold := by
  simp only [List.mem_cons, Prod.mk.injEq, List.not_mem_nil, or_false] at h
  rcases h with ⟨rfl, rfl, rfl⟩ | ⟨rfl, rfl, rfl⟩ | ⟨rfl, rfl, rfl⟩ | ⟨rfl, rfl, rfl⟩
  all_goals exact ⟨rfl, rfl, rfl, rfl, rfl, rfl, rfl, rfl⟩

/-- Settles O46: the stored registers, the status bits by their conditions, and each word of the map as it is read. -/
theorem registers : Obligations.Registers := by
  intro s effective pending status
  obtain ⟨hresponse, hevent, hepisode, hrequest, hresponse', hevent', hepisode', hcollision⟩ :=
    attentionStatus_bits s.lnc
  have hpending {b : Bool} {l : Lane} (h : b = l.pending) : b = true ↔ pending l := by rw [h, Lane.pending_iff]; rfl
  have hhalted {b : Bool} {l : Lane} (h : b = l.halted) : b = true ↔ l.fault ≠ none := by rw [h, Lane.halted_eq_true_iff]
  obtain ⟨harmed, hclass, hrest⟩ := runControlWord_bits s.reg.armed s.smn.cls
  refine ⟨fun hheld => ⟨fun id t => whenRunning_of_not_held hheld _, whenRunning_of_not_held hheld _,
      fun v => whenRunning_of_not_held hheld _⟩, hpending hresponse, hpending hevent, hpending hepisode,
    hhalted hrequest, hhalted hresponse', hhalted hevent', hhalted hepisode', hcollision,
    attentionStatus_and_mask s.lnc, rfl, attnLow_iff, rfl, harmed, hclass, hrest, fun id number size h => ?_,
    fun a heven => ⟨hostRead_listed heven, hostRead_unlisted heven⟩⟩
  obtain ⟨hfill, hposted, hdrain, htaken, hstate, hfault, hsize, hthreshold⟩ := hostRead_lane s h
  refine ⟨hfill, hposted, hdrain, htaken, hstate.trans (Lane.stateWord_eq _), hfault.trans ?_, hsize, hthreshold⟩
  rcases (s.lane id).fault with _ | _ | _ | _ | _ | _ <;> rfl

end Sys2Proof.Machine
end

