-- ==== Sys2Proof/Proofs/HostWordWrite.lean ====
section
/-! SUPPORT. A host write of each word of the map: what it stores, what collides, what is ignored, and which command it acts as (R157
to R161, R163, R166, R168, R169). -/

namespace Sys2Proof.Machine

theorem isBusWord_iff {a : Word} : isBusWord a = true ↔ a.toNat % 2 = 0 ∧ a.toNat ≤ 0x4006 := by
  simp [isBusWord, namesWord]

theorem exec_hostWordWrite {a v : Word} {s : State} (hheld : s.held = none) (heven : a.toNat % 2 = 0)
    (hlow : a.toNat ≤ 0x4006) : exec (.hostWordWrite a v) s = .next (hostWrite a.toNat v s) :=
  (if_pos (isBusWord_iff.2 ⟨heven, hlow⟩)).trans (whenRunning_of_not_held hheld _)

theorem exec_hostWordWrite_fault {a v : Word} {s : State} (h : a.toNat % 2 = 1 ∨ 0x4006 < a.toNat) :
    exec (.hostWordWrite a v) s = .fault .noSuchWord :=
  if_neg fun hword => by
    have := isBusWord_iff.1 hword
    omega

section

variable {n : Nat} {v : Word} {s : State}

/-- Every word of the part's own collides: the status block, the live rows and the report areas (R157, R158). -/
theorem hostWrite_partWord
    (h : (0x40 ≤ n ∧ n < 0x1C0) ∨ (0x200 ≤ n ∧ n < 0x2C0) ∨ (0x300 ≤ n ∧ n < 0x3E0) ∨ (0xC00 ≤ n ∧ n < 0x4000)) :
    hostWrite n v s = collide s := by
  have hrow : n < 0x400 → isRowAddress n = true := fun _ => isRowAddress_iff.2 (by omega)
  rw [hostWrite, if_neg (by omega)]
  split_ifs with hlow hrow'
  · rfl
  · exact absurd (hrow hlow) hrow'
  · omega
  · rfl
  all_goals omega

theorem hostWrite_unlisted
    (h : (0x1C0 ≤ n ∧ n < 0x200) ∨ (0x2C0 ≤ n ∧ n < 0x300) ∨ (0x3E0 ≤ n ∧ n < 0x400) ∨ n = 0x4000) :
    hostWrite n v s = s := by
  by_cases hidentity : n = 0x4000
  · subst hidentity
    rfl
  · have hrow : ¬isRowAddress n = true := fun hrow => by
      have := isRowAddress_iff.1 hrow
      omega
    rw [hostWrite, if_neg (by omega), if_pos (by omega), if_neg hrow]

theorem hostWrite_requestArea (hlo : 0x400 ≤ n) (hhi : n < 0xC00) : hostWrite n v s = s.store n (le16 v) := by
  rw [hostWrite, if_neg (by omega), if_neg (by omega), if_pos hhi]

/-- The state word, the fault code and the size of every lane are the part's (R161). -/
theorem hostWrite_laneState (h : n < 0x40) (ho : n % 16 = 8 ∨ n % 16 = 10 ∨ n % 16 = 12) :
    hostWrite n v s = collide s := by
  have hreport (r : ReportLane) : writeHeader.writeReportHeader r (n % 16) v s = collide s := by
    rw [writeHeader.writeReportHeader, if_neg (by omega), if_neg (by omega)]
  rw [hostWrite, if_pos h, writeHeader, if_neg (by omega)]
  cases headerLane n
  case request => exact (if_neg (by omega)).trans (if_neg (by omega))
  all_goals exact hreport _

/-- Of the counts and offsets of a lane's header those that the part moves collide (R161). -/
theorem hostWrite_partCount
    (h : n = 0x04 ∨ n = 0x06 ∨ n = 0x10 ∨ n = 0x12 ∨ n = 0x20 ∨ n = 0x22 ∨ n = 0x30 ∨ n = 0x32) :
    hostWrite n v s = collide s := by
  rcases h with rfl | rfl | rfl | rfl | rfl | rfl | rfl | rfl <;> rfl

/-- A run control write without a soft reset restarts the lanes that it names (R159). -/
theorem hostWrite_runControl (h : v[15] = false) : hostWrite 0x4002 v s = restartLanes (v.extractLsb' 0 4) s := by
  rw [← BitVec.setWidth_eq_extractLsb' (by decide)]
  exact if_neg (Bool.eq_false_iff.1 h)

end

/-- Settles O47: word by word of the map. -/
theorem hostWordWrite : Obligations.HostWordWrite := by
  intro a v s hheld hm n does acts collision between
  refine ⟨exec_hostWordWrite_fault, fun heven => ?_⟩
  have hexec (hlow : n ≤ 0x4006) : exec (.hostWordWrite a v) s = .next (hostWrite n v s) :=
    exec_hostWordWrite hheld heven hlow
  have hdoes {t : State} (hlow : n ≤ 0x4006) (h : hostWrite n v s = t) : does t :=
    (hexec hlow).trans (congrArg _ h)
  have hat {k : Nat} {t : State} (hk : n = k) (hlow : k ≤ 0x4006) (h : hostWrite k v s = t) : does t :=
    hdoes (hk.trans_le hlow) (hk ▸ h)
  have hacts {k : Nat} {c : Instr} {f : State → State} (hk : n = k) (hlow : k ≤ 0x4006) (hc : exec c s = s.whenRunning f)
      (h : hostWrite k v s = f s) : acts c :=
    (hat hk hlow h).trans (hc.trans (whenRunning_of_not_held hheld f)).symm
  refine ⟨fun ⟨hlo, hhi⟩ => ⟨_, hdoes (by omega) (hostWrite_requestArea hlo hhi), Memory.writeAll_holds hm _ _,
      Memory.writeAll_keepsOutside hm rfl⟩,
    fun h => hdoes ?_ (hostWrite_partWord h),
    fun h => hdoes ?_ (hostWrite_unlisted h),
    fun h ho => hdoes (by omega) (hostWrite_laneState h ho),
    fun h => hdoes (by omega) (hostWrite_partCount h),
    -- the request lane's fill offset, the report lanes' drain offsets
    fun h => hat h (by decide) rfl,
    fun h => hat h (by decide) rfl,
    fun h => hat h (by decide) rfl,
    fun h => hat h (by decide) rfl,
    -- the posted count, the three taken counts
    fun h => hacts h (by decide) rfl rfl,
    fun h => hacts h (by decide) rfl rfl,
    fun h => hacts h (by decide) rfl rfl,
    fun h => hacts h (by decide) rfl rfl,
    -- the four thresholds
    fun h => hacts h (by decide) rfl rfl,
    fun h => hacts h (by decide) rfl rfl,
    fun h => hacts h (by decide) rfl rfl,
    fun h => hacts h (by decide) rfl rfl,
    -- run control, attention status, attention enable
    fun h hreset => hat h (by decide) (if_pos hreset),
    fun h hrestart _ => hacts h (by decide) rfl (hostWrite_runControl hrestart),
    fun h hrestart hnone => hat h (by decide)
      ((hostWrite_runControl hrestart).trans (congrArg (restartLanes · s) hnone)),
    fun h hclear => hacts h (by decide) rfl (if_pos hclear),
    fun h hkeep => hat h (by decide) (if_neg (Bool.eq_false_iff.1 hkeep)),
    fun h => hacts h (by decide) rfl rfl⟩ <;>
  · simp only [between] at h
    omega

end Sys2Proof.Machine
end

