-- ==== Sys2Proof/Proofs/RequestHeads.lean ====
section
/-! SUPPORT. What a held reset and an examination without the request turn away (R175, R184), and the answers the Lane Controller
gives of itself: IDENTIFY, and the judgement of a frame by its head (R177, R180). -/

namespace Sys2Proof.Machine

/-! ### Commands that change nothing (R175, R184) -/

theorem whenRunning_of_held {s : State} (h : s.held ≠ none) (f : State → State) : s.whenRunning f = .next s :=
  congrArg _ (if_pos (Option.isSome_iff_ne_none.2 h))

/-- A held reset turns away every command but its release and a change of the lever's pins (R184). -/
theorem exec_of_held {c : Instr} {s : State} (h : s.held ≠ none) (hrelease : c ≠ .resetRelease)
    (hlever : ∀ a b, c ≠ .leverInputChange a b) (hword : ∀ a v, c = .hostWordWrite a v → isBusWord a = true) :
    exec c s = .next s := by
  cases c
  case resetRelease => exact absurd rfl hrelease
  case leverInputChange a b => exact absurd rfl (hlever a b)
  case powerOnReset => rw [exec_powerOnReset, reset_of_held h]
  case resetPin => rw [exec_resetPin, reset_of_held h]
  case softReset => rw [exec_softReset, softReset_of_held h]
  case hostWordWrite a v => exact (if_pos (hword a v rfl)).trans (whenRunning_of_held h _)
  -- every other command acts only while no reset is held; these by the phase or the timer they find
  case applyExpiry | holdIntervalExpiry | onExpiry | offExpiry | referenceOverflow | referenceTimeout | sensorPhaseEnd
      | sensorOverflow | drumScanExpiry | holdOffExpiry =>
    simp only [exec, execApplyExpiry, execHoldIntervalExpiry, execOnExpiry, execOffExpiry, execReferenceOverflow,
      execReferenceTimeout, execSensorPhaseEnd, execSensorOverflow, execDrumScanExpiry, execHoldOffExpiry,
      whenRunning_of_held h]
  all_goals exact whenRunning_of_held h _

/-- Without its frame ready after the examination a request is not taken (R175). -/
theorem exec_of_not_ready {c : Instr} {s : State} (hr : c.isRequest = true) (hheld : s.held = none)
    (hready : (examineRequests s).readyRequest ≠ some c) : exec c s = .next s := by
  rw [exec_eq_take hr, take, whenRunning_of_not_held hheld]
  exact congrArg _ (if_neg hready)

/-- Settles O3. -/
theorem turnedAway : Obligations.TurnedAway :=
  ⟨fun _ _ => exec_of_held, fun _ _ => exec_of_not_ready⟩

/-! ### IDENTIFY (R180) -/

theorem identifyResult_countTake (s : State) : identifyResult (countTake s) = identifyResult s := by
  rw [identifyResult, identifyResult, countTake_lnc]

theorem identify_done {tag : Byte} {s : State} (hm : s.mem.wf = true) (hr : Ready (.identify tag) s) :
    AnsweredAtOnce (.identify tag) s s 0x01 tag .done (identifyResult s) := by
  refine answered rfl hm hr rfl ?_
  rw [← countTake_eq, carryIdentify, identifyResult_countTake]

/-! ### The judgement (R177) -/

theorem requiredLength_eq_none_iff {kind : Byte} :
    requiredLength kind = none ↔ kind ∉ requestCatalogue.map Prod.fst := by
  simp only [requiredLength, List.lookup_eq_none_iff, List.mem_map, not_exists, not_and, bne_iff_ne]
  exact ⟨fun h p hp e => h p hp e.symm, fun h p hp e => h p hp e.symm⟩

/-- A refused frame is of a wrong length exactly where its kind is one of the catalogue. -/
theorem judgement_eq (kind : Byte) :
    judgement kind = if kind ∈ requestCatalogue.map Prod.fst then .badLength else .unknownKind := by
  by_cases h : kind ∈ requestCatalogue.map Prod.fst
  · have hsome : requiredLength kind ≠ none := fun e => requiredLength_eq_none_iff.1 e h
    rw [judgement, if_pos h, if_neg (by simpa using hsome)]
  · rw [judgement, if_neg h, requiredLength_eq_none_iff.2 h]
    rfl

theorem unknownKind_judged {kind length tag : Byte} {s : State} (hm : s.mem.wf = true)
    (hr : Ready (.unknownKind kind length tag) s) :
    AnsweredAtOnce (.unknownKind kind length tag) s s kind tag (judgement kind) [kind, length] := by
  refine answered rfl hm hr rfl ?_
  rw [← countTake_eq, carryUnknownKind]

/-- Settles O48: the kinds it lists are those of the catalogue. -/
theorem identifyAndJudgement : Obligations.IdentifyAndJudgement := by
  refine ⟨fun tag s => identify_done, fun kind length tag s hm hr => ?_⟩
  have hjudged := unknownKind_judged hm hr
  rw [judgement_eq] at hjudged
  exact hjudged

end Sys2Proof.Machine
end

section
/-! SUPPORT. What one step does with the command at the front of the queue. -/

namespace Sys2Proof.Machine

/-- The front command runs with itself taken off the queue, so what it appends stands behind the rest. -/
theorem step_of_pending_cons {s : State} {c : Instr} {rest : List Instr} (h : s.pending = c :: rest) :
    step s = exec c { s with pending := rest } := by
  rw [step, h]

/-- Settles O1: taking the command off the queue it was put on gives the state back. -/
theorem stepRunsFrontCommand : Obligations.StepRunsFrontCommand := by
  intro c s
  have hfront : ({ s with pending := c :: s.pending } : State).pending = c :: s.pending := rfl
  exact step_of_pending_cons hfront

end Sys2Proof.Machine
end
